-- ==== Sys2Proof/Word.lean ====
section
/-! DEFINITION. The word types the ports carry: bytes, 16-bit words, VP ids and 48-bit indexes. -/

namespace Sys2Proof

/-- One byte of a frame on the host link or the spread port (R171, R177). -/
abbrev Byte := BitVec 8

/-- A 16-bit little-endian word, the unit of the longitudinal check (R2). -/
abbrev Word := BitVec 16

/-- A VP id, 0..4,294,967,295, chosen by the host (R62). -/
abbrev VpId := BitVec 32

/-- A sample index modulo 2^48 (R41). -/
abbrev SampleIndex := BitVec 48

/-- A sample of the spread port, signed 24-bit (R177). -/
abbrev RingSample := BitVec 24

/-- A pilot sample, signed 16-bit (R29). -/
abbrev PilotSample := BitVec 16

end Sys2Proof
end

