-- ==== Sys2Proof/Syntax.lean ====
section
/-! DEFINITION. The commands of the block: one constructor per row of spec/opcode_table.json. A request row carries the tag and the
body bytes of its host frame (R171, R172); its kind follows from the row. -/

namespace Sys2Proof

/-- A run of bytes of a block frame on the spread port, and whether they are the frame's last (R4; log entry 22). -/
structure FramePiece where
  bytes : List Byte
  last : Bool
  deriving DecidableEq, Repr

/-- The commands of the table, in its order. A request is the decoder's taking of that frame (R146); the other rows are the events
of the lines, the ports, the clock, the engine and the resets. -/
inductive Instr where
  | ident (tag : Byte) (body : List Byte)
  | status (tag : Byte) (body : List Byte)
  | paramSet (tag : Byte) (body : List Byte)
  | paramGet (tag : Byte) (body : List Byte)
  | start (tag : Byte) (body : List Byte)
  /-- STOP with a mode other than DISCARD. -/
  | stopFinish (tag : Byte) (body : List Byte)
  /-- STOP with mode DISCARD. -/
  | stopDiscard (tag : Byte) (body : List Byte)
  | restart (tag : Byte) (body : List Byte)
  | sync (tag : Byte) (body : List Byte)
  | timeSet (tag : Byte) (body : List Byte)
  | routeSet (tag : Byte) (body : List Byte)
  | routeGet (tag : Byte) (body : List Byte)
  | pilotOpen (tag : Byte) (body : List Byte)
  | pilotWords (tag : Byte) (body : List Byte)
  | pilotClose (tag : Byte) (body : List Byte)
  | fleetSet (tag : Byte) (body : List Byte)
  | fleetGet (tag : Byte) (body : List Byte)
  | arm (tag : Byte) (body : List Byte)
  | post (tag : Byte) (body : List Byte)
  | schedule (tag : Byte) (body : List Byte)
  | cancel (tag : Byte) (body : List Byte)
  /-- CLOSE VP with a mode other than NOW. -/
  | closeVpWait (tag : Byte) (body : List Byte)
  /-- CLOSE VP with mode NOW. -/
  | closeVpNow (tag : Byte) (body : List Byte)
  | faultRead (tag : Byte) (body : List Byte)
  /-- A frame whose kind names no request (R147). -/
  | unknownKind (kind tag : Byte) (body : List Byte)
  /-- The bytes the host line delivers next (R141). -/
  | hostFrame (bytes : List Byte)
  | transmissionStart
  | transmissionEnd
  /-- The line holding the TRANSMIT HOLD role changes to the level (true: high). -/
  | transmitHold (line : Fin 4) (level : Bool)
  /-- The next bytes of the block frame in reception on the spread port; the frame is received whole when `last` (R4). -/
  | blockFrame (piece : FramePiece)
  | sampleTick
  | holdoverDeadline
  | scheduleCompare
  /-- The pulse of an output line ends. -/
  | pulseEnd (line : Fin 4)
  /-- An edge on the input line to the level (true: a rising edge). -/
  | ppsEdge (line : Fin 4) (level : Bool)
  /-- An edge on the input line to the level (true: a rising edge). -/
  | timeBreak (line : Fin 4) (level : Bool)
  | correlationPassEnd
  | jobCompletion
  | powerUp
  | resetPin
  /-- The cold reset completes with the straps as they stand: slice size code and cascade position (R165). -/
  | coldResetComplete (sizeCode : Fin 4) (position : Fin 8)
  deriving DecidableEq, Repr

end Sys2Proof
end

