-- ==== Sys2Proof/Decode.lean ====
section
/-! DEFINITION. The command a word of the table spells. No row of spec/opcode_table.json gives bits, so no word spells a command (log
entry 19). -/

namespace Sys2Proof

/-- The command spelled by the table's bits: none, since the rows have no bits. -/
def decodeTableWord (_nbits _w : Nat) : Option Instr := none

end Sys2Proof
end

