-- ==== Sys2Proof/Config.lean ====
section
/-! DEFINITION. What is fixed for the part: capacities, codes of identity and rates (R5, R7, R85, R166). The spec leaves no value
free that a command reads, so no opaque constant stands here. -/

namespace Sys2Proof.Config

/-- Part code of IDENT (R166). -/
def partCode : Nat := 0x5C10
/-- Revision of IDENT (R166). -/
def revision : Nat := 1
/-- Ring blocks per channel (R8). -/
def ringBlocks : Nat := 2048
/-- Samples of one channel in a block. -/
def blockSamples : Nat := 32
/-- Lanes of a group. -/
def lanes : Nat := 64
/-- Byte count of a block frame (R5). -/
def blockFrameBytes : Nat := 6154
/-- Highest block index of a 48-bit sample index (R16). -/
def maxBlock : Nat := 2 ^ 43 - 1
/-- Number of pilot slots (R25). -/
def pilotSlots : Nat := 8
/-- Shortest and longest pilot (R26). -/
def minPilot : Nat := 256
def maxPilot : Nat := 32768
/-- Largest scale shift (R26). -/
def maxShift : Nat := 40
/-- Fleet records, sweep records and stack contexts (R166). -/
def fleetCount : Nat := 4
def sweepCapacity : Nat := 16
def contextCount : Nat := 4
/-- Receive buffer frames (R143). -/
def rxCapacity : Nat := 8
/-- Notice queue entries (R148). -/
def noticeCapacity : Nat := 64
/-- At this many entries a report is lost (R149). -/
def reportLimit : Nat := 56
/-- NOTICE HIGH is true from this many entries on (R54). -/
def noticeHigh : Nat := 48
/-- Largest body a received frame may carry (R141). -/
def maxBody : Nat := 1040
/-- Lags of one window (R102). -/
def windowLags : Nat := 64
/-- Modulus of the sample index (R41). -/
def indexModulus : Nat := 2 ^ 48
/-- Products per second of the correlation pass (R85). -/
def productsPerSecond : Nat := 2 ^ 33
/-- Samples per second of the editing pass (R85). -/
def editsPerSecond : Nat := 2 ^ 28
/-- Default width of a PULSE output (R58). -/
def defaultWidth : Nat := 10

end Sys2Proof.Config
end

