-- ==== Sys2Proof/Machine/State.lean ====
section
/-! DEFINITION. The state of the SC-1024 as plain data, block by block as the spec divides it, and the state right after a power-up
whose cold reset has completed. -/

namespace Sys2Proof.Machine

/-- A sparse store: (key, value) pairs, keys strictly rising, no entry equal to what an unlisted key reads as. The operations and
the check of the form stand in Machine/Memory.lean. -/
abbrev Sparse (α : Type) := List (Nat × α)

/-! ### Spread port and sample ring -/

/-- Kinds of the spread fault record (R4, R178). -/
inductive FaultKind where
  | check | length | jump
  deriving DecidableEq, Repr

/-- The spread fault record while it is present (R20). `loc` is the group and block index as received, absent for a LENGTH fault of
fewer than eight bytes (R5). -/
structure FaultRecord where
  kind : FaultKind
  loc : Option (Nat × Nat)
  /-- Later faults, 0..65,535, held there (R20). -/
  later : Nat
  deriving DecidableEq, Repr

/-- The block frame in reception on the spread port: none, one with the bytes that have come so far, or one that a reset discards
(R23, R24; log entry 22). -/
inductive Reception where
  | idle
  | receiving (bytes : List Byte)
  | discarding
  deriving DecidableEq, Repr

/-- The spread port and the sample ring (R4 to R24). Keys of `valid` and `samples` are group-in-slice × 2,048 + slot. -/
structure Ring where
  /-- The global head G, or undefined (R10). -/
  head : Option Nat
  /-- The validity table; an unlisted flag is clear (R8). -/
  valid : Sparse Bool
  /-- The 2,048 samples of a slot of a group, lane by lane; an unlisted slot holds no samples. -/
  samples : Sparse (List RingSample)
  fault : Option FaultRecord
  accepted : BitVec 32
  duplicates : BitVec 32
  tooOld : BitVec 32
  reception : Reception
  deriving DecidableEq, Repr

/-! ### Pilot table -/

/-- States of a pilot slot (R25). -/
inductive SlotState where
  | empty | loading | valid | failed
  deriving DecidableEq, Repr

/-- Causes of a failed load (R35). -/
inductive PilotFailure where
  | overrun | short | check
  deriving DecidableEq, Repr

/-- One pilot slot (R25 to R40). `lp` is 0 while EMPTY. -/
structure PilotSlot where
  state : SlotState
  lp : Nat
  pos : Nat
  check : Word
  shift : Nat
  failure : Option PilotFailure
  samples : List PilotSample
  deriving DecidableEq, Repr

/-! ### Timebase -/

/-- Lock states (R43). -/
inductive LockState where
  | free | locked | holdover
  deriving DecidableEq, Repr

/-- The timebase (R41 to R51). -/
structure Timebase where
  n : SampleIndex
  lock : LockState
  a : SampleIndex
  deriving DecidableEq, Repr

/-! ### Event router -/

/-- Polarities (R52, R55). -/
inductive Polarity where
  | activeHigh | activeLow
  deriving DecidableEq, Repr

/-- Input roles (R52). -/
inductive Role where
  | none | pps | timeBreak (fleet : Fin 4) | transmitHold
  deriving DecidableEq, Repr

/-- Output sources (R54). -/
inductive Source where
  | none | startPulse (fleet : Fin 4) | sweepFolded | sweepDropped | vpDone | holdover | ringLate | noticeHigh | acquire
  deriving DecidableEq, Repr

/-- Output forms (R55). -/
inductive Form where
  | pulse | level | toggle
  deriving DecidableEq, Repr

/-- An entry of the input role table (R52). -/
structure InputEntry where
  role : Role
  polarity : Polarity
  deriving DecidableEq, Repr

/-- An entry of the output route table with the line's present state: asserted, and the ticks its pulse has still to run (R54, R55). -/
structure OutputEntry where
  source : Source
  form : Form
  width : Nat
  polarity : Polarity
  asserted : Bool
  count : Nat
  deriving DecidableEq, Repr

/-- The event router. `pins` is the level at which each input line stands, which the transmit hold follows (R53). -/
structure Router where
  inputs : Vector InputEntry 4
  outputs : Vector OutputEntry 4
  pins : Vector Bool 4
  deriving DecidableEq, Repr

/-! ### Fleet table -/

/-- An arm: the VP id and the sweeps still expected (R62). -/
structure Arm where
  vp : VpId
  count : Nat
  deriving DecidableEq, Repr

/-- A fleet record (R59). -/
structure FleetRecord where
  slot : Fin 8
  k : Nat
  edit : Nat
  reject : Nat
  target : Nat
  lead : BitVec 16
  offset : BitVec 16
  arm : Option Arm
  deriving DecidableEq, Repr

/-! ### Sweep list -/

/-- States of a listed sweep (R73). -/
inductive SweepState where
  | scheduled | waiting | ready | correlating
  deriving DecidableEq, Repr

/-- Origins of a sweep (R66). -/
inductive Origin where
  | timeBreak | post | schedule
  deriving DecidableEq, Repr

/-- A sweep record (R66). `checkBad` says that the record's check would show an error when it is read (R82). -/
structure SweepRecord where
  id : Nat
  origin : Origin
  fleet : Fin 4
  vp : VpId
  t0 : SampleIndex
  slot : Fin 8
  lp : Nat
  shift : Nat
  k : Nat
  edit : Nat
  reject : Nat
  ctx : Fin 4
  state : SweepState
  first : Nat
  last : Nat
  compare : Option Nat
  checkBad : Bool
  deriving DecidableEq, Repr

/-- The sweep list in list order, and the next id (R67, R68). -/
structure SweepList where
  recs : List SweepRecord
  nextId : Nat
  deriving DecidableEq, Repr

/-! ### Correlation engine and fold unit -/

/-- The two passes of a job (R83). -/
inductive Pass where
  | correlation | editing
  deriving DecidableEq, Repr

/-- Outcomes of a trace in the editing pass (R106). -/
inductive TraceOutcome where
  | accepted | editDiscard | gapDiscard
  deriving DecidableEq, Repr

/-- The findings of the editing pass on one channel (R107). -/
structure Findings where
  peaks : List Nat
  pref : Nat
  rejected : List Nat
  outcome : TraceOutcome
  deriving DecidableEq, Repr

/-- One channel's record of the scratch trace store (R94). -/
structure ChannelRecord where
  trace : List Int
  saturated : Nat
  gap : Bool
  findings : Option Findings
  deriving DecidableEq, Repr

/-- The job in progress: the fields of the sweep's record as read at begin (R86), the pass and the channels finished in it (R83),
and the sample ticks the pass has run (log entry 5). -/
structure Job where
  sweep : SweepRecord
  pass : Pass
  done : Nat
  elapsed : Nat
  deriving DecidableEq, Repr

/-- The correlation engine: IDLE exactly when `job` is absent (R83). `snapshot` holds, for each slice group, the validity of the
blocks from the sweep's first to its last (R87). -/
structure Engine where
  job : Option Job
  snapshot : List (List Bool)
  scratch : List ChannelRecord
  deriving DecidableEq, Repr

/-! ### Stack store -/

/-- States of a stack context (R119). -/
inductive CtxState where
  | free | opened | closePending | closing
  deriving DecidableEq, Repr

/-- The stack record of one slice channel (R108, R111). `accErr` and `cntErr` list the lags and the windows whose stored value would
show a check error when it is read (R112, R134). -/
structure StackRecord where
  acc : List Int
  counts : List Nat
  gapSeen : Bool
  satSeen : Bool
  bad : Bool
  accErr : List Nat
  cntErr : List Nat
  deriving DecidableEq, Repr

/-- A stack context (R119 to R121). Every field but `gen` is 0 or empty while FREE. `records` is by slice channel; an unlisted one is
the zeroed record of R123. `checkBad` says that the context record's check would show an error when it is read (R113, R132). -/
structure Context where
  state : CtxState
  vp : VpId
  gen : BitVec 8
  target : Nat
  k : Nat
  attached : Nat
  folded : Nat
  dropped : Nat
  records : Sparse StackRecord
  checkBad : Bool
  deriving DecidableEq, Repr

/-- The four contexts and the open order (R120). -/
structure StackStore where
  ctxs : Vector Context 4
  openOrder : List (Fin 4)
  deriving DecidableEq, Repr

/-! ### Trace emitter -/

/-- Gap policies, key 3 (R161). -/
inductive GapPolicy where
  | fold | discard
  deriving DecidableEq, Repr

/-- Output modes, key 4 (R161). -/
inductive OutputMode where
  | mean | sum
  deriving DecidableEq, Repr

/-- A TRACE message (R133, R176). -/
structure Trace where
  vp : VpId
  gen : BitVec 8
  channel : Nat
  folded : Nat
  interval : Fin 4
  mode : OutputMode
  gap : Bool
  sat : Bool
  bad : Bool
  dead : List Nat
  samples : List Int
  deriving DecidableEq, Repr

/-- The emission cursor (R132): the context, the next slice channel to prepare, the pending TRACE, whether a TRACE of this context
is being transmitted, and how many have ended. -/
structure Cursor where
  ctx : Fin 4
  next : Nat
  waiting : Option Trace
  sending : Bool
  sent : Nat
  deriving DecidableEq, Repr

/-- The trace emitter: EMITTING exactly when the cursor is present (R132). -/
structure Emitter where
  closing : List (Fin 4)
  cursor : Option Cursor
  deriving DecidableEq, Repr

/-! ### Mode controller types -/

/-- Operating states (R156). -/
inductive OpState where
  | setup | acquire | draining
  deriving DecidableEq, Repr

/-- Drain modes (R156). -/
inductive DrainMode where
  | finish | discard
  deriving DecidableEq, Repr

/-- Reset causes (R168). -/
inductive ResetCause where
  | power | pin | restart | tableCheck
  deriving DecidableEq, Repr

/-! ### Host link -/

/-- Receiver states (R141). -/
inductive RxState where
  | receiving | hunt
  deriving DecidableEq, Repr

/-- A checked frame of the receive buffer (R143). -/
structure RxFrame where
  kind : Byte
  tag : Byte
  body : List Byte
  deriving DecidableEq, Repr

/-- Status codes of replies (R178). -/
inductive Status where
  | ok | state | busy | full | unknown | range | order | check | late | foldFull | noContext | mismatch | pilot | kind | length
  deriving DecidableEq, Repr

/-- Causes of a drop (R78). -/
inductive DropCause where
  | full | late | foldFull | noContext | mismatch | pilot | cancelled | missed | closed | stopped
  deriving DecidableEq, Repr

/-- Causes of LINK ERROR (R142, R143). -/
inductive LinkCause where
  | check | length | overrun
  deriving DecidableEq, Repr

/-- Reasons of TIME BREAK REFUSED (R64). -/
inductive BreakReason where
  | state | unarmed
  deriving DecidableEq, Repr

/-- Changes of TIMEBASE (R48). -/
inductive TimeChange where
  | locked | step | holdover
  deriving DecidableEq, Repr

/-- The totals of a folded sweep (R115). -/
structure FoldTotals where
  accepted : Nat
  editDiscarded : Nat
  gapDiscarded : Nat
  windowsRejected : Nat
  saturated : Nat
  checkErrors : Nat
  deriving DecidableEq, Repr

/-- The twelve reports with the fields R175 gives them. -/
inductive Report where
  | restarted (cause : ResetCause)
  | linkError (cause : LinkCause) (accepted : BitVec 16)
  | reportsLost (count : Nat)
  | sweepEntered (id : Nat) (origin : Origin) (fleet : Fin 4) (vp : VpId) (t0 : SampleIndex) (ctx : Fin 4) (gen : BitVec 8)
  | sweepFolded (id : Nat) (fleet : Fin 4) (vp : VpId) (t0 : SampleIndex) (ctx : Fin 4) (gen : BitVec 8) (folded dropped : Nat)
      (totals : FoldTotals)
  | sweepDropped (id : Nat) (fleet : Fin 4) (vp : VpId) (t0 : SampleIndex) (cause : DropCause) (state : Option SweepState)
      (ctx : Option (Fin 4))
  | vpDone (vp : VpId) (gen : BitVec 8) (ctx : Fin 4) (target k folded dropped traces : Nat)
  | timeBreakRefused (fleet : Fin 4) (reason : BreakReason) (captured : SampleIndex) (op : OpState)
  | timebase (change : TimeChange) (step : Int) (n : SampleIndex) (lock : LockState)
  | pilotFailed (slot : Fin 8) (cause : PilotFailure) (lp pos : Nat) (check : Word) (closing : Option Word)
  | spreadFault (kind : FaultKind) (loc : Option (Nat × Nat))
  | drained (mode : DrainMode) (n : SampleIndex)
  deriving DecidableEq, Repr

/-- An entry of the notice queue (R148): a reply with its kind and tag, status and the contents R172 gives its kind, or a report with
its tag. -/
inductive Notice where
  | reply (kind tag : Byte) (status : Status) (contents : List Byte)
  | report (tag : Byte) (report : Report)
  deriving DecidableEq, Repr

/-- What the line can be sending (R152). -/
inductive TxMessage where
  | notice (n : Notice)
  | trace (t : Trace)
  deriving DecidableEq, Repr

/-- The host link (R141 to R155). `partialBytes` is what has been received of the frame in reception. -/
structure HostLink where
  receiver : RxState
  partialBytes : List Byte
  rxBuf : List RxFrame
  accepted : BitVec 16
  huntDiscards : Nat
  notices : List Notice
  lost : Nat
  tx : Option TxMessage
  deriving DecidableEq, Repr

/-! ### Mode controller -/

/-- The parameter set (R161). `mask` holds the enables of the twelve report kinds (R175). -/
structure Params where
  interval : Fin 4
  margin : Nat
  gapPolicy : GapPolicy
  outputMode : OutputMode
  holdover : Nat
  mask : BitVec 12
  deriving DecidableEq, Repr

/-- The mode controller (R156 to R170). `held` says that a cold reset has taken effect and has not completed (R168). -/
structure ModeControl where
  op : OpState
  drain : Option DrainMode
  params : Params
  sizeCode : Fin 4
  position : Fin 8
  cause : ResetCause
  held : Bool
  deriving DecidableEq, Repr

/-- The state of the part, with the model's own two fields last: `checkHit`, a table check error found in the handling under way
(log entry 13), and `pending`, the commands waiting, first in, first out (log entry 6). -/
structure State where
  ring : Ring
  pilots : Vector PilotSlot 8
  time : Timebase
  router : Router
  fleets : Vector FleetRecord 4
  sweeps : SweepList
  engine : Engine
  stack : StackStore
  emitter : Emitter
  link : HostLink
  mode : ModeControl
  checkHit : Bool
  pending : List Instr
  deriving DecidableEq, Repr

/-- Why the machine could stop with a fault. The spec stops it at no command, so no fault exists and nothing raises one: safe. -/
inductive Fault where
  deriving DecidableEq, Repr

/-- Why a command could have no meaning. -/
inductive Refusal where
  /-- Raised by an arm of exec that has no meaning yet; no arm raises it now. Safe: the machine stops. -/
  | notModelled (mnemonic : String)
  deriving DecidableEq, Repr

/-! ### Cold values -/

/-- The spread port and the sample ring after a reset, with the reception as the reset leaves it (R23, R24). -/
def Ring.cleared (q : Reception) : Ring :=
  { head := none, valid := [], samples := [], fault := none, accepted := 0, duplicates := 0, tooOld := 0, reception := q }

/-- A pilot slot after a cold reset (R39). -/
def PilotSlot.cold : PilotSlot :=
  { state := .empty, lp := 0, pos := 0, check := 0, shift := 0, failure := none, samples := [] }

/-- The timebase after a cold reset (R57). -/
def Timebase.cold : Timebase := { n := 0, lock := .free, a := 0 }

/-- An input entry after a cold reset (R58). -/
def InputEntry.cold : InputEntry := { role := .none, polarity := .activeHigh }

/-- An output entry after a cold reset (R58). -/
def OutputEntry.cold : OutputEntry :=
  { source := .none, form := .pulse, width := Config.defaultWidth, polarity := .activeHigh, asserted := false, count := 0 }

/-- The event router after a cold reset with the input lines at the given levels (R58). -/
def Router.cold (pins : Vector Bool 4) : Router :=
  { inputs := Vector.replicate 4 InputEntry.cold, outputs := Vector.replicate 4 OutputEntry.cold, pins := pins }

/-- The record of fleet `f` after a cold reset (R59, R81). -/
def FleetRecord.cold (f : Fin 4) : FleetRecord :=
  { slot := f.castLE (by decide), k := 4096, edit := 0, reject := 128, target := 1, lead := 0, offset := 0, arm := none }

/-- The sweep list after a reset (R82). -/
def SweepList.cleared : SweepList := { recs := [], nextId := 1 }

/-- The engine after a reset (R101). -/
def Engine.idle : Engine := { job := none, snapshot := [], scratch := [] }

/-- A FREE context of the given generation (R119, R139). -/
def Context.freed (gen : BitVec 8) : Context :=
  { state := .free, vp := 0, gen := gen, target := 0, k := 0, attached := 0, folded := 0, dropped := 0, records := [],
    checkBad := false }

/-- The stack store after a cold reset (R139). -/
def StackStore.cold : StackStore := { ctxs := Vector.replicate 4 (Context.freed 0), openOrder := [] }

/-- The emitter after a reset (R139). -/
def Emitter.idle : Emitter := { closing := [], cursor := none }

/-- The host link after a cold reset, before RESTARTED is placed (R154). -/
def HostLink.cold : HostLink :=
  { receiver := .receiving, partialBytes := [], rxBuf := [], accepted := 0, huntDiscards := 0, notices := [], lost := 0,
    tx := none }

/-- The default parameters (R161, R164). -/
def Params.cold : Params :=
  { interval := 2, margin := 16, gapPolicy := .fold, outputMode := .mean, holdover := 3, mask := BitVec.allOnes 12 }

/-- The fleet table after a cold reset (R81). -/
def coldFleets : Vector FleetRecord 4 :=
  #v[FleetRecord.cold 0, FleetRecord.cold 1, FleetRecord.cold 2, FleetRecord.cold 3]

/-- The part right after reset: a power-up whose cold reset has completed, with RESTARTED placed as the only entry of the queue and, the
line being free, started at once (R148, R152, R154, R168, R170; log entry 8). DESIGN CHOICE (log entry 7): straps 0 and 0. DESIGN CHOICE
(log entry 8): cause POWER and every input line low. -/
def State.reset : State :=
  { ring := Ring.cleared .idle
    pilots := Vector.replicate 8 PilotSlot.cold
    time := Timebase.cold
    router := Router.cold (Vector.replicate 4 false)
    fleets := coldFleets
    sweeps := SweepList.cleared
    engine := Engine.idle
    stack := StackStore.cold
    emitter := Emitter.idle
    link := { HostLink.cold with tx := some (.notice (.report 0 (.restarted .power))) }
    mode := { op := .setup, drain := none, params := Params.cold, sizeCode := 0, position := 0, cause := .power, held := false }
    checkHit := false
    pending := [] }

end Sys2Proof.Machine
end

