-- ==== Sys2Proof/Machine/Bytes.lean ====
section
/-! DEFINITION. Bytes and words on the ports: little-endian fields (R171, R177), the longitudinal check (R2) and the host frame (R171). -/

namespace Sys2Proof.Machine

/-- `v` as `n` bytes, least significant first. -/
def leBytes : Nat → Nat → List Byte
  | 0, _ => []
  | n + 1, v => BitVec.ofNat 8 v :: leBytes n (v / 256)

/-- The unsigned number that bytes spell, least significant first. -/
def leNat : List Byte → Nat
  | [] => 0
  | b :: bs => b.toNat + 256 * leNat bs

/-- A signed number as `n` bytes, two's complement. -/
def leSigned (n : Nat) (v : Int) : List Byte := leBytes n (BitVec.ofInt (8 * n) v).toNat

/-- The field of `n` bytes at an offset of a body. -/
def fieldAt (body : List Byte) (off n : Nat) : Nat := leNat ((body.drop off).take n)

/-- The byte at an offset of a body. -/
def byteAt (body : List Byte) (off : Nat) : Byte := body.getD off 0

/-- The 16-bit little-endian words of a byte sequence; an odd one is extended by a zero byte (R2). -/
def wordsOf : List Byte → List Word
  | [] => []
  | [a] => [BitVec.ofNat 16 a.toNat]
  | a :: b :: bs => BitVec.ofNat 16 (a.toNat + 256 * b.toNat) :: wordsOf bs

/-- One word taken into the longitudinal check (R2). -/
def checkStep (c w : Word) : Word := (c ^^^ w).rotateLeft 1

/-- The longitudinal check continued from `c` over words in order (R2). -/
def checkOver (c : Word) (ws : List Word) : Word := ws.foldl checkStep c

/-- The longitudinal check of a byte sequence (R2). -/
def checkOf (bs : List Byte) : Word := checkOver 0 (wordsOf bs)

/-- The covered part of a host frame before its check word: length, kind and tag, body (R171). -/
def frameCovered (kind tag : Byte) (body : List Byte) : List Byte :=
  leBytes 2 body.length ++ [kind, tag] ++ body

/-- A host frame as its bytes on the line (R171). -/
def frameBytes (kind tag : Byte) (body : List Byte) : List Byte :=
  [0xC3, 0x5A] ++ frameCovered kind tag body ++ leBytes 2 (checkOf (frameCovered kind tag body)).toNat

/-- The signed samples of a byte sequence, three bytes each (R177). -/
def samples24 : List Byte → List RingSample
  | a :: b :: c :: bs => BitVec.ofNat 24 (a.toNat + 256 * b.toNat + 65536 * c.toNat) :: samples24 bs
  | _ => []

/-- What the receiver makes of the bytes after a start word (R141, R142). -/
inductive RxParse where
  /-- More bytes are needed. -/
  | partialFrame
  /-- The length word is above 1,040. -/
  | badLength
  /-- The check does not come out 0. -/
  | badCheck
  /-- A checked frame, and the bytes after its check word. -/
  | checked (f : RxFrame) (rest : List Byte)
  deriving DecidableEq, Repr

/-- Judge the bytes that follow a start word (R141, R142). -/
def parseAfterStart (bs : List Byte) : RxParse :=
  if bs.length < 2 then .partialFrame
  else
    let len := fieldAt bs 0 2
    if Config.maxBody < len then .badLength
    else if bs.length < 6 + len then .partialFrame
    else
      let kind := byteAt bs 2
      let tag := byteAt bs 3
      let body := (bs.drop 4).take len
      if checkStep (checkOf (frameCovered kind tag body)) (BitVec.ofNat 16 (fieldAt bs (4 + len) 2)) = 0 then
        .checked { kind := kind, tag := tag, body := body } (bs.drop (6 + len))
      else .badCheck

end Sys2Proof.Machine
end

