-- ==== Sys2Proof/Machine/Arith.lean ====
section
/-! DEFINITION. The arithmetic of the engine, the fold unit and the emitter: saturation (R1), rounding (R90), scaling (R91, R92), the
correlation sum (R89), windows, peaks and rejection (R102 to R104), the fold's and the emission's bounds (R112, R134) and
normalization (R130, R131). -/

namespace Sys2Proof.Machine

/-- Largest and smallest signed 32-bit value (R1). -/
def max32 : Int := 2147483647
def min32 : Int := -2147483648

/-- A value clamped to a range. -/
def clampInt (lo hi v : Int) : Int := if v < lo then lo else if hi < v then hi else v

/-- Saturation to 32 bits (R1). -/
def saturate32 (v : Int) : Int := clampInt min32 max32 v

/-- The value lies outside 32 bits, so that saturation changes it (R92). -/
def outside32 (v : Int) : Bool := decide (v < min32) || decide (max32 < v)

/-- The rounded quotient of `a` by `b`, half away from zero (R90). -/
def roundQuot (a : Int) (b : Nat) : Int := a.sign * (((2 * a.natAbs + b) / (2 * b) : Nat) : Int)

/-- A sum scaled by the shift `s` (R91). -/
def scaleSum (s : Nat) (acc : Int) : Int := if s = 0 then acc else roundQuot acc (2 ^ s)

/-- The exact sum of products of two sequences, as far as the first goes (R89). -/
def productSum : List Int → List Int → Int
  | p :: ps, x :: xs => p * x + productSum ps xs
  | _, _ => 0

/-- The sums of `k` lags: the pilot laid against the samples from each lag on (R89). -/
def lagSums (pilot : List Int) : Nat → List Int → List Int
  | 0, _ => []
  | k + 1, xs => productSum pilot xs :: lagSums pilot k xs.tail

/-- The correlated samples of scaled values (R92). -/
def correlatedTrace (scaled : List Int) : List Int := scaled.map saturate32

/-- The saturation count of a trace (R92). -/
def saturationCount (scaled : List Int) : Nat := scaled.countP outside32

/-- The 64 lags of window `w` (R102). -/
def windowOf (trace : List Int) (w : Nat) : List Int := (trace.drop (Config.windowLags * w)).take Config.windowLags

/-- The number of windows of a listen length (R102). -/
def windowCount (k : Nat) : Nat := k / Config.windowLags

/-- The largest magnitude of a list of samples (R102). -/
def peakOf (xs : List Int) : Nat := xs.foldl (fun m x => max m x.natAbs) 0

/-- The peaks of a trace of `wn` windows, in window order (R102). -/
def windowPeaks (wn : Nat) (trace : List Int) : List Nat := (List.range wn).map fun w => peakOf (windowOf trace w)

/-- The reference peak: the lower median of the peaks (R103). -/
def referencePeak (peaks : List Nat) : Nat := (peaks.insertionSort (· ≤ ·)).getD ((peaks.length - 1) / 2) 0

/-- The rejected windows, ascending (R104). -/
def rejectedWindows (edit pref : Nat) (peaks : List Nat) : List Nat :=
  if edit = 0 ∨ pref = 0 then []
  else (List.range peaks.length).filter fun w => decide (edit * pref < 16 * peaks.getD w 0)

/-- The outcome of a trace: the whole-trace test, then the gap policy (R105, R106). -/
def traceOutcome (reject : Nat) (policy : GapPolicy) (gap : Bool) (rejected : List Nat) : TraceOutcome :=
  if reject < rejected.length then .editDiscard
  else if gap = true ∧ policy = .discard then .gapDiscard
  else .accepted

/-- The findings of the editing pass on one trace (R107). -/
def findingsOf (edit reject : Nat) (policy : GapPolicy) (wn : Nat) (r : ChannelRecord) : Findings :=
  let peaks := windowPeaks wn r.trace
  let pref := referencePeak peaks
  let rejected := rejectedWindows edit pref peaks
  { peaks := peaks, pref := pref, rejected := rejected, outcome := traceOutcome reject policy r.gap rejected }

/-- An accumulator brought within the bounds of R110 for a window count (R112, R134). -/
def boundAcc (count : Nat) (a : Int) : Int := clampInt (-(count * 2 ^ 31)) (count * (2 ^ 31 - 1)) a

/-- A window count brought within the context's folded count (R112, R134). -/
def boundCount (folded count : Nat) : Nat := if folded < count then folded else count

/-- The zeroed stack record of a context of `k` lags (R123). -/
def freshRecord (k : Nat) : StackRecord :=
  { acc := List.replicate k 0, counts := List.replicate (windowCount k) 0, gapSeen := false, satSeen := false, bad := false,
    accErr := [], cntErr := [] }

/-- The lag lies in a window of the list. -/
def lagIn (ws : List Nat) (lag : Nat) : Bool := ws.contains (lag / Config.windowLags)

/-- The accepted windows of a trace of `wn` windows (R109). -/
def acceptedWindows (wn : Nat) (rejected : List Nat) : List Nat := (List.range wn).filter fun w => !rejected.contains w

/-- The check detects an error on a value the fold reads: one in an accepted window (R112). -/
def foldReadError (ws : List Nat) (r : StackRecord) : Bool :=
  r.accErr.any (fun lag => lagIn ws lag) || r.cntErr.any (fun w => ws.contains w)

/-- The window counts as the fold takes them (R112). -/
def foldCounts (err : Bool) (folded : Nat) (ws : List Nat) (counts : List Nat) : List Nat :=
  counts.mapIdx fun w c => if err = true ∧ ws.contains w = true then boundCount folded c else c

/-- The accumulators as the fold takes them, with the counts as taken (R112). -/
def foldAccs (err : Bool) (ws : List Nat) (taken : List Nat) (acc : List Int) : List Int :=
  acc.mapIdx fun lag a =>
    if err = true ∧ lagIn ws lag = true then boundAcc (taken.getD (lag / Config.windowLags) 0) a else a

/-- Fold one ACCEPTED trace into a channel's stack record; `folded` is the context's folded count before this completion (R109,
R111, R112). -/
def foldRecord (folded : Nat) (wn : Nat) (t : ChannelRecord) (rejected : List Nat) (r : StackRecord) : StackRecord :=
  let ws := acceptedWindows wn rejected
  let err := foldReadError ws r
  let counts := foldCounts err folded ws r.counts
  let acc := foldAccs err ws counts r.acc
  { acc := acc.mapIdx fun lag a => if lagIn ws lag then a + t.trace.getD lag 0 else a
    counts := counts.mapIdx fun w c => if ws.contains w then c + 1 else c
    gapSeen := r.gapSeen || t.gap
    satSeen := r.satSeen || decide (t.saturated ≠ 0)
    bad := r.bad || err
    accErr := r.accErr.filter fun lag => !lagIn ws lag
    cntErr := r.cntErr.filter fun w => !ws.contains w }

/-- The output sample of an accumulator in a window of count `c` (R130, R131). -/
def outputSample (mode : OutputMode) (c : Nat) (a : Int) : Int :=
  if c = 0 then 0 else match mode with | .mean => roundQuot a c | .sum => saturate32 a

/-- The output of an accumulator was clamped: SUM mode, a live window and a value outside 32 bits (R131). -/
def outputClamped (mode : OutputMode) (c : Nat) (a : Int) : Bool := decide (mode = .sum) && decide (c ≠ 0) && outside32 a

/-- The emitter's reading detects a check error (R134). -/
def emitReadError (r : StackRecord) : Bool := !r.accErr.isEmpty || !r.cntErr.isEmpty

/-- The window counts as the emitter takes them (R134). -/
def emitCounts (folded : Nat) (r : StackRecord) : List Nat :=
  if emitReadError r then r.counts.map (boundCount folded) else r.counts

/-- The accumulators as the emitter takes them (R134). -/
def emitAccs (folded : Nat) (r : StackRecord) : List Int :=
  if emitReadError r then
    r.acc.mapIdx fun lag a => boundAcc ((emitCounts folded r).getD (lag / Config.windowLags) 0) a
  else r.acc

/-- The samples of a TRACE (R130, R131, R133). -/
def emitSamples (mode : OutputMode) (folded : Nat) (r : StackRecord) : List Int :=
  (emitAccs folded r).mapIdx fun lag a => outputSample mode ((emitCounts folded r).getD (lag / Config.windowLags) 0) a

/-- At least one sample of a TRACE was clamped (R131). -/
def emitClamped (mode : OutputMode) (folded : Nat) (r : StackRecord) : Bool :=
  ((emitAccs folded r).mapIdx fun lag a =>
    outputClamped mode ((emitCounts folded r).getD (lag / Config.windowLags) 0) a).any id

/-- The dead windows of a TRACE, ascending (R131, R133). -/
def emitDead (folded : Nat) (r : StackRecord) : List Nat :=
  (List.range (emitCounts folded r).length).filter fun w => decide ((emitCounts folded r).getD w 0 = 0)

end Sys2Proof.Machine
end

