-- ==== Sys2Proof/Machine/Update.lean ====
section
/-! DEFINITION. One update per block of the state, and the accessors of its tables. -/

namespace Sys2Proof.Machine

def State.withRing (s : State) (r : Ring) : State := { s with ring := r }
def State.withPilots (s : State) (p : Vector PilotSlot 8) : State := { s with pilots := p }
def State.withTime (s : State) (t : Timebase) : State := { s with time := t }
def State.withRouter (s : State) (r : Router) : State := { s with router := r }
def State.withFleets (s : State) (f : Vector FleetRecord 4) : State := { s with fleets := f }
def State.withSweeps (s : State) (l : SweepList) : State := { s with sweeps := l }
def State.withEngine (s : State) (e : Engine) : State := { s with engine := e }
def State.withStack (s : State) (k : StackStore) : State := { s with stack := k }
def State.withEmitter (s : State) (e : Emitter) : State := { s with emitter := e }
def State.withLink (s : State) (l : HostLink) : State := { s with link := l }
def State.withMode (s : State) (m : ModeControl) : State := { s with mode := m }
def State.withCheckHit (s : State) (b : Bool) : State := { s with checkHit := b }

/-- Change the four entries of a table alike. -/
def mapFour {α β : Type} (g : α → β) (v : Vector α 4) : Vector β 4 := #v[g v[0], g v[1], g v[2], g v[3]]

/-- A pilot slot. -/
def State.slot (s : State) (i : Fin 8) : PilotSlot := s.pilots[i.val]
def State.withSlot (s : State) (i : Fin 8) (p : PilotSlot) : State := s.withPilots (s.pilots.set i.val p)

/-- A fleet record. -/
def State.fleet (s : State) (f : Fin 4) : FleetRecord := s.fleets[f.val]
def State.withFleet (s : State) (f : Fin 4) (r : FleetRecord) : State := s.withFleets (s.fleets.set f.val r)

/-- A stack context. -/
def State.ctx (s : State) (i : Fin 4) : Context := s.stack.ctxs[i.val]
def State.withCtx (s : State) (i : Fin 4) (c : Context) : State :=
  s.withStack { s.stack with ctxs := s.stack.ctxs.set i.val c }

/-- The records of the sweep list. -/
def State.listed (s : State) : List SweepRecord := s.sweeps.recs
def State.withListed (s : State) (l : List SweepRecord) : State := s.withSweeps { s.sweeps with recs := l }

/-- The context numbers in order. -/
def ctxOrder : List (Fin 4) := [0, 1, 2, 3]

end Sys2Proof.Machine
end

