-- ==== Sys2Proof/Machine/Flags.lean ====
section
/-! DEFINITION. What is read off the state rather than stored: the rates, the slice, the window of the ring, the levels of the event
router and the transmit hold. -/

namespace Sys2Proof.Machine

/-- Samples per second of a sample interval code (R41, R161). -/
def spsOf : Fin 4 → Nat
  | 0 => 2000
  | 1 => 1000
  | 2 => 500
  | 3 => 250

/-- Samples per second in force (R41). -/
def State.sps (s : State) : Nat := spsOf s.mode.params.interval

/-- Slice channel count C of a slice size code (R7, R165). -/
def channelsOf : Fin 4 → Nat
  | 0 => 256
  | 1 => 512
  | 2 => 1024
  | 3 => 1024

/-- C of the part (R7). -/
def State.channels (s : State) : Nat := channelsOf s.mode.sizeCode

/-- Number of groups of the slice (R7). -/
def State.groups (s : State) : Nat := s.channels / Config.lanes

/-- First group of the slice, P × C / 64 (R7). -/
def State.firstGroup (s : State) : Nat := s.mode.position.val * s.channels / Config.lanes

/-- The group's number within the slice, when it is one of the slice (R7). -/
def State.sliceGroup (s : State) (g : Nat) : Option Nat :=
  if s.firstGroup ≤ g ∧ g < s.firstGroup + s.groups then some (g - s.firstGroup) else none

/-- Oldest block of the window of head `g` (R9). -/
def oldestBlock (g : Nat) : Nat := g - (Config.ringBlocks - 1)

/-- Key of a slice group and block in the validity table and the sample slots (R8). -/
def slotKey (g b : Nat) : Nat := g * Config.ringBlocks + b % Config.ringBlocks

/-- The holdover limit and a half second, in samples: the distance from A to the deadline (R46). -/
def State.holdoverSpan (s : State) : Nat := s.sps * s.mode.params.holdover + s.sps / 2

/-- The holdover deadline D (R46). -/
def State.deadline (s : State) : SampleIndex := s.time.a + BitVec.ofNat 48 s.holdoverSpan

/-- The HOLDOVER level (R43). -/
def State.holdoverLevel (s : State) : Bool := decide (s.time.lock = .holdover)

/-- The NOTICE HIGH level (R54). -/
def State.noticeHighLevel (s : State) : Bool := decide (Config.noticeHigh ≤ s.link.notices.length)

/-- The ACQUIRE level (R156). -/
def State.acquireLevel (s : State) : Bool := decide (s.mode.op = .acquire)

/-- Whether a level source is true; a pulse source has no level (R54). -/
def State.sourceLevel (s : State) : Source → Bool
  | .holdover => s.holdoverLevel
  | .noticeHigh => s.noticeHighLevel
  | .acquire => s.acquireLevel
  | .none => false
  | .startPulse _ => false
  | .sweepFolded => false
  | .sweepDropped => false
  | .vpDone => false
  | .ringLate => false

/-- The source is a level source (R54). -/
def isLevelSource : Source → Bool
  | .holdover => true
  | .noticeHigh => true
  | .acquire => true
  | .none => false
  | .startPulse _ => false
  | .sweepFolded => false
  | .sweepDropped => false
  | .vpDone => false
  | .ringLate => false

/-- The level at which an entry counts as active or asserted (R52, R53, R55). -/
def activeLevel : Polarity → Bool
  | .activeHigh => true
  | .activeLow => false

/-- The level of an output pin (R55). -/
def outputPin (e : OutputEntry) : Bool := if e.asserted then activeLevel e.polarity else !activeLevel e.polarity

/-- An input entry and its pin together hold the transmit hold asserted (R53). -/
def holdsTransmit (e : InputEntry) (pin : Bool) : Bool := decide (e.role = .transmitHold) && decide (pin = activeLevel e.polarity)

/-- The transmit hold: asserted while the line holding the role stands at its asserted level (R53). -/
def State.transmitHold (s : State) : Bool :=
  ctxOrder.any fun i => holdsTransmit s.router.inputs[i.val] s.router.pins[i.val]

/-- The arbiter may start a message: nothing is in transmission and the hold is deasserted (R152). While a cold reset holds the part, and
after a handling has found a check error, nothing is started (R154, R169). -/
def State.lineFree (s : State) : Bool := !s.mode.held && !s.checkHit && s.link.tx.isNone && !s.transmitHold

/-- The report kind is enabled (R151). -/
def State.enabled (s : State) (r : Nat) : Bool := s.mode.params.mask.getLsbD r

/-- At least one listed sweep references the pilot slot (R27). -/
def State.referenced (s : State) (i : Fin 8) : Bool := s.listed.any fun r => decide (r.slot = i)

/-- The fleet has a listed sweep (R60). -/
def State.fleetListed (s : State) (f : Fin 4) : Bool := s.listed.any fun r => decide (r.fleet = f)

/-- A listed record would show a check error when it is read (R82). -/
def State.listBad (s : State) : Bool := s.listed.any fun r => r.checkBad

/-- A context record would show a check error when it is read (R113, R132). -/
def State.ctxsBad (s : State) : Bool := ctxOrder.any fun i => (s.ctx i).checkBad

end Sys2Proof.Machine
end

