-- ==== Sys2Proof/Machine/Memory.lean ====
section
/-! DEFINITION. The sparse stores of the block (validity table, sample slots, stack records): read, write and the canonical form. -/

namespace Sys2Proof.Machine

variable {α : Type}

/-- What the store holds at a key; `d` is what an unlisted key reads as. -/
def sparseGet (d : α) : Sparse α → Nat → α
  | [], _ => d
  | (a, v) :: m, k => if a = k then v else sparseGet d m k

/-- Store `v` at a key, keeping the canonical form: writing `d` removes the entry. -/
def sparseSet [DecidableEq α] (d : α) (k : Nat) (v : α) : Sparse α → Sparse α
  | [] => if v = d then [] else [(k, v)]
  | (a, w) :: m =>
    if k < a then (if v = d then (a, w) :: m else (k, v) :: (a, w) :: m)
    else if k = a then (if v = d then m else (k, v) :: m)
    else (a, w) :: sparseSet d k v m

/-- Clear every key for which `p` holds: it reads as the default afterwards. -/
def sparseClear (p : Nat → Bool) (m : Sparse α) : Sparse α := m.filter fun e => !p e.1

/-- The canonical form: keys strictly rising, and no entry equal to the default. -/
def sparseWf [DecidableEq α] (d : α) (m : Sparse α) : Bool :=
  decide (m.Pairwise fun x y => x.1 < y.1) && m.all fun e => decide (e.2 ≠ d)

end Sys2Proof.Machine
end

