-- ==== Sys2Proof/Machine/Operands.lean ====
section
/-! DEFINITION. The forms of the messages: codes of enumerated fields (R178), request kinds, lengths and bodies (R172), the frame of
each request row, and the bytes of reports, TRACE messages and whole frames as sent (R171, R175, R176). -/

namespace Sys2Proof.Machine

/-! ### Codes (R178) -/

def statusCode : Status → Byte
  | .ok => 0 | .state => 1 | .busy => 2 | .full => 3 | .unknown => 4 | .range => 5 | .order => 6 | .check => 7
  | .late => 8 | .foldFull => 9 | .noContext => 10 | .mismatch => 11 | .pilot => 12 | .kind => 13 | .length => 14

def dropCauseCode : DropCause → Byte
  | .full => 3 | .late => 8 | .foldFull => 9 | .noContext => 10 | .mismatch => 11 | .pilot => 12
  | .cancelled => 16 | .missed => 17 | .closed => 18 | .stopped => 19

def opCode : OpState → Byte
  | .setup => 0 | .acquire => 1 | .draining => 2

def drainCode : DrainMode → Byte
  | .finish => 0 | .discard => 1

def lockCode : LockState → Byte
  | .free => 0 | .locked => 1 | .holdover => 2

def timeChangeCode : TimeChange → Byte
  | .locked => 1 | .step => 2 | .holdover => 3

/-- Sweep states; NONE is 0. -/
def sweepStateCode : Option SweepState → Byte
  | none => 0 | some .scheduled => 1 | some .waiting => 2 | some .ready => 3 | some .correlating => 4

def originCode : Origin → Byte
  | .timeBreak => 1 | .post => 2 | .schedule => 3

def breakReasonCode : BreakReason → Byte
  | .state => 1 | .unarmed => 2

def slotStateCode : SlotState → Byte
  | .empty => 0 | .loading => 1 | .valid => 2 | .failed => 3

def pilotFailureCode : Option PilotFailure → Byte
  | none => 0 | some .overrun => 1 | some .short => 2 | some .check => 3

def faultKindCode : FaultKind → Byte
  | .check => 1 | .length => 2 | .jump => 3

def linkCauseCode : LinkCause → Byte
  | .check => 1 | .length => 2 | .overrun => 3

def resetCauseCode : ResetCause → Byte
  | .power => 1 | .pin => 2 | .restart => 3 | .tableCheck => 4

def ctxStateCode : CtxState → Byte
  | .free => 0 | .opened => 1 | .closePending => 2 | .closing => 3

def passCode : Pass → Byte
  | .correlation => 1 | .editing => 2

def rxStateCode : RxState → Byte
  | .receiving => 0 | .hunt => 1

/-- Role code and fleet byte (R172). -/
def roleBytes : Role → List Byte
  | .none => [0, 0] | .pps => [1, 0] | .timeBreak f => [2, BitVec.ofNat 8 f.val] | .transmitHold => [3, 0]

/-- Source code and fleet byte (R172). -/
def sourceBytes : Source → List Byte
  | .none => [0, 0] | .startPulse f => [1, BitVec.ofNat 8 f.val] | .sweepFolded => [2, 0] | .sweepDropped => [3, 0]
  | .vpDone => [4, 0] | .holdover => [5, 0] | .ringLate => [6, 0] | .noticeHigh => [7, 0] | .acquire => [8, 0]

def formCode : Form → Byte
  | .pulse => 0 | .level => 1 | .toggle => 2

def polarityCode : Polarity → Byte
  | .activeHigh => 0 | .activeLow => 1

def gapPolicyCode : GapPolicy → Nat
  | .fold => 0 | .discard => 1

def outputModeCode : OutputMode → Nat
  | .mean => 0 | .sum => 1

/-! ### Enumerated and indexed fields of requests: absent when the byte holds no code of its field (R178) -/

/-- A number below `n`, when it is in range. -/
def indexOf (n : Nat) (v : Nat) : Option (Fin n) := if h : v < n then some ⟨v, h⟩ else none

/-- A role with its fleet byte; a fleet above 3 with TIME BREAK is outside the set (R56, R178). -/
def roleOf (code fleet : Byte) : Option Role :=
  match code.toNat with
  | 0 => some .none
  | 1 => some .pps
  | 2 => (indexOf 4 fleet.toNat).map .timeBreak
  | 3 => some .transmitHold
  | _ => none

/-- A source with its fleet byte (R56, R178). -/
def sourceOf (code fleet : Byte) : Option Source :=
  match code.toNat with
  | 0 => some .none
  | 1 => (indexOf 4 fleet.toNat).map .startPulse
  | 2 => some .sweepFolded
  | 3 => some .sweepDropped
  | 4 => some .vpDone
  | 5 => some .holdover
  | 6 => some .ringLate
  | 7 => some .noticeHigh
  | 8 => some .acquire
  | _ => none

def formOf (code : Byte) : Option Form :=
  match code.toNat with
  | 0 => some .pulse
  | 1 => some .level
  | 2 => some .toggle
  | _ => none

def polarityOf (code : Byte) : Option Polarity :=
  match code.toNat with
  | 0 => some .activeHigh
  | 1 => some .activeLow
  | _ => none

/-! ### Request kinds and lengths (R172) -/

/-- The body length is allowed for the kind; `none` where the kind names no request (R147, R172). -/
def lengthAllowed (kind : Byte) (len : Nat) : Option Bool :=
  match kind.toNat with
  | 0x01 => some (len == 0)
  | 0x02 => some (len == 0)
  | 0x03 => some (len == 5)
  | 0x04 => some (len == 1)
  | 0x05 => some (len == 0)
  | 0x06 => some (len == 1)
  | 0x07 => some (len == 0)
  | 0x08 => some (len == 2)
  | 0x09 => some (len == 6)
  | 0x0A => some (len == 7)
  | 0x0B => some (len == 0)
  | 0x0C => some (len == 4)
  | 0x0D => some (decide (3 ≤ len) && decide (len ≤ 513) && decide (len % 2 = 1))
  | 0x0E => some (len == 3)
  | 0x0F => some (len == 12)
  | 0x10 => some (len == 1)
  | 0x11 => some (len == 6)
  | 0x12 => some (len == 11)
  | 0x13 => some (len == 11)
  | 0x14 => some (len == 2)
  | 0x15 => some (len == 5)
  | 0x16 => some (len == 0)
  | _ => none

/-- The kind of SYNC, the one frame HUNT takes (R144). -/
def syncKind : Byte := 0x08

/-- A STOP body that belongs to the row STOP_DISCARD (R158, R159; log entry 16). -/
def stopsWithDiscard (body : List Byte) : Bool := decide (body = [1])

/-- A CLOSE VP body that belongs to the row CLOSE_VP_NOW (R127, R128; log entry 16). -/
def closesNow (body : List Byte) : Bool := decide (body.length = 5) && decide (byteAt body 4 = 1)

/-- The host frame a request row stands for (R172); none for the other rows. -/
def requestFrame : Instr → Option RxFrame
  | .ident tag body => some ⟨0x01, tag, body⟩
  | .status tag body => some ⟨0x02, tag, body⟩
  | .paramSet tag body => some ⟨0x03, tag, body⟩
  | .paramGet tag body => some ⟨0x04, tag, body⟩
  | .start tag body => some ⟨0x05, tag, body⟩
  | .stopFinish tag body => some ⟨0x06, tag, body⟩
  | .stopDiscard tag body => some ⟨0x06, tag, body⟩
  | .restart tag body => some ⟨0x07, tag, body⟩
  | .sync tag body => some ⟨0x08, tag, body⟩
  | .timeSet tag body => some ⟨0x09, tag, body⟩
  | .routeSet tag body => some ⟨0x0A, tag, body⟩
  | .routeGet tag body => some ⟨0x0B, tag, body⟩
  | .pilotOpen tag body => some ⟨0x0C, tag, body⟩
  | .pilotWords tag body => some ⟨0x0D, tag, body⟩
  | .pilotClose tag body => some ⟨0x0E, tag, body⟩
  | .fleetSet tag body => some ⟨0x0F, tag, body⟩
  | .fleetGet tag body => some ⟨0x10, tag, body⟩
  | .arm tag body => some ⟨0x11, tag, body⟩
  | .post tag body => some ⟨0x12, tag, body⟩
  | .schedule tag body => some ⟨0x13, tag, body⟩
  | .cancel tag body => some ⟨0x14, tag, body⟩
  | .closeVpWait tag body => some ⟨0x15, tag, body⟩
  | .closeVpNow tag body => some ⟨0x15, tag, body⟩
  | .faultRead tag body => some ⟨0x16, tag, body⟩
  | .unknownKind kind tag body => some ⟨kind, tag, body⟩
  | .hostFrame _ => none
  | .transmissionStart => none
  | .transmissionEnd => none
  | .transmitHold _ _ => none
  | .blockFrame _ => none
  | .sampleTick => none
  | .holdoverDeadline => none
  | .scheduleCompare => none
  | .pulseEnd _ => none
  | .ppsEdge _ _ => none
  | .timeBreak _ _ => none
  | .correlationPassEnd => none
  | .jobCompletion => none
  | .powerUp => none
  | .resetPin => none
  | .coldResetComplete _ _ => none

/-! ### Bodies of requests as the host builds them (R172) -/

def paramSetBody (key : Byte) (value : BitVec 32) : List Byte := key :: leBytes 4 value.toNat
def syncBody (hostCount : Word) : List Byte := leBytes 2 hostCount.toNat
def timeSetBody (n : SampleIndex) : List Byte := leBytes 6 n.toNat
def pilotOpenBody (slot : Byte) (lp : Word) (shift : Byte) : List Byte := slot :: (leBytes 2 lp.toNat ++ [shift])
def pilotWordsBody (slot : Byte) (ws : List PilotSample) : List Byte := slot :: ws.flatMap fun w => leBytes 2 w.toNat
def pilotCloseBody (slot : Byte) (word : Word) : List Byte := slot :: leBytes 2 word.toNat
def fleetSetBody (fleet slot : Byte) (k e : Word) (j f : Byte) (lead offset : BitVec 16) : List Byte :=
  fleet :: slot :: (leBytes 2 k.toNat ++ leBytes 2 e.toNat ++ [j, f] ++ leBytes 2 lead.toNat ++ leBytes 2 offset.toNat)
def armBody (fleet : Byte) (vp : VpId) (count : Byte) : List Byte := fleet :: (leBytes 4 vp.toNat ++ [count])
/-- The body of POST and of SCHEDULE. -/
def sweepBody (fleet : Byte) (vp : VpId) (t0 : SampleIndex) : List Byte := fleet :: (leBytes 4 vp.toNat ++ leBytes 6 t0.toNat)
def cancelBody (id : Word) : List Byte := leBytes 2 id.toNat
def closeVpBody (vp : VpId) (mode : Byte) : List Byte := leBytes 4 vp.toNat ++ [mode]

/-! ### Contents of messages the part sends -/

/-- An optional context index; 0xFF is absent (R173). -/
def ctxByte : Option (Fin 4) → Byte
  | none => 0xFF
  | some i => BitVec.ofNat 8 i.val

def boolByte (b : Bool) : Byte := if b then 1 else 0

/-- The arm, 6 bytes (R172). -/
def armBytes : Option Arm → List Byte
  | none => [0, 0, 0, 0, 0, 0]
  | some a => 1 :: (leBytes 4 a.vp.toNat ++ leBytes 1 a.count)

/-- Fleet fields and arm of a record, 17 bytes (R172). -/
def fleetBytes (r : FleetRecord) : List Byte :=
  leBytes 1 r.slot.val ++ leBytes 2 r.k ++ leBytes 2 r.edit ++ leBytes 1 r.reject ++ leBytes 1 r.target ++
    leBytes 2 r.lead.toNat ++ leBytes 2 r.offset.toNat ++ armBytes r.arm

def inputBytes (e : InputEntry) : List Byte := roleBytes e.role ++ [polarityCode e.polarity]

def outputBytes (e : OutputEntry) : List Byte :=
  sourceBytes e.source ++ [formCode e.form] ++ leBytes 1 e.width ++ [polarityCode e.polarity]

/-- Both route tables, 32 bytes (R172). -/
def routeBytes (r : Router) : List Byte := r.inputs.toList.flatMap inputBytes ++ r.outputs.toList.flatMap outputBytes

/-- Presence, group and block index of a fault, 9 bytes (R172, R175). -/
def locBytes : Option (Nat × Nat) → List Byte
  | none => 0 :: leBytes 8 0
  | some (g, b) => 1 :: (leBytes 2 g ++ leBytes 6 b)

/-- FAULT READ contents, 13 bytes (R172, R173). -/
def faultBytes : Option FaultRecord → List Byte
  | none => leBytes 13 0
  | some f => 1 :: faultKindCode f.kind :: (locBytes f.loc ++ leBytes 2 f.later)

/-- Kind number of a report above 0x40, which is its mask bit (R175). -/
def reportIndex : Report → Nat
  | .restarted .. => 0 | .linkError .. => 1 | .reportsLost .. => 2 | .sweepEntered .. => 3 | .sweepFolded .. => 4
  | .sweepDropped .. => 5 | .vpDone .. => 6 | .timeBreakRefused .. => 7 | .timebase .. => 8 | .pilotFailed .. => 9
  | .spreadFault .. => 10 | .drained .. => 11

/-- The fields of a report after the class byte (R175). -/
def reportFields : Report → List Byte
  | .restarted c => [resetCauseCode c]
  | .linkError c n => linkCauseCode c :: leBytes 2 n.toNat
  | .reportsLost n => leBytes 2 n
  | .sweepEntered id o f vp t0 i g =>
    leBytes 2 id ++ [originCode o] ++ leBytes 1 f.val ++ leBytes 4 vp.toNat ++ leBytes 6 t0.toNat ++ [ctxByte (some i)] ++
      leBytes 1 g.toNat
  | .sweepFolded id f vp t0 i g fo dr t =>
    leBytes 2 id ++ leBytes 1 f.val ++ leBytes 4 vp.toNat ++ leBytes 6 t0.toNat ++ [ctxByte (some i)] ++ leBytes 1 g.toNat ++
      leBytes 1 fo ++ leBytes 1 dr ++ leBytes 2 t.accepted ++ leBytes 2 t.editDiscarded ++ leBytes 2 t.gapDiscarded ++
      leBytes 4 t.windowsRejected ++ leBytes 4 t.saturated ++ leBytes 2 t.checkErrors
  | .sweepDropped id f vp t0 c st i =>
    leBytes 2 id ++ leBytes 1 f.val ++ leBytes 4 vp.toNat ++ leBytes 6 t0.toNat ++ [dropCauseCode c, sweepStateCode st, ctxByte i]
  | .vpDone vp g i f k fo dr n =>
    leBytes 4 vp.toNat ++ leBytes 1 g.toNat ++ [ctxByte (some i)] ++ leBytes 1 f ++ leBytes 2 k ++ leBytes 1 fo ++ leBytes 1 dr ++
      leBytes 2 n
  | .timeBreakRefused f r n o => leBytes 1 f.val ++ [breakReasonCode r] ++ leBytes 6 n.toNat ++ [opCode o]
  | .timebase c st n l => timeChangeCode c :: (leSigned 2 st ++ leBytes 6 n.toNat ++ [lockCode l])
  | .pilotFailed sl c lp pos chk w =>
    leBytes 1 sl.val ++ [pilotFailureCode (some c)] ++ leBytes 2 lp ++ leBytes 2 pos ++ leBytes 2 chk.toNat ++
      [boolByte w.isSome] ++ leBytes 2 (w.getD 0).toNat
  | .spreadFault k loc => faultKindCode k :: locBytes loc
  | .drained m n => drainCode m :: leBytes 6 n.toNat

/-- Kind, tag and body of a notice (R171, R173, R175). -/
def noticeFrame : Notice → RxFrame
  | .reply kind tag st contents => ⟨kind, tag, 0 :: statusCode st :: contents⟩
  | .report tag r => ⟨BitVec.ofNat 8 (0x40 + reportIndex r), tag, 1 :: reportFields r⟩

/-- Flags byte of a TRACE (R176). -/
def traceFlags (t : Trace) : Nat :=
  (if t.gap then 1 else 0) + (if t.sat then 2 else 0) + (if t.bad then 4 else 0)

/-- Kind, tag and body of a TRACE (R176). -/
def traceFrame (t : Trace) : RxFrame :=
  ⟨0x60, 0,
    2 :: (leBytes 4 t.vp.toNat ++ leBytes 1 t.gen.toNat ++ leBytes 2 t.channel ++ leBytes 1 t.folded ++ leBytes 1 t.interval.val ++
      leBytes 1 (outputModeCode t.mode) ++ leBytes 1 (traceFlags t) ++ leBytes 2 t.samples.length ++ leBytes 1 t.dead.length ++
      t.dead.flatMap (leBytes 1) ++ t.samples.flatMap (leSigned 4))⟩

/-- The frame of a message on the line. -/
def txFrame : TxMessage → RxFrame
  | .notice n => noticeFrame n
  | .trace t => traceFrame t

/-- The bytes of a message on the line (R171). -/
def txBytes (m : TxMessage) : List Byte := frameBytes (txFrame m).kind (txFrame m).tag (txFrame m).body

end Sys2Proof.Machine
end

