-- ==== Sys2Proof/Machine/Ops.lean ====
section
/-! DEFINITION. The shared operations: the event router's delivery, the notice queue, the readiness test, the engine's arbiter, the
stack contexts, the emitter, drops and entries, schedule compares, the drain test and the two kinds of reset. -/

namespace Sys2Proof.Machine

/-! ### Event router (R54, R55) -/

/-- An event of the source reaches a line: PULSE asserts it with its width, TOGGLE turns it, LEVEL behaves as PULSE (R55). -/
def outputEvent (e : OutputEntry) : OutputEntry :=
  match e.form with
  | .pulse => { e with asserted := true, count := e.width }
  | .level => { e with asserted := true, count := e.width }
  | .toggle => { e with asserted := !e.asserted }

/-- The rise of a level source reaches a line (R55). -/
def outputRise (e : OutputEntry) : OutputEntry :=
  match e.form with
  | .pulse => { e with asserted := true, count := e.width }
  | .level => { e with asserted := true }
  | .toggle => { e with asserted := !e.asserted }

/-- The fall of a level source reaches a line (R55). -/
def outputFall (e : OutputEntry) : OutputEntry :=
  match e.form with
  | .pulse => e
  | .level => { e with asserted := false }
  | .toggle => e

/-- A sample tick reaches a line: the count falls by 1, and the tick that brings it to 0 deasserts it (R55). -/
def outputTick (e : OutputEntry) : OutputEntry :=
  if e.count = 0 then e
  else if e.count = 1 then { e with count := 0, asserted := false }
  else { e with count := e.count - 1 }

/-- Apply a change to every output line. -/
def State.mapOutputs (g : OutputEntry → OutputEntry) (s : State) : State :=
  s.withRouter { s.router with outputs := mapFour g s.router.outputs }

/-- Raise a pulse source on every line that follows it (R54). -/
def raiseEvent (src : Source) (s : State) : State := s.mapOutputs fun e => if e.source = src then outputEvent e else e

/-- A level source turns true (R54). -/
def raiseLevel (src : Source) (s : State) : State := s.mapOutputs fun e => if e.source = src then outputRise e else e

/-- A level source turns false (R54). -/
def dropLevel (src : Source) (s : State) : State := s.mapOutputs fun e => if e.source = src then outputFall e else e

/-! ### Notice queue (R148 to R151) -/

/-- Place an entry at the tail; the placement that brings the queue to 48 raises NOTICE HIGH (R148). Placed in an empty queue with the line
free, the entry is started at once: it leaves the queue and is in transmission (R148, R152; log entry 17). -/
def placeNotice (n : Notice) (s : State) : State :=
  if s.lineFree = true ∧ s.link.notices = [] then s.withLink { s.link with tx := some (.notice n) }
  else
    let t := s.withLink { s.link with notices := s.link.notices ++ [n] }
    if s.link.notices.length + 1 = Config.noticeHigh then raiseLevel .noticeHigh t else t

/-- The head leaves the queue; the departure that brings it to 47 ends NOTICE HIGH (R148). -/
def departNotice (s : State) : State :=
  let t := s.withLink { s.link with notices := s.link.notices.tail }
  if s.link.notices.length = Config.noticeHigh then dropLevel .noticeHigh t else t

/-- Place the reply to a request (R146). -/
def placeReply (f : RxFrame) (st : Status) (contents : List Byte) (s : State) : State :=
  placeNotice (.reply f.kind f.tag st contents) s

/-- One more lost report, held at 65,535 (R149). -/
def loseReport (s : State) : State := s.withLink { s.link with lost := min 65535 (s.link.lost + 1) }

/-- Judge a report against the limit: place it, or lose it (R149). -/
def admitReport (r : Report) (s : State) : State :=
  if s.link.notices.length < Config.reportLimit then placeNotice (.report 0 r) s else loseReport s

/-- Offer a report: nothing while its kind is disabled (R151); lost at 56 entries (R149); after losses REPORTS LOST goes first and
the report is judged anew (R150). -/
def offerReport (r : Report) (s : State) : State :=
  if s.enabled (reportIndex r) = false then s
  else if Config.reportLimit ≤ s.link.notices.length then loseReport s
  else if s.link.lost = 0 then placeNotice (.report 0 r) s
  else
    let t := placeNotice (.report 0 (.reportsLost s.link.lost)) s
    admitReport r (t.withLink { t.link with lost := 0 })

/-! ### Lock state and operating state, with the levels that follow them (R43, R156) -/

def setLock (l : LockState) (s : State) : State :=
  let t := s.withTime { s.time with lock := l }
  if s.time.lock = .holdover then (if l = .holdover then t else dropLevel .holdover t)
  else if l = .holdover then raiseLevel .holdover t
  else t

def setOp (o : OpState) (d : Option DrainMode) (s : State) : State :=
  let t := s.withMode { s.mode with op := o, drain := d }
  if s.mode.op = .acquire then (if o = .acquire then t else dropLevel .acquire t)
  else if o = .acquire then raiseLevel .acquire t
  else t

/-! ### Table check (R82, R168, R169; log entry 13) -/

/-- A read of table records finds a check error when `bad`: the warm restart takes the place of the rest of the handling (R169). -/
def markHit (bad : Bool) (s : State) : State := if bad then s.withCheckHit true else s

/-! ### Readiness (R74, R75) -/

/-- Block `b` is valid in slice group `g` (R9). -/
def ringValid (s : State) (g b : Nat) : Bool :=
  match s.ring.head with
  | none => false
  | some h => decide (oldestBlock h ≤ b) && decide (b ≤ h) && sparseGet false s.ring.valid (slotKey g b)

/-- The blocks of a sweep's span, in order (R66). -/
def spanBlocks (r : SweepRecord) : List Nat := List.range' r.first (r.last + 1 - r.first)

/-- The complete condition (R74). -/
def spanComplete (s : State) (r : SweepRecord) : Bool :=
  (List.range s.groups).all fun g => (spanBlocks r).all fun b => ringValid s g b

/-- The readiness conditions, with G defined (R74). -/
def readyNow (s : State) (r : SweepRecord) : Bool :=
  match s.ring.head with
  | none => false
  | some h => spanComplete s r || decide (r.last + s.mode.params.margin ≤ h)

/-- The readiness test of one record (R74, R75). -/
def readied (s : State) (r : SweepRecord) : SweepRecord :=
  if r.state = .waiting ∧ readyNow s r = true then { r with state := .ready } else r

/-- Change the listed record of an id. -/
def changeSweep (id : Nat) (g : SweepRecord → SweepRecord) (s : State) : State :=
  s.withListed (s.listed.map fun r => if r.id = id then g r else r)

/-- The readiness test of the listed sweep of an id (R75). -/
def testReadiness (id : Nat) (s : State) : State := changeSweep id (readied s) s

/-- An arrival notice: every WAITING sweep is tested, in list order (R18, R75). It reads every listed record: log entry 24. -/
def arrivalNotice (s : State) : State :=
  let t := markHit s.listBad s
  t.withListed (t.listed.map (readied t))

/-! ### Correlation engine (R83 to R95) -/

/-- The gap snapshot of a sweep's span: per slice group, the validity of its blocks (R87). -/
def gapSnapshot (s : State) (r : SweepRecord) : List (List Bool) :=
  (List.range s.groups).map fun g => (spanBlocks r).map fun b => ringValid s g b

/-- Begin a READY sweep whose record was read without a check error: steps 2 to 5 (R86). -/
def beginJob (r : SweepRecord) (s : State) : State :=
  let t := changeSweep r.id (fun q => { q with state := .correlating }) s
  t.withEngine
    { job := some { sweep := { r with state := .correlating }, pass := .correlation, done := 0, elapsed := 0 }
      snapshot := gapSnapshot s r
      scratch := [] }

/-- The first READY sweep in list order (R84). -/
def firstReady (s : State) : Option SweepRecord := s.listed.find? fun r => decide (r.state = .ready)

/-- The engine's arbiter looks, at the end of the handling of an event after which the engine is IDLE and a listed sweep is READY (R84).
The look reads the list, the record of the sweep it begins among it (R82, step 1 of R86; log entry 13). -/
def arbitrate (s : State) : State :=
  match s.engine.job with
  | some _ => s
  | none =>
    match firstReady s with
    | none => s
    | some r => if s.listBad then markHit true s else beginJob r s

/-- The snapshot records block `b` as valid in slice group `g` (R87). -/
def snapshotValid (snapshot : List (List Bool)) (first g b : Nat) : Bool := (snapshot.getD g []).getD (b - first) false

/-- The sample the job reads for index `n` of a lane of a slice group: 0 in a block the snapshot calls missing (R88). -/
def jobSample (s : State) (r : SweepRecord) (g lane n : Nat) : Int :=
  let b := n / Config.blockSamples
  if snapshotValid s.engine.snapshot r.first g b then
    ((sparseGet [] s.ring.samples (slotKey g b)).getD (lane * Config.blockSamples + n % Config.blockSamples) 0).toInt
  else 0

/-- The scaled sums of a slice channel (R88, R89, R91). -/
def scaledSums (s : State) (r : SweepRecord) (c : Nat) : List Int :=
  let xs := (List.range (r.lp + r.k - 1)).map fun i =>
    jobSample s r (c / Config.lanes) (c % Config.lanes) (r.t0.toNat + i)
  (lagSums ((s.slot r.slot).samples.map BitVec.toInt) r.k xs).map (scaleSum r.shift)

/-- A slice channel's record as the correlation pass completes it (R92, R93, R95). -/
def correlateChannel (s : State) (r : SweepRecord) (c : Nat) : ChannelRecord :=
  { trace := correlatedTrace (scaledSums s r c)
    saturated := saturationCount (scaledSums s r c)
    gap := (s.engine.snapshot.getD (c / Config.lanes) []).contains false
    findings := none }

/-- A slice channel's record as the editing pass decides it (R107). E and J are read from the copy of the sweep's record made at begin, and
the record's check is not read again before the completion: the model's choice, log entry 21. -/
def editChannel (s : State) (r : SweepRecord) (q : ChannelRecord) : ChannelRecord :=
  { q with findings := some (findingsOf r.edit r.reject s.mode.params.gapPolicy (windowCount r.k) q) }

/-- The job's present pass finishes its channels up to `n`, in ascending order (R95). -/
def advanceJob (n : Nat) (j : Job) (s : State) : State :=
  let m := max j.done n
  let scratch := match j.pass with
    | .correlation => s.engine.scratch ++ (List.range' j.done (m - j.done)).map (correlateChannel s j.sweep)
    | .editing => s.engine.scratch.mapIdx fun c q => if j.done ≤ c ∧ c < m then editChannel s j.sweep q else q
  s.withEngine { s.engine with job := some { j with done := m }, scratch := scratch }

/-- Channels whose share of the pass has gone by after so many ticks (R85, R95; log entry 5). -/
def channelsByTime (sps : Nat) (j : Job) (ticks : Nat) : Nat :=
  match j.pass with
  | .correlation => ticks * Config.productsPerSecond / (sps * (j.sweep.k * j.sweep.lp))
  | .editing => ticks * Config.editsPerSecond / (sps * j.sweep.k)

/-- A sample tick of a running job: the channel count rises in proportion to time, and the last channel is left to the pass's own
end (R85, R95; log entry 5). -/
def tickJob (s : State) : State :=
  match s.engine.job with
  | none => s
  | some j =>
    advanceJob (min (s.channels - 1) (channelsByTime s.sps j (j.elapsed + 1))) { j with elapsed := j.elapsed + 1 } s

/-! ### Trace emitter (R132 to R134) -/

/-- The stack record of a slice channel of a context (R108, R123). -/
def stackRecord (c : Context) (ch : Nat) : StackRecord := sparseGet (freshRecord c.k) c.records ch

/-- The TRACE of a slice channel of a context (R133, R134). -/
def traceOf (s : State) (c : Context) (ch : Nat) : Trace :=
  let r := stackRecord c ch
  let mode := s.mode.params.outputMode
  { vp := c.vp, gen := c.gen, channel := s.mode.position.val * s.channels + ch, folded := c.folded
    interval := s.mode.params.interval, mode := mode
    gap := r.gapSeen
    sat := r.satSeen || emitClamped mode c.folded r
    bad := r.bad || emitReadError r
    dead := emitDead c.folded r
    samples := emitSamples mode c.folded r }

/-- Prepare the TRACE of the cursor's next channel, if one is left (R133, R135). The context's record is not checked again: its check is
read at the begin of the emission and at its end (log entry 13). -/
def prepareTrace (cu : Cursor) (s : State) : State :=
  if cu.next < s.channels then
    s.withEmitter { s.emitter with
      cursor := some { cu with waiting := some (traceOf s (s.ctx cu.ctx) cu.next), next := cu.next + 1 } }
  else s.withEmitter { s.emitter with cursor := some cu }

/-! ### Transmit arbiter (R135, R152, R153; log entry 17) -/

/-- The pending TRACE is started, and the emitter prepares the next one (R135, R152). -/
def startTrace (cu : Cursor) (t : Trace) (s : State) : State :=
  prepareTrace { cu with waiting := none, sending := true } (s.withLink { s.link with tx := some (.trace t) })

/-- What the arbiter starts: the head of the notice queue, else the pending TRACE, else nothing (R152). -/
def startMessage (s : State) : State :=
  match s.link.notices with
  | n :: _ =>
    let t := departNotice s
    t.withLink { t.link with tx := some (.notice n) }
  | [] =>
    match s.emitter.cursor with
    | none => s
    | some cu =>
      match cu.waiting with
      | none => s
      | some t => startTrace cu t s

/-- The arbiter decides (R152). -/
def decideLine (s : State) : State := if s.lineFree then startMessage s else s

/-- The hold is looked at again after a change from `s` to `t`: where it ends, the arbiter decides at once (R53, R153). -/
def holdChanged (s t : State) : State := if s.transmitHold = true ∧ t.transmitHold = false then decideLine t else t

/-- An input line stands at a level, which the hold follows where the line holds the role (R53; log entry 9). -/
def setPin (line : Fin 4) (level : Bool) (s : State) : State :=
  holdChanged s (s.withRouter { s.router with pins := s.router.pins.set line.val level })

/-- The emitter begins the head of the closing order and offers its first TRACE, or becomes IDLE (R132, R135, R152). -/
def emitterBegin (s : State) : State :=
  match s.emitter.closing with
  | [] => s.withEmitter { s.emitter with cursor := none }
  | i :: _ =>
    if (s.ctx i).checkBad then markHit true s
    else decideLine (prepareTrace { ctx := i, next := 0, waiting := none, sending := false, sent := 0 } s)

/-! ### Stack contexts (R119 to R126) -/

/-- The context becomes FREE and leaves the open order (R120, R126, R129). -/
def freeCtx (i : Fin 4) (s : State) : State :=
  (s.withStack { s.stack with openOrder := s.stack.openOrder.filter fun j => j ≠ i }).withCtx i (Context.freed (s.ctx i).gen)

/-- VP DONE is offered and its event raised (R126, R136, R137). -/
def vpDone (i : Fin 4) (traces : Nat) (s : State) : State :=
  let c := s.ctx i
  raiseEvent .vpDone (offerReport (.vpDone c.vp c.gen i c.target c.k c.folded c.dropped traces) s)

/-- The context closes: to CLOSING at the tail of the closing order, or to FREE with VP DONE when nothing is folded (R125, R126,
R132). -/
def closeCtx (i : Fin 4) (s : State) : State :=
  if 0 < (s.ctx i).folded then
    let t := s.withCtx i { s.ctx i with state := .closing }
    let u := t.withEmitter { t.emitter with closing := t.emitter.closing ++ [i] }
    if s.emitter.closing = [] ∧ s.emitter.cursor = none then emitterBegin u else u
  else freeCtx i (vpDone i 0 s)

/-- The close condition (R125). -/
def closeHolds (c : Context) : Bool :=
  match c.state with
  | .opened => decide (c.attached = 0) && decide (c.folded + c.dropped = c.target)
  | .closePending => decide (c.attached = 0)
  | .free => false
  | .closing => false

/-- Apply the close condition (R125). -/
def applyClose (i : Fin 4) (s : State) : State := if closeHolds (s.ctx i) then closeCtx i s else s

/-- The context collects sweeps still listed: OPEN or CLOSE PENDING (R122). -/
def collecting (c : Context) : Bool := decide (c.state = .opened) || decide (c.state = .closePending)

/-- Why an entry is refused by checks 2 to 5 (R69). -/
inductive Refused where
  | full | pilot | late | noContext | foldFull | mismatch
  deriving DecidableEq, Repr

/-- What context resolution answers (R122 to R124): `ended` where a check error ends the handling at the read (R169). -/
inductive Resolved where
  | attached (ctx : Fin 4)
  | refused (why : Refused)
  | ended
  deriving DecidableEq, Repr

/-- Open a FREE context for a sweep and attach it (R120, R123). -/
def openCtx (i : Fin 4) (vp : VpId) (k target : Nat) (s : State) : State :=
  (s.withStack { s.stack with openOrder := s.stack.openOrder ++ [i] }).withCtx i
    { state := .opened, vp := vp, gen := (s.ctx i).gen + 1, target := target, k := k, attached := 1, folded := 0, dropped := 0,
      records := [], checkBad := false }

/-- Lowest-numbered context for which `p` holds. -/
def findCtx (p : Context → Bool) (s : State) : Option (Fin 4) := ctxOrder.find? fun i => p (s.ctx i)

/-- Step 1 of resolution at the context holding the VP (R122). -/
def attachCtx (i : Fin 4) (k : Nat) (s : State) : State × Resolved :=
  let c := s.ctx i
  if c.state = .closePending then (s, .refused .foldFull)
  else if c.k ≠ k then (s, .refused .mismatch)
  else if c.attached + c.folded + c.dropped = c.target then (s, .refused .foldFull)
  else (s.withCtx i { c with attached := c.attached + 1 }, .attached i)

/-- Step 2 of resolution: open the lowest-numbered FREE context (R123); without one the answer is NO CONTEXT (R124). -/
def openFree (vp : VpId) (k target : Nat) (s : State) : State × Resolved :=
  match findCtx (fun c => decide (c.state = .free)) s with
  | some i => (openCtx i vp k target s, .attached i)
  | none => (s, .refused .noContext)

/-- The context a force-close takes: collecting, nothing attached, nearest the head of the open order (R124). -/
def forceCandidate (s : State) : Option (Fin 4) :=
  s.stack.openOrder.find? fun i => collecting (s.ctx i) && decide ((s.ctx i).attached = 0)

/-- Entry check 5: resolve a context for a VP and a listen length (R122 to R124). A check error in the context table ends the handling at
the read, before any context is opened (R169; log entry 13). -/
def resolveCtx (vp : VpId) (k target : Nat) (s : State) : State × Resolved :=
  if s.ctxsBad then (markHit true s, .ended)
  else match findCtx (fun c => collecting c && decide (c.vp = vp)) s with
  | some i => attachCtx i k s
  | none =>
    match findCtx (fun c => decide (c.state = .free)) s with
    | some _ => openFree vp k target s
    | none =>
      match forceCandidate s with
      | some i => openFree vp k target (closeCtx i s)
      | none => (s, .refused .noContext)

/-! ### Leaving the list (R77 to R80, R98) -/

/-- The job is abandoned: the engine becomes IDLE and its stores are discarded (R98). -/
def abandonJob (s : State) : State := s.withEngine Engine.idle

/-- A record leaves the list (R77). -/
def unlist (id : Nat) (s : State) : State := s.withListed (s.listed.filter fun r => decide (r.id ≠ id))

/-- A drop (R77); `close` says whether step 7 applies the close condition (not for a STOP with DISCARD, R159). -/
def dropSweep (cause : DropCause) (close : Bool) (s : State) (r : SweepRecord) : State :=
  let s0 := markHit (r.checkBad || (s.ctx r.ctx).checkBad) s
  let s1 := if r.state = .correlating then abandonJob s0 else s0
  let s2 := unlist r.id s1
  let c := s2.ctx r.ctx
  let s3 := s2.withCtx r.ctx { c with attached := c.attached - 1, dropped := c.dropped + 1 }
  let s4 := offerReport (.sweepDropped r.id r.fleet r.vp r.t0 cause (some r.state) (some r.ctx)) s3
  let s5 := raiseEvent .sweepDropped s4
  let s6 := if cause = .late then raiseEvent .ringLate s5 else s5
  if close then applyClose r.ctx s6 else s6

/-- Drop the listed sweeps for which `p` holds, one by one in list order (R79). -/
def dropWhere (p : SweepRecord → Bool) (cause : DropCause) (close : Bool) (s : State) : State :=
  (s.listed.filter p).foldl (dropSweep cause close) s

/-- An eviction notice with the new oldest block (R17). It reads every listed record: log entry 24. -/
def evictionNotice (oldest : Nat) (s : State) : State :=
  dropWhere (fun r => decide (r.first < oldest)) .late true (markHit s.listBad s)

/-! ### Entering the list (R66 to R69) -/

/-- The id after an id, 65,535 followed by 1 (R67). -/
def idAfter (n : Nat) : Nat := if 65535 ≤ n then 1 else n + 1

/-- The first id from `n` upward that is not listed, in at most `fuel` further values (R67). -/
def freeId (ids : List Nat) : Nat → Nat → Nat
  | 0, n => n
  | fuel + 1, n => if ids.contains n then freeId ids fuel (idAfter n) else n

/-- Place a record after every listed record whose T0 is at most its own (R68). -/
def insertSweep (r : SweepRecord) : List SweepRecord → List SweepRecord
  | [] => [r]
  | q :: l => if r.t0.toNat < q.t0.toNat then r :: q :: l else q :: insertSweep r l

/-- What an entry answers: `ended` where a check error ends the handling at the read (R169). -/
inductive Entry where
  | admitted (r : SweepRecord)
  | refused (why : Refused)
  | ended
  deriving DecidableEq, Repr

/-- The SWEEP ENTERED report of a sweep that becomes WAITING (R72). -/
def sweepEntered (r : SweepRecord) (s : State) : State :=
  offerReport (.sweepEntered r.id r.origin r.fleet r.vp r.t0 r.ctx (s.ctx r.ctx).gen) s

/-- The record of an entry (R66), before its id and its state's compare point are set. -/
def entryRecord (s : State) (origin : Origin) (f : Fin 4) (vp : VpId) (t0 : SampleIndex) (i : Fin 4) : SweepRecord :=
  let fr := s.fleet f
  let p := s.slot fr.slot
  { id := 0, origin := origin, fleet := f, vp := vp, t0 := t0, slot := fr.slot, lp := p.lp, shift := p.shift
    k := fr.k, edit := fr.edit, reject := fr.reject, ctx := i, state := .waiting
    first := t0.toNat / Config.blockSamples
    last := (t0.toNat + p.lp + fr.k - 2) / Config.blockSamples
    compare := none, checkBad := false }

/-- List a record under the next free id (R67, R68). -/
def listSweep (r : SweepRecord) (s : State) : State × SweepRecord :=
  let id := freeId (s.listed.map (·.id)) 16 s.sweeps.nextId
  let q := { r with id := id }
  (s.withSweeps { recs := insertSweep q s.listed, nextId := idAfter id }, q)

/-- Entry check 4 fails: the first block is below the window (R69). -/
def firstEvicted (s : State) (t0 : SampleIndex) : Bool :=
  match s.ring.head with
  | none => false
  | some h => decide (t0.toNat / Config.blockSamples < oldestBlock h)

/-- Entry checks 2 to 5 and the admission (R69). A compare point makes the sweep SCHEDULED; without one it is WAITING, SWEEP ENTERED
is offered and its readiness is tested. Check 1, the operating state, is the caller's. A check error in the list ends the handling at the
read (R169; log entry 13). -/
def enterSweep (origin : Origin) (f : Fin 4) (vp : VpId) (t0 : SampleIndex) (compare : Option Nat) (s : State) : State × Entry :=
  let fr := s.fleet f
  if s.listBad then (markHit true s, .ended)
  else if Config.sweepCapacity ≤ s.listed.length then (s, .refused .full)
  else if (s.slot fr.slot).state ≠ .valid then (s, .refused .pilot)
  else if firstEvicted s t0 then (s, .refused .late)
  else
    match resolveCtx vp fr.k fr.target s with
    | (u, .ended) => (u, .ended)
    | (u, .refused why) => (u, .refused why)
    | (u, .attached i) =>
      let r := entryRecord u origin f vp t0 i
      match compare with
      | some c =>
        let (v, q) := listSweep { r with state := .scheduled, compare := some c } u
        (v, .admitted q)
      | none =>
        let (v, q) := listSweep r u
        let w := sweepEntered q v
        (testReadiness q.id w, .admitted (readied w q))

/-- The status of a refused entry (R70). -/
def refusedStatus : Refused → Status
  | .full => .full
  | .pilot => .pilot
  | .late => .late
  | .noContext => .noContext
  | .foldFull => .foldFull
  | .mismatch => .mismatch

/-- The drop cause of a refused time-break entry (R65, R78). -/
def refusedCause : Refused → DropCause
  | .full => .full
  | .pilot => .pilot
  | .late => .late
  | .noContext => .noContext
  | .foldFull => .foldFull
  | .mismatch => .mismatch

/-! ### Schedule compares (R50, R51) -/

/-- The compare of a SCHEDULED sweep is taken: START PULSE, WAITING, SWEEP ENTERED, readiness test (R50). It reads the sweep's record, and
for the generation that SWEEP ENTERED carries its context's (R72, R82, R168; log entry 13). -/
def fireSweep (s : State) (r : SweepRecord) : State :=
  let s0 := markHit (r.checkBad || (s.ctx r.ctx).checkBad) s
  let s1 := raiseEvent (.startPulse r.fleet) s0
  let s2 := changeSweep r.id (fun q => { q with state := .waiting, compare := none }) s1
  testReadiness r.id (sweepEntered r s2)

/-- The sweep is SCHEDULED with a compare point for which `p` holds. -/
def comparePoint (p : Nat → Bool) (r : SweepRecord) : Bool :=
  decide (r.state = .scheduled) && r.compare.any p

/-- The tick that brings N to compare points takes their compares, in list order (R50). Each tick is held against the compare points of the
list, which is a read of its records (R66, R82; log entry 13). -/
def tickCompares (s : State) : State :=
  let t := markHit s.listBad s
  (t.listed.filter (comparePoint fun c => c == t.time.n.toNat)).foldl fireSweep t

/-- A step from `old` to `new`, whole numbers, carries N past compare points: each sweep fires, or is dropped MISSED when its T0 lies
below `new`, in list order (R51). The step is held against the compare points of the list, which is a read of its records (R66, R82; log
entry 13). -/
def stepCompares (old new : Nat) (s : State) : State :=
  let t := markHit s.listBad s
  (t.listed.filter (comparePoint fun c => decide (old < c) && decide (c ≤ new))).foldl
    (fun u r => if new ≤ r.t0.toNat then fireSweep u r else dropSweep .missed true u r) t

/-! ### Drain test (R160) -/

/-- Every context is FREE. -/
def State.allFree (s : State) : Bool := ctxOrder.all fun i => decide ((s.ctx i).state = .free)

/-- The drain test: with the list empty and every context FREE, DRAINING ends in SETUP with DRAINED (R160). In DRAINING it reads the context
table (log entry 13); the handlings that end in it are those of R160, and others by the model's choice (log entry 23). -/
def drainTest (s : State) : State :=
  if s.mode.op = .draining then
    let t := markHit s.ctxsBad s
    if t.listed = [] ∧ t.allFree = true then
      offerReport (.drained (s.mode.drain.getD .finish) s.time.n) (setOp .setup none t)
    else t
  else s

/-! ### Resets (R168 to R170) -/

/-- An output line through a warm restart: deasserted, then a LEVEL output follows its level source again (R58). -/
def outputRestart (s : State) (e : OutputEntry) : OutputEntry :=
  { e with asserted := decide (e.form = .level) && isLevelSource e.source && s.sourceLevel e.source, count := 0 }

/-- The reception of a block frame through a reset: a frame whose bytes have begun to come in is discarded (R23, R24). -/
def Reception.throughReset : Reception → Reception
  | .idle => .idle
  | .receiving _ => .discarding
  | .discarding => .discarding

/-- A warm restart (R169 and the rules of its table). RESTARTED is placed as the only entry of the queue, a message in transmission going
on to its end (R155). -/
def warmRestart (cause : ResetCause) (tag : Byte) (s : State) : State :=
  let t : State :=
    { s with
      ring := Ring.cleared s.ring.reception.throughReset
      fleets := mapFour (fun r => { r with arm := none }) s.fleets
      sweeps := SweepList.cleared
      engine := Engine.idle
      stack := { ctxs := mapFour (fun c => Context.freed c.gen) s.stack.ctxs, openOrder := [] }
      emitter := Emitter.idle
      link := { HostLink.cold with tx := s.link.tx }
      mode := { s.mode with op := .setup, drain := none, cause := cause }
      checkHit := false }
  placeNotice (.report tag (.restarted cause)) (t.mapOutputs (outputRestart t))

/-- A cold reset takes effect: every block at its cold value, and the part held until the reset completes (R168, R170). The straps
keep their last values until they are latched at completion (R165). -/
def coldReset (cause : ResetCause) (s : State) : State :=
  { s with
    ring := Ring.cleared s.ring.reception.throughReset
    pilots := Vector.replicate 8 PilotSlot.cold
    time := Timebase.cold
    router := Router.cold s.router.pins
    fleets := coldFleets
    sweeps := SweepList.cleared
    engine := Engine.idle
    stack := StackStore.cold
    emitter := Emitter.idle
    link := HostLink.cold
    mode := { s.mode with op := .setup, drain := none, params := Params.cold, cause := cause, held := true }
    checkHit := false }

/-! ### One event, whole -/

/-- The end of a handling: a table check error found in it causes the warm restart (R169). -/
def settle (s : State) : State := if s.checkHit then warmRestart .tableCheck 0 s else s

/-- The part takes an event unless a cold reset holds it (R168); the handling is one step. -/
def handle (g : State → State) (s : State) : Host.Outcome State Fault Refusal :=
  if s.mode.held then .next s else .next (settle (g s))

/-- The decoder takes the frame `f`: it stands at the head of the receive buffer and the notice queue has a free place (R146). It is
counted (R147), tested by its kind and length (R147, R172) and handed on. Otherwise the request is not taken and nothing changes
(log entries 1 and 2). -/
def takeRequest (f : RxFrame) (g : State → State) (s : State) : Host.Outcome State Fault Refusal :=
  handle (fun s =>
    match s.link.rxBuf with
    | [] => s
    | h :: rest =>
      if h = f ∧ s.link.notices.length < Config.noticeCapacity then
        let t := s.withLink { s.link with rxBuf := rest, accepted := s.link.accepted + 1 }
        match lengthAllowed f.kind f.body.length with
        | none => placeReply f .kind [] t
        | some false => placeReply f .length [] t
        | some true => g t
      else s) s

end Sys2Proof.Machine
end

