-- ==== Sys2Proof/Machine/Control.lean ====
section
/-! DEFINITION. The mode controller's commands: IDENT, STATUS, PARAM_SET, PARAM_GET, START, STOP_FINISH, STOP_DISCARD, RESTART (R156 to
R169). -/

namespace Sys2Proof.Machine

/-- IDENT contents, 24 bytes (R166, R174). -/
def identContents (s : State) : List Byte :=
  leBytes 2 Config.partCode ++ leBytes 1 Config.revision ++ leBytes 1 s.mode.sizeCode.val ++ leBytes 2 s.channels ++
    leBytes 1 s.mode.position.val ++ leBytes 2 (s.mode.position.val * s.channels) ++
    leBytes 2 (s.mode.position.val * s.channels + s.channels - 1) ++ leBytes 2 Config.ringBlocks ++
    leBytes 1 Config.pilotSlots ++ leBytes 2 Config.maxPilot ++ leBytes 1 Config.fleetCount ++
    leBytes 1 Config.sweepCapacity ++ leBytes 1 Config.contextCount ++ leBytes 1 Config.rxCapacity ++
    leBytes 1 Config.noticeCapacity ++ leBytes 2 Config.maxBody ++ [resetCauseCode s.mode.cause]

/-- The meaning of IDENT (R166). -/
def execIdent (tag : Byte) (body : List Byte) (s : State) : Host.Outcome State Fault Refusal :=
  takeRequest ⟨0x01, tag, body⟩ (fun t => placeReply ⟨0x01, tag, body⟩ .ok (identContents t) t) s

/-- One context in STATUS, 12 bytes (R174). -/
def statusContext (c : Context) : List Byte :=
  ctxStateCode c.state :: (leBytes 1 c.gen.toNat ++ leBytes 4 c.vp.toNat ++ leBytes 1 c.target ++ leBytes 2 c.k ++
    leBytes 1 c.attached ++ leBytes 1 c.folded ++ leBytes 1 c.dropped)

/-- An order of contexts in STATUS: count, then four indexes, unused places 0xFF (R174). -/
def statusOrder (l : List (Fin 4)) : List Byte :=
  leBytes 1 l.length ++ (List.range 4).map fun j => ctxByte (l[j]?)

/-- The engine in STATUS: state, sweep id, pass, channels finished (R174). -/
def statusEngine (e : Engine) : List Byte :=
  match e.job with
  | none => leBytes 6 0
  | some j => 1 :: (leBytes 2 j.sweep.id ++ [passCode j.pass] ++ leBytes 2 j.done)

/-- The emitter in STATUS: state, context, TRACE messages sent (R174). -/
def statusEmitter (e : Emitter) : List Byte :=
  match e.cursor with
  | none => leBytes 4 0
  | some cu => 1 :: (leBytes 1 cu.ctx.val ++ leBytes 2 cu.sent)

/-- A listed sweep in STATUS, 9 bytes (R174). -/
def statusSweep (r : SweepRecord) : List Byte :=
  leBytes 2 r.id ++ [sweepStateCode (some r.state)] ++ leBytes 6 r.t0.toNat

/-- STATUS contents, 112 + 9n bytes (R167, R174). -/
def statusContents (s : State) : List Byte :=
  [opCode s.mode.op, (s.mode.drain.map drainCode).getD 0xFF, boolByte s.ring.head.isSome] ++ leBytes 6 (s.ring.head.getD 0) ++
    leBytes 4 s.ring.accepted.toNat ++ leBytes 4 s.ring.duplicates.toNat ++ leBytes 4 s.ring.tooOld.toNat ++
    [boolByte s.ring.fault.isSome] ++ leBytes 6 s.time.n.toNat ++ [lockCode s.time.lock] ++ leBytes 6 s.time.a.toNat ++
    statusEngine s.engine ++ ctxOrder.flatMap (fun i => statusContext (s.ctx i)) ++ statusOrder s.stack.openOrder ++
    statusOrder s.emitter.closing ++ statusEmitter s.emitter ++ [rxStateCode s.link.receiver] ++
    leBytes 2 s.link.accepted.toNat ++ leBytes 2 s.link.huntDiscards ++ leBytes 1 s.link.notices.length ++
    leBytes 2 s.link.lost ++ leBytes 1 s.listed.length ++ s.listed.flatMap statusSweep

/-- The meaning of STATUS: it reads every listed record and every context record, where a check error ends the handling (R167, R169). -/
def execStatus (tag : Byte) (body : List Byte) (s : State) : Host.Outcome State Fault Refusal :=
  takeRequest ⟨0x02, tag, body⟩
    (fun t => placeReply ⟨0x02, tag, body⟩ .ok (statusContents t) (markHit (t.listBad || t.ctxsBad) t)) s

/-! ### Parameters (R161 to R163) -/

/-- The value in force of a key; absent where the key names no parameter (R161). -/
def paramValue (p : Params) (key : Nat) : Option Nat :=
  match key with
  | 1 => some p.interval.val
  | 2 => some p.margin
  | 3 => some (gapPolicyCode p.gapPolicy)
  | 4 => some (outputModeCode p.outputMode)
  | 5 => some p.holdover
  | 6 => some p.mask.toNat
  | _ => none

/-- The key is of setup class (R161). -/
def setupClass (key : Nat) : Bool := decide (1 ≤ key) && decide (key ≤ 4)

/-- The lock state moves to HOLDOVER with its level and report, which stands before the reply of the PARAM SET (R46, R48; log entry 20). -/
def enterHoldover (s : State) : State :=
  offerReport (.timebase .holdover 0 s.time.n .holdover) (setLock .holdover s)

/-- Store a parameter set. -/
def State.withParams (s : State) (p : Params) : State := s.withMode { s.mode with params := p }

/-- Key 1: a changed sample interval takes a LOCKED or HOLDOVER timebase to FREE with A at N (R42). -/
def storeInterval (v : Nat) (s : State) : State :=
  match indexOf 4 v with
  | none => s
  | some i =>
    if i = s.mode.params.interval then s
    else
      let t := s.withParams { s.mode.params with interval := i }
      if s.time.lock = .free then t else setLock .free (t.withTime { t.time with a := t.time.n })

/-- Key 5: a changed holdover limit recomputes the deadline in LOCKED, and moves to HOLDOVER when it is already reached (R46). -/
def storeHoldover (v : Nat) (s : State) : State :=
  let h := if v = 0 then 1 else min v 60
  if h = s.mode.params.holdover then s
  else
    let t := s.withParams { s.mode.params with holdover := h }
    if t.time.lock = .locked ∧ t.holdoverSpan ≤ (t.time.n - t.time.a).toNat then enterHoldover t else t

/-- Judge and store a value (R161, R162). -/
def storeParam (key v : Nat) (s : State) : State :=
  match key with
  | 1 => storeInterval v s
  | 2 => s.withParams { s.mode.params with margin := min v 255 }
  | 3 => match v with
    | 0 => s.withParams { s.mode.params with gapPolicy := .fold }
    | 1 => s.withParams { s.mode.params with gapPolicy := .discard }
    | _ => s
  | 4 => match v with
    | 0 => s.withParams { s.mode.params with outputMode := .mean }
    | 1 => s.withParams { s.mode.params with outputMode := .sum }
    | _ => s
  | 5 => storeHoldover v s
  | 6 => s.withParams { s.mode.params with mask := BitVec.ofNat 12 v ||| 7 }
  | _ => s

/-- Key and value in force, 5 bytes; an unknown key has the value 0 (R162, R163). -/
def paramContents (key : Byte) (s : State) : List Byte :=
  key :: leBytes 4 ((paramValue s.mode.params key.toNat).getD 0)

/-- The handling of PARAM SET (R162). -/
def paramSet (f : RxFrame) (s : State) : State :=
  let key := byteAt f.body 0
  if setupClass key.toNat = true ∧ s.mode.op ≠ .setup then placeReply f .state (paramContents key s) s
  else
    let t := storeParam key.toNat (fieldAt f.body 1 4) s
    placeReply f .ok (paramContents key t) t

/-- The meaning of PARAM SET (R162). -/
def execParamSet (tag : Byte) (body : List Byte) (s : State) : Host.Outcome State Fault Refusal :=
  takeRequest ⟨0x03, tag, body⟩ (paramSet ⟨0x03, tag, body⟩) s

/-- The meaning of PARAM GET (R163). -/
def execParamGet (tag : Byte) (body : List Byte) (s : State) : Host.Outcome State Fault Refusal :=
  takeRequest ⟨0x04, tag, body⟩ (fun t => placeReply ⟨0x04, tag, body⟩ .ok (paramContents (byteAt body 0) t) t) s

/-! ### START, STOP and RESTART (R157 to R159, R169) -/

/-- The handling of START (R157). -/
def startRequest (f : RxFrame) (s : State) : State :=
  if s.mode.op = .setup then
    let t := setOp .acquire none s
    placeReply f .ok [opCode t.mode.op] t
  else placeReply f .state [opCode s.mode.op] s

/-- The meaning of START (R157). -/
def execStart (tag : Byte) (body : List Byte) (s : State) : Host.Outcome State Fault Refusal :=
  takeRequest ⟨0x05, tag, body⟩ (startRequest ⟨0x05, tag, body⟩) s

/-- The OPEN context becomes CLOSE PENDING. -/
def pendCtx (s : State) (i : Fin 4) : State :=
  if (s.ctx i).state = .opened then s.withCtx i { s.ctx i with state := .closePending } else s

/-- Steps 1 to 4 of a STOP with FINISH in ACQUIRE (R129, R158). The list and the context table are read first: log entry 24. -/
def finishAcquire (s : State) : State :=
  let s0 := markHit (s.listBad || s.ctxsBad) s
  let s1 := setOp .draining (some .finish) s0
  let s2 := dropWhere (fun r => decide (r.state = .scheduled)) .stopped true s1
  let s3 := ctxOrder.foldl pendCtx s2
  let s4 := ctxOrder.foldl (fun t i => applyClose i t) s3
  drainTest s4

/-- The handling of STOP with a mode other than DISCARD (R158). -/
def stopFinish (f : RxFrame) (s : State) : State :=
  if byteAt f.body 0 ≠ 0 then placeReply f .range [opCode s.mode.op] s
  else match s.mode.op with
    | .setup => placeReply f .state [opCode s.mode.op] s
    | .draining => placeReply f .ok [opCode s.mode.op] s
    | .acquire =>
      let t := finishAcquire s
      placeReply f .ok [opCode t.mode.op] t

/-- The meaning of STOP_FINISH: the STOP frames that are not DISCARD's (R158; log entry 16). -/
def execStopFinish (tag : Byte) (body : List Byte) (s : State) : Host.Outcome State Fault Refusal :=
  if stopsWithDiscard body then .next s
  else takeRequest ⟨0x06, tag, body⟩ (stopFinish ⟨0x06, tag, body⟩) s

/-- A context still collecting is freed without emission (R129). -/
def discardCtx (s : State) (i : Fin 4) : State := if collecting (s.ctx i) then freeCtx i s else s

/-- Steps 1 to 4 of a STOP with DISCARD in ACQUIRE or DRAINING (R129, R159). The list and the context table are read first: log entry
24. -/
def discardAll (s : State) : State :=
  let s0 := markHit (s.listBad || s.ctxsBad) s
  let s1 := setOp .draining (some .discard) s0
  let s2 := dropWhere (fun _ => true) .stopped false s1
  let s3 := ctxOrder.foldl discardCtx s2
  drainTest s3

/-- The handling of STOP with mode DISCARD (R158, R159). -/
def stopDiscard (f : RxFrame) (s : State) : State :=
  if s.mode.op = .setup then placeReply f .state [opCode s.mode.op] s
  else
    let t := discardAll s
    placeReply f .ok [opCode t.mode.op] t

/-- The meaning of STOP_DISCARD (R159; log entry 16). -/
def execStopDiscard (tag : Byte) (body : List Byte) (s : State) : Host.Outcome State Fault Refusal :=
  if stopsWithDiscard body then takeRequest ⟨0x06, tag, body⟩ (stopDiscard ⟨0x06, tag, body⟩) s
  else .next s

/-- The meaning of RESTART: a warm restart, answered only by RESTARTED with the request's tag (R155, R169). -/
def execRestart (tag : Byte) (body : List Byte) (s : State) : Host.Outcome State Fault Refusal :=
  takeRequest ⟨0x07, tag, body⟩ (warmRestart .restart tag) s

end Sys2Proof.Machine
end

