-- ==== Sys2Proof/Machine/Engine.lean ====
section
/-! DEFINITION. The job's own events: CORRELATION_PASS_END and JOB_COMPLETION (R95, R96, R108 to R116). -/

namespace Sys2Proof.Machine

/-- The correlation pass ends: every channel's record is complete, and the editing pass begins with the count at 0 (R95). -/
def endPass (s : State) : State :=
  match s.engine.job with
  | none => s
  | some j =>
    match j.pass with
    | .editing => s
    | .correlation =>
      let t := advanceJob s.channels j s
      t.withEngine { t.engine with job := some { j with pass := .editing, done := 0, elapsed := 0 } }

/-- The meaning of CORRELATION_PASS_END (R95). -/
def execCorrelationPassEnd (s : State) : Host.Outcome State Fault Refusal := handle endPass s

/-- The outcome written for a channel. -/
def outcomeOf (q : ChannelRecord) : Option TraceOutcome := q.findings.map (·.outcome)

/-- The rejected windows written for a channel. -/
def rejectedOf (q : ChannelRecord) : List Nat := (q.findings.map (·.rejected)).getD []

/-- Fold one slice channel into the context: passed over unless ACCEPTED (R108, R109). -/
def foldChannel (c : Context) (recs : Sparse StackRecord) (ch : Nat) (q : ChannelRecord) : Sparse StackRecord :=
  if outcomeOf q = some .accepted then
    sparseSet (freshRecord c.k) ch
      (foldRecord c.folded (windowCount c.k) q (rejectedOf q) (sparseGet (freshRecord c.k) recs ch)) recs
  else recs

/-- Fold the channels from `ch` on, in ascending order (R108). -/
def foldChannels (c : Context) : Nat → List ChannelRecord → Sparse StackRecord → Sparse StackRecord
  | _, [], recs => recs
  | ch, q :: qs, recs => foldChannels c (ch + 1) qs (foldChannel c recs ch q)

/-- The fold detects a check error on the channel (R112). -/
def channelError (c : Context) (ch : Nat) (q : ChannelRecord) : Bool :=
  decide (outcomeOf q = some .accepted) && foldReadError (acceptedWindows (windowCount c.k) (rejectedOf q)) (stackRecord c ch)

/-- The sweep's totals (R115). -/
def foldTotals (c : Context) (qs : List ChannelRecord) : FoldTotals :=
  { accepted := qs.countP fun q => decide (outcomeOf q = some .accepted)
    editDiscarded := qs.countP fun q => decide (outcomeOf q = some .editDiscard)
    gapDiscarded := qs.countP fun q => decide (outcomeOf q = some .gapDiscard)
    windowsRejected := ((qs.filter fun q => decide (outcomeOf q = some .accepted)).map fun q => (rejectedOf q).length).sum
    saturated := (qs.map (·.saturated)).sum
    checkErrors := (qs.zipIdx.countP fun p => channelError c p.2 p.1) }

/-- The context after the fold: its channels folded, one sweep moved from attached to folded (R108, R114). -/
def foldedCtx (c : Context) (qs : List ChannelRecord) : Context :=
  { c with records := foldChannels c 0 qs c.records, attached := c.attached - 1, folded := c.folded + 1 }

/-- Steps 1 to 6 of a completion for the job's listed record (R96). -/
def completeSweep (r : SweepRecord) (s : State) : State :=
  let c := s.ctx r.ctx
  let qs := s.engine.scratch
  let c' := foldedCtx c qs
  let s1 := s.withCtx r.ctx c'
  let s2 := offerReport
    (.sweepFolded r.id r.fleet r.vp r.t0 r.ctx c'.gen c'.folded c'.dropped (foldTotals c qs)) s1
  let s3 := raiseEvent .sweepFolded s2
  let s4 := abandonJob (unlist r.id s3)
  arbitrate (drainTest (applyClose r.ctx s4))

/-- The completion of the job at the end of its editing pass (R95, R96, R113): a check error on the sweep's record or its context's
record ends the handling before any step. -/
def completeJob (s : State) : State :=
  match s.engine.job with
  | none => s
  | some j =>
    match j.pass with
    | .correlation => s
    | .editing =>
      match s.listed.find? fun r => decide (r.id = j.sweep.id) with
      | none => s
      | some r =>
        if r.checkBad || (s.ctx r.ctx).checkBad then markHit true s
        else completeSweep r (advanceJob s.channels j s)

/-- The meaning of JOB_COMPLETION (R96). -/
def execJobCompletion (s : State) : Host.Outcome State Fault Refusal := handle completeJob s

end Sys2Proof.Machine
end

