-- ==== Sys2Proof/Machine/Fleet.lean ====
section
/-! DEFINITION. The fleet table's commands: FLEET_SET, FLEET_GET, ARM (R59 to R62) and TIME_BREAK (R49, R63 to R65). -/

namespace Sys2Proof.Machine

/-- K rounded down to a multiple of 64, then clamped to 256..8,192 (R60). -/
def clampK (k : Nat) : Nat := max 256 (min 8192 (k / 64 * 64))

/-- E clamped: 0 stays, 1..15 become 16, above 4,095 becomes 4,095 (R60). -/
def clampE (e : Nat) : Nat := if e = 0 then 0 else max 16 (min 4095 e)

/-- J clamped to 128 (R60). -/
def clampJ (j : Nat) : Nat := min 128 j

/-- F clamped to 1..32 (R60). -/
def clampF (f : Nat) : Nat := max 1 (min 32 f)

/-- FLEET SET and FLEET GET contents: fleet, record (R172). -/
def fleetContents (fleet : Byte) (r : FleetRecord) : List Byte := fleet :: fleetBytes r

/-- The record a FLEET SET stores over another, the arm untouched (R60). -/
def storedFleet (slot : Fin 8) (b : List Byte) (r : FleetRecord) : FleetRecord :=
  { slot := slot, k := clampK (fieldAt b 2 2), edit := clampE (fieldAt b 4 2), reject := clampJ (byteAt b 6).toNat
    target := clampF (byteAt b 7).toNat, lead := BitVec.ofNat 16 (fieldAt b 8 2), offset := BitVec.ofNat 16 (fieldAt b 10 2)
    arm := r.arm }

/-- The handling of FLEET SET: fleet range, listed sweep, slot range (R60). A check error in the list ends it there (R169;
log entries 13, 24). -/
def fleetSet (f : RxFrame) (s : State) : State :=
  let b := byteAt f.body 0
  match indexOf 4 b.toNat with
  | none => placeReply f .range (b :: leBytes 17 0) s
  | some i =>
    if s.listBad then markHit true s
    else if s.fleetListed i then placeReply f .busy (fleetContents b (s.fleet i)) s
    else match indexOf 8 (byteAt f.body 1).toNat with
      | none => placeReply f .range (fleetContents b (s.fleet i)) s
      | some slot =>
        let r := storedFleet slot f.body (s.fleet i)
        placeReply f .ok (fleetContents b r) (s.withFleet i r)

/-- The meaning of FLEET SET (R60). -/
def execFleetSet (tag : Byte) (body : List Byte) (s : State) : Host.Outcome State Fault Refusal :=
  takeRequest ⟨0x0F, tag, body⟩ (fleetSet ⟨0x0F, tag, body⟩) s

/-- The handling of FLEET GET (R61). -/
def fleetGet (f : RxFrame) (s : State) : State :=
  let b := byteAt f.body 0
  match indexOf 4 b.toNat with
  | none => placeReply f .range (b :: leBytes 17 0) s
  | some i => placeReply f .ok (fleetContents b (s.fleet i)) s

/-- The meaning of FLEET GET (R61). -/
def execFleetGet (tag : Byte) (body : List Byte) (s : State) : Host.Outcome State Fault Refusal :=
  takeRequest ⟨0x10, tag, body⟩ (fleetGet ⟨0x10, tag, body⟩) s

/-- The arm an ARM request leaves: none for a count of 0, else the count clamped to 32 (R62). -/
def armFor (vp : VpId) (count : Nat) : Option Arm := if count = 0 then none else some { vp := vp, count := min 32 count }

/-- The handling of ARM (R62). -/
def armRequest (f : RxFrame) (s : State) : State :=
  let b := byteAt f.body 0
  match indexOf 4 b.toNat with
  | none => placeReply f .range (b :: leBytes 6 0) s
  | some i =>
    let a := armFor (BitVec.ofNat 32 (fieldAt f.body 1 4)) (byteAt f.body 5).toNat
    placeReply f .ok (b :: armBytes a) (s.withFleet i { s.fleet i with arm := a })

/-- The meaning of ARM (R62). -/
def execArm (tag : Byte) (body : List Byte) (s : State) : Host.Outcome State Fault Refusal :=
  takeRequest ⟨0x11, tag, body⟩ (armRequest ⟨0x11, tag, body⟩) s

/-! ### Time breaks -/

/-- T0 of a taken break: the captured N plus the fleet's signed offset, modulo 2^48 (R63). -/
def breakT0 (captured : SampleIndex) (offset : BitVec 16) : SampleIndex := captured + offset.signExtend 48

/-- The arm after a break is taken under it (R63). -/
def armAfter (a : Arm) : Option Arm := if a.count ≤ 1 then none else some { a with count := a.count - 1 }

/-- A time break of a fleet, captured at N (R49, R63 to R65). -/
def takeBreak (f : Fin 4) (s : State) : State :=
  if s.mode.op ≠ .acquire then offerReport (.timeBreakRefused f .state s.time.n s.mode.op) s
  else match (s.fleet f).arm with
    | none => offerReport (.timeBreakRefused f .unarmed s.time.n s.mode.op) s
    | some a =>
      let t0 := breakT0 s.time.n (s.fleet f).offset
      let t := s.withFleet f { s.fleet f with arm := armAfter a }
      match enterSweep .timeBreak f a.vp t0 none t with
      | (u, .admitted _) => arbitrate u
      | (u, .refused why) => offerReport (.sweepDropped 0 f a.vp t0 (refusedCause why) none none) u
      | (u, .ended) => u

/-- The fleet whose time break the line carries, when the edge to the level is its active edge (R49, R52). -/
def breakFleet (line : Fin 4) (level : Bool) (s : State) : Option (Fin 4) :=
  match s.router.inputs[line.val].role with
  | .timeBreak f => if level = activeLevel s.router.inputs[line.val].polarity then some f else none
  | .none => none
  | .pps => none
  | .transmitHold => none

/-- The meaning of TIME_BREAK: an active edge on a line holding TIME BREAK f (R49). While a cold reset holds the part the edge only
moves the line (R168; log entry 9). -/
def execTimeBreak (line : Fin 4) (level : Bool) (s : State) : Host.Outcome State Fault Refusal :=
  handle (fun t => match breakFleet line level t with
    | some f => takeBreak f t
    | none => t)
    (setPin line level s)

end Sys2Proof.Machine
end

