-- ==== Sys2Proof/Machine/Link.lean ====
section
/-! DEFINITION. The host link's commands: SYNC, UNKNOWN_KIND, HOST_FRAME, TRANSMISSION_START, TRANSMISSION_END (R135, R136, R141 to
R153). -/

namespace Sys2Proof.Machine

/-- The handling of SYNC: host count, accepted count with this SYNC, HUNT discard count, which is then cleared (R145). -/
def syncRequest (f : RxFrame) (s : State) : State :=
  let t := placeReply f .ok
    (leBytes 2 (fieldAt f.body 0 2) ++ leBytes 2 s.link.accepted.toNat ++ leBytes 2 s.link.huntDiscards) s
  t.withLink { t.link with huntDiscards := 0 }

/-- The meaning of SYNC (R145). -/
def execSync (tag : Byte) (body : List Byte) (s : State) : Host.Outcome State Fault Refusal :=
  takeRequest ⟨syncKind, tag, body⟩ (syncRequest ⟨syncKind, tag, body⟩) s

/-- The meaning of UNKNOWN_KIND: a frame whose kind names no request is answered KIND and counted (R147). -/
def execUnknownKind (kind tag : Byte) (body : List Byte) (s : State) : Host.Outcome State Fault Refusal :=
  match lengthAllowed kind body.length with
  | none => takeRequest ⟨kind, tag, body⟩ (fun t => t) s
  | some _ => .next s

/-! ### Receiving (R141 to R144) -/

/-- LINK ERROR with a cause and the accepted-request count (R142, R143). -/
def linkError (cause : LinkCause) (s : State) : State := offerReport (.linkError cause s.link.accepted) s

/-- A checked frame is offered to the receive buffer: it joins, or overruns (R143). -/
def offerFrame (f : RxFrame) (s : State) : State :=
  if s.link.rxBuf.length < Config.rxCapacity then
    s.withLink { s.link with receiver := .receiving, rxBuf := s.link.rxBuf ++ [f] }
  else linkError .overrun (s.withLink { s.link with receiver := .hunt })

/-- A checked frame: offered in RECEIVING; in HUNT only a SYNC is, and any other is discarded and counted (R141, R144). -/
def checkedFrame (f : RxFrame) (s : State) : State :=
  match s.link.receiver with
  | .receiving => offerFrame f s
  | .hunt =>
    if f.kind = syncKind then offerFrame f s
    else s.withLink { s.link with huntDiscards := min 65535 (s.link.huntDiscards + 1) }

/-- A bad frame: RECEIVING moves to HUNT with LINK ERROR; in HUNT nothing comes of it (R142). -/
def badFrame (cause : LinkCause) (s : State) : State :=
  match s.link.receiver with
  | .receiving => linkError cause (s.withLink { s.link with receiver := .hunt })
  | .hunt => s

/-- The bytes of the frame in reception. -/
def keepPartial (bs : List Byte) (s : State) : State := s.withLink { s.link with partialBytes := bs }

/-- The receiver looks for a start word and judges the frame after it; after a bad frame it goes on from the byte after its start
word, after a checked frame from the byte after its check word (R141, R142). Each turn takes at least one byte. -/
def receive : Nat → List Byte → State → State
  | 0, bs, s => keepPartial bs s
  | _ + 1, [], s => keepPartial [] s
  | fuel + 1, a :: bs, s =>
    if a ≠ 0xC3 then receive fuel bs s
    else match bs with
      | [] => keepPartial [a] s
      | b :: rest =>
        if b ≠ 0x5A then receive fuel bs s
        else match parseAfterStart rest with
          | .partialFrame => keepPartial (a :: b :: rest) s
          | .badLength => receive fuel rest (badFrame .length s)
          | .badCheck => receive fuel rest (badFrame .check s)
          | .checked f after => receive fuel after (checkedFrame f s)

/-- Bytes come in behind the frame in reception (R141; log entry 3). -/
def receiveBytes (bytes : List Byte) (s : State) : State :=
  let all := s.link.partialBytes ++ bytes
  receive (all.length + 1) all s

/-- The meaning of HOST_FRAME (R141). -/
def execHostFrame (bytes : List Byte) (s : State) : Host.Outcome State Fault Refusal := handle (receiveBytes bytes) s

/-! ### Sending (R135, R136, R152, R153) -/

/-- The meaning of TRANSMISSION_START: the arbiter's decision, the line free and the hold deasserted (R152; log entry 17). -/
def execTransmissionStart (s : State) : Host.Outcome State Fault Refusal := handle decideLine s

/-- The emission of a context ends: VP DONE, the context FREE, the next one begun (R136). The context's record is read for what VP DONE
carries (R137, R168; log entry 13). -/
def endEmission (cu : Cursor) (s : State) : State :=
  let s0 := markHit (s.ctx cu.ctx).checkBad s
  let s1 := freeCtx cu.ctx (vpDone cu.ctx cu.sent s0)
  let s2 := s1.withEmitter { closing := s1.emitter.closing.tail, cursor := none }
  drainTest (emitterBegin s2)

/-- The transmission of a TRACE of the emitted context ends (R135, R136). -/
def traceSent (cu : Cursor) (s : State) : State :=
  let cu' := { cu with sending := false, sent := cu.sent + 1 }
  let t := s.withEmitter { s.emitter with cursor := some cu' }
  if cu'.next = s.channels ∧ cu'.waiting = none then endEmission cu' t else t

/-- The message in transmission ends (R153), before the arbiter decides anew. -/
def endMessage (m : TxMessage) (s : State) : State :=
  let t := s.withLink { s.link with tx := none }
  match m with
  | .notice _ => t
  | .trace _ =>
    match t.emitter.cursor with
    | none => t
    | some cu => if cu.sending then traceSent cu t else t

/-- The meaning of TRANSMISSION_END: the message ends, with the end of an emission that it brings, and the arbiter decides (R136, R152,
R153; log entry 17). -/
def execTransmissionEnd (s : State) : Host.Outcome State Fault Refusal :=
  handle (fun t => match t.link.tx with
    | none => t
    | some m => decideLine (endMessage m t)) s

end Sys2Proof.Machine
end

