-- ==== Sys2Proof/Machine/Pilot.lean ====
section
/-! DEFINITION. The pilot table's commands: PILOT_OPEN, PILOT_WORDS, PILOT_CLOSE (R25 to R38). -/

namespace Sys2Proof.Machine

/-- PILOT OPEN contents: slot, state, Lp, shift (R26, R172). -/
def openContents (slot : Byte) (p : PilotSlot) : List Byte :=
  slot :: slotStateCode p.state :: (leBytes 2 p.lp ++ leBytes 1 p.shift)

/-- A load is opened, or restarted, with a declared length and a shift clamped to 40 (R26). -/
def openSlot (lp shift : Nat) : PilotSlot :=
  { state := .loading, lp := lp, pos := 0, check := 0, shift := min shift Config.maxShift, failure := none, samples := [] }

/-- The handling of PILOT OPEN: slot range, reference, length range (R26, R27). A check error in the list ends it there (R169;
log entries 13, 24). -/
def pilotOpen (f : RxFrame) (s : State) : State :=
  let b := byteAt f.body 0
  match indexOf 8 b.toNat with
  | none => placeReply f .range (b :: leBytes 4 0) s
  | some i =>
    let lp := fieldAt f.body 1 2
    if s.listBad then markHit true s
    else if s.referenced i then placeReply f .busy (openContents b (s.slot i)) s
    else if lp < Config.minPilot ∨ Config.maxPilot < lp then placeReply f .range (openContents b (s.slot i)) s
    else
      let p := openSlot lp (byteAt f.body 3).toNat
      placeReply f .ok (openContents b p) (s.withSlot i p)

/-- The meaning of PILOT OPEN (R26). -/
def execPilotOpen (tag : Byte) (body : List Byte) (s : State) : Host.Outcome State Fault Refusal :=
  takeRequest ⟨0x0C, tag, body⟩ (pilotOpen ⟨0x0C, tag, body⟩) s

/-- PILOT WORDS contents: slot, write position, running check (R172). -/
def wordsContents (slot : Byte) (p : PilotSlot) : List Byte := slot :: (leBytes 2 p.pos ++ leBytes 2 p.check.toNat)

/-- The load fails: its samples lose their meaning, position and check keep their values (R30, R32, R33). -/
def failSlot (cause : PilotFailure) (p : PilotSlot) : PilotSlot :=
  { p with state := .failed, failure := some cause, samples := [] }

/-- The PILOT FAILED report of a slot that has failed (R35). -/
def pilotFailed (i : Fin 8) (cause : PilotFailure) (closing : Option Word) (s : State) : State :=
  offerReport (.pilotFailed i cause (s.slot i).lp (s.slot i).pos (s.slot i).check closing) s

/-- The samples are stored and the running check goes over them (R29). -/
def takeWords (ws : List PilotSample) (p : PilotSlot) : PilotSlot :=
  { p with pos := p.pos + ws.length, check := checkOver p.check ws, samples := p.samples ++ ws }

/-- The handling of PILOT WORDS (R28 to R30). PILOT FAILED is offered before the failing request's reply is placed: the model's choice, log
entry 20. -/
def pilotWords (f : RxFrame) (s : State) : State :=
  let b := byteAt f.body 0
  match indexOf 8 b.toNat with
  | none => placeReply f .range (b :: leBytes 4 0) s
  | some i =>
    let p := s.slot i
    let ws := wordsOf (f.body.drop 1)
    if p.state ≠ .loading then placeReply f .order (wordsContents b p) s
    else if p.lp < p.pos + ws.length then
      let q := failSlot .overrun p
      placeReply f .range (wordsContents b q) (pilotFailed i .overrun none (s.withSlot i q))
    else
      let q := takeWords ws p
      placeReply f .ok (wordsContents b q) (s.withSlot i q)

/-- The meaning of PILOT WORDS (R29). -/
def execPilotWords (tag : Byte) (body : List Byte) (s : State) : Host.Outcome State Fault Refusal :=
  takeRequest ⟨0x0D, tag, body⟩ (pilotWords ⟨0x0D, tag, body⟩) s

/-- PILOT CLOSE contents: slot, state, write position, running check, failure cause (R31, R172). -/
def closeContents (slot : Byte) (p : PilotSlot) : List Byte :=
  slot :: slotStateCode p.state :: (leBytes 2 p.pos ++ leBytes 2 p.check.toNat ++ [pilotFailureCode p.failure])

/-- The load is complete (R34). -/
def validSlot (p : PilotSlot) : PilotSlot := { p with state := .valid }

/-- The handling of PILOT CLOSE (R31 to R34). PILOT FAILED is offered before the failing request's reply is placed: the model's choice, log
entry 20. -/
def pilotClose (f : RxFrame) (s : State) : State :=
  let b := byteAt f.body 0
  let w : Word := BitVec.ofNat 16 (fieldAt f.body 1 2)
  match indexOf 8 b.toNat with
  | none => placeReply f .range (b :: leBytes 6 0) s
  | some i =>
    let p := s.slot i
    if p.state ≠ .loading then placeReply f .order (closeContents b p) s
    else if p.pos < p.lp then
      let q := failSlot .short p
      placeReply f .check (closeContents b q) (pilotFailed i .short (some w) (s.withSlot i q))
    else if w ≠ p.check then
      let q := failSlot .check p
      placeReply f .check (closeContents b q) (pilotFailed i .check (some w) (s.withSlot i q))
    else
      let q := validSlot p
      placeReply f .ok (closeContents b q) (s.withSlot i q)

/-- The meaning of PILOT CLOSE (R34). -/
def execPilotClose (tag : Byte) (body : List Byte) (s : State) : Host.Outcome State Fault Refusal :=
  takeRequest ⟨0x0E, tag, body⟩ (pilotClose ⟨0x0E, tag, body⟩) s

end Sys2Proof.Machine
end

