-- ==== Sys2Proof/Machine/Reset.lean ====
section
/-! DEFINITION. The resets: POWER_UP, RESET_PIN, COLD_RESET_COMPLETE (R165, R168, R170; log entry 18). -/

namespace Sys2Proof.Machine

/-- The meaning of POWER_UP: a cold reset with cause POWER, whatever the pin (R168). -/
def execPowerUp (s : State) : Host.Outcome State Fault Refusal := .next (coldReset .power s)

/-- The meaning of RESET_PIN: a cold reset with cause PIN; one already in progress goes on with its cause (R168). -/
def execResetPin (s : State) : Host.Outcome State Fault Refusal :=
  if s.mode.held then .next s else .next (coldReset .pin s)

/-- The cold reset in progress completes: the straps are latched and RESTARTED is placed as the only entry, which the free line starts at
once (R152, R154, R165, R170). -/
def completeReset (sizeCode : Fin 4) (position : Fin 8) (s : State) : State :=
  let t := s.withMode { s.mode with sizeCode := sizeCode, position := position, held := false }
  placeNotice (.report 0 (.restarted t.mode.cause)) (t.withLink { t.link with notices := [] })

/-- The meaning of COLD_RESET_COMPLETE (R168, R170). -/
def execColdResetComplete (sizeCode : Fin 4) (position : Fin 8) (s : State) : Host.Outcome State Fault Refusal :=
  if s.mode.held then .next (completeReset sizeCode position s) else .next s

end Sys2Proof.Machine
end

