-- ==== Sys2Proof/Machine/Spread.lean ====
section
/-! DEFINITION. The spread port's commands: BLOCK_FRAME and FAULT_READ (R4 to R22). -/

namespace Sys2Proof.Machine

/-- A LENGTH, CHECK or JUMP fault reaches the spread fault record (R20). -/
def spreadFault (kind : FaultKind) (loc : Option (Nat × Nat)) (s : State) : State :=
  match s.ring.fault with
  | none =>
    offerReport (.spreadFault kind loc) (s.withRing { s.ring with fault := some { kind := kind, loc := loc, later := 0 } })
  | some f => s.withRing { s.ring with fault := some { f with later := min 65535 (f.later + 1) } }

/-- Write an accepted frame of slice group `g` and block `b`; the frames-accepted counter rises (R8, R22). -/
def writeBlock (g b : Nat) (xs : List RingSample) (s : State) : State :=
  s.withRing { s.ring with
    valid := sparseSet false (slotKey g b) true s.ring.valid
    samples := sparseSet [] (slotKey g b) xs s.ring.samples
    accepted := s.ring.accepted + 1 }

/-- The slot of a key is that of one of the blocks `old` + 1 to `new` (R12). -/
def slotAdvanced (old new key : Nat) : Bool :=
  decide ((key % Config.ringBlocks + Config.ringBlocks - (old + 1) % Config.ringBlocks) % Config.ringBlocks < new - old)

/-- The head moves on: the flags of the slots of the new blocks are cleared in every group (R12, steps 1 and 2). -/
def advanceHead (old new : Nat) (s : State) : State :=
  s.withRing { s.ring with head := some new, valid := sparseClear (slotAdvanced old new) s.ring.valid }

/-- What follows a written frame: the arrival notice (R18), then, with the frame handled whole, the drain test and the arbiter (R84,
R160). That the drain test is made after every written frame, one that drops no sweep among them, is the model's choice: log entry 23. -/
def frameWritten (s : State) : State := arbitrate (drainTest (arrivalNotice s))

/-- A first frame after a reset (R11). -/
def firstFrame (g b : Nat) (xs : List RingSample) (s : State) : State :=
  let t := writeBlock g b xs (s.withRing { s.ring with head := some b })
  frameWritten (if Config.ringBlocks ≤ b then evictionNotice (oldestBlock b) t else t)

/-- A frame that advances the head (R12). -/
def advanceFrame (old g b : Nat) (xs : List RingSample) (s : State) : State :=
  let t := advanceHead old b s
  let u := if oldestBlock old ≠ oldestBlock b then evictionNotice (oldestBlock b) t else t
  frameWritten (writeBlock g b xs u)

/-- A frame of the slice that has passed its check is placed against G (R10 to R16). -/
def placeBlock (g group b : Nat) (xs : List RingSample) (s : State) : State :=
  if Config.maxBlock < b then spreadFault .jump (some (group, b)) s
  else match s.ring.head with
    | none => firstFrame g b xs s
    | some h =>
      if h + Config.ringBlocks < b then spreadFault .jump (some (group, b)) s
      else if h < b then advanceFrame h g b xs s
      else if b < oldestBlock h then s.withRing { s.ring with tooOld := s.ring.tooOld + 1 }
      else if sparseGet false s.ring.valid (slotKey g b) then s.withRing { s.ring with duplicates := s.ring.duplicates + 1 }
      else frameWritten (writeBlock g b xs s)

/-- Group and block index fields of a block frame as received (R5, R177). -/
def frameLoc (bytes : List Byte) : Nat × Nat := (fieldAt bytes 0 2, fieldAt bytes 2 6)

/-- The spread port judges a block frame: length, check, slice, place (R4 to R7). -/
def judgeBlock (bytes : List Byte) (s : State) : State :=
  if bytes.length ≠ Config.blockFrameBytes then
    spreadFault .length (if 8 ≤ bytes.length then some (frameLoc bytes) else none) s
  else if checkOf bytes ≠ 0 then spreadFault .check (some (frameLoc bytes)) s
  else
    match s.sliceGroup (frameLoc bytes).1 with
    | none => s
    | some g => placeBlock g (frameLoc bytes).1 (frameLoc bytes).2 (samples24 ((bytes.drop 8).take 6144)) s

/-- The reception stands so. -/
def State.withReception (s : State) (q : Reception) : State := s.withRing { s.ring with reception := q }

/-- Bytes of a frame that is discarded come in: nothing is judged, and its end leaves the port ready for the next frame (R23, R24). -/
def dropPiece (last : Bool) (s : State) : State := s.withReception (if last then .idle else .discarding)

/-- Bytes of a block frame come in behind those that have come; its end has the frame judged whole (R4; log entry 22). -/
def receivePiece (bytes : List Byte) (last : Bool) (s : State) : State :=
  match s.ring.reception with
  | .discarding => dropPiece last s
  | .idle => if last then judgeBlock bytes s else s.withReception (.receiving bytes)
  | .receiving before =>
    if last then judgeBlock (before ++ bytes) (s.withReception .idle) else s.withReception (.receiving (before ++ bytes))

/-- The meaning of BLOCK_FRAME: a frame is judged when it has come in whole (R4). A frame that begins, or goes on, while a cold reset holds
the part is discarded: its first byte does not arrive after the reset (R23). -/
def execBlockFrame (piece : FramePiece) (s : State) : Host.Outcome State Fault Refusal :=
  if s.mode.held then .next (dropPiece piece.last s) else handle (receivePiece piece.bytes piece.last) s

/-- The handling of FAULT READ: the record as it stands, then cleared (R21). -/
def faultRead (f : RxFrame) (s : State) : State :=
  placeReply f .ok (faultBytes s.ring.fault) (s.withRing { s.ring with fault := none })

/-- The meaning of FAULT READ (R21). -/
def execFaultRead (tag : Byte) (body : List Byte) (s : State) : Host.Outcome State Fault Refusal :=
  takeRequest ⟨0x16, tag, body⟩ (faultRead ⟨0x16, tag, body⟩) s

end Sys2Proof.Machine
end

