-- ==== Sys2Proof/Machine/Sweep.lean ====
section
/-! DEFINITION. The sweep list's commands: POST, SCHEDULE, CANCEL (R70, R71, R76) and the stack store's CLOSE_VP_WAIT and CLOSE_VP_NOW
(R127, R128). -/

namespace Sys2Proof.Machine

/-- POST contents: sweep id, context index, sweep state (R172); a refused POST carries 0, 0xFF and NONE (R173). -/
def postContents : Option SweepRecord → List Byte
  | none => leBytes 2 0 ++ [0xFF, 0]
  | some r => leBytes 2 r.id ++ [ctxByte (some r.ctx), sweepStateCode (some r.state)]

/-- The handling of POST (R70). -/
def postRequest (f : RxFrame) (s : State) : State :=
  match indexOf 4 (byteAt f.body 0).toNat with
  | none => placeReply f .range (postContents none) s
  | some i =>
    if s.mode.op ≠ .acquire then placeReply f .state (postContents none) s
    else
      match enterSweep .post i (BitVec.ofNat 32 (fieldAt f.body 1 4)) (BitVec.ofNat 48 (fieldAt f.body 5 6)) none s with
      | (t, .admitted r) => arbitrate (placeReply f .ok (postContents (some r)) t)
      | (t, .refused why) => placeReply f (refusedStatus why) (postContents none) t
      | (t, .ended) => t

/-- The meaning of POST (R70). -/
def execPost (tag : Byte) (body : List Byte) (s : State) : Host.Outcome State Fault Refusal :=
  takeRequest ⟨0x12, tag, body⟩ (postRequest ⟨0x12, tag, body⟩) s

/-- SCHEDULE contents: sweep id, context index, compare point (R172); a refused one carries 0, 0xFF and 0 (R173). -/
def scheduleContents : Option SweepRecord → List Byte
  | none => leBytes 2 0 ++ [0xFF] ++ leBytes 6 0
  | some r => leBytes 2 r.id ++ [ctxByte (some r.ctx)] ++ leBytes 6 (r.compare.getD 0)

/-- The handling of SCHEDULE: fleet range, operating state, lock state, compare point, then checks 2 to 5 (R71). The compare point is
a whole number, negative when T0 is smaller than the lead. -/
def scheduleRequest (f : RxFrame) (s : State) : State :=
  match indexOf 4 (byteAt f.body 0).toNat with
  | none => placeReply f .range (scheduleContents none) s
  | some i =>
    let t0 : SampleIndex := BitVec.ofNat 48 (fieldAt f.body 5 6)
    let c : Int := (t0.toNat : Int) - ((s.fleet i).lead.toNat : Int)
    if s.mode.op ≠ .acquire then placeReply f .state (scheduleContents none) s
    else if s.time.lock = .free then placeReply f .state (scheduleContents none) s
    else if c ≤ (s.time.n.toNat : Int) then placeReply f .late (scheduleContents none) s
    else
      match enterSweep .schedule i (BitVec.ofNat 32 (fieldAt f.body 1 4)) t0 (some c.toNat) s with
      | (t, .admitted r) => placeReply f .ok (scheduleContents (some r)) t
      | (t, .refused why) => placeReply f (refusedStatus why) (scheduleContents none) t
      | (t, .ended) => t

/-- The meaning of SCHEDULE (R71). -/
def execSchedule (tag : Byte) (body : List Byte) (s : State) : Host.Outcome State Fault Refusal :=
  takeRequest ⟨0x13, tag, body⟩ (scheduleRequest ⟨0x13, tag, body⟩) s

/-- The handling of CANCEL (R76). The VP DONE of a context that the drop frees stands before the reply, as DRAINED does: the model's choice,
log entries 20 and 12. That it reads the whole list, for an id of 0 too, is log entry 24. -/
def cancelRequest (f : RxFrame) (s : State) : State :=
  let id := fieldAt f.body 0 2
  let t := markHit s.listBad s
  match t.listed.find? fun r => decide (id ≠ 0) && decide (r.id = id) with
  | none => placeReply f .unknown (leBytes 2 id ++ [sweepStateCode none]) t
  | some r =>
    let u := drainTest (dropSweep .cancelled true t r)
    arbitrate (placeReply f .ok (leBytes 2 id ++ [sweepStateCode (some r.state)]) u)

/-- The meaning of CANCEL (R76). -/
def execCancel (tag : Byte) (body : List Byte) (s : State) : Host.Outcome State Fault Refusal :=
  takeRequest ⟨0x14, tag, body⟩ (cancelRequest ⟨0x14, tag, body⟩) s

/-- The OPEN context holding a VP (R127). -/
def openHolding (vp : VpId) (s : State) : Option (Fin 4) :=
  findCtx (fun c => decide (c.state = .opened) && decide (c.vp = vp)) s

/-- CLOSE VP contents: context index, generation, state, three counts; 0xFF and 0 without a context (R172, R173). -/
def closeVpContents (i : Option (Fin 4)) (gen : BitVec 8) (st : CtxState) (attached folded dropped : Nat) : List Byte :=
  match i with
  | none => 0xFF :: leBytes 5 0
  | some _ => ctxByte i :: (leBytes 1 gen.toNat ++ [ctxStateCode st] ++ leBytes 1 attached ++ leBytes 1 folded ++ leBytes 1 dropped)

/-- The contents after a CLOSE VP on context `i`: its counts after the request, or those it held when it closed to FREE (R127):
`attached`, `folded`, `dropped`. -/
def closedContents (i : Fin 4) (attached folded dropped : Nat) (s : State) : List Byte :=
  let c := s.ctx i
  if c.state = .free then closeVpContents (some i) c.gen .free attached folded dropped
  else closeVpContents (some i) c.gen c.state c.attached c.folded c.dropped

/-- The handling of CLOSE VP with a mode other than NOW (R127). A VP DONE stands before the reply: log entry 20. That it
reads the whole context table is log entry 24. -/
def closeWait (f : RxFrame) (s : State) : State :=
  if byteAt f.body 4 ≠ 0 then placeReply f .range (closeVpContents none 0 .free 0 0 0) s
  else
    let t := markHit s.ctxsBad s
    match openHolding (BitVec.ofNat 32 (fieldAt f.body 0 4)) t with
    | none => placeReply f .unknown (closeVpContents none 0 .free 0 0 0) t
    | some i =>
      let c := t.ctx i
      let u := drainTest (applyClose i (t.withCtx i { c with state := .closePending }))
      placeReply f .ok (closedContents i c.attached c.folded c.dropped u) u

/-- The meaning of CLOSE_VP_WAIT: the CLOSE VP frames that are not NOW's (R127; log entry 16). -/
def execCloseVpWait (tag : Byte) (body : List Byte) (s : State) : Host.Outcome State Fault Refusal :=
  if closesNow body then .next s
  else takeRequest ⟨0x15, tag, body⟩ (closeWait ⟨0x15, tag, body⟩) s

/-- The drops of a CLOSE VP NOW on a context already CLOSE PENDING, or its close when nothing is attached (R128). -/
def closeAttached (i : Fin 4) (s : State) : State :=
  if (s.listed.filter fun r => decide (r.ctx = i)) = [] then applyClose i s
  else dropWhere (fun r => decide (r.ctx = i)) .closed true s

/-- The handling of CLOSE VP with mode NOW (R127, R128). It reads the whole sweep list and the context table before it looks for the OPEN
context, so a check error in the list is found also where the answer would be UNKNOWN: the model's choice, log entry 24. -/
def closeNow (f : RxFrame) (s : State) : State :=
  let t := markHit (s.listBad || s.ctxsBad) s
  match openHolding (BitVec.ofNat 32 (fieldAt f.body 0 4)) t with
  | none => placeReply f .unknown (closeVpContents none 0 .free 0 0 0) t
  | some i =>
    let c := t.ctx i
    let n := (t.listed.filter fun r => decide (r.ctx = i)).length
    let u := drainTest (closeAttached i (t.withCtx i { c with state := .closePending }))
    arbitrate (placeReply f .ok (closedContents i (c.attached - n) c.folded (c.dropped + n) u) u)

/-- The meaning of CLOSE_VP_NOW (R128; log entry 16). -/
def execCloseVpNow (tag : Byte) (body : List Byte) (s : State) : Host.Outcome State Fault Refusal :=
  if closesNow body then takeRequest ⟨0x15, tag, body⟩ (closeNow ⟨0x15, tag, body⟩) s
  else .next s

end Sys2Proof.Machine
end

