-- ==== Sys2Proof/Machine/Timing.lean ====
section
/-! DEFINITION. The timebase and the event lines: TIME_SET, ROUTE_SET, ROUTE_GET, the sample tick and the points it reaches, PPS_EDGE
and TRANSMIT_HOLD (R41 to R58). -/

namespace Sys2Proof.Machine

/-- N and lock state, 7 bytes (R172). -/
def timeContents (s : State) : List Byte := leBytes 6 s.time.n.toNat ++ [lockCode s.time.lock]

/-- The handling of TIME SET (R47). -/
def timeSet (f : RxFrame) (s : State) : State :=
  if s.mode.op = .setup then
    let n := BitVec.ofNat 48 (fieldAt f.body 0 6)
    let t := setLock .free (s.withTime { s.time with n := n, a := n })
    placeReply f .ok (timeContents t) t
  else placeReply f .state (timeContents s) s

/-- The meaning of TIME SET (R47). -/
def execTimeSet (tag : Byte) (body : List Byte) (s : State) : Host.Outcome State Fault Refusal :=
  takeRequest ⟨0x09, tag, body⟩ (timeSet ⟨0x09, tag, body⟩) s

/-! ### Route tables (R52, R56) -/

/-- Store an input entry: a role held by another line moves, and that line becomes NONE (R52). -/
def storeInput (line : Fin 4) (role : Option Role) (pol : Option Polarity) (r : Router) : Router :=
  let old := r.inputs[line.val]
  let e : InputEntry := { role := role.getD old.role, polarity := pol.getD old.polarity }
  let moved := mapFour (fun q => if q.role = e.role then { q with role := .none } else q) r.inputs
  { r with inputs := moved.set line.val e }

/-- Store an output entry: the line is deasserted, and a LEVEL entry with a true level source is then asserted (R56). -/
def storeOutput (line : Fin 4) (src : Option Source) (form : Option Form) (width : Nat) (pol : Option Polarity) (s : State) : State :=
  let old := s.router.outputs[line.val]
  let e : OutputEntry :=
    { source := src.getD old.source, form := form.getD old.form, width := max 1 width, polarity := pol.getD old.polarity
      asserted := false, count := 0 }
  let e' := { e with asserted := decide (e.form = .level) && isLevelSource e.source && s.sourceLevel e.source }
  s.withRouter { s.router with outputs := s.router.outputs.set line.val e' }

/-- The handling of ROUTE SET: direction, line, role or source, fleet, form, width, polarity (R56, R172). A stored input entry has the
hold looked at again, before the reply is placed (R53; log entry 17). -/
def routeSet (f : RxFrame) (s : State) : State :=
  let b := f.body
  match indexOf 4 (byteAt b 1).toNat, (byteAt b 0).toNat with
  | some line, 0 =>
    let t := holdChanged s (s.withRouter (storeInput line (roleOf (byteAt b 2) (byteAt b 3)) (polarityOf (byteAt b 6)) s.router))
    placeReply f .ok (routeBytes t.router) t
  | some line, 1 =>
    let t := storeOutput line (sourceOf (byteAt b 2) (byteAt b 3)) (formOf (byteAt b 4)) (byteAt b 5).toNat
      (polarityOf (byteAt b 6)) s
    placeReply f .ok (routeBytes t.router) t
  | _, _ => placeReply f .range (routeBytes s.router) s

/-- The meaning of ROUTE SET (R56). -/
def execRouteSet (tag : Byte) (body : List Byte) (s : State) : Host.Outcome State Fault Refusal :=
  takeRequest ⟨0x0A, tag, body⟩ (routeSet ⟨0x0A, tag, body⟩) s

/-- The meaning of ROUTE GET (R56). -/
def execRouteGet (tag : Byte) (body : List Byte) (s : State) : Host.Outcome State Fault Refusal :=
  takeRequest ⟨0x0B, tag, body⟩ (fun t => placeReply ⟨0x0B, tag, body⟩ .ok (routeBytes t.router) t) s

/-! ### The sample tick (R41, R46, R50, R55; log entry 4) -/

/-- The tick brings N to the holdover deadline in LOCKED (R46). -/
def tickHoldover (s : State) : State :=
  if s.time.lock = .locked ∧ s.time.n = s.deadline then enterHoldover s else s

/-- One sample tick, whole: the output counts fall, N advances, and the points N reaches are taken; a running job goes on
(R41; log entry 4). -/
def tick (s : State) : State :=
  let s1 := s.mapOutputs outputTick
  let s2 := s1.withTime { s1.time with n := s1.time.n + 1 }
  let s3 := tickHoldover s2
  let s4 := tickJob s3
  arbitrate (tickCompares s4)

/-- The meaning of SAMPLE_TICK (R41). -/
def execSampleTick (s : State) : Host.Outcome State Fault Refusal := handle tick s

/-- The next tick brings N to the holdover deadline in LOCKED (R46). -/
def deadlineNext (s : State) : Bool := decide (s.time.lock = .locked) && decide (s.time.n + 1 = s.deadline)

/-- The meaning of HOLDOVER_DEADLINE: the tick that brings N to the deadline in LOCKED (R46; log entry 4). -/
def execHoldoverDeadline (s : State) : Host.Outcome State Fault Refusal :=
  handle (fun t => if deadlineNext t then tick t else t) s

/-- The next tick brings N to the compare point of a SCHEDULED sweep (R50). -/
def compareNext (s : State) : Bool := s.listed.any (comparePoint fun c => c == (s.time.n + 1).toNat)

/-- The meaning of SCHEDULE_COMPARE: the tick that brings N to a compare point (R50; log entry 4). -/
def execScheduleCompare (s : State) : Host.Outcome State Fault Refusal :=
  handle (fun t => if compareNext t then tick t else t) s

/-- The meaning of PULSE_END: the tick that brings the line's count to 0 (R55; log entry 4). -/
def execPulseEnd (line : Fin 4) (s : State) : Host.Outcome State Fault Refusal :=
  handle (fun t => if t.router.outputs[line.val].count = 1 then tick t else t) s

/-! ### Input lines (R44, R45, R51 to R53; log entry 9) -/

/-- An edge to the level is the active edge of the line in a role (R52). -/
def activeEdge (line : Fin 4) (level : Bool) (role : Role) (s : State) : Bool :=
  decide (s.router.inputs[line.val].role = role) && decide (level = activeLevel s.router.inputs[line.val].polarity)

/-- The step that aligns a count to the nearest multiple of `sps`, an exact half forward (R44). -/
def ppsStep (sps n : Nat) : Int :=
  if n % sps < sps / 2 then -((n % sps : Nat) : Int) else ((sps - n % sps : Nat) : Int)

/-- The TIMEBASE report of a PPS edge taken in a lock state, with N as aligned (R45, R48). -/
def ppsReport (was : LockState) (step : Int) (s : State) : State :=
  match was with
  | .free => offerReport (.timebase .locked step s.time.n .locked) s
  | .holdover => offerReport (.timebase .locked step s.time.n .locked) s
  | .locked => if step = 0 then s else offerReport (.timebase .step step s.time.n .locked) s

/-- A PPS edge: N aligned, A set, LOCKED, reported, and a step, forward or backward, handed to the compare handling, which takes the compare
points it carries N past (R44, R45, R51; log entry 10). The drain test is made after every edge, one that drops no sweep among them: the
model's choice, log entry 23. -/
def alignPps (s : State) : State :=
  let old := s.time.n.toNat
  let step := ppsStep s.sps old
  let new := (old : Int) + step
  let n := BitVec.ofInt 48 new
  let s1 := setLock .locked (s.withTime { s.time with n := n, a := n })
  let s2 := ppsReport s.time.lock step s1
  let s3 := if step = 0 then s2 else stepCompares old new.toNat s2
  arbitrate (drainTest s3)

/-- The meaning of PPS_EDGE: an active edge on the line holding PPS (R45). While a cold reset holds the part the edge only moves the
line (R168). -/
def execPpsEdge (line : Fin 4) (level : Bool) (s : State) : Host.Outcome State Fault Refusal :=
  handle (fun t => if activeEdge line level .pps t then alignPps t else t) (setPin line level s)

/-- The meaning of TRANSMIT_HOLD: the line's level changes, the hold follows it where the line holds the role, and a hold that ends has
the arbiter decide at once (R53, R153). The line may hold any role, and takes no edge by it: the model's choice, log entry 9. -/
def execTransmitHold (line : Fin 4) (level : Bool) (s : State) : Host.Outcome State Fault Refusal :=
  .next (setPin line level s)

end Sys2Proof.Machine
end

