-- ==== Sys2Proof/Machine/Dispatch.lean ====
section
/-! DEFINITION. The meaning of every command, one arm per constructor. -/

namespace Sys2Proof.Machine

def exec (i : Instr) (s : State) : Host.Outcome State Fault Refusal :=
  match i with
  | .ident tag body => Sys2Proof.Machine.execIdent tag body s
  | .status tag body => Sys2Proof.Machine.execStatus tag body s
  | .paramSet tag body => Sys2Proof.Machine.execParamSet tag body s
  | .paramGet tag body => Sys2Proof.Machine.execParamGet tag body s
  | .start tag body => Sys2Proof.Machine.execStart tag body s
  | .stopFinish tag body => Sys2Proof.Machine.execStopFinish tag body s
  | .stopDiscard tag body => Sys2Proof.Machine.execStopDiscard tag body s
  | .restart tag body => Sys2Proof.Machine.execRestart tag body s
  | .sync tag body => Sys2Proof.Machine.execSync tag body s
  | .timeSet tag body => Sys2Proof.Machine.execTimeSet tag body s
  | .routeSet tag body => Sys2Proof.Machine.execRouteSet tag body s
  | .routeGet tag body => Sys2Proof.Machine.execRouteGet tag body s
  | .pilotOpen tag body => Sys2Proof.Machine.execPilotOpen tag body s
  | .pilotWords tag body => Sys2Proof.Machine.execPilotWords tag body s
  | .pilotClose tag body => Sys2Proof.Machine.execPilotClose tag body s
  | .fleetSet tag body => Sys2Proof.Machine.execFleetSet tag body s
  | .fleetGet tag body => Sys2Proof.Machine.execFleetGet tag body s
  | .arm tag body => Sys2Proof.Machine.execArm tag body s
  | .post tag body => Sys2Proof.Machine.execPost tag body s
  | .schedule tag body => Sys2Proof.Machine.execSchedule tag body s
  | .cancel tag body => Sys2Proof.Machine.execCancel tag body s
  | .closeVpWait tag body => Sys2Proof.Machine.execCloseVpWait tag body s
  | .closeVpNow tag body => Sys2Proof.Machine.execCloseVpNow tag body s
  | .faultRead tag body => Sys2Proof.Machine.execFaultRead tag body s
  | .unknownKind kind tag body => Sys2Proof.Machine.execUnknownKind kind tag body s
  | .hostFrame bytes => Sys2Proof.Machine.execHostFrame bytes s
  | .transmissionStart => Sys2Proof.Machine.execTransmissionStart s
  | .transmissionEnd => Sys2Proof.Machine.execTransmissionEnd s
  | .transmitHold line level => Sys2Proof.Machine.execTransmitHold line level s
  | .blockFrame piece => Sys2Proof.Machine.execBlockFrame piece s
  | .sampleTick => Sys2Proof.Machine.execSampleTick s
  | .holdoverDeadline => Sys2Proof.Machine.execHoldoverDeadline s
  | .scheduleCompare => Sys2Proof.Machine.execScheduleCompare s
  | .pulseEnd line => Sys2Proof.Machine.execPulseEnd line s
  | .ppsEdge line level => Sys2Proof.Machine.execPpsEdge line level s
  | .timeBreak line level => Sys2Proof.Machine.execTimeBreak line level s
  | .correlationPassEnd => Sys2Proof.Machine.execCorrelationPassEnd s
  | .jobCompletion => Sys2Proof.Machine.execJobCompletion s
  | .powerUp => Sys2Proof.Machine.execPowerUp s
  | .resetPin => Sys2Proof.Machine.execResetPin s
  | .coldResetComplete sizeCode position => Sys2Proof.Machine.execColdResetComplete sizeCode position s

end Sys2Proof.Machine
end

