-- ==== Sys2Proof/Safety.lean ====
section
/-! DEFINITION. The terms claims use: when a request is taken, what a reply leaves, what the rules' own steps leave (an event on the lines,
a placement, an offered report, the arbiters' decisions, a close, a drop, a compare, an entry, a drain test), clean tables, resets and the
invariants of the block. -/

namespace Sys2Proof.Machine

/-! ### Requests -/

/-- The decoder takes the frame `f` next: no cold reset holds the part, `f` is the head of the receive buffer with `rest` behind it, and
the notice queue has a free place (R146). -/
def Taken (f : RxFrame) (rest : List RxFrame) (s : State) : Prop :=
  s.mode.held = false ∧ s.link.rxBuf = f :: rest ∧ s.link.notices.length < 64

/-- No check error stands in the sweep list or the context table, and none has been found (R82, R113). -/
def Clean (s : State) : Prop := s.checkHit = false ∧ s.listBad = false ∧ s.ctxsBad = false

/-- Nothing differs but the host link and the states of the output lines. -/
def OnlyLinkLines (s t : State) : Prop := t = { s with link := t.link, router := { s.router with outputs := t.router.outputs } }

/-- Output lines whose source is not in the list are as they were (R54). -/
def LinesKept (srcs : List Source) (s t : State) : Prop :=
  ∀ i : Fin 4, s.router.outputs[i.val].source ∉ srcs → t.router.outputs[i.val] = s.router.outputs[i.val]

/-- Every output line keeps its route entry: source, form, width and polarity (R54). -/
def RoutesKept (s t : State) : Prop :=
  ∀ i : Fin 4, t.router.outputs[i.val].source = s.router.outputs[i.val].source ∧
    t.router.outputs[i.val].form = s.router.outputs[i.val].form ∧
    t.router.outputs[i.val].width = s.router.outputs[i.val].width ∧
    t.router.outputs[i.val].polarity = s.router.outputs[i.val].polarity

/-- An output line through a tick that brings it no event: a running count falls by 1, and the tick that ends it deasserts (R55). -/
def tickedLine (e : OutputEntry) : OutputEntry :=
  { e with count := e.count - 1, asserted := e.asserted && decide (e.count ≠ 1) }

/-- The holdover deadline D (R46). -/
def deadlineOf (s : State) : SampleIndex := s.time.a + BitVec.ofNat 48 (s.sps * s.mode.params.holdover + s.sps / 2)

/-- No output line changes unless it follows a source of the list, and no route entry changes (R54). -/
def LinesFollow (srcs : List Source) (s t : State) : Prop := LinesKept srcs s t ∧ RoutesKept s t

/-- The host link after the decoder has taken `f`: it left the buffer and the accepted-request count rose by 1 (R146, R147). -/
def takenLink (rest : List RxFrame) (s : State) : HostLink :=
  { s.link with rxBuf := rest, accepted := s.link.accepted + 1 }

/-- The state once the decoder has taken the head of the buffer (R146, R147). -/
def taken (rest : List RxFrame) (s : State) : State := s.withLink (takenLink rest s)

/-- A message can start: nothing is in transmission, the transmit hold is deasserted, no cold reset holds the part and no check error has
ended the handling (R152, R154, R169). -/
def LineFree (s : State) : Prop := s.mode.held = false ∧ s.checkHit = false ∧ s.link.tx = none ∧ s.transmitHold = false

/-- A link with an entry placed on it in the state: at the tail of the queue, or, with the queue empty and the line free, started at once
(R148, R152). -/
def joined (s : State) (n : Notice) (l : HostLink) : HostLink :=
  if s.mode.held = false ∧ s.checkHit = false ∧ s.transmitHold = false ∧ l.tx = none ∧ l.notices = [] then
    { l with tx := some (.notice n) }
  else { l with notices := l.notices ++ [n] }

/-- The host link after the reports have been offered in order: nothing else differs from the link as it stood (R149 to R151). -/
def offeredLink (rs : List Report) (s : State) : HostLink := (rs.foldl (fun t r => offerReport r t) s).link

/-- The request `f` has been taken and answered by one reply, with nothing else placed: `f` left the buffer, the accepted-request
count rose by 1, the reply joined the tail, or was started at once (R3, R147, R152). -/
def Answered (f : RxFrame) (rest : List RxFrame) (st : Status) (contents : List Byte) (s t : State) : Prop :=
  t.link = joined t (.reply f.kind f.tag st contents) (takenLink rest s)

/-- The request `f` has been taken, the reports offered in order, and the reply placed behind them (R147, R149). -/
def AnsweredAfter (rs : List Report) (f : RxFrame) (rest : List RxFrame) (st : Status) (contents : List Byte) (s t : State) : Prop :=
  t.link = joined t (.reply f.kind f.tag st contents) (offeredLink rs (taken rest s))

/-- The request was answered and changed nothing but the link, and the lines that follow NOTICE HIGH. -/
def AnsweredOnly (f : RxFrame) (rest : List RxFrame) (st : Status) (contents : List Byte) (s t : State) : Prop :=
  Answered f rest st contents s t ∧ OnlyLinkLines s t ∧ LinesFollow [.noticeHigh] s t

/-! ### Events on the output lines (R54, R55) -/

/-- An event of a pulse source reaches a line: a toggle turns it, any other form asserts it with its width. -/
def eventLine (e : OutputEntry) : OutputEntry :=
  { e with asserted := if e.form = .toggle then !e.asserted else true, count := if e.form = .toggle then e.count else e.width }

/-- The rise of a level source reaches a line: a toggle turns it, any other form asserts it, a pulse with its width. -/
def riseLine (e : OutputEntry) : OutputEntry :=
  { e with asserted := if e.form = .toggle then !e.asserted else true, count := if e.form = .pulse then e.width else e.count }

/-- The fall of a level source deasserts a line of form LEVEL. -/
def fallLine (e : OutputEntry) : OutputEntry := { e with asserted := if e.form = .level then false else e.asserted }

/-- Nothing differs but the lines that follow the source, each changed by `g`. -/
def LinesBecome (g : OutputEntry → OutputEntry) (src : Source) (s t : State) : Prop :=
  t = { s with router := { s.router with outputs := t.router.outputs } } ∧
  ∀ i : Fin 4, t.router.outputs[i.val] =
    if s.router.outputs[i.val].source = src then g s.router.outputs[i.val] else s.router.outputs[i.val]

/-- A pulse source is raised on every line that follows it. -/
def Raised (src : Source) (s t : State) : Prop := LinesBecome eventLine src s t
/-- A level source turns true. -/
def Rose (src : Source) (s t : State) : Prop := LinesBecome riseLine src s t
/-- A level source turns false. -/
def Fell (src : Source) (s t : State) : Prop := LinesBecome fallLine src s t

/-! ### Placements, reports and the transmit arbiter (R148 to R153) -/

/-- An entry is placed: with the queue empty and the line free it is started at once; otherwise it joins the tail, and the placement that
brings the queue to 48 raises NOTICE HIGH (R148, R152). -/
def Placed (n : Notice) (s t : State) : Prop :=
  (LineFree s ∧ s.link.notices = [] ∧ t = s.withLink { s.link with tx := some (.notice n) }) ∨
  (¬ (LineFree s ∧ s.link.notices = []) ∧
    let u := s.withLink { s.link with notices := s.link.notices ++ [n] }
    if s.link.notices.length = 47 then Rose .noticeHigh u t else t = u)

/-- The reply to `f` is placed (R146). -/
def Replied (f : RxFrame) (st : Status) (contents : List Byte) (s t : State) : Prop :=
  Placed (.reply f.kind f.tag st contents) s t

/-- A report is offered: not generated while its kind is disabled (R151); lost at 56 entries (R149); otherwise placed, behind REPORTS LOST
where reports have been lost, and then judged anew (R150). -/
def Offered (r : Report) (s t : State) : Prop :=
  (s.mode.params.mask.getLsbD (reportIndex r) = false ∧ t = s) ∨
  (s.mode.params.mask.getLsbD (reportIndex r) = true ∧ 56 ≤ s.link.notices.length ∧
    t = s.withLink { s.link with lost := min 65535 (s.link.lost + 1) }) ∨
  (s.mode.params.mask.getLsbD (reportIndex r) = true ∧ s.link.notices.length < 56 ∧ s.link.lost = 0 ∧ Placed (.report 0 r) s t) ∨
  (s.mode.params.mask.getLsbD (reportIndex r) = true ∧ s.link.notices.length < 56 ∧ s.link.lost ≠ 0 ∧
    ∃ u, Placed (.report 0 (.reportsLost s.link.lost)) s u ∧
      let v := u.withLink { u.link with lost := 0 }
      if 56 ≤ v.link.notices.length then t = v.withLink { v.link with lost := 1 } else Placed (.report 0 r) v t)

/-- The transmit arbiter decides: with the line free it starts the head of the queue, whose departure at 48 entries ends NOTICE HIGH, or
else the pending TRACE, at whose start the emitter prepares the next channel's; otherwise nothing changes (R135, R148, R152). -/
def Decided (s t : State) : Prop :=
  (¬ LineFree s ∧ t = s) ∨
  (LineFree s ∧ ∃ n rest, s.link.notices = n :: rest ∧
    let u := s.withLink { s.link with notices := rest, tx := some (.notice n) }
    if rest.length = 47 then Fell .noticeHigh u t else t = u) ∨
  (LineFree s ∧ s.link.notices = [] ∧ (∀ cu, s.emitter.cursor = some cu → cu.waiting = none) ∧ t = s) ∨
  (LineFree s ∧ s.link.notices = [] ∧ ∃ cu tr, s.emitter.cursor = some cu ∧ cu.waiting = some tr ∧
    t = (s.withLink { s.link with tx := some (.trace tr) }).withEmitter { s.emitter with
      cursor := some
        (if cu.next < s.channels then
          { cu with sending := true, next := cu.next + 1, waiting := some (traceOf s (s.ctx cu.ctx) cu.next) }
         else { cu with sending := true, waiting := none }) })

/-- An input line stands at a level; where that ends the transmit hold the arbiter decides at once (R53, R153). -/
def PinSet (line : Fin 4) (level : Bool) (s t : State) : Prop :=
  let u := s.withRouter { s.router with pins := s.router.pins.set line.val level }
  if s.transmitHold = true ∧ u.transmitHold = false then Decided u t else t = u

/-! ### The emitter and the closes of contexts (R125, R126, R132, R136) -/

/-- The emitter begins the context: the cursor stands on it with the TRACE of channel 0 pending, which is offered to the arbiter (R132,
R133, R135). -/
def EmissionBegins (i : Fin 4) (s t : State) : Prop :=
  Decided (s.withEmitter { s.emitter with
    cursor := some { ctx := i, next := 1, waiting := some (traceOf s (s.ctx i) 0), sending := false, sent := 0 } }) t

/-- The context becomes FREE, keeping its generation, and leaves the open order (R120, R126, R129, R136). -/
def Frees (i : Fin 4) (s t : State) : Prop :=
  t = s.withStack
    { ctxs := s.stack.ctxs.set i.val
        { state := .free, vp := 0, gen := (s.ctx i).gen, target := 0, k := 0, attached := 0, folded := 0, dropped := 0, records := []
          checkBad := false }
      openOrder := s.stack.openOrder.filter fun j => j ≠ i }

/-- VP DONE of the context is offered with the traces sent, and its event raised (R126, R136, R137). -/
def VpDone (i : Fin 4) (traces : Nat) (s t : State) : Prop :=
  ∃ u, Offered (.vpDone (s.ctx i).vp (s.ctx i).gen i (s.ctx i).target (s.ctx i).k (s.ctx i).folded (s.ctx i).dropped traces) s u ∧
    Raised .vpDone u t

/-- The context closes: with nothing folded to FREE with VP DONE; otherwise to CLOSING at the tail of the closing order, where the emitter
begins it when it was IDLE with the order empty (R125, R126, R132). -/
def Closes (i : Fin 4) (s t : State) : Prop :=
  ((s.ctx i).folded = 0 ∧ ∃ u, VpDone i 0 s u ∧ Frees i u t) ∨
  ((s.ctx i).folded ≠ 0 ∧
    let u := (s.withCtx i { s.ctx i with state := .closing }).withEmitter { s.emitter with closing := s.emitter.closing ++ [i] }
    if s.emitter.closing = [] ∧ s.emitter.cursor = none then EmissionBegins i u t else t = u)

/-- The close condition (R125). -/
def CloseDue (c : Context) : Prop :=
  c.attached = 0 ∧ ((c.state = .opened ∧ c.folded + c.dropped = c.target) ∨ c.state = .closePending)

/-- The close condition is applied to the context (R125). -/
def CloseTested (i : Fin 4) (s t : State) : Prop := (CloseDue (s.ctx i) ∧ Closes i s t) ∨ (¬ CloseDue (s.ctx i) ∧ t = s)

/-- One thing after another, in the order of the list. -/
def Chain {α : Type} (step : α → State → State → Prop) : List α → State → State → Prop
  | [], s, t => t = s
  | a :: l, s, t => ∃ u, step a s u ∧ Chain step l u t

/-! ### Drops and the drain test (R77 to R80, R160) -/

/-- A listed sweep is dropped: its job, if it has one, is abandoned, it leaves the list, its context counts it dropped, SWEEP DROPPED is
offered and its event raised, RING LATE too for LATE, and the close condition is applied, except in a STOP with DISCARD (R77, R159). -/
def Dropped (cause : DropCause) (closes : Bool) (r : SweepRecord) (s t : State) : Prop :=
  let c := { s.ctx r.ctx with attached := (s.ctx r.ctx).attached - 1, dropped := (s.ctx r.ctx).dropped + 1 }
  ∃ u v w x,
    u = { s with
      sweeps := { s.sweeps with recs := s.listed.filter fun q => q.id ≠ r.id }
      engine := if r.state = .correlating then { job := none, snapshot := [], scratch := [] } else s.engine
      stack := { s.stack with ctxs := s.stack.ctxs.set r.ctx.val c } } ∧
    Offered (.sweepDropped r.id r.fleet r.vp r.t0 cause (some r.state) (some r.ctx)) u v ∧ Raised .sweepDropped v w ∧
    (if cause = .late then Raised .ringLate w x else x = w) ∧
    (if closes then CloseTested r.ctx x t else t = x)

/-- The drain test: in DRAINING with the list empty and every context FREE the state becomes SETUP without a drain mode, and DRAINED is
offered with the mode that was in force and N (R160). -/
def DrainTested (s t : State) : Prop :=
  let due := s.mode.op = .draining ∧ s.listed = [] ∧ ∀ i, (s.ctx i).state = .free
  (due ∧ Offered (.drained (s.mode.drain.getD .finish) s.time.n) (s.withMode { s.mode with op := .setup, drain := none }) t) ∨
  (¬ due ∧ t = s)

/-! ### Sweep entries -/

/-- The context collects sweeps of the VP: OPEN or CLOSE PENDING and holding it (R122). -/
def CollectsVp (s : State) (vp : VpId) (i : Fin 4) : Prop :=
  ((s.ctx i).state = .opened ∨ (s.ctx i).state = .closePending) ∧ (s.ctx i).vp = vp

/-- The lowest-numbered context that collects sweeps of the VP. -/
def HoldsVp (s : State) (vp : VpId) (i : Fin 4) : Prop := CollectsVp s vp i ∧ ∀ j : Fin 4, j.val < i.val → ¬ CollectsVp s vp j

/-- The lowest-numbered FREE context (R123). -/
def FirstFree (s : State) (i : Fin 4) : Prop :=
  (s.ctx i).state = .free ∧ ∀ j : Fin 4, j.val < i.val → (s.ctx j).state ≠ .free

/-- The window has moved above the block of T0 (R9, R69). -/
def BelowWindow (s : State) (t0 : SampleIndex) : Prop := ∃ h, s.ring.head = some h ∧ t0.toNat / 32 < h - 2047

/-- Checks 2 to 4 of an entry pass (R69). -/
def ChecksPass (s : State) (f : Fin 4) (t0 : SampleIndex) : Prop :=
  s.listed.length < 16 ∧ (s.slot (s.fleet f).slot).state = .valid ∧ ¬ BelowWindow s t0

/-- Why an entry is refused by checks 2 to 5, no context being force-closed for it (R69, R122, R124). -/
def EntryRefused (s : State) (f : Fin 4) (vp : VpId) (t0 : SampleIndex) : Refused → Prop
  | .full => 16 ≤ s.listed.length
  | .pilot => s.listed.length < 16 ∧ (s.slot (s.fleet f).slot).state ≠ .valid
  | .late => s.listed.length < 16 ∧ (s.slot (s.fleet f).slot).state = .valid ∧ BelowWindow s t0
  | .foldFull => ChecksPass s f t0 ∧ ∃ i, HoldsVp s vp i ∧ ((s.ctx i).state = .closePending ∨
      ((s.ctx i).k = (s.fleet f).k ∧ (s.ctx i).attached + (s.ctx i).folded + (s.ctx i).dropped = (s.ctx i).target))
  | .mismatch => ChecksPass s f t0 ∧ ∃ i, HoldsVp s vp i ∧ (s.ctx i).state = .opened ∧ (s.ctx i).k ≠ (s.fleet f).k
  | .noContext => ChecksPass s f t0 ∧ (∀ i, ¬ CollectsVp s vp i) ∧ (∀ i, (s.ctx i).state ≠ .free) ∧
      ∀ i ∈ s.stack.openOrder, ((s.ctx i).state = .opened ∨ (s.ctx i).state = .closePending) → (s.ctx i).attached ≠ 0

/-- The context a force-close takes: collecting, with nothing attached, nearest the head of the open order (R124). -/
def ForceCandidate (s : State) (i : Fin 4) : Prop :=
  ((s.ctx i).state = .opened ∨ (s.ctx i).state = .closePending) ∧ (s.ctx i).attached = 0 ∧
  ∃ before after, s.stack.openOrder = before ++ i :: after ∧
    ∀ j ∈ before, ((s.ctx j).state = .opened ∨ (s.ctx j).state = .closePending) → (s.ctx j).attached ≠ 0

/-- Why an entry is refused by checks 2 to 5, and what the refusal leaves: nothing, or the force-close to CLOSING that stands while the
entry is answered NO CONTEXT (R69, R124). -/
def EntryTurned (s : State) (f : Fin 4) (vp : VpId) (t0 : SampleIndex) (why : Refused) (u : State) : Prop :=
  (EntryRefused s f vp t0 why ∧ u = s) ∨
  (why = .noContext ∧ ChecksPass s f t0 ∧ (∀ i, ¬ CollectsVp s vp i) ∧ (∀ i, (s.ctx i).state ≠ .free) ∧
    ∃ i, ForceCandidate s i ∧ (s.ctx i).folded ≠ 0 ∧ Closes i s u)

/-- A context can be resolved for the sweep: the one that collects its VP takes it, or one is FREE, or one is freed by a force-close (R122
to R124). -/
def Resolvable (s : State) (f : Fin 4) (vp : VpId) : Prop :=
  (∃ i, HoldsVp s vp i ∧ (s.ctx i).state = .opened ∧ (s.ctx i).k = (s.fleet f).k ∧
    (s.ctx i).attached + (s.ctx i).folded + (s.ctx i).dropped ≠ (s.ctx i).target) ∨
  ((∀ j, ¬ CollectsVp s vp j) ∧
    ((∃ i, (s.ctx i).state = .free) ∨ ∃ i, ForceCandidate s i ∧ (s.ctx i).folded = 0))

/-- A FREE context is opened for the fleet and the VP with one sweep attached, at its next generation, and joins the tail of the open order
(R120, R123). -/
def Opens (i f : Fin 4) (vp : VpId) (s t : State) : Prop :=
  t = s.withStack
    { ctxs := s.stack.ctxs.set i.val
        { state := .opened, vp := vp, gen := (s.ctx i).gen + 1, target := (s.fleet f).target, k := (s.fleet f).k, attached := 1
          folded := 0, dropped := 0, records := [], checkBad := false }
      openOrder := s.stack.openOrder ++ [i] }

/-- The context `i` is resolved for the sweep, which is attached to it: the collecting one of its VP, the lowest-numbered FREE one, or,
with none FREE, the one a force-close frees with VP DONE (R122 to R124, R126). -/
def Attaches (f : Fin 4) (vp : VpId) (i : Fin 4) (s t : State) : Prop :=
  (HoldsVp s vp i ∧ t = s.withCtx i { s.ctx i with attached := (s.ctx i).attached + 1 }) ∨
  ((∀ j, ¬ CollectsVp s vp j) ∧ FirstFree s i ∧ Opens i f vp s t) ∨
  ((∀ j, ¬ CollectsVp s vp j) ∧ (∀ j, (s.ctx j).state ≠ .free) ∧ ForceCandidate s i ∧ (s.ctx i).folded = 0 ∧
    ∃ u, Closes i s u ∧ Opens i f vp u t)

/-- The id an entry takes: the first from the next id upward, 65,535 followed by 1, that no listed sweep has (R67). -/
def FreshId (s : State) (id : Nat) : Prop :=
  ∃ k, id = (s.sweeps.nextId - 1 + k) % 65535 + 1 ∧ (∀ r ∈ s.listed, r.id ≠ id) ∧
    ∀ m < k, ∃ r ∈ s.listed, r.id = (s.sweeps.nextId - 1 + m) % 65535 + 1

/-- The record an entry makes, WAITING and without a compare point (R66). -/
def enteredRecord (s : State) (id : Nat) (o : Origin) (f : Fin 4) (vp : VpId) (t0 : SampleIndex) (i : Fin 4) : SweepRecord :=
  { id := id, origin := o, fleet := f, vp := vp, t0 := t0, slot := (s.fleet f).slot, lp := (s.slot (s.fleet f).slot).lp
    shift := (s.slot (s.fleet f).slot).shift, k := (s.fleet f).k, edit := (s.fleet f).edit, reject := (s.fleet f).reject
    ctx := i, state := .waiting, first := t0.toNat / 32
    last := (t0.toNat + (s.slot (s.fleet f).slot).lp + (s.fleet f).k - 2) / 32, compare := none, checkBad := false }

/-- The record stands in the new list behind those whose T0 is at most its own, before the first whose T0 is greater (R68). -/
def InsertedAt (r : SweepRecord) (l l' : List SweepRecord) : Prop :=
  ∃ a b, l = a ++ b ∧ l' = a ++ r :: b ∧ (∀ x ∈ a, x.t0.toNat ≤ r.t0.toNat) ∧ ∀ x ∈ b.head?, r.t0.toNat < x.t0.toNat

/-- Block `b` is valid in slice group `g` (R9). -/
def BlockValid (s : State) (g b : Nat) : Prop :=
  ∃ h, s.ring.head = some h ∧ h - 2047 ≤ b ∧ b ≤ h ∧ sparseGet false s.ring.valid (g * 2048 + b % 2048) = true

/-- One of the two readiness conditions holds (R74). -/
def SpanReady (s : State) (r : SweepRecord) : Prop :=
  ∃ h, s.ring.head = some h ∧
    ((∀ g < s.groups, ∀ b, r.first ≤ b → b ≤ r.last → BlockValid s g b) ∨ r.last + s.mode.params.margin ≤ h)

/-- The piece completes a frame of these bytes: it is all of the frame, or the end of the one in reception (R4; log entry 22). -/
def FrameWhole (s : State) (piece bytes : List Byte) : Prop :=
  (s.ring.reception = .idle ∧ bytes = piece) ∨ ∃ before, s.ring.reception = .receiving before ∧ bytes = before ++ piece

/-- The samples of a block frame: sample i of lane l is the signed 24-bit field at offset 8 + 96 l + 3 i, its least significant byte first,
and stands at place 32 l + i (R8, R177). -/
def SamplesRead (bytes : List Byte) (xs : List RingSample) : Prop :=
  xs.length = 2048 ∧ ∀ l < 64, ∀ i < 32,
    let at' (k : Nat) : Nat := (bytes.getD (8 + 96 * l + 3 * i + k) 0).toNat
    let n := at' 0 + 256 * at' 1 + 65536 * at' 2
    (xs.getD (32 * l + i) 0).toInt = if n < 2 ^ 23 then (n : Int) else (n : Int) - 2 ^ 24

/-- A listed record before and after a readiness test on the state (R74, R75). -/
def Tested (u : State) (r r' : SweepRecord) : Prop :=
  (r.state = .waiting ∧ SpanReady u r ∧ r' = { r with state := .ready }) ∨ (¬ (r.state = .waiting ∧ SpanReady u r) ∧ r' = r)

/-- Every WAITING sweep is tested for readiness, in list order (R18, R75). -/
def AllTested (s t : State) : Prop := List.Forall₂ (Tested s) s.listed t.listed ∧ t = s.withListed t.listed

/-- The sweep list with the record in its place under the id and the next id moved on (R67, R68). -/
def Lists (id : Nat) (r : SweepRecord) (s t : State) : Prop :=
  InsertedAt r s.listed t.listed ∧ t = s.withSweeps { recs := t.listed, nextId := if 65535 ≤ id then 1 else id + 1 }

/-- SWEEP ENTERED of the record is offered (R72). -/
def EnteredOffered (r : SweepRecord) (s t : State) : Prop :=
  Offered (.sweepEntered r.id r.origin r.fleet r.vp r.t0 r.ctx (s.ctx r.ctx).gen) s t

/-- An entry without a compare point is admitted as `r'`: resolved, listed WAITING under the first free id, SWEEP ENTERED offered, and
tested for readiness (R66 to R69, R72, R74, R122 to R124). -/
def EntersWaiting (o : Origin) (f : Fin 4) (vp : VpId) (t0 : SampleIndex) (r' : SweepRecord) (s t : State) : Prop :=
  ∃ id i u v w, FreshId s id ∧ Attaches f vp i s u ∧
    let r := enteredRecord s id o f vp t0 i
    Lists id r u v ∧ EnteredOffered r v w ∧ Tested w r r' ∧ InsertedAt r' s.listed t.listed ∧ t = w.withListed t.listed

/-- The engine's arbiter looks: with the engine IDLE it begins the first READY sweep in list order, which becomes CORRELATING with the gap
snapshot of its span; otherwise nothing changes (R84, R86, R87). -/
def EngineLooks (s t : State) : Prop :=
  ((s.engine.job.isSome = true ∨ ∀ r ∈ s.listed, r.state ≠ .ready) ∧ t = s) ∨
  (s.engine.job = none ∧ ∃ a r b, s.listed = a ++ r :: b ∧ r.state = .ready ∧ (∀ q ∈ a, q.state ≠ .ready) ∧
    let r' := { r with state := .correlating }
    t = (s.withListed (a ++ r' :: b)).withEngine
      { job := some { sweep := r', pass := .correlation, done := 0, elapsed := 0 }, snapshot := t.engine.snapshot, scratch := [] } ∧
    t.engine.snapshot.length = s.groups ∧
    ∀ g < s.groups, (t.engine.snapshot.getD g []).length = r.last + 1 - r.first ∧
      ∀ k, r.first + k ≤ r.last → ((t.engine.snapshot.getD g []).getD k false = true ↔ BlockValid s g (r.first + k)))

/-- The compare of a SCHEDULED sweep is taken: START PULSE of its fleet is raised, it becomes WAITING without a compare point, SWEEP ENTERED
is offered, and it is tested for readiness (R50, R72). -/
def Fired (r : SweepRecord) (s t : State) : Prop :=
  ∃ a b r' u v, s.listed = a ++ r :: b ∧ Raised (.startPulse r.fleet) s u ∧
    let q := { r with state := .waiting, compare := none }
    EnteredOffered q (u.withListed (a ++ q :: b)) v ∧ Tested s q r' ∧ t = v.withListed (a ++ r' :: b)

/-! ### The job (R88 to R95, R102 to R107) -/

/-- The sample a job reads for index `n` of a lane of a slice group: 0 in a block the gap snapshot calls missing, else the sample at
n mod 32 of the lane in slot floor(n / 32) mod 2,048 (R88). -/
def readSample (s : State) (r : SweepRecord) (g lane n : Nat) : Int :=
  if (s.engine.snapshot.getD g []).getD (n / 32 - r.first) false = true then
    ((sparseGet [] s.ring.samples (g * 2048 + n / 32 % 2048)).getD (32 * lane + n % 32) 0).toInt
  else 0

/-- The record the correlation pass completes for slice channel `c`: for each lag the sum of the products of the pilot and the samples from
that lag on, scaled by the shift with rounding and clamped to 32 bits, the count of the clamped samples, and the GAP flag of its group
(R88 to R95). -/
def Correlated (s : State) (r : SweepRecord) (c : Nat) (q : ChannelRecord) : Prop :=
  let p := (s.slot r.slot).samples.map BitVec.toInt
  let sum (k : Nat) : Int := ∑ i ∈ Finset.range r.lp, p.getD i 0 * readSample s r (c / 64) (c % 64) (r.t0.toNat + k + i)
  let v (k : Nat) : Int := if r.shift = 0 then sum k else roundQuot (sum k) (2 ^ r.shift)
  q.findings = none ∧ q.trace.length = r.k ∧ (q.gap = true ↔ false ∈ s.engine.snapshot.getD (c / 64) []) ∧
  q.saturated = ((List.range r.k).filter fun k => decide (v k < -2147483648 ∨ 2147483647 < v k)).length ∧
  ∀ k < r.k, q.trace[k]? = some (max (-2147483648) (min 2147483647 (v k)))

/-- A channel's record as the editing pass decides it (R107); the findings are those of EditingFinds. -/
def Decides (s : State) (r : SweepRecord) (q q' : ChannelRecord) : Prop :=
  q' = { q with findings := some (findingsOf r.edit r.reject s.mode.params.gapPolicy (r.k / 64) q) }

/-- The scratch trace store once the pass has finished its channels below `m`: those below `done` as they were (R94, R95). -/
def PassFinished (s : State) (j : Job) (m : Nat) (scratch : List ChannelRecord) : Prop :=
  match j.pass with
  | .correlation => scratch.length = m ∧ (∀ c < j.done, scratch[c]? = s.engine.scratch[c]?) ∧
      ∀ c, j.done ≤ c → c < m → ∃ q, scratch[c]? = some q ∧ Correlated s j.sweep c q
  | .editing => scratch.length = s.engine.scratch.length ∧
      ∀ c q, s.engine.scratch[c]? = some q → ∃ q', scratch[c]? = some q' ∧
        if j.done ≤ c ∧ c < m then Decides s j.sweep q q' else q' = q

/-- A job's stores match its place: a correlation pass holds the records of the channels finished, with its pilot whole, an editing pass
those of every channel (R37, R66, R94, R95). -/
def JobStored (s : State) (j : Job) : Prop :=
  1 ≤ j.sweep.lp ∧ 1 ≤ j.sweep.k ∧ (s.slot j.sweep.slot).samples.length = j.sweep.lp ∧ j.done ≤ s.channels ∧
  s.engine.scratch.length = match j.pass with
    | .correlation => j.done
    | .editing => s.channels

/-! ### The sample tick (R41, R46, R50, R55; log entry 4) -/

/-- A running job through a tick: its channel count rises with the time the pass has run, by R85's rates, short of the last channel, whose
end is an event of its own (R85, R95; log entry 5). -/
def JobTicked (s t : State) : Prop :=
  match s.engine.job with
  | none => t = s
  | some j =>
    let time := j.elapsed + 1
    let due := match j.pass with
      | .correlation => time * 2 ^ 33 / (s.sps * (j.sweep.k * j.sweep.lp))
      | .editing => time * 2 ^ 28 / (s.sps * j.sweep.k)
    let m := max j.done (min (s.channels - 1) due)
    t = s.withEngine { s.engine with job := some { j with done := m, elapsed := time }, scratch := t.engine.scratch } ∧
    (JobStored s j → PassFinished s j m t.engine.scratch)

/-- A sample tick begins: the running counts fall, N rises by 1 modulo 2^48, and LOCKED turns HOLDOVER at the deadline with its level and its
report (R41, R46, R48, R55). -/
def TickBegins (s t : State) : Prop :=
  ∃ u, (∀ i : Fin 4, u.router.outputs[i.val] = tickedLine s.router.outputs[i.val]) ∧
    u = { s with router := { s.router with outputs := u.router.outputs }, time := { s.time with n := s.time.n + 1 } } ∧
    if s.time.lock = .locked ∧ s.time.n + 1 = deadlineOf s then
      ∃ h, Rose .holdover (u.withTime { u.time with lock := .holdover }) h ∧
        Offered (.timebase .holdover 0 (s.time.n + 1) .holdover) h t
    else t = u

/-- One sample tick, whole: it begins, the job goes on, the compares N reaches are taken in list order, and the engine's arbiter looks (R41,
R46, R48, R50, R55). -/
def Ticked (s t : State) : Prop :=
  ∃ v w x, TickBegins s v ∧ JobTicked v w ∧
    Chain Fired (s.listed.filter fun r => decide (r.state = .scheduled ∧ r.compare = some (s.time.n + 1).toNat)) w x ∧
    EngineLooks x t

/-! ### The PPS edge (R44, R45) -/

/-- The step that takes N to the nearest multiple of the rate, an exact half upward (R44). -/
def alignStep (s : State) : Int :=
  let r := s.time.n.toNat % s.sps
  if r = 0 then 0 else if r < s.sps / 2 then -r else ((s.sps - r : Nat) : Int)

/-- A PPS edge on the line: N is aligned modulo 2^48 and A takes it, the lock state becomes LOCKED, with the fall of the HOLDOVER level, and
TIMEBASE is offered, LOCKED or STEP, but not for a step of 0 in LOCKED (R44, R45, R48). -/
def Aligned (line : Fin 4) (level : Bool) (s t : State) : Prop :=
  let n := BitVec.ofInt 48 ((s.time.n.toNat : Int) + alignStep s)
  let u := { s with time := { n := n, lock := .locked, a := n }
                    router := { s.router with pins := s.router.pins.set line.val level } }
  ∃ v, (if s.time.lock = .holdover then Fell .holdover u v else v = u) ∧
    if s.time.lock = .locked ∧ alignStep s = 0 then t = v
    else Offered (.timebase (if s.time.lock = .locked then .step else .locked) (alignStep s) n .locked) v t

/-! ### Resets -/

/-- The part as a cold reset with the cause holds it (R23, R39, R57, R58, R81, R82, R101, R139, R154, R164, R170); the straps wait for
the completion (R165). -/
def ColdHeld (c : ResetCause) (s t : State) : Prop :=
  t.ring = { head := none, valid := [], samples := [], fault := none, accepted := 0, duplicates := 0, tooOld := 0
             reception := if s.ring.reception = .idle then .idle else .discarding } ∧
  (∀ i : Fin 8, t.slot i =
    { state := .empty, lp := 0, pos := 0, check := 0, shift := 0, failure := none, samples := [] }) ∧
  t.time = { n := 0, lock := .free, a := 0 } ∧
  (∀ i : Fin 4, t.router.inputs[i.val] = { role := .none, polarity := .activeHigh }) ∧
  (∀ i : Fin 4, t.router.outputs[i.val] =
    { source := .none, form := .pulse, width := 10, polarity := .activeHigh, asserted := false, count := 0 }) ∧
  t.router.pins = s.router.pins ∧
  (∀ f : Fin 4, (t.fleet f).slot.val = f.val ∧ (t.fleet f).k = 4096 ∧ (t.fleet f).edit = 0 ∧ (t.fleet f).reject = 128 ∧
    (t.fleet f).target = 1 ∧ (t.fleet f).lead = 0 ∧ (t.fleet f).offset = 0 ∧ (t.fleet f).arm = none) ∧
  t.sweeps = { recs := [], nextId := 1 } ∧
  t.engine = { job := none, snapshot := [], scratch := [] } ∧
  (∀ i : Fin 4, (t.ctx i).state = .free ∧ (t.ctx i).gen = 0) ∧ t.stack.openOrder = [] ∧
  t.emitter = { closing := [], cursor := none } ∧
  t.link = { receiver := .receiving, partialBytes := [], rxBuf := [], accepted := 0, huntDiscards := 0, notices := [], lost := 0,
             tx := none } ∧
  t.mode = { op := .setup, drain := none
             params := { interval := 2, margin := 16, gapPolicy := .fold, outputMode := .mean, holdover := 3, mask := 0xFFF }
             sizeCode := s.mode.sizeCode, position := s.mode.position, cause := c, held := true } ∧
  t.pending = s.pending

/-- The part after a warm restart with the cause and the tag of RESTARTED, which is placed as the only entry and, with the line free, started
at once (R24, R40, R57, R58, R81, R82, R101, R140, R152, R155, R164, R169). -/
def WarmRestarted (c : ResetCause) (tag : Byte) (s t : State) : Prop :=
  t.ring = { head := none, valid := [], samples := [], fault := none, accepted := 0, duplicates := 0, tooOld := 0
             reception := if s.ring.reception = .idle then .idle else .discarding } ∧
  t.pilots = s.pilots ∧ t.time = s.time ∧
  t.router.inputs = s.router.inputs ∧ t.router.pins = s.router.pins ∧
  (∀ i : Fin 4, t.router.outputs[i.val] =
    { s.router.outputs[i.val] with
      asserted := decide (s.router.outputs[i.val].form = .level ∧ s.router.outputs[i.val].source = .holdover ∧
        s.time.lock = .holdover)
      count := 0 }) ∧
  (∀ f : Fin 4, t.fleet f = { s.fleet f with arm := none }) ∧
  t.sweeps = { recs := [], nextId := 1 } ∧
  t.engine = { job := none, snapshot := [], scratch := [] } ∧
  (∀ i : Fin 4, (t.ctx i).state = .free ∧ (t.ctx i).gen = (s.ctx i).gen) ∧ t.stack.openOrder = [] ∧
  t.emitter = { closing := [], cursor := none } ∧
  t.link = joined t (.report tag (.restarted c))
    { receiver := .receiving, partialBytes := [], rxBuf := [], accepted := 0, huntDiscards := 0, notices := [], lost := 0
      tx := s.link.tx } ∧
  t.mode = { s.mode with op := .setup, drain := none, cause := c } ∧
  t.checkHit = false ∧ t.pending = s.pending

/-! ### Invariants -/

/-- Each of the roles but NONE is held by at most one input line (R52). -/
def RolesUnique (s : State) : Prop :=
  ∀ i j : Fin 4, s.router.inputs[i.val].role = s.router.inputs[j.val].role → s.router.inputs[i.val].role ≠ .none → i = j

/-- The arbiter has served: the engine is BUSY, or no listed sweep is READY (R84). -/
def ArbiterServed (s : State) : Prop := s.engine.job.isSome = true ∨ ∀ r ∈ s.listed, r.state ≠ .ready

/-- The two queues keep their capacities (R143, R148). -/
def QueuesBounded (s : State) : Prop := s.link.notices.length ≤ 64 ∧ s.link.rxBuf.length ≤ 8

/-- The sparse stores keep their canonical form (Machine/Memory.lean). -/
def StoresCanonical (s : State) : Prop :=
  sparseWf false s.ring.valid = true ∧ sparseWf [] s.ring.samples = true ∧
  ∀ i : Fin 4, sparseWf (freshRecord (s.ctx i).k) (s.ctx i).records = true

/-- The sweep list's own bounds: at most 16 records, ordered by T0, no two with the same id, ids and next id within 1..65,535 (R67,
R68). -/
def ListOrdered (s : State) : Prop :=
  s.listed.length ≤ 16 ∧ (s.listed.Pairwise fun a b => a.t0.toNat ≤ b.t0.toNat) ∧ (s.listed.Pairwise fun a b => a.id ≠ b.id) ∧
  (∀ r ∈ s.listed, 1 ≤ r.id ∧ r.id ≤ 65535) ∧ 1 ≤ s.sweeps.nextId ∧ s.sweeps.nextId ≤ 65535

/-- The parameters stay within the ranges of R161, and the three enables that cannot be cleared stay set (R151). -/
def ParamsInRange (s : State) : Prop :=
  s.mode.params.margin ≤ 255 ∧ 1 ≤ s.mode.params.holdover ∧ s.mode.params.holdover ≤ 60 ∧
  s.mode.params.mask.getLsbD 0 = true ∧ s.mode.params.mask.getLsbD 1 = true ∧ s.mode.params.mask.getLsbD 2 = true

/-- The engine is BUSY exactly when a listed sweep is CORRELATING, and that sweep is the job's (R83). -/
def EngineMatches (s : State) : Prop :=
  (∀ j, s.engine.job = some j → ∃ r ∈ s.listed, r.id = j.sweep.id ∧ r.state = .correlating) ∧
  (∀ r ∈ s.listed, r.state = .correlating → ∃ j, s.engine.job = some j ∧ j.sweep.id = r.id)

/-- Every listed sweep is attached to an OPEN or CLOSE PENDING context, and every context's attached count is the number of listed
sweeps attached to it (R121). -/
def Attached (s : State) : Prop :=
  (∀ r ∈ s.listed, (s.ctx r.ctx).state = .opened ∨ (s.ctx r.ctx).state = .closePending) ∧
  ∀ i : Fin 4, (s.ctx i).attached = s.listed.countP fun r => decide (r.ctx = i)

/-- The closing order holds each CLOSING context once and no other, and the emitter works on its head (R132). -/
def ClosingMatches (s : State) : Prop :=
  (∀ i : Fin 4, i ∈ s.emitter.closing ↔ (s.ctx i).state = .closing) ∧ s.emitter.closing.Nodup ∧
  ∀ cu, s.emitter.cursor = some cu → s.emitter.closing.head? = some cu.ctx

/-- The line never stands idle with something to send: while no cold reset holds the part and the transmit hold is deasserted, either a
message is in transmission, or the notice queue is empty and no TRACE is pending (R152, R153). -/
def LineServed (s : State) : Prop :=
  s.checkHit = false ∧ (s.mode.held = false → s.link.tx = none → s.transmitHold = false →
    s.link.notices = [] ∧ ∀ cu, s.emitter.cursor = some cu → cu.waiting = none)

/-- The fleet records stay within the ranges of R60. -/
def FleetsInRange (s : State) : Prop :=
  ∀ f : Fin 4, 256 ≤ (s.fleet f).k ∧ (s.fleet f).k ≤ 8192 ∧ (s.fleet f).k % 64 = 0 ∧ (s.fleet f).reject ≤ 128 ∧
    1 ≤ (s.fleet f).target ∧ (s.fleet f).target ≤ 32 ∧
    ((s.fleet f).edit = 0 ∨ (16 ≤ (s.fleet f).edit ∧ (s.fleet f).edit ≤ 4095))

/-- No context counts more sweeps than its fold target, and no VP has two collecting contexts (R121, R122). -/
def Budgeted (s : State) : Prop :=
  (∀ i : Fin 4, (s.ctx i).attached + (s.ctx i).folded + (s.ctx i).dropped ≤ (s.ctx i).target) ∧
  ∀ (vp : VpId) (i j : Fin 4), CollectsVp s vp i → CollectsVp s vp j → i = j

/-- A slot that is not EMPTY has a declared length in range, and its samples match its place; every listed sweep's pilot slot is VALID and
holds the sweep's pilot: length, samples and shift (R26, R27, R29, R37, R66). -/
def PilotsHeld (s : State) : Prop :=
  (∀ i : Fin 8, (s.slot i).samples.length ≤ (s.slot i).pos ∧
    ((s.slot i).state = .loading ∨ (s.slot i).state = .valid → (s.slot i).samples.length = (s.slot i).pos) ∧
    ((s.slot i).state = .valid → (s.slot i).pos = (s.slot i).lp) ∧ (s.slot i).pos ≤ (s.slot i).lp ∧
    ((s.slot i).state ≠ .empty → 256 ≤ (s.slot i).lp ∧ (s.slot i).lp ≤ 32768)) ∧
  ∀ r ∈ s.listed, (s.slot r.slot).state = .valid ∧ (s.slot r.slot).lp = r.lp ∧ (s.slot r.slot).shift = r.shift

/-- The job works on the CORRELATING record of the list itself, and its stores match its place; none runs while a cold reset holds the part,
and every listed sweep has a listen length of R60's range (R37, R60, R83, R86, R94, R95, R101). -/
def JobsStored (s : State) : Prop :=
  (s.mode.held = true → s.engine.job = none) ∧ (∀ r ∈ s.listed, 256 ≤ r.k ∧ r.k ≤ 8192) ∧
  ∀ j, s.engine.job = some j → j.sweep ∈ s.listed ∧ j.sweep.state = .correlating ∧ JobStored s j

/-- While the head is defined, no listed sweep's first block is below the window (R17). -/
def InWindow (s : State) : Prop := ∀ h, s.ring.head = some h → ∀ r ∈ s.listed, h - 2047 ≤ r.first

/-- In SETUP the list is empty and every context FREE; only DRAINING has a drain mode (R156). -/
def SetupEmpty (s : State) : Prop :=
  (s.mode.op = .setup → s.listed = [] ∧ ∀ i, (s.ctx i).state = .free) ∧ (s.mode.drain.isSome = true ↔ s.mode.op = .draining)

/-- The bounds of R110: no window count above the context's folded count, every accumulator within its window's count of 32-bit samples;
each record has its context's lags and windows, and every trace in the scratch store lies within 32 bits (R92, R110). -/
def FoldBounds (s : State) : Prop :=
  (∀ (i : Fin 4) (ch : Nat), (s.ctx i).k % 64 = 0 ∧
    let r := stackRecord (s.ctx i) ch
    r.acc.length = (s.ctx i).k ∧ r.counts.length = (s.ctx i).k / 64 ∧
    (∀ w, r.counts.getD w 0 ≤ (s.ctx i).folded) ∧
    ∀ lag, -((r.counts.getD (lag / 64) 0 : Int) * 2 ^ 31) ≤ r.acc.getD lag 0 ∧
      r.acc.getD lag 0 ≤ (r.counts.getD (lag / 64) 0 : Int) * (2 ^ 31 - 1)) ∧
  ∀ q ∈ s.engine.scratch, ∀ x ∈ q.trace, -2147483648 ≤ x ∧ x ≤ 2147483647

end Sys2Proof.Machine
end

