-- ==== Sys2Proof/WellFormed.lean ====
section
/-! DEFINITION. Which commands stand for something the outside can send: bodies a received frame may carry (R141), the row a STOP or a
CLOSE VP frame belongs to (log entry 16), kinds that name no request (R147). -/

namespace Sys2Proof

/-- The longest body a received frame may carry (R141). -/
def bodyFits (body : List Byte) : Bool := decide (body.length ≤ 1040)

/-- The kind byte names one of the 22 requests (R172). -/
def knownKind (kind : Byte) : Bool := decide (1 ≤ kind.toNat) && decide (kind.toNat ≤ 0x16)

/-- The STOP body has mode DISCARD. -/
def stopModeDiscard (body : List Byte) : Bool := decide (body = [1])

/-- The CLOSE VP body is of the right length and has mode NOW. -/
def closeModeNow (body : List Byte) : Bool := decide (body.length = 5) && decide (body.getD 4 0 = 1)

/-- The command stands for something the outside can send. -/
def Instr.wellFormed : Instr → Bool
  | .ident _ body => bodyFits body
  | .status _ body => bodyFits body
  | .paramSet _ body => bodyFits body
  | .paramGet _ body => bodyFits body
  | .start _ body => bodyFits body
  | .stopFinish _ body => bodyFits body && !stopModeDiscard body
  | .stopDiscard _ body => stopModeDiscard body
  | .restart _ body => bodyFits body
  | .sync _ body => bodyFits body
  | .timeSet _ body => bodyFits body
  | .routeSet _ body => bodyFits body
  | .routeGet _ body => bodyFits body
  | .pilotOpen _ body => bodyFits body
  | .pilotWords _ body => bodyFits body
  | .pilotClose _ body => bodyFits body
  | .fleetSet _ body => bodyFits body
  | .fleetGet _ body => bodyFits body
  | .arm _ body => bodyFits body
  | .post _ body => bodyFits body
  | .schedule _ body => bodyFits body
  | .cancel _ body => bodyFits body
  | .closeVpWait _ body => bodyFits body && !closeModeNow body
  | .closeVpNow _ body => closeModeNow body
  | .faultRead _ body => bodyFits body
  | .unknownKind kind _ body => bodyFits body && !knownKind kind
  | .hostFrame _ => true
  | .transmissionStart => true
  | .transmissionEnd => true
  | .transmitHold _ _ => true
  | .blockFrame piece => piece.last || !piece.bytes.isEmpty
  | .sampleTick => true
  | .holdoverDeadline => true
  | .scheduleCompare => true
  | .pulseEnd _ => true
  | .ppsEdge _ _ => true
  | .timeBreak _ _ => true
  | .correlationPassEnd => true
  | .jobCompletion => true
  | .powerUp => true
  | .resetPin => true
  | .coldResetComplete _ _ => true

end Sys2Proof
end

