-- ==== Sys2Proof/Certificates/Slice0/Obligations.lean ====
section
/-! DEFINITION. The statements for the provers, chapter by chapter of spec/. Each docstring names the rules of spec/ it formalises, and
the log entry wherever it rests on the model's own choice. -/

open Sys2Proof Sys2Proof.Machine

/-! ### The queue of commands, resets -/

/-- A step takes the command at the front of the queue and runs it with the queue's rest. On an empty queue the block idles: the model's
choice, log entry 6. -/
def Obligations.StepRunsFront : Prop :=
  (∀ (c : Instr) (rest : List Instr) (s : State), s.pending = c :: rest → step s = exec c { s with pending := rest }) ∧
  (∀ s : State, s.pending = [] → step s = .next s)

/-- The spec stops the part at no command: every command answers a next state, and none touches the queue of commands. -/
def Obligations.EveryCommandRuns : Prop :=
  ∀ (c : Instr) (s : State), ∃ t, exec c s = .next t ∧ t.pending = s.pending

/-- The reset state holds the values the rules give; RESTARTED, placed as the only entry of the queue, has been started by the free line
(R148, R152, R154). Not stated are the straps, the cause and the pin levels, which log entries 7 and 8 choose. -/
def Obligations.ResetValues : Prop :=
  let t := State.reset
  t.ring = { head := none, valid := [], samples := [], fault := none, accepted := 0, duplicates := 0, tooOld := 0
             reception := .idle } ∧
  (∀ i : Fin 8, (t.slot i).state = .empty ∧ (t.slot i).pos = 0 ∧ (t.slot i).check = 0 ∧ (t.slot i).shift = 0 ∧
    (t.slot i).failure = none) ∧
  t.time = { n := 0, lock := .free, a := 0 } ∧
  (∀ i : Fin 4, t.router.inputs[i.val] = { role := .none, polarity := .activeHigh }) ∧
  (∀ i : Fin 4, t.router.outputs[i.val] =
    { source := .none, form := .pulse, width := 10, polarity := .activeHigh, asserted := false, count := 0 }) ∧
  (∀ f : Fin 4, (t.fleet f).slot.val = f.val ∧ (t.fleet f).k = 4096 ∧ (t.fleet f).edit = 0 ∧ (t.fleet f).reject = 128 ∧
    (t.fleet f).target = 1 ∧ (t.fleet f).lead = 0 ∧ (t.fleet f).offset = 0 ∧ (t.fleet f).arm = none) ∧
  t.sweeps = { recs := [], nextId := 1 } ∧ t.engine = { job := none, snapshot := [], scratch := [] } ∧
  (∀ i : Fin 4, (t.ctx i).state = .free ∧ (t.ctx i).gen = 0) ∧ t.stack.openOrder = [] ∧
  t.emitter = { closing := [], cursor := none } ∧
  t.link.receiver = .receiving ∧ t.link.rxBuf = [] ∧ t.link.accepted = 0 ∧ t.link.huntDiscards = 0 ∧ t.link.lost = 0 ∧
  t.link.notices = [] ∧ t.link.tx = some (.notice (.report 0 (.restarted t.mode.cause))) ∧
  t.mode.op = .setup ∧ t.mode.drain = none ∧
  t.mode.params = { interval := 2, margin := 16, gapPolicy := .fold, outputMode := .mean, holdover := 3, mask := 0xFFF }

/-- POWER_UP and RESET_PIN: a cold reset with cause POWER or PIN; a reset pin while a cold reset is in progress changes nothing (R168,
R170). A frame in reception on the spread port is discarded from then on (R23). That the blocks take their cold values when the reset takes
effect, and RESTARTED and the straps wait for its completion, is log entry 18. A cold reset and its completion, whole: the straps are
latched, and RESTARTED with the cause is placed as the only entry, which the free line starts at once (R152, R154, R165, R168, R170).
While the cold reset holds the part, the host's bytes, the ticks with their points, the ends of messages and passes and a decision of the
arbiter change nothing, and an edge, whatever its role and level, moves the line and nothing else (R168; log entries 9 and 18). -/
def Obligations.ColdResets : Prop :=
  ((∀ s : State, ∃ t, exec .powerUp s = .next t ∧ ColdHeld .power s t) ∧
  (∀ s : State, s.mode.held = false → ∃ t, exec .resetPin s = .next t ∧ ColdHeld .pin s t) ∧
  (∀ s : State, s.mode.held = true → exec .resetPin s = .next s)) ∧
  (∀ (sizeCode : Fin 4) (position : Fin 8) (s : State),
    (s.mode.held = true → ∃ t, exec (.coldResetComplete sizeCode position) s = .next t ∧
      t = { s with mode := { s.mode with sizeCode := sizeCode, position := position, held := false }
                   link := joined t (.report 0 (.restarted s.mode.cause)) { s.link with notices := [] } }) ∧
    (∃ t u, exec .powerUp s = .next t ∧ exec (.coldResetComplete sizeCode position) t = .next u ∧
      u.link = { receiver := .receiving, partialBytes := [], rxBuf := [], accepted := 0, huntDiscards := 0, notices := [], lost := 0
                 tx := some (.notice (.report 0 (.restarted .power))) } ∧
      u.mode = { op := .setup, drain := none
                 params := { interval := 2, margin := 16, gapPolicy := .fold, outputMode := .mean, holdover := 3, mask := 0xFFF }
                 sizeCode := sizeCode, position := position, cause := .power, held := false } ∧
      u.channels = (if sizeCode = 0 then 256 else if sizeCode = 1 then 512 else 1024))) ∧
  (∀ s : State, s.mode.held = true →
    (∀ bytes, exec (.hostFrame bytes) s = .next s) ∧ (∀ line, exec (.pulseEnd line) s = .next s) ∧
    (∀ c ∈ [Instr.sampleTick, .holdoverDeadline, .scheduleCompare, .transmissionStart, .transmissionEnd, .correlationPassEnd,
      .jobCompletion], exec c s = .next s) ∧
    ∀ (line : Fin 4) (level : Bool),
      let moved := s.withRouter { s.router with pins := s.router.pins.set line.val level }
      exec (.ppsEdge line level) s = .next moved ∧ exec (.timeBreak line level) s = .next moved ∧
        exec (.transmitHold line level) s = .next moved)

/-- RESTART: a warm restart, answered only by RESTARTED with the request's tag (R155, R169). A check error causes a warm restart with cause
TABLE CHECK and no reply: one that STATUS finds in the sweep list or the context table; one that a completion finds on its own records, or,
behind it, the look of the engine's arbiter on another; one that the end of an emission finds on the context emitted, or the begin of the
next on that context, after the VP DONE of the one before; one that a POST finds, before any context is opened, so that every generation is
kept; one that a tick or a step of N finds in the list, or the first compare of a tick on its sweep's context (R82, R96, R113, R132, R140,
R168, R169). Which records a handling reads is log entries 13 and 24. -/
def Obligations.WarmRestarts : Prop :=
  (∀ (tag : Byte) (rest : List RxFrame) (s : State), Taken ⟨0x07, tag, []⟩ rest s → s.checkHit = false →
    ∃ t, exec (.restart tag []) s = .next t ∧ WarmRestarted .restart tag s t) ∧
  (∀ (tag : Byte) (rest : List RxFrame) (s : State), Taken ⟨0x02, tag, []⟩ rest s →
    ((∃ r ∈ s.listed, r.checkBad = true) ∨ ∃ i, (s.ctx i).checkBad = true) →
    ∃ t, exec (.status tag []) s = .next t ∧ WarmRestarted .tableCheck 0 s t) ∧
  (∀ (s : State) (j : Job) (r : SweepRecord), s.mode.held = false → s.engine.job = some j → j.pass = .editing →
    (s.listed.find? fun q => decide (q.id = j.sweep.id)) = some r → (r.checkBad = true ∨ (s.ctx r.ctx).checkBad = true) →
    ∃ t, exec .jobCompletion s = .next t ∧ WarmRestarted .tableCheck 0 s t) ∧
  (∀ (tr : Trace) (cu : Cursor) (j : Fin 4) (order : List (Fin 4)) (s : State), s.mode.held = false → s.checkHit = false →
    s.link.tx = some (.trace tr) → s.emitter.cursor = some cu → cu.sending = true → cu.next = s.channels → cu.waiting = none →
    s.emitter.closing = cu.ctx :: j :: order → j ≠ cu.ctx → (s.ctx cu.ctx).checkBad = false → (s.ctx j).checkBad = true →
    ∃ t u, exec .transmissionEnd s = .next t ∧
      VpDone cu.ctx (cu.sent + 1) ((s.withLink { s.link with tx := none }).withEmitter
        { s.emitter with cursor := some { cu with sending := false, sent := cu.sent + 1 } }) u ∧
      WarmRestarted .tableCheck 0 u t) ∧
  (∀ (tag b : Byte) (vp : VpId) (t0 : SampleIndex) (fl : Fin 4) (rest : List RxFrame) (s : State),
    Taken ⟨0x12, tag, sweepBody b vp t0⟩ rest s → s.checkHit = false → b.toNat = fl.val → s.mode.op = .acquire →
    ((∃ r ∈ s.listed, r.checkBad = true) ∨ (ChecksPass s fl t0 ∧ ∃ i, (s.ctx i).checkBad = true)) →
    ∃ t, exec (.post tag (sweepBody b vp t0)) s = .next t ∧ WarmRestarted .tableCheck 0 s t) ∧
  (∀ (s : State) (j : Job) (r : SweepRecord), s.mode.held = false → s.checkHit = false → s.engine.job = some j → j.pass = .editing →
    (s.listed.find? fun q => decide (q.id = j.sweep.id)) = some r →
    (∃ q ∈ s.listed, q.id ≠ r.id ∧ q.checkBad = true) → (∃ q ∈ s.listed, q.id ≠ r.id ∧ q.state = .ready) →
    ∃ t, exec .jobCompletion s = .next t ∧ t.mode = { s.mode with op := .setup, drain := none, cause := .tableCheck } ∧
      t.sweeps = { recs := [], nextId := 1 } ∧ t.engine.job = none ∧
      ∀ i : Fin 4, (t.ctx i).state = .free ∧ (t.ctx i).gen = (s.ctx i).gen) ∧
  (∀ (tr : Trace) (cu : Cursor) (s : State), s.mode.held = false → s.checkHit = false → s.link.tx = some (.trace tr) →
    s.emitter.cursor = some cu → cu.sending = true → cu.next = s.channels → cu.waiting = none → (s.ctx cu.ctx).checkBad = true →
    ∃ t, exec .transmissionEnd s = .next t ∧ WarmRestarted .tableCheck 0 (s.withLink { s.link with tx := none }) t) ∧
  (∀ s : State, s.mode.held = false → s.checkHit = false →
    let due (r : SweepRecord) := r.state = .scheduled ∧ r.compare = some (s.time.n + 1).toNat
    ((∃ r ∈ s.listed, r.checkBad = true) ∨
      ∃ r l, s.listed.filter (fun r => decide (due r)) = r :: l ∧ (s.ctx r.ctx).checkBad = true) →
    ∃ t u, exec .sampleTick s = .next t ∧ TickBegins s u ∧ WarmRestarted .tableCheck 0 u t) ∧
  (∀ (line : Fin 4) (level : Bool) (s : State), s.mode.held = false → s.checkHit = false →
    s.router.inputs[line.val].role = .pps → level = decide (s.router.inputs[line.val].polarity = .activeHigh) →
    alignStep s ≠ 0 → (∃ r ∈ s.listed, r.checkBad = true) →
    ∃ t u, exec (.ppsEdge line level) s = .next t ∧ Aligned line level s u ∧ WarmRestarted .tableCheck 0 u t)

/-! ### The decoder (R146, R147) -/

/-- UNKNOWN_KIND: a kind that names no request is answered KIND, and counted (R147). The body length allowed for each kind (R172). -/
def Obligations.KindAndLengthJudged : Prop :=
  (∀ (kind tag : Byte) (body : List Byte) (rest : List RxFrame) (s : State), (kind.toNat = 0 ∨ 0x16 < kind.toNat) →
    Taken ⟨kind, tag, body⟩ rest s → s.checkHit = false →
    ∃ t, exec (.unknownKind kind tag body) s = .next t ∧ AnsweredOnly ⟨kind, tag, body⟩ rest .kind [] s t) ∧
  (∀ (i : Instr) (f : RxFrame) (rest : List RxFrame) (s : State), requestFrame i = some f → i.wellFormed = true → Taken f rest s →
    s.checkHit = false → knownKind f.kind = true →
    (f.kind.toNat, f.body.length) ∉ [(1, 0), (2, 0), (3, 5), (4, 1), (5, 0), (6, 1), (7, 0), (8, 2), (9, 6), (10, 7), (11, 0),
      (12, 4), (14, 3), (15, 12), (16, 1), (17, 6), (18, 11), (19, 11), (20, 2), (21, 5), (22, 0)] →
    ¬ (f.kind = 0x0D ∧ 3 ≤ f.body.length ∧ f.body.length ≤ 513 ∧ f.body.length % 2 = 1) →
    ∃ t, exec i s = .next t ∧ AnsweredOnly f rest .length [] s t)

/-- The decoder waits while the notice queue holds 64 entries (R146); and a request that is not at the head of the receive buffer, or
comes while a cold reset holds the part, is not taken (log entries 1 and 18). -/
def Obligations.DecoderWaits : Prop :=
  ∀ (i : Instr) (f : RxFrame) (s : State), requestFrame i = some f → s.checkHit = false →
    (64 ≤ s.link.notices.length ∨ s.link.rxBuf.head? ≠ some f ∨ s.mode.held = true) → exec i s = .next s

/-! ### The receiver (R141 to R145) -/

/-- The bytes of the frames a host sends, one or several in a run, come in as those frames in their order: the receiver reads from the line
exactly the kind, the tag and the body that were framed, and passes over the bytes before each start word and behind the last frame (R141,
R143, R171). However a run of bytes is split over HOST_FRAME commands, frames cut short included, the same comes of it (R141); that
HOST_FRAME delivers any run of bytes is log entry 3. -/
def Obligations.FrameDelivered : Prop :=
  (∀ (run : List (List Byte × RxFrame)) (tail : List Byte) (s : State), s.mode.held = false → s.checkHit = false →
    s.link.partialBytes = [] → (∀ p ∈ run, ¬ [0xC3, 0x5A] <:+: p.1 ∧ p.2.body.length ≤ 1040) → (∀ b ∈ tail, b ≠ 0xC3) →
    s.link.receiver = .receiving → s.link.rxBuf.length + run.length ≤ 8 →
    exec (.hostFrame (run.flatMap (fun p => p.1 ++ frameBytes p.2.kind p.2.tag p.2.body) ++ tail)) s =
      .next { s with link := { s.link with rxBuf := s.link.rxBuf ++ run.map (·.2) } }) ∧
  (∀ (first more : List Byte) (s : State), s.checkHit = false →
    ∃ t, exec (.hostFrame first) s = .next t ∧ exec (.hostFrame (first ++ more)) s = exec (.hostFrame more) t)

/-- A checked frame offered to a full buffer overruns: it is discarded, the receiver stands in HUNT, LINK ERROR with cause OVERRUN is
offered; in HUNT only a SYNC is offered (R143, R144). In HUNT a checked frame other than SYNC is discarded and counted, and a SYNC with
room in the buffer ends HUNT (R144). A frame whose length word is above 1,040 or whose check word is wrong moves RECEIVING to HUNT with
LINK ERROR, and nothing comes of it in HUNT; in both the bytes behind its start word are then received anew, a frame inside its span
included, and change nothing where no start byte is among them (R142). -/
def Obligations.BadFramesHunt : Prop :=
  (∀ (kind tag : Byte) (body : List Byte) (s : State), s.mode.held = false → s.checkHit = false → s.link.partialBytes = [] →
    body.length ≤ 1040 → 8 ≤ s.link.rxBuf.length → (s.link.receiver = .receiving ∨ kind = 0x08) →
    ∃ t, exec (.hostFrame (frameBytes kind tag body)) s = .next t ∧ OnlyLinkLines s t ∧ LinesFollow [.noticeHigh] s t ∧
      t.link = offeredLink [.linkError .overrun s.link.accepted] (s.withLink { s.link with receiver := .hunt })) ∧
  (∀ (kind tag : Byte) (body : List Byte) (s : State), s.mode.held = false → s.checkHit = false → s.link.partialBytes = [] →
    body.length ≤ 1040 → s.link.receiver = .hunt →
    (kind ≠ 0x08 → exec (.hostFrame (frameBytes kind tag body)) s =
      .next { s with link := { s.link with huntDiscards := min 65535 (s.link.huntDiscards + 1) } }) ∧
    (kind = 0x08 → s.link.rxBuf.length < 8 → exec (.hostFrame (frameBytes kind tag body)) s =
      .next { s with link := { s.link with receiver := .receiving, rxBuf := s.link.rxBuf ++ [⟨kind, tag, body⟩] } })) ∧
  (∀ (cause : LinkCause) (tail : List Byte) (s : State), s.mode.held = false → s.checkHit = false → s.link.partialBytes = [] →
    ((cause = .length ∧ ∃ (n : Word) (more : List Byte), 1040 < n.toNat ∧ tail = leBytes 2 n.toNat ++ more) ∨
     (cause = .check ∧ ∃ (kind tag : Byte) (body : List Byte) (w : Word) (more : List Byte), body.length ≤ 1040 ∧
       w ≠ checkOf (frameCovered kind tag body) ∧ tail = frameCovered kind tag body ++ leBytes 2 w.toNat ++ more)) →
    (s.link.receiver = .receiving → ∃ t, exec (.hostFrame (0xC3 :: 0x5A :: tail)) s = exec (.hostFrame tail) t ∧
      OnlyLinkLines s t ∧ LinesFollow [.noticeHigh] s t ∧
      t.link = offeredLink [.linkError cause s.link.accepted] (s.withLink { s.link with receiver := .hunt }) ∧
      ((∀ b ∈ tail, b ≠ 0xC3) → exec (.hostFrame tail) t = .next t)) ∧
    (s.link.receiver = .hunt → exec (.hostFrame (0xC3 :: 0x5A :: tail)) s = exec (.hostFrame tail) s ∧
      ((∀ b ∈ tail, b ≠ 0xC3) → exec (.hostFrame tail) s = .next s)))

/-- SYNC: the reply carries the host count, the accepted-request count with this SYNC, and the HUNT discard count, then cleared (R145). -/
def Obligations.SyncAnswers : Prop :=
  ∀ (tag : Byte) (count : Word) (rest : List RxFrame) (s : State), Taken ⟨0x08, tag, syncBody count⟩ rest s → s.checkHit = false →
    ∃ t, exec (.sync tag (syncBody count)) s = .next t ∧ OnlyLinkLines s t ∧ LinesFollow [.noticeHigh] s t ∧
      t.link = { joined t (.reply 0x08 tag .ok
          (leBytes 2 count.toNat ++ leBytes 2 (s.link.accepted + 1).toNat ++ leBytes 2 s.link.huntDiscards)) (takenLink rest s) with
        huntDiscards := 0 }

/-! ### Sending (R148, R152, R153, R130 to R136) -/

/-- TRANSMISSION_START with an entry in the queue: the head leaves the queue and is in transmission; the departure that leaves 47 entries
ends NOTICE HIGH, whatever pends in the emitter (R148, R152, R54). TRANSMISSION_START with an empty queue and a pending TRACE: the TRACE
is in transmission, and while a channel is left the emitter prepares the next TRACE at the same event (R135, R152). No message starts
while one is in transmission, while the transmit hold is asserted, or with nothing to send (R152, R153). -/
def Obligations.ArbiterStarts : Prop :=
  (∀ (n : Notice) (rest : List Notice) (s : State), s.mode.held = false → s.checkHit = false → s.link.tx = none →
    s.transmitHold = false → s.link.notices = n :: rest →
    ∃ t, exec .transmissionStart s = .next t ∧ OnlyLinkLines s t ∧
      t.link = { s.link with notices := rest, tx := some (.notice n) } ∧
      ∀ i : Fin 4, t.router.outputs[i.val] =
        if s.router.outputs[i.val].source = .noticeHigh ∧ rest.length = 47 ∧ s.router.outputs[i.val].form = .level then
          { s.router.outputs[i.val] with asserted := false }
        else s.router.outputs[i.val]) ∧
  (∀ (cu : Cursor) (tr : Trace) (s : State), s.mode.held = false → s.checkHit = false → s.link.tx = none →
    s.transmitHold = false → s.link.notices = [] → s.emitter.cursor = some cu → cu.waiting = some tr →
    ∃ t, exec .transmissionStart s = .next t ∧
      t = { s with link := { s.link with tx := some (.trace tr) }
                   emitter := { s.emitter with cursor := t.emitter.cursor } } ∧
      t.emitter.cursor = some
        (if cu.next < s.channels then
          { cu with sending := true, next := cu.next + 1, waiting := some (traceOf s (s.ctx cu.ctx) cu.next) }
         else { cu with sending := true, waiting := none })) ∧
  (∀ s : State, s.checkHit = false →
    (s.link.tx ≠ none ∨ s.transmitHold = true ∨
      (s.link.notices = [] ∧ ∀ cu, s.emitter.cursor = some cu → cu.waiting = none)) →
    exec .transmissionStart s = .next s)

/-- TRANSMISSION_END: a notice, or a TRACE whose emission a warm restart has ended, leaves the line free; a TRACE that is not the last
raises the sent count; and the arbiter decides at once what is sent next (R135, R152, R153, R155). With nothing in transmission the command
changes nothing: the model's choice, log entry 2. -/
def Obligations.MessageEnds : Prop :=
  ∀ s : State, s.mode.held = false → s.checkHit = false →
    let free := s.withLink { s.link with tx := none }
    (s.link.tx = none → exec .transmissionEnd s = .next s) ∧
    (∀ n, s.link.tx = some (.notice n) → ∃ t, exec .transmissionEnd s = .next t ∧ Decided free t) ∧
    (∀ tr, s.link.tx = some (.trace tr) → (∀ cu, s.emitter.cursor = some cu → cu.sending = false) →
      ∃ t, exec .transmissionEnd s = .next t ∧ Decided free t) ∧
    (∀ tr cu, s.link.tx = some (.trace tr) → s.emitter.cursor = some cu → cu.sending = true →
      (cu.next ≠ s.channels ∨ cu.waiting ≠ none) →
      ∃ t, exec .transmissionEnd s = .next t ∧
        Decided (free.withEmitter { s.emitter with cursor := some { cu with sending := false, sent := cu.sent + 1 } }) t)

/-- TRANSMISSION_END of a context's last TRACE ends its emission: VP DONE is offered with the traces sent and its event raised, the context
becomes FREE keeping its generation and leaves the two orders, the emitter begins the next CLOSING context with its first TRACE or becomes
IDLE, a drain that this ends takes DRAINING to SETUP with DRAINED, and the arbiter decides (R132, R136, R137, R152, R160). That the end of
the emission, its VP DONE judged against the queue as it stood, comes before the arbiter's decision is the model's choice: log entry 17. -/
def Obligations.EmissionEnds : Prop :=
  ∀ (tr : Trace) (cu : Cursor) (order : List (Fin 4)) (s : State), s.mode.held = false → Clean s →
    s.link.tx = some (.trace tr) → s.emitter.cursor = some cu → cu.sending = true → cu.next = s.channels → cu.waiting = none →
    s.emitter.closing = cu.ctx :: order →
    ∃ t a b c d, exec .transmissionEnd s = .next t ∧
      VpDone cu.ctx (cu.sent + 1) ((s.withLink { s.link with tx := none }).withEmitter
        { s.emitter with cursor := some { cu with sending := false, sent := cu.sent + 1 } }) a ∧
      Frees cu.ctx a b ∧
      (match order with
        | [] => c = b.withEmitter { closing := [], cursor := none }
        | j :: _ => EmissionBegins j (b.withEmitter { closing := order, cursor := none }) c) ∧
      DrainTested c d ∧ Decided d t

/-- A TRACE: its samples are the rounded mean, or the saturated sum, of the accumulators, 0 in a dead window; its flags and dead windows
follow (R130, R131, R133). A check error on a stored value gives the TRACE the BAD flag, and the values are first brought within the bounds
of R110: a count to the folded count, an accumulator to the nearer end (R134). The bytes on the line: every message is a frame closed by
its check (R171); a TRACE has kind 0x60, tag 0 and the fields of R176, a report the kind and the fields of R175 with its tag, a reply the
kind and the tag of its request with its status and its contents (R171, R173), with the codes of R178. -/
def Obligations.TraceFormed : Prop :=
  (∀ (s : State) (c : Context) (ch : Nat) (err : Bool),
    let r := stackRecord c ch
    (err = true ↔ r.accErr ≠ [] ∨ r.cntErr ≠ []) →
    let t := traceOf s c ch
    let count (w : Nat) : Nat := if err then min c.folded (r.counts.getD w 0) else r.counts.getD w 0
    let value (lag : Nat) (a : Int) : Int :=
      if err then max (-((count (lag / 64) : Int) * 2 ^ 31)) (min ((count (lag / 64) : Int) * (2 ^ 31 - 1)) a) else a
    t.vp = c.vp ∧ t.gen = c.gen ∧ t.channel = s.mode.position.val * s.channels + ch ∧ t.folded = c.folded ∧
    t.interval = s.mode.params.interval ∧ t.mode = s.mode.params.outputMode ∧ t.gap = r.gapSeen ∧
    (t.bad = true ↔ r.bad = true ∨ err = true) ∧ t.samples.length = r.acc.length ∧
    (∀ (lag : Nat) (a : Int), r.acc[lag]? = some a →
      t.samples[lag]? = some
        (if count (lag / 64) = 0 then 0
         else match s.mode.params.outputMode with
          | .mean => (value lag a).sign *
              ((2 * (value lag a).natAbs + count (lag / 64)) / (2 * count (lag / 64)) : Nat)
          | .sum => max (-2147483648) (min 2147483647 (value lag a)))) ∧
    (t.sat = true ↔ r.satSeen = true ∨ (s.mode.params.outputMode = .sum ∧
      ∃ lag a, r.acc[lag]? = some a ∧ count (lag / 64) ≠ 0 ∧ (value lag a < -2147483648 ∨ 2147483647 < value lag a))) ∧
    (∀ w, w ∈ t.dead ↔ w < r.counts.length ∧ count w = 0) ∧ t.dead.Pairwise (· < ·)) ∧
  (let framed (kind tag : Byte) (body : List Byte) : List Byte :=
     let covered := leBytes 2 body.length ++ [kind, tag] ++ body
     [0xC3, 0x5A] ++ covered ++ leBytes 2 (checkOf covered).toNat
   let flag (b : Bool) (n : Nat) : Nat := if b then n else 0
   let sent (tag : Byte) (r : Report) (kind : Byte) (fields : List Byte) : Prop :=
     txBytes (.notice (.report tag r)) = framed kind tag (1 :: fields)
   let point (vp : VpId) (t0 : SampleIndex) : List Byte := leBytes 4 vp.toNat ++ leBytes 6 t0.toNat
   (∀ kind tag st contents, txBytes (.notice (.reply kind tag st contents)) = framed kind tag (0 :: statusCode st :: contents)) ∧
   (∀ t : Trace, txBytes (.trace t) = framed 0x60 0
     (2 :: (leBytes 4 t.vp.toNat ++ leBytes 1 t.gen.toNat ++ leBytes 2 t.channel ++ leBytes 1 t.folded ++ leBytes 1 t.interval.val ++
       leBytes 1 (if t.mode = .mean then 0 else 1) ++ leBytes 1 (flag t.gap 1 + flag t.sat 2 + flag t.bad 4) ++
       leBytes 2 t.samples.length ++ leBytes 1 t.dead.length ++ t.dead.map (BitVec.ofNat 8) ++
       t.samples.flatMap fun x => leBytes 4 (BitVec.ofInt 32 x).toNat))) ∧
   ∀ tag : Byte,
    (∀ c, sent tag (.restarted c) 0x40 [resetCauseCode c]) ∧
    (∀ c n, sent tag (.linkError c n) 0x41 (linkCauseCode c :: leBytes 2 n.toNat)) ∧
    (∀ n, sent tag (.reportsLost n) 0x42 (leBytes 2 n)) ∧
    (∀ id o f vp t0 i g, sent tag (.sweepEntered id o f vp t0 i g) 0x43
      (leBytes 2 id ++ [originCode o] ++ leBytes 1 f.val ++ point vp t0 ++ leBytes 1 i.val ++ leBytes 1 g.toNat)) ∧
    (∀ id f vp t0 i g fo dr t, sent tag (.sweepFolded id f vp t0 i g fo dr t) 0x44
      (leBytes 2 id ++ leBytes 1 f.val ++ point vp t0 ++ leBytes 1 i.val ++ leBytes 1 g.toNat ++ leBytes 1 fo ++ leBytes 1 dr ++
        leBytes 2 t.accepted ++ leBytes 2 t.editDiscarded ++ leBytes 2 t.gapDiscarded ++ leBytes 4 t.windowsRejected ++
        leBytes 4 t.saturated ++ leBytes 2 t.checkErrors)) ∧
    (∀ id f vp t0 c st i, sent tag (.sweepDropped id f vp t0 c st i) 0x45
      (leBytes 2 id ++ leBytes 1 f.val ++ point vp t0 ++ [dropCauseCode c, sweepStateCode st] ++
        match i with
        | none => [0xFF]
        | some i => leBytes 1 i.val)) ∧
    (∀ vp g i f k fo dr n, sent tag (.vpDone vp g i f k fo dr n) 0x46
      (leBytes 4 vp.toNat ++ leBytes 1 g.toNat ++ leBytes 1 i.val ++ leBytes 1 f ++ leBytes 2 k ++ leBytes 1 fo ++ leBytes 1 dr ++
        leBytes 2 n)) ∧
    (∀ f r n o, sent tag (.timeBreakRefused f r n o) 0x47
      (leBytes 1 f.val ++ [breakReasonCode r] ++ leBytes 6 n.toNat ++ [opCode o])) ∧
    (∀ c step n l, sent tag (.timebase c step n l) 0x48
      (timeChangeCode c :: (leBytes 2 (BitVec.ofInt 16 step).toNat ++ leBytes 6 n.toNat ++ [lockCode l]))) ∧
    (∀ slot c lp pos check w, sent tag (.pilotFailed slot c lp pos check w) 0x49
      (leBytes 1 slot.val ++ [pilotFailureCode (some c)] ++ leBytes 2 lp ++ leBytes 2 pos ++ leBytes 2 check.toNat ++
        match w with
        | none => [0, 0, 0]
        | some w => 1 :: leBytes 2 w.toNat)) ∧
    (∀ k loc, sent tag (.spreadFault k loc) 0x4A
      (faultKindCode k ::
        match loc with
        | none => List.replicate 9 0
        | some (g, b) => 1 :: (leBytes 2 g ++ leBytes 6 b))) ∧
    (∀ m n, sent tag (.drained m n) 0x4B (drainCode m :: leBytes 6 n.toNat))) ∧
  [Status.ok, .state, .busy, .full, .unknown, .range, .order, .check, .late, .foldFull, .noContext, .mismatch, .pilot, .kind,
    .length].map statusCode = [0, 1, 2, 3, 4, 5, 6, 7, 8, 9, 10, 11, 12, 13, 14] ∧
  [DropCause.full, .late, .foldFull, .noContext, .mismatch, .pilot, .cancelled, .missed, .closed, .stopped].map dropCauseCode =
    [3, 8, 9, 10, 11, 12, 16, 17, 18, 19] ∧
  [OpState.setup, .acquire, .draining].map opCode = [0, 1, 2] ∧ [DrainMode.finish, .discard].map drainCode = [0, 1] ∧
  [LockState.free, .locked, .holdover].map lockCode = [0, 1, 2] ∧ [TimeChange.locked, .step, .holdover].map timeChangeCode = [1, 2, 3] ∧
  [none, some SweepState.scheduled, some .waiting, some .ready, some .correlating].map sweepStateCode = [0, 1, 2, 3, 4] ∧
  [Origin.timeBreak, .post, .schedule].map originCode = [1, 2, 3] ∧ [BreakReason.state, .unarmed].map breakReasonCode = [1, 2] ∧
  [none, some PilotFailure.overrun, some .short, some .check].map pilotFailureCode = [0, 1, 2, 3] ∧
  [FaultKind.check, .length, .jump].map faultKindCode = [1, 2, 3] ∧ [LinkCause.check, .length, .overrun].map linkCauseCode = [1, 2, 3] ∧
  [ResetCause.power, .pin, .restart, .tableCheck].map resetCauseCode = [1, 2, 3, 4]

/-- TRANSMIT_HOLD: the line stands at its new level, the hold follows it when the line holds the role, and a hold that is deasserted has the
arbiter decide at once (R53, R152, R153). That a line's level is held, and that the command moves the level of a line of any other role or of
none, a PPS or TIME BREAK line taking no edge by it, is the model's reading and choice: log entry 9. -/
def Obligations.HoldFollowsLine : Prop :=
  ∀ (line : Fin 4) (level : Bool) (s : State), RolesUnique s →
    ∃ t, exec (.transmitHold line level) s = .next t ∧ PinSet line level s t ∧
      (s.router.inputs[line.val].role = .transmitHold →
        t.transmitHold = (level == decide (s.router.inputs[line.val].polarity = .activeHigh))) ∧
      (s.router.inputs[line.val].role ≠ .transmitHold → t.transmitHold = s.transmitHold)

/-! ### The timebase and the event lines (R41 to R58) -/

/-- TIME_SET: in SETUP N and A take the value and the lock state becomes FREE, and the HOLDOVER level falls if it was true; elsewhere STATE
(R47). -/
def Obligations.TimeSetSets : Prop :=
  ∀ (tag : Byte) (n : SampleIndex) (rest : List RxFrame) (s : State), Taken ⟨0x09, tag, timeSetBody n⟩ rest s → s.checkHit = false →
    (s.mode.op = .setup →
      let a := (taken rest s).withTime { n := n, lock := .free, a := n }
      ∃ t u, exec (.timeSet tag (timeSetBody n)) s = .next t ∧
        (if s.time.lock = .holdover then Fell .holdover a u else u = a) ∧
        Replied ⟨0x09, tag, timeSetBody n⟩ .ok (leBytes 6 n.toNat ++ [0]) u t) ∧
    (s.mode.op ≠ .setup → ∃ t, exec (.timeSet tag (timeSetBody n)) s = .next t ∧
      AnsweredOnly ⟨0x09, tag, timeSetBody n⟩ rest .state (leBytes 6 s.time.n.toNat ++ [lockCode s.time.lock]) s t)

/-- SAMPLE_TICK, whole: every running pulse count falls by 1 and the line whose count ends is deasserted, N rises by 1 modulo 2^48, LOCKED
turns HOLDOVER at the deadline, a running job's channel count rises with time, the compares that N reaches are taken, and the engine's
arbiter looks (R41, R46, R50, R55, R84, R85). The tick changes neither the ring, the pilots, the tables nor the parameters, and a line
whose source it does not raise only counts. That one command is the whole tick is log entry 4, the count's rise in whole ticks log
entry 5. -/
def Obligations.TickAdvances : Prop :=
  ∀ s : State, s.mode.held = false → Clean s → ListOrdered s →
    let late := s.time.lock = .locked ∧ s.time.n + 1 = deadlineOf s
    let due (r : SweepRecord) := r.state = .scheduled ∧ r.compare = some (s.time.n + 1).toNat
    ∃ t, exec .sampleTick s = .next t ∧ Ticked s t ∧
      t.time = { n := s.time.n + 1, a := s.time.a
                 lock := if s.time.lock = .locked ∧ s.time.n + 1 = deadlineOf s then .holdover else s.time.lock } ∧
      t.ring = s.ring ∧ t.pilots = s.pilots ∧ t.fleets = s.fleets ∧ t.stack = s.stack ∧ t.emitter = s.emitter ∧
      t.mode = s.mode ∧ t.router.inputs = s.router.inputs ∧ t.router.pins = s.router.pins ∧ t.pending = s.pending ∧
      t.sweeps.nextId = s.sweeps.nextId ∧ t.listed.map (·.id) = s.listed.map (·.id) ∧
      ∀ i : Fin 4, (∀ r ∈ s.listed, due r → s.router.outputs[i.val].source ≠ .startPulse r.fleet) →
        (late → s.router.outputs[i.val].source ≠ .holdover) →
        (late ∨ (∃ r ∈ s.listed, due r) → s.router.outputs[i.val].source ≠ .noticeHigh) →
        t.router.outputs[i.val] = tickedLine s.router.outputs[i.val]

/-- HOLDOVER_DEADLINE, SCHEDULE_COMPARE and PULSE_END are the tick where it reaches their point: N the holdover deadline in LOCKED, the
compare point of a SCHEDULED sweep, a line's count 0; where the next tick does not reach it they change nothing (R46, R50, R55; log entries
2 and 4). The tick that ends a line's count deasserts it, unless it raises the line's source anew (R55). -/
def Obligations.TickPoints : Prop :=
  ∀ s : State, s.mode.held = false → Clean s → ListOrdered s →
    let late := s.time.lock = .locked ∧ s.time.n + 1 = deadlineOf s
    let due (r : SweepRecord) := r.state = .scheduled ∧ r.compare = some (s.time.n + 1).toNat
    (late → ∃ t, exec .holdoverDeadline s = .next t ∧ Ticked s t ∧ t.time.lock = .holdover) ∧
    (¬ late → exec .holdoverDeadline s = .next s) ∧
    ((∃ r ∈ s.listed, due r) → ∃ t, exec .scheduleCompare s = .next t ∧ Ticked s t) ∧
    ((∀ r ∈ s.listed, ¬ due r) → exec .scheduleCompare s = .next s) ∧
    ∀ line : Fin 4, (s.router.outputs[line.val].count ≠ 1 → exec (.pulseEnd line) s = .next s) ∧
      (s.router.outputs[line.val].count = 1 → ∃ t, exec (.pulseEnd line) s = .next t ∧ Ticked s t ∧
        ((∀ r ∈ s.listed, due r → s.router.outputs[line.val].source ≠ .startPulse r.fleet) →
         (late → s.router.outputs[line.val].source ≠ .holdover) →
         (late ∨ (∃ r ∈ s.listed, due r) → s.router.outputs[line.val].source ≠ .noticeHigh) →
          t.router.outputs[line.val] = { s.router.outputs[line.val] with count := 0, asserted := false }))

/-- SCHEDULE_COMPARE: the tick that brings N to a sweep's compare point raises START PULSE of its fleet, and the sweep becomes WAITING
with SWEEP ENTERED, or READY when its span is (R50, R72, R75); stated for a tick that reaches one compare point and no deadline, with the
engine BUSY where the sweep turns READY. -/
def Obligations.CompareFires : Prop :=
  ∀ (a b : List SweepRecord) (r : SweepRecord) (s : State), s.mode.held = false → Clean s → ArbiterServed s → ListOrdered s →
    (s.time.lock = .locked → s.time.n + 1 ≠ deadlineOf s) → s.listed = a ++ r :: b → r.state = .scheduled → r.compare = some (s.time.n + 1).toNat →
    (∀ q ∈ a ++ b, q.state = .scheduled → q.compare ≠ some (s.time.n + 1).toNat) →
    (s.engine.job.isSome = true ∨ ¬ SpanReady s r) →
    ∃ t r', exec .scheduleCompare s = .next t ∧
      Tested s { r with state := .waiting, compare := none } r' ∧ t.listed = a ++ r' :: b ∧
      OnlyLinkLines { s with time := { s.time with n := s.time.n + 1 }, sweeps := t.sweeps, engine := (tickJob s).engine } t ∧
      t.sweeps.nextId = s.sweeps.nextId ∧
      t.link = offeredLink [.sweepEntered r.id r.origin r.fleet r.vp r.t0 r.ctx (s.ctx r.ctx).gen] s ∧
      (∀ i : Fin 4, s.router.outputs[i.val].source = .startPulse r.fleet → s.router.outputs[i.val].form ≠ .toggle →
        t.router.outputs[i.val].asserted = true ∧ t.router.outputs[i.val].count = s.router.outputs[i.val].width) ∧
      (∀ i : Fin 4, s.router.outputs[i.val].source ≠ .startPulse r.fleet → s.router.outputs[i.val].source ≠ .noticeHigh →
        t.router.outputs[i.val] = tickedLine s.router.outputs[i.val])

/-- PPS_EDGE: N goes to the nearest multiple of the rate, an exact half upward, modulo 2^48; A takes that N, the lock state becomes LOCKED,
and TIMEBASE is offered, LOCKED or STEP, but not for a step of 0 in LOCKED (R44, R45, R48). A forward step takes every SCHEDULED sweep it
carries N past, in list order: a T0 below the new N drops it MISSED, any other fires it (R50, R51, R77). The drain test and the engine's
arbiter follow (R84, R160). The order of the reports is log entry 10; that a TRACE a drop's close offers can be started before a report
offered behind it is log entry 17; that the drain test is made after an edge that drops nothing too is log entry 23. That the row
carries the level after the edge, which State holds, and that each such row is one edge, is log entry 9. -/
def Obligations.PpsAligns : Prop :=
  ∀ (line : Fin 4) (level : Bool) (s : State), s.mode.held = false → Clean s → ListOrdered s →
    s.router.inputs[line.val].role = .pps → level = decide (s.router.inputs[line.val].polarity = .activeHigh) →
    let new : Int := (s.time.n.toNat : Int) + alignStep s
    ∃ t w x y, exec (.ppsEdge line level) s = .next t ∧ Aligned line level s w ∧
      Chain (fun q a b => if (q.t0.toNat : Int) < new then Dropped .missed true q a b else Fired q a b)
        (s.listed.filter fun q => decide (q.state = .scheduled) &&
          q.compare.any fun c : Nat => decide (s.time.n.toNat < c ∧ (c : Int) ≤ new)) w x ∧
      DrainTested x y ∧ EngineLooks y t

/-- An edge that is not the active edge of a line in the row's role moves the line and nothing else, but for a transmit hold that ends with
it (R52, R53); that the row names the role it is sent for is log entry 9. -/
def Obligations.EdgeNotTaken : Prop :=
  ∀ (line : Fin 4) (level : Bool) (s : State), s.checkHit = false →
    ((s.router.inputs[line.val].role ≠ .pps ∨ level ≠ decide (s.router.inputs[line.val].polarity = .activeHigh)) →
      ∃ t, exec (.ppsEdge line level) s = .next t ∧ PinSet line level s t) ∧
    (((∀ f, s.router.inputs[line.val].role ≠ .timeBreak f) ∨ level ≠ decide (s.router.inputs[line.val].polarity = .activeHigh)) →
      ∃ t, exec (.timeBreak line level) s = .next t ∧ PinSet line level s t)

/-- ROUTE_SET on an input line: a role held by another line moves and that line becomes NONE with its polarity; codes outside their sets
leave their field; a transmit hold that this ends has the arbiter decide at once; the reply carries both tables (R52, R53, R56, R152). The level
at which a line stands, which the hold follows, is held in State: log entry 9. -/
def Obligations.RouteSetInput : Prop :=
  ∀ (tag line role fleet form width pol : Byte) (k : Fin 4) (rest : List RxFrame) (s : State),
    let f : RxFrame := ⟨0x0A, tag, [0, line, role, fleet, form, width, pol]⟩
    Taken f rest s → s.checkHit = false → line.toNat = k.val →
    let old := s.router.inputs[k.val]
    let role' : Role := if role = 0 then .none else if role = 1 then .pps else if role = 3 then .transmitHold
      else if h : role = 2 ∧ fleet.toNat < 4 then .timeBreak ⟨fleet.toNat, h.2⟩ else old.role
    let pol' : Polarity := if pol = 0 then .activeHigh else if pol = 1 then .activeLow else old.polarity
    ∃ t u v, exec (.routeSet tag f.body) s = .next t ∧
      u.router.inputs[k.val] = { role := role', polarity := pol' } ∧
      (∀ j : Fin 4, j ≠ k → u.router.inputs[j.val] =
        { s.router.inputs[j.val] with
          role := if s.router.inputs[j.val].role = role' then .none else s.router.inputs[j.val].role }) ∧
      u = (taken rest s).withRouter { s.router with inputs := u.router.inputs } ∧
      (if s.transmitHold = true ∧ u.transmitHold = false then Decided u v else v = u) ∧
      Replied f .ok (routeBytes u.router) v t

/-- ROUTE_SET on an output line: the line takes the entry, codes outside their sets leaving their field, deasserted, and a LEVEL entry whose
level source is true is then asserted; the reply carries both tables, and the reply that brings the queue to 48 raises NOTICE HIGH on the
lines that follow it, the one just stored among them; a direction or a line outside its set is answered RANGE (R54 to R56, R148, R178). -/
def Obligations.RouteSetOutput : Prop :=
  ∀ (tag dir line src fleet form width pol : Byte) (rest : List RxFrame) (s : State),
    let f : RxFrame := ⟨0x0A, tag, [dir, line, src, fleet, form, width, pol]⟩
    Taken f rest s → s.checkHit = false →
    ((2 ≤ dir.toNat ∨ 4 ≤ line.toNat) → ∃ t, exec (.routeSet tag f.body) s = .next t ∧
      AnsweredOnly f rest .range (routeBytes s.router) s t) ∧
    (∀ k : Fin 4, dir = 1 → line.toNat = k.val →
      let old := s.router.outputs[k.val]
      let src' : Source := if src = 0 then .none else if h : src = 1 ∧ fleet.toNat < 4 then .startPulse ⟨fleet.toNat, h.2⟩
        else if src = 2 then .sweepFolded else if src = 3 then .sweepDropped else if src = 4 then .vpDone
        else if src = 5 then .holdover else if src = 6 then .ringLate else if src = 7 then .noticeHigh
        else if src = 8 then .acquire else old.source
      let form' : Form := if form = 0 then .pulse else if form = 1 then .level else if form = 2 then .toggle else old.form
      let true' := (src' = .holdover ∧ s.time.lock = .holdover) ∨ (src' = .noticeHigh ∧ 48 ≤ s.link.notices.length) ∨
        (src' = .acquire ∧ s.mode.op = .acquire)
      ∃ t u, exec (.routeSet tag f.body) s = .next t ∧
        u = (taken rest s).withRouter { s.router with outputs := u.router.outputs } ∧
        (∀ j : Fin 4, j ≠ k → u.router.outputs[j.val] = s.router.outputs[j.val]) ∧
        u.router.outputs[k.val] =
          { source := src', form := form', width := max 1 width.toNat
            polarity := if pol = 0 then .activeHigh else if pol = 1 then .activeLow else old.polarity
            asserted := decide (form' = .level ∧ true'), count := 0 } ∧
        Replied f .ok (routeBytes u.router) u t)

/-! ### The mode controller (R156 to R169) -/

/-- IDENT and ROUTE_GET change nothing and answer with their contents: the part's identity, and both route tables (R56, R166, R172, R174).
PARAM_GET: key and value in force, 0 for a key that names no parameter; nothing changes, in every operating state (R161, R163). FLEET_GET:
RANGE outside 0..3, otherwise the record: the fleet fields and the arm (R61, R172). -/
def Obligations.TablesRead : Prop :=
  (∀ (tag : Byte) (rest : List RxFrame) (s : State), s.checkHit = false →
    (Taken ⟨0x01, tag, []⟩ rest s → ∃ t, exec (.ident tag []) s = .next t ∧
      AnsweredOnly ⟨0x01, tag, []⟩ rest .ok
        ([0x10, 0x5C, 1] ++ leBytes 1 s.mode.sizeCode.val ++ leBytes 2 s.channels ++ leBytes 1 s.mode.position.val ++
          leBytes 2 (s.mode.position.val * s.channels) ++ leBytes 2 (s.mode.position.val * s.channels + s.channels - 1) ++
          [0x00, 0x08, 8, 0x00, 0x80, 4, 16, 4, 8, 64, 0x10, 0x04, resetCauseCode s.mode.cause]) s t) ∧
    (Taken ⟨0x0B, tag, []⟩ rest s → ∃ t, exec (.routeGet tag []) s = .next t ∧
      AnsweredOnly ⟨0x0B, tag, []⟩ rest .ok
        ((List.finRange 4).flatMap (fun i => roleBytes s.router.inputs[i.val].role ++ [polarityCode s.router.inputs[i.val].polarity]) ++
         (List.finRange 4).flatMap (fun i => sourceBytes s.router.outputs[i.val].source ++
          [formCode s.router.outputs[i.val].form] ++ leBytes 1 s.router.outputs[i.val].width ++
          [polarityCode s.router.outputs[i.val].polarity])) s t)) ∧
  (∀ (tag key : Byte) (rest : List RxFrame) (s : State), Taken ⟨0x04, tag, [key]⟩ rest s → s.checkHit = false →
    let p := s.mode.params
    let v : Nat := if key = 1 then p.interval.val else if key = 2 then p.margin
      else if key = 3 then (if p.gapPolicy = .fold then 0 else 1) else if key = 4 then (if p.outputMode = .mean then 0 else 1)
      else if key = 5 then p.holdover else if key = 6 then p.mask.toNat else 0
    ∃ t, exec (.paramGet tag [key]) s = .next t ∧ AnsweredOnly ⟨0x04, tag, [key]⟩ rest .ok (key :: leBytes 4 v) s t) ∧
  (∀ (tag b : Byte) (rest : List RxFrame) (s : State), Taken ⟨0x10, tag, [b]⟩ rest s → s.checkHit = false →
    ∃ t, exec (.fleetGet tag [b]) s = .next t ∧
      (4 ≤ b.toNat → AnsweredOnly ⟨0x10, tag, [b]⟩ rest .range (b :: List.replicate 17 0) s t) ∧
      ∀ i : Fin 4, b.toNat = i.val →
        let r := s.fleet i
        AnsweredOnly ⟨0x10, tag, [b]⟩ rest .ok
          (b :: (leBytes 1 r.slot.val ++ leBytes 2 r.k ++ leBytes 2 r.edit ++ leBytes 1 r.reject ++ leBytes 1 r.target ++
            leBytes 2 r.lead.toNat ++ leBytes 2 r.offset.toNat ++
            match r.arm with
            | none => [0, 0, 0, 0, 0, 0]
            | some a => 1 :: (leBytes 4 a.vp.toNat ++ leBytes 1 a.count))) s t)

/-- STATUS changes nothing, and its 112 + 9n bytes give the part as it stands: each field at its place (R167, R174). That the accepted-request
count it carries includes this STATUS itself is the model's choice, log entry 11: R147 and R167 do not say when the count rises for it. -/
def Obligations.StatusReads : Prop :=
  ∀ (tag : Byte) (rest : List RxFrame) (s : State), Taken ⟨0x02, tag, []⟩ rest s → Clean s →
    ∃ t c, exec (.status tag []) s = .next t ∧ AnsweredOnly ⟨0x02, tag, []⟩ rest .ok c s t ∧
      c.length = 112 + 9 * s.listed.length ∧
      c.take 3 = [opCode s.mode.op, (s.mode.drain.map drainCode).getD 0xFF, boolByte s.ring.head.isSome] ∧
      fieldAt c 3 6 = s.ring.head.getD 0 % 2 ^ 48 ∧ fieldAt c 9 4 = s.ring.accepted.toNat ∧
      fieldAt c 13 4 = s.ring.duplicates.toNat ∧ fieldAt c 17 4 = s.ring.tooOld.toNat ∧
      byteAt c 21 = boolByte s.ring.fault.isSome ∧ fieldAt c 22 6 = s.time.n.toNat ∧ byteAt c 28 = lockCode s.time.lock ∧
      fieldAt c 29 6 = s.time.a.toNat ∧
      (s.engine.job = none → (c.drop 35).take 6 = [0, 0, 0, 0, 0, 0]) ∧
      (∀ j, s.engine.job = some j →
        (c.drop 35).take 6 = 1 :: (leBytes 2 j.sweep.id ++ [if j.pass = .correlation then 1 else 2] ++ leBytes 2 j.done)) ∧
      (∀ i : Fin 4, (c.drop (41 + 12 * i.val)).take 12 =
        ctxStateCode (s.ctx i).state :: (leBytes 1 (s.ctx i).gen.toNat ++ leBytes 4 (s.ctx i).vp.toNat ++
          leBytes 1 (s.ctx i).target ++ leBytes 2 (s.ctx i).k ++ leBytes 1 (s.ctx i).attached ++
          leBytes 1 (s.ctx i).folded ++ leBytes 1 (s.ctx i).dropped)) ∧
      byteAt c 89 = BitVec.ofNat 8 s.stack.openOrder.length ∧ byteAt c 94 = BitVec.ofNat 8 s.emitter.closing.length ∧
      (∀ k < 4, byteAt c (90 + k) = (match s.stack.openOrder[k]? with | some i => BitVec.ofNat 8 i.val | none => 0xFF) ∧
        byteAt c (95 + k) = (match s.emitter.closing[k]? with | some i => BitVec.ofNat 8 i.val | none => 0xFF)) ∧
      (s.emitter.cursor = none → (c.drop 99).take 4 = [0, 0, 0, 0]) ∧
      (∀ cu, s.emitter.cursor = some cu → (c.drop 99).take 4 = 1 :: (leBytes 1 cu.ctx.val ++ leBytes 2 cu.sent)) ∧
      byteAt c 103 = rxStateCode s.link.receiver ∧
      fieldAt c 104 2 = (s.link.accepted + 1).toNat ∧ fieldAt c 106 2 = s.link.huntDiscards % 65536 ∧
      fieldAt c 108 1 = s.link.notices.length % 256 ∧ fieldAt c 109 2 = s.link.lost % 65536 ∧
      byteAt c 111 = BitVec.ofNat 8 s.listed.length ∧
      c.drop 112 = s.listed.flatMap fun r => leBytes 2 r.id ++ [sweepStateCode (some r.state)] ++ leBytes 6 r.t0.toNat

/-- PARAM_SET stores: the settle margin and the report mask clamped, the gap policy and the output mode from their sets, a value outside
them discarded (R151, R161, R162). PARAM_SET is refused STATE for a setup-class key outside SETUP and answered with 0 for a key that names
no parameter (R162). -/
def Obligations.ParamSetStores : Prop :=
  (∀ (tag key : Byte) (v : BitVec 32) (rest : List RxFrame) (s : State), Taken ⟨0x03, tag, paramSetBody key v⟩ rest s →
    s.checkHit = false → (key = 2 ∨ key = 3 ∨ key = 4 → s.mode.op = .setup) → (key = 2 ∨ key = 3 ∨ key = 4 ∨ key = 6) →
    let p := s.mode.params
    let q : Params :=
      if key = 2 then { p with margin := min v.toNat 255 }
      else if key = 3 then { p with gapPolicy := if v = 0 then .fold else if v = 1 then .discard else p.gapPolicy }
      else if key = 4 then { p with outputMode := if v = 0 then .mean else if v = 1 then .sum else p.outputMode }
      else { p with mask := v.truncate 12 ||| 0b111 }
    let u : Nat := if key = 2 then q.margin else if key = 3 then (if q.gapPolicy = .fold then 0 else 1)
      else if key = 4 then (if q.outputMode = .mean then 0 else 1) else q.mask.toNat
    ∃ t, exec (.paramSet tag (paramSetBody key v)) s = .next t ∧
      OnlyLinkLines { s with mode := { s.mode with params := q } } t ∧ LinesFollow [.noticeHigh] s t ∧
      Answered ⟨0x03, tag, paramSetBody key v⟩ rest .ok (key :: leBytes 4 u) s t) ∧
  (∀ (tag key : Byte) (v : BitVec 32) (rest : List RxFrame) (s : State), Taken ⟨0x03, tag, paramSetBody key v⟩ rest s →
    s.checkHit = false →
    let p := s.mode.params
    ((key = 0 ∨ 7 ≤ key.toNat) → ∃ t, exec (.paramSet tag (paramSetBody key v)) s = .next t ∧
      AnsweredOnly ⟨0x03, tag, paramSetBody key v⟩ rest .ok (key :: [0, 0, 0, 0]) s t) ∧
    (1 ≤ key.toNat → key.toNat ≤ 4 → s.mode.op ≠ .setup → ∃ t, exec (.paramSet tag (paramSetBody key v)) s = .next t ∧
      AnsweredOnly ⟨0x03, tag, paramSetBody key v⟩ rest .state
        (key :: leBytes 4 (if key = 1 then p.interval.val else if key = 2 then p.margin
          else if key = 3 then (if p.gapPolicy = .fold then 0 else 1) else (if p.outputMode = .mean then 0 else 1))) s t))

/-- PARAM_SET of the sample interval in SETUP: a changed value takes a LOCKED or HOLDOVER timebase to FREE with A at N, and the HOLDOVER
level falls where it was true; a value in force or outside its set changes nothing there (R42, R54, R162). PARAM_SET of the holdover limit,
in any operating state: the value is clamped to 1..60, and a LOCKED timebase already past the new deadline moves to HOLDOVER at the write,
with its level and its report, before the reply by log entry 20; a value in force changes nothing (R46, R54, R162). -/
def Obligations.TimebaseParamsStored : Prop :=
  (∀ (tag : Byte) (v : BitVec 32) (rest : List RxFrame) (s : State), Taken ⟨0x03, tag, paramSetBody 1 v⟩ rest s →
    s.checkHit = false → s.mode.op = .setup →
    let now := s.mode.params.interval
    let i : Fin 4 := if h : v.toNat < 4 then ⟨v.toNat, h⟩ else now
    let a := (taken rest s).withMode { s.mode with params := { s.mode.params with interval := i } }
    let b := a.withTime { s.time with lock := .free, a := s.time.n }
    ∃ t u, exec (.paramSet tag (paramSetBody 1 v)) s = .next t ∧
      (if i = now ∨ s.time.lock = .free then u = a else if s.time.lock = .holdover then Fell .holdover b u else u = b) ∧
      Replied ⟨0x03, tag, paramSetBody 1 v⟩ .ok (1 :: leBytes 4 i.val) u t) ∧
  (∀ (tag : Byte) (v : BitVec 32) (rest : List RxFrame) (s : State), Taken ⟨0x03, tag, paramSetBody 5 v⟩ rest s →
    s.checkHit = false →
    let h := max 1 (min 60 v.toNat)
    let late := h ≠ s.mode.params.holdover ∧ s.time.lock = .locked ∧ s.sps * h + s.sps / 2 ≤ (s.time.n - s.time.a).toNat
    let a := (taken rest s).withMode { s.mode with params := { s.mode.params with holdover := h } }
    ∃ t u, exec (.paramSet tag (paramSetBody 5 v)) s = .next t ∧
      (late → ∃ w, Rose .holdover (a.withTime { s.time with lock := .holdover }) w ∧
        Offered (.timebase .holdover 0 s.time.n .holdover) w u) ∧
      (¬ late → u = a) ∧ Replied ⟨0x03, tag, paramSetBody 5 v⟩ .ok (5 :: leBytes 4 h) u t)

/-- START: in SETUP the operating state becomes ACQUIRE and the ACQUIRE level rises on every line that follows it, and the reply carries the
state after the request; elsewhere STATE with the state as it stands (R157). -/
def Obligations.StartAcquires : Prop :=
  ∀ (tag : Byte) (rest : List RxFrame) (s : State), Taken ⟨0x05, tag, []⟩ rest s → s.checkHit = false →
    (s.mode.op = .setup → ∃ t u, exec (.start tag []) s = .next t ∧
      Rose .acquire ((taken rest s).withMode { s.mode with op := .acquire, drain := none }) u ∧
      Replied ⟨0x05, tag, []⟩ .ok [1] u t) ∧
    (s.mode.op ≠ .setup → ∃ t, exec (.start tag []) s = .next t ∧
      AnsweredOnly ⟨0x05, tag, []⟩ rest .state [opCode s.mode.op] s t)

/-- STOP_FINISH in ACQUIRE: the state becomes DRAINING with FINISH and the ACQUIRE level falls; every SCHEDULED sweep is dropped STOPPED, in
list order, with its report, its event and its close; every OPEN context becomes CLOSE PENDING, and the close condition is applied in
context number order, to CLOSING when something is folded, to FREE with VP DONE when nothing is; then the drain test and the reply (R77,
R125, R126, R129, R158, R160). A collecting context with sweeps still attached is CLOSE PENDING afterwards; one with none left has closed.
STOP_FINISH: RANGE for a mode outside its set, STATE in SETUP, no change in DRAINING (R158); the rows' share of the STOP frames is log
entry 16, that a TRACE offered by a close can be started before the reply log entry 17. -/
def Obligations.StopFinishDrains : Prop :=
  (∀ (tag : Byte) (rest : List RxFrame) (s : State), Taken ⟨0x06, tag, [0]⟩ rest s → Clean s → ListOrdered s →
    Attached s → s.mode.op = .acquire →
    ∃ t u v w x y, exec (.stopFinish tag [0]) s = .next t ∧
      Fell .acquire ((taken rest s).withMode { s.mode with op := .draining, drain := some .finish }) u ∧
      Chain (Dropped .stopped true) (s.listed.filter fun r => r.state = .scheduled) u v ∧
      w = v.withStack { v.stack with ctxs := w.stack.ctxs } ∧
      (∀ i, w.ctx i = if (v.ctx i).state = .opened then { v.ctx i with state := .closePending } else v.ctx i) ∧
      Chain CloseTested [0, 1, 2, 3] w x ∧ DrainTested x y ∧ Replied ⟨0x06, tag, [0]⟩ .ok [opCode y.mode.op] y t ∧
      t.listed = (s.listed.filter fun r => decide (r.state ≠ .scheduled)) ∧
      (∀ i, (s.ctx i).state = .closing → t.ctx i = s.ctx i) ∧
      (∀ i, (s.ctx i).state = .opened ∨ (s.ctx i).state = .closePending →
        ((∃ r ∈ t.listed, r.ctx = i) → (t.ctx i).state = .closePending) ∧
        ((∀ r ∈ t.listed, r.ctx ≠ i) → (s.ctx i).folded = 0 → (t.ctx i).state = .free) ∧
        ((∀ r ∈ t.listed, r.ctx ≠ i) → (s.ctx i).folded ≠ 0 → (t.ctx i).state = .closing ∧ i ∈ t.emitter.closing)) ∧
      t.ring = s.ring ∧ t.pilots = s.pilots ∧ t.time = s.time ∧ t.fleets = s.fleets ∧ t.engine = s.engine ∧
      t.router.inputs = s.router.inputs ∧ LinesFollow [.acquire, .sweepDropped, .vpDone, .noticeHigh] s t) ∧
  (∀ (tag mode : Byte) (rest : List RxFrame) (s : State), Taken ⟨0x06, tag, [mode]⟩ rest s → s.checkHit = false → mode ≠ 1 →
    (mode ≠ 0 → ∃ t, exec (.stopFinish tag [mode]) s = .next t ∧
      AnsweredOnly ⟨0x06, tag, [mode]⟩ rest .range [opCode s.mode.op] s t) ∧
    (mode = 0 → s.mode.op = .setup → ∃ t, exec (.stopFinish tag [mode]) s = .next t ∧
      AnsweredOnly ⟨0x06, tag, [mode]⟩ rest .state [0] s t) ∧
    (mode = 0 → s.mode.op = .draining → ∃ t, exec (.stopFinish tag [mode]) s = .next t ∧
      AnsweredOnly ⟨0x06, tag, [mode]⟩ rest .ok [2] s t))

/-- STOP_DISCARD in ACQUIRE or DRAINING: the drain mode is DISCARD and the ACQUIRE level falls where it was true; every listed sweep is
dropped STOPPED, in list order, without a close; every collecting context becomes FREE without emission and without VP DONE, the CLOSING
ones stay; then the drain test and the reply, from SETUP when no context is CLOSING (R77, R129, R158 to R160). In SETUP the request is
answered STATE (R158). -/
def Obligations.StopDiscardClears : Prop :=
  ∀ (tag : Byte) (rest : List RxFrame) (s : State), Taken ⟨0x06, tag, [1]⟩ rest s → Clean s → ListOrdered s → Attached s →
    EngineMatches s →
    (s.mode.op = .setup → ∃ t, exec (.stopDiscard tag [1]) s = .next t ∧
      AnsweredOnly ⟨0x06, tag, [1]⟩ rest .state [0] s t) ∧
    (s.mode.op ≠ .setup → ∃ t u v w x, exec (.stopDiscard tag [1]) s = .next t ∧
      (let a := (taken rest s).withMode { s.mode with op := .draining, drain := some .discard }
       if s.mode.op = .acquire then Fell .acquire a u else u = a) ∧
      Chain (Dropped .stopped false) s.listed u v ∧
      Chain (fun i a b => if (a.ctx i).state = .opened ∨ (a.ctx i).state = .closePending then Frees i a b else b = a)
        [0, 1, 2, 3] v w ∧
      DrainTested w x ∧ Replied ⟨0x06, tag, [1]⟩ .ok [opCode x.mode.op] x t ∧
      t.listed = [] ∧ t.engine.job = none ∧ (∀ i, (s.ctx i).state = .closing → t.ctx i = s.ctx i) ∧
      (∀ i, (s.ctx i).state ≠ .closing → (t.ctx i).state = .free ∧ (t.ctx i).gen = (s.ctx i).gen) ∧
      t.emitter = s.emitter ∧
      (if ∀ i, (s.ctx i).state ≠ .closing
        then t.mode = { s.mode with op := .setup, drain := none }
        else t.mode = { s.mode with op := .draining, drain := some .discard }) ∧
      t.ring = s.ring ∧ t.pilots = s.pilots ∧ t.time = s.time ∧ t.fleets = s.fleets ∧
      t.router.inputs = s.router.inputs ∧ LinesFollow [.acquire, .sweepDropped, .noticeHigh] s t)

/-! ### The pilot table (R25 to R35) -/

/-- PILOT_OPEN: RANGE for a slot outside 0..7, BUSY while a listed sweep references the slot, RANGE for a length outside 256..32,768;
otherwise the slot is LOADING, emptied, with the shift clamped to 40 (R26, R27). -/
def Obligations.PilotOpens : Prop :=
  ∀ (tag b sh : Byte) (lp : Word) (rest : List RxFrame) (s : State), Taken ⟨0x0C, tag, pilotOpenBody b lp sh⟩ rest s → Clean s →
    let f : RxFrame := ⟨0x0C, tag, pilotOpenBody b lp sh⟩
    ∃ t, exec (.pilotOpen tag (pilotOpenBody b lp sh)) s = .next t ∧
      (8 ≤ b.toNat → AnsweredOnly f rest .range [b, 0, 0, 0, 0] s t) ∧
      ∀ i : Fin 8, b.toNat = i.val →
        let p := s.slot i
        ((∃ r ∈ s.listed, r.slot = i) →
          AnsweredOnly f rest .busy (b :: slotStateCode p.state :: (leBytes 2 p.lp ++ leBytes 1 p.shift)) s t) ∧
        ((∀ r ∈ s.listed, r.slot ≠ i) → (lp.toNat < 256 ∨ 32768 < lp.toNat) →
          AnsweredOnly f rest .range (b :: slotStateCode p.state :: (leBytes 2 p.lp ++ leBytes 1 p.shift)) s t) ∧
        ((∀ r ∈ s.listed, r.slot ≠ i) → 256 ≤ lp.toNat → lp.toNat ≤ 32768 →
          Answered f rest .ok (b :: 1 :: (leBytes 2 lp.toNat ++ leBytes 1 (min 40 sh.toNat))) s t ∧ LinesFollow [.noticeHigh] s t ∧
          OnlyLinkLines (s.withSlot i { state := .loading, lp := lp.toNat, pos := 0, check := 0, shift := min 40 sh.toNat
                                        failure := none, samples := [] }) t)

/-- PILOT_WORDS on a LOADING slot: the samples join in order, the position rises by their number, and each is taken into the running check
by exclusive-or and a rotation left; a request that would pass Lp fails the load with OVERRUN and PILOT FAILED (R29, R30, R35).
PILOT_CLOSE on a LOADING slot: short of Lp it fails with SHORT, at Lp with a wrong closing word it fails with CHECK, each with PILOT
FAILED; at Lp with the running check it becomes VALID with its samples (R32 to R35). PILOT_WORDS and PILOT_CLOSE are refused ORDER on a
slot that is not LOADING and RANGE on a number outside 0..7, and change nothing (R28, R31, R173). That PILOT FAILED stands before the reply
is log entry 20. -/
def Obligations.PilotLoadJudged : Prop :=
  (∀ (tag b : Byte) (ws : List PilotSample) (i : Fin 8) (rest : List RxFrame) (s : State),
    Taken ⟨0x0D, tag, pilotWordsBody b ws⟩ rest s → s.checkHit = false → 1 ≤ ws.length → ws.length ≤ 256 → b.toNat = i.val →
    (s.slot i).state = .loading →
    let f : RxFrame := ⟨0x0D, tag, pilotWordsBody b ws⟩
    let p := s.slot i
    let check := ws.foldl (fun c w => (c ^^^ w).rotateLeft 1) p.check
    (p.pos + ws.length ≤ p.lp → ∃ t, exec (.pilotWords tag f.body) s = .next t ∧
      Answered f rest .ok (b :: (leBytes 2 (p.pos + ws.length) ++ leBytes 2 check.toNat)) s t ∧ LinesFollow [.noticeHigh] s t ∧
      OnlyLinkLines (s.withSlot i { p with pos := p.pos + ws.length, check := check, samples := p.samples ++ ws }) t) ∧
    (p.lp < p.pos + ws.length → ∃ t, exec (.pilotWords tag f.body) s = .next t ∧
      AnsweredAfter [.pilotFailed i .overrun p.lp p.pos p.check none] f rest .range
        (b :: (leBytes 2 p.pos ++ leBytes 2 p.check.toNat)) s t ∧ LinesFollow [.noticeHigh] s t ∧
      OnlyLinkLines (s.withSlot i { p with state := .failed, failure := some .overrun, samples := [] }) t)) ∧
  (∀ (tag b : Byte) (w : Word) (i : Fin 8) (rest : List RxFrame) (s : State), Taken ⟨0x0E, tag, pilotCloseBody b w⟩ rest s →
    s.checkHit = false → b.toNat = i.val → (s.slot i).state = .loading →
    let f : RxFrame := ⟨0x0E, tag, pilotCloseBody b w⟩
    let p := s.slot i
    (p.pos < p.lp → ∃ t, exec (.pilotClose tag f.body) s = .next t ∧
      AnsweredAfter [.pilotFailed i .short p.lp p.pos p.check (some w)] f rest .check
        (b :: 3 :: (leBytes 2 p.pos ++ leBytes 2 p.check.toNat ++ [2])) s t ∧ LinesFollow [.noticeHigh] s t ∧
      OnlyLinkLines (s.withSlot i { p with state := .failed, failure := some .short, samples := [] }) t) ∧
    (p.pos = p.lp → w ≠ p.check → ∃ t, exec (.pilotClose tag f.body) s = .next t ∧
      AnsweredAfter [.pilotFailed i .check p.lp p.pos p.check (some w)] f rest .check
        (b :: 3 :: (leBytes 2 p.pos ++ leBytes 2 p.check.toNat ++ [3])) s t ∧ LinesFollow [.noticeHigh] s t ∧
      OnlyLinkLines (s.withSlot i { p with state := .failed, failure := some .check, samples := [] }) t) ∧
    (p.pos = p.lp → w = p.check → ∃ t, exec (.pilotClose tag f.body) s = .next t ∧
      Answered f rest .ok (b :: 2 :: (leBytes 2 p.pos ++ leBytes 2 p.check.toNat ++ [pilotFailureCode p.failure])) s t ∧
      LinesFollow [.noticeHigh] s t ∧ OnlyLinkLines (s.withSlot i { p with state := .valid }) t)) ∧
  (∀ (tag b : Byte) (ws : List PilotSample) (w : Word) (rest : List RxFrame) (s : State), s.checkHit = false → 1 ≤ ws.length →
    ws.length ≤ 256 →
    let f : RxFrame := ⟨0x0D, tag, pilotWordsBody b ws⟩
    let g : RxFrame := ⟨0x0E, tag, pilotCloseBody b w⟩
    (Taken f rest s → (∀ i : Fin 8, b.toNat = i.val → (s.slot i).state ≠ .loading) →
      ∃ t, exec (.pilotWords tag f.body) s = .next t ∧
        (8 ≤ b.toNat → AnsweredOnly f rest .range [b, 0, 0, 0, 0] s t) ∧
        ∀ i : Fin 8, b.toNat = i.val → AnsweredOnly f rest .order
          (b :: (leBytes 2 (s.slot i).pos ++ leBytes 2 (s.slot i).check.toNat)) s t) ∧
    (Taken g rest s → (∀ i : Fin 8, b.toNat = i.val → (s.slot i).state ≠ .loading) →
      ∃ t, exec (.pilotClose tag g.body) s = .next t ∧
        (8 ≤ b.toNat → AnsweredOnly g rest .range [b, 0, 0, 0, 0, 0, 0] s t) ∧
        ∀ i : Fin 8, b.toNat = i.val → AnsweredOnly g rest .order
          (b :: slotStateCode (s.slot i).state :: (leBytes 2 (s.slot i).pos ++ leBytes 2 (s.slot i).check.toNat ++
            [pilotFailureCode (s.slot i).failure])) s t))

/-! ### The fleet table and time breaks (R59 to R65) -/

/-- FLEET_SET: RANGE for a fleet outside 0..3, BUSY while the fleet has a listed sweep, RANGE for a slot outside 0..7; otherwise the
record takes the fields, K rounded down to a multiple of 64 and clamped to 256..8,192, E to 0 or 16..4,095, J to 128, F to 1..32, and
keeps its arm (R60). -/
def Obligations.FleetSetStores : Prop :=
  ∀ (tag b sl j fo : Byte) (k e : Word) (lead offset : BitVec 16) (rest : List RxFrame) (s : State),
    let f : RxFrame := ⟨0x0F, tag, fleetSetBody b sl k e j fo lead offset⟩
    Taken f rest s → Clean s →
    ∃ t, exec (.fleetSet tag f.body) s = .next t ∧
      (4 ≤ b.toNat → AnsweredOnly f rest .range (b :: List.replicate 17 0) s t) ∧
      ∀ i : Fin 4, b.toNat = i.val →
        ((∃ r ∈ s.listed, r.fleet = i) → AnsweredOnly f rest .busy (b :: fleetBytes (s.fleet i)) s t) ∧
        ((∀ r ∈ s.listed, r.fleet ≠ i) → 8 ≤ sl.toNat → AnsweredOnly f rest .range (b :: fleetBytes (s.fleet i)) s t) ∧
        (∀ slot : Fin 8, (∀ r ∈ s.listed, r.fleet ≠ i) → sl.toNat = slot.val →
          let r : FleetRecord :=
            { slot := slot
              k := max 256 (min 8192 (64 * (k.toNat / 64)))
              edit := if e.toNat = 0 then 0 else max 16 (min 4095 e.toNat)
              reject := min 128 j.toNat
              target := max 1 (min 32 fo.toNat)
              lead := lead, offset := offset, arm := (s.fleet i).arm }
          OnlyLinkLines (s.withFleet i r) t ∧ LinesFollow [.noticeHigh] s t ∧ Answered f rest .ok (b :: fleetBytes r) s t)

/-- ARM: RANGE outside 0..3; a count of 0 removes the arm, another sets it with the VP id and the count clamped to 32 (R62). -/
def Obligations.ArmSets : Prop :=
  ∀ (tag b n : Byte) (vp : VpId) (rest : List RxFrame) (s : State), Taken ⟨0x11, tag, armBody b vp n⟩ rest s → s.checkHit = false →
    let f : RxFrame := ⟨0x11, tag, armBody b vp n⟩
    ∃ t, exec (.arm tag (armBody b vp n)) s = .next t ∧
      (4 ≤ b.toNat → AnsweredOnly f rest .range [b, 0, 0, 0, 0, 0, 0] s t) ∧
      ∀ i : Fin 4, b.toNat = i.val →
        (n = 0 → OnlyLinkLines (s.withFleet i { s.fleet i with arm := none }) t ∧ LinesFollow [.noticeHigh] s t ∧
          Answered f rest .ok [b, 0, 0, 0, 0, 0, 0] s t) ∧
        (n ≠ 0 → OnlyLinkLines (s.withFleet i { s.fleet i with arm := some { vp := vp, count := min 32 n.toNat } }) t ∧
          LinesFollow [.noticeHigh] s t ∧ Answered f rest .ok (b :: 1 :: (leBytes 4 vp.toNat ++ leBytes 1 (min 32 n.toNat))) s t)

/-- TIME_BREAK refused: outside ACQUIRE with reason STATE, in ACQUIRE without an arm with reason UNARMED; TIME BREAK REFUSED carries the
captured N and nothing else changes (R49, R63, R64). TIME_BREAK taken but refused entry: the arm's count falls all the same, SWEEP DROPPED
with id 0, the check's cause and no context is offered, and a force-close to CLOSING stands (R63, R65, R69, R124). That a TRACE the
force-close offers can be started before that SWEEP DROPPED is the model's choice: log entry 17. That the row carries the level after the
edge, which State holds, is log entry 9. -/
def Obligations.BreakTurnedAway : Prop :=
  ∀ (line : Fin 4) (level : Bool) (fl : Fin 4) (s : State), s.mode.held = false → Clean s →
    s.router.inputs[line.val].role = .timeBreak fl → level = decide (s.router.inputs[line.val].polarity = .activeHigh) →
    let u := s.withRouter { s.router with pins := s.router.pins.set line.val level }
    (s.mode.op ≠ .acquire ∨ (s.fleet fl).arm = none →
      ∃ t, exec (.timeBreak line level) s = .next t ∧
        Offered (.timeBreakRefused fl (if s.mode.op ≠ .acquire then .state else .unarmed) s.time.n s.mode.op) u t) ∧
    (∀ a : Arm, s.mode.op = .acquire → (s.fleet fl).arm = some a →
      let t0 := s.time.n + (s.fleet fl).offset.signExtend 48
      ¬ (ChecksPass s fl t0 ∧ Resolvable s fl a.vp) →
      ∃ t why v, exec (.timeBreak line level) s = .next t ∧
        EntryTurned (u.withFleet fl { s.fleet fl with arm := if a.count ≤ 1 then none else some { a with count := a.count - 1 } })
          fl a.vp t0 why v ∧
        let cause : DropCause := match why with
          | .full => .full | .pilot => .pilot | .late => .late | .noContext => .noContext | .foldFull => .foldFull
          | .mismatch => .mismatch
        Offered (.sweepDropped 0 fl a.vp t0 cause none none) v t)

/-- TIME_BREAK admitted: the captured N plus the offset is T0, the arm's count falls, the sweep is attached to its context, listed under the
first free id, announced by SWEEP ENTERED and tested for readiness, and the engine's arbiter looks (R49, R63, R66 to R69, R72, R74, R84,
R122 to R124). That the row carries the level after the edge, which State holds, is log entry 9. -/
def Obligations.BreakEnters : Prop :=
  ∀ (line : Fin 4) (level : Bool) (fl : Fin 4) (a : Arm) (s : State), s.mode.held = false → Clean s → ListOrdered s →
    s.router.inputs[line.val].role = .timeBreak fl → level = decide (s.router.inputs[line.val].polarity = .activeHigh) →
    s.mode.op = .acquire → (s.fleet fl).arm = some a →
    let t0 := s.time.n + (s.fleet fl).offset.signExtend 48
    ChecksPass s fl t0 → Resolvable s fl a.vp →
    let u := (s.withRouter { s.router with pins := s.router.pins.set line.val level }).withFleet fl
      { s.fleet fl with arm := if a.count ≤ 1 then none else some { a with count := a.count - 1 } }
    ∃ t r' v, exec (.timeBreak line level) s = .next t ∧ EntersWaiting .timeBreak fl a.vp t0 r' u v ∧ EngineLooks v t

/-! ### The sweep list and the stack contexts (R66 to R80, R119 to R129) -/

/-- POST and SCHEDULE refused: RANGE for a fleet outside 0..3, STATE outside ACQUIRE (and, for SCHEDULE, in FREE), LATE for a compare
point at or below N, and nothing changes; then the first failing check's status, and a force-close to CLOSING stands; sweep id 0 and no
context (R69 to R71, R122, R124, R173). That a TRACE the force-close offers can be started before the reply is log entry 17. -/
def Obligations.EntryTurnedAway : Prop :=
  ∀ (tag b : Byte) (vp : VpId) (t0 : SampleIndex) (rest : List RxFrame) (s : State), Clean s →
    let body := sweepBody b vp t0
    let p : RxFrame := ⟨0x12, tag, body⟩
    let q : RxFrame := ⟨0x13, tag, body⟩
    let late (fl : Fin 4) : Prop := (t0.toNat : Int) - (s.fleet fl).lead.toNat ≤ s.time.n.toNat
    let status (why : Refused) : Status := match why with
      | .full => .full | .pilot => .pilot | .late => .late | .noContext => .noContext | .foldFull => .foldFull
      | .mismatch => .mismatch
    (Taken p rest s →
      (4 ≤ b.toNat → ∃ t, exec (.post tag body) s = .next t ∧ AnsweredOnly p rest .range [0, 0, 0xFF, 0] s t) ∧
      ∀ fl : Fin 4, b.toNat = fl.val →
        (s.mode.op ≠ .acquire → ∃ t, exec (.post tag body) s = .next t ∧ AnsweredOnly p rest .state [0, 0, 0xFF, 0] s t) ∧
        (s.mode.op = .acquire → ¬ (ChecksPass s fl t0 ∧ Resolvable s fl vp) →
          ∃ t why u, exec (.post tag body) s = .next t ∧ EntryTurned (taken rest s) fl vp t0 why u ∧
            Replied p (status why) [0, 0, 0xFF, 0] u t)) ∧
    (Taken q rest s →
      (4 ≤ b.toNat → ∃ t, exec (.schedule tag body) s = .next t ∧
        AnsweredOnly q rest .range [0, 0, 0xFF, 0, 0, 0, 0, 0, 0] s t) ∧
      ∀ fl : Fin 4, b.toNat = fl.val →
        (s.mode.op ≠ .acquire ∨ s.time.lock = .free → ∃ t, exec (.schedule tag body) s = .next t ∧
          AnsweredOnly q rest .state [0, 0, 0xFF, 0, 0, 0, 0, 0, 0] s t) ∧
        (s.mode.op = .acquire → s.time.lock ≠ .free → late fl → ∃ t, exec (.schedule tag body) s = .next t ∧
          AnsweredOnly q rest .late [0, 0, 0xFF, 0, 0, 0, 0, 0, 0] s t) ∧
        (s.mode.op = .acquire → s.time.lock ≠ .free → ¬ late fl → ¬ (ChecksPass s fl t0 ∧ Resolvable s fl vp) →
          ∃ t why u, exec (.schedule tag body) s = .next t ∧ EntryTurned (taken rest s) fl vp t0 why u ∧
            Replied q (status why) [0, 0, 0xFF, 0, 0, 0, 0, 0, 0] u t))

/-- POST admitted: the sweep is attached to its context, listed under the first free id from the next id upward, announced by SWEEP ENTERED
and tested for readiness; the reply carries id, context and state; then the engine's arbiter looks (R66 to R70, R72, R74, R84, R86, R87,
R122 to R124). -/
def Obligations.PostAdmitted : Prop :=
  ∀ (tag b : Byte) (vp : VpId) (t0 : SampleIndex) (fl : Fin 4) (rest : List RxFrame) (s : State),
    Taken ⟨0x12, tag, sweepBody b vp t0⟩ rest s → Clean s → ListOrdered s → b.toNat = fl.val → s.mode.op = .acquire →
    ChecksPass s fl t0 → Resolvable s fl vp →
    ∃ t r' u v, exec (.post tag (sweepBody b vp t0)) s = .next t ∧ EntersWaiting .post fl vp t0 r' (taken rest s) u ∧
      (r'.state = .waiting ∨ r'.state = .ready) ∧
      Replied ⟨0x12, tag, sweepBody b vp t0⟩ .ok
        (leBytes 2 r'.id ++ [BitVec.ofNat 8 r'.ctx.val, if r'.state = .waiting then 2 else 3]) u v ∧
      EngineLooks v t

/-- SCHEDULE admitted: the sweep is attached to its context and listed SCHEDULED under the first free id from the next id upward with its
compare point T0 − lead; the reply carries id, context and compare point, and no report is offered for it (R66 to R68, R71, R122 to
R124). That the VP DONE of a context force-closed for it stands before the reply is the model's choice: log entry 20. -/
def Obligations.ScheduleAdmitted : Prop :=
  ∀ (tag b : Byte) (vp : VpId) (t0 : SampleIndex) (fl : Fin 4) (rest : List RxFrame) (s : State),
    Taken ⟨0x13, tag, sweepBody b vp t0⟩ rest s → Clean s → ListOrdered s → b.toNat = fl.val → s.mode.op = .acquire →
    s.time.lock ≠ .free → s.time.n.toNat + (s.fleet fl).lead.toNat < t0.toNat → ChecksPass s fl t0 → Resolvable s fl vp →
    let point := t0.toNat - (s.fleet fl).lead.toNat
    ∃ t id i u v, exec (.schedule tag (sweepBody b vp t0)) s = .next t ∧ FreshId s id ∧ Attaches fl vp i (taken rest s) u ∧
      Lists id { enteredRecord s id .schedule fl vp t0 i with state := .scheduled, compare := some point } u v ∧
      Replied ⟨0x13, tag, sweepBody b vp t0⟩ .ok (leBytes 2 id ++ [BitVec.ofNat 8 i.val] ++ leBytes 6 point) v t

/-- POST with no context FREE for a new VP: the collecting context with nothing attached nearest the head of the open order is closed: one
that has folded nothing is freed with VP DONE, its event raised, and opened again at its next generation for the sweep; one that has folded
something becomes CLOSING, which stands while the POST is answered NO CONTEXT (R69, R124, R126). SCHEDULE and TIME_BREAK force-close alike,
in ScheduleAdmitted, BreakEnters, EntryTurnedAway and BreakTurnedAway. That the first TRACE of the CLOSING context can be started before
the reply is log entry 17. -/
def Obligations.PostForcesClose : Prop :=
  ∀ (tag b : Byte) (vp : VpId) (t0 : SampleIndex) (fl i : Fin 4) (rest : List RxFrame) (s : State),
    let f : RxFrame := ⟨0x12, tag, sweepBody b vp t0⟩
    Taken f rest s → Clean s → ListOrdered s → b.toNat = fl.val → s.mode.op = .acquire →
    ChecksPass s fl t0 → (∀ j, ¬ CollectsVp s vp j) → (∀ j, (s.ctx j).state ≠ .free) → ForceCandidate s i →
    ((s.ctx i).folded = 0 → ∃ t id a c u v w, exec (.post tag f.body) s = .next t ∧
      VpDone i 0 (taken rest s) a ∧ Frees i a c ∧ FreshId s id ∧
      (let r := enteredRecord s id .post fl vp t0 i
       ∃ d e r', Opens i fl vp c d ∧ (d.ctx i).gen = (s.ctx i).gen + 1 ∧ Lists id r d e ∧ EnteredOffered r e u ∧ Tested s r r' ∧
        InsertedAt r' s.listed v.listed ∧ v = u.withListed v.listed ∧
        Replied f .ok (leBytes 2 id ++ [BitVec.ofNat 8 i.val, if r'.state = .waiting then 2 else 3]) v w) ∧
      EngineLooks w t) ∧
    ((s.ctx i).folded ≠ 0 → ∃ t u, exec (.post tag f.body) s = .next t ∧ Closes i (taken rest s) u ∧ (u.ctx i).state = .closing ∧
      u.emitter.closing = s.emitter.closing ++ [i] ∧ Replied f .noContext [0, 0, 0xFF, 0] u t)

/-- CANCEL of a listed sweep: it is dropped CANCELLED, whole, with its report, its event and the close of its context; the drain test is
made; the reply carries the state it was in; then the engine's arbiter looks (R76 to R80, R84, R98, R125, R160). That DRAINED and the VP
DONE of the close stand before the reply is log entries 12 and 20, that a TRACE the close offers can be started before it log entry 17.
CANCEL: an id that is 0 or not listed is answered UNKNOWN and nothing changes (R76). -/
def Obligations.CancelDrops : Prop :=
  (∀ (tag : Byte) (id : Word) (r : SweepRecord) (rest : List RxFrame) (s : State),
    Taken ⟨0x14, tag, cancelBody id⟩ rest s → Clean s → ListOrdered s → r ∈ s.listed → r.id = id.toNat →
    ∃ t u v w, exec (.cancel tag (cancelBody id)) s = .next t ∧ Dropped .cancelled true r (taken rest s) u ∧ DrainTested u v ∧
      Replied ⟨0x14, tag, cancelBody id⟩ .ok (leBytes 2 id.toNat ++ [sweepStateCode (some r.state)]) v w ∧ EngineLooks w t) ∧
  (∀ (tag : Byte) (id : Word) (rest : List RxFrame) (s : State), Taken ⟨0x14, tag, cancelBody id⟩ rest s → Clean s →
    (id = 0 ∨ ∀ r ∈ s.listed, r.id ≠ id.toNat) →
    ∃ t, exec (.cancel tag (cancelBody id)) s = .next t ∧
      AnsweredOnly ⟨0x14, tag, cancelBody id⟩ rest .unknown (leBytes 2 id.toNat ++ [0]) s t)

/-- CLOSE_VP_WAIT: RANGE for a mode outside its set, UNKNOWN without an OPEN context of the VP; an OPEN context becomes CLOSE PENDING, and
one with no sweep attached closes at once, to FREE with VP DONE when nothing is folded, to CLOSING otherwise; the drain test is made, and
the reply carries the state after the request and the counts (R125 to R127, R132, R160). That VP DONE and DRAINED stand before the reply is log
entries 20 and 12, that a TRACE the close offers can be started before it log entry 17; the rows' share of the CLOSE VP frames is log entry
16. -/
def Obligations.CloseVpWaits : Prop :=
  ∀ (tag mode : Byte) (vp : VpId) (rest : List RxFrame) (s : State), Taken ⟨0x15, tag, closeVpBody vp mode⟩ rest s → Clean s →
    mode ≠ 1 →
    let f : RxFrame := ⟨0x15, tag, closeVpBody vp mode⟩
    let isOpen (i : Fin 4) : Prop := (s.ctx i).state = .opened ∧ (s.ctx i).vp = vp
    (mode ≠ 0 → ∃ t, exec (.closeVpWait tag f.body) s = .next t ∧ AnsweredOnly f rest .range [0xFF, 0, 0, 0, 0, 0] s t) ∧
    (mode = 0 → (∀ i, ¬ isOpen i) → ∃ t, exec (.closeVpWait tag f.body) s = .next t ∧
      AnsweredOnly f rest .unknown [0xFF, 0, 0, 0, 0, 0] s t) ∧
    ∀ i, mode = 0 → isOpen i → (∀ j : Fin 4, j.val < i.val → ¬ isOpen j) →
      let c := s.ctx i
      let st : Byte := if c.attached ≠ 0 then 2 else if c.folded = 0 then 0 else 3
      ∃ t u v, exec (.closeVpWait tag f.body) s = .next t ∧
        CloseTested i ((taken rest s).withCtx i { c with state := .closePending }) u ∧ DrainTested u v ∧
        Replied f .ok (BitVec.ofNat 8 i.val ::
          (leBytes 1 c.gen.toNat ++ [st] ++ leBytes 1 c.attached ++ leBytes 1 c.folded ++ leBytes 1 c.dropped)) v t ∧
        ctxStateCode (t.ctx i).state = st

/-- CLOSE_VP_NOW: UNKNOWN without an OPEN context of the VP; otherwise the context becomes CLOSE PENDING, every sweep attached to it is
dropped CLOSED, in list order, and it closes within the request, by its last drop, or at once where none was attached; the drain test is
made, the reply carries the state and the counts, and the engine's arbiter looks (R77, R79, R84, R126, R128, R160). That DRAINED stands
before the reply is log entry 12, that a TRACE the close offers can be started before it log entry 17. -/
def Obligations.CloseVpDropsNow : Prop :=
  ∀ (tag : Byte) (vp : VpId) (rest : List RxFrame) (s : State), Taken ⟨0x15, tag, closeVpBody vp 1⟩ rest s → Clean s →
    ListOrdered s → Attached s →
    let f : RxFrame := ⟨0x15, tag, closeVpBody vp 1⟩
    let isOpen (i : Fin 4) : Prop := (s.ctx i).state = .opened ∧ (s.ctx i).vp = vp
    ((∀ i, ¬ isOpen i) → ∃ t, exec (.closeVpNow tag f.body) s = .next t ∧
      AnsweredOnly f rest .unknown [0xFF, 0, 0, 0, 0, 0] s t) ∧
    ∀ i, isOpen i → (∀ j : Fin 4, j.val < i.val → ¬ isOpen j) →
      let c := s.ctx i
      let l := s.listed.filter fun r => r.ctx = i
      let a := (taken rest s).withCtx i { c with state := .closePending }
      ∃ t u v w, exec (.closeVpNow tag f.body) s = .next t ∧
        (if l = [] then CloseTested i a u else Chain (Dropped .closed true) l a u) ∧ DrainTested u v ∧
        Replied f .ok (BitVec.ofNat 8 i.val ::
          (leBytes 1 c.gen.toNat ++ [if c.folded = 0 then 0 else 3] ++ leBytes 1 0 ++ leBytes 1 c.folded ++
            leBytes 1 (c.dropped + c.attached))) v w ∧
        EngineLooks w t ∧
        t.listed.map (·.id) = (s.listed.filter fun r => decide (r.ctx ≠ i)).map (·.id) ∧
        (t.ctx i).gen = c.gen ∧ (∀ j, j ≠ i → t.ctx j = s.ctx j) ∧
        (c.folded = 0 → (t.ctx i).state = .free ∧ t.emitter = s.emitter) ∧
        (c.folded ≠ 0 → t.ctx i = { c with state := .closing, attached := 0, dropped := c.dropped + c.attached } ∧
          t.emitter.closing = s.emitter.closing ++ [i])

/-! ### The spread port and the sample ring (R4 to R22) -/

/-- FAULT_READ: the reply carries the record as it stands, which is then not present with a later-fault count of 0 (R21, R172). -/
def Obligations.FaultReadClears : Prop :=
  ∀ (tag : Byte) (rest : List RxFrame) (s : State), Taken ⟨0x16, tag, []⟩ rest s → s.checkHit = false →
    ∃ t, exec (.faultRead tag []) s = .next t ∧
      OnlyLinkLines { s with ring := { s.ring with fault := none } } t ∧ LinesFollow [.noticeHigh] s t ∧
      Answered ⟨0x16, tag, []⟩ rest .ok
        (match s.ring.fault with
          | none => List.replicate 13 0
          | some f => [1, faultKindCode f.kind] ++
            (match f.loc with
              | none => List.replicate 9 0
              | some (g, b) => 1 :: (leBytes 2 g ++ leBytes 6 b)) ++ leBytes 2 f.later) s t

/-- BLOCK_FRAME pieces: a piece that is not the frame's last is kept; a frame under a reset's discard, or coming in while a cold reset holds
the part, is dropped with its end (R4, R23, R24; log entry 22). A frame that is a fault: LENGTH by its byte count, CHECK by its check, JUMP
by its block index; the first is captured and reported, a later one counted to 65,535, and nothing else changes (R4 to R6, R16, R20). One
that passes its tests and changes no data: a group outside the slice is ignored; a block already valid counts as a duplicate, a block below
the window as too old (R7, R13, R15, R22). -/
def Obligations.BlockNotStored : Prop :=
  (∀ (piece : List Byte) (last : Bool) (s : State), s.checkHit = false →
    let became (q : Reception) : State := s.withRing { s.ring with reception := q }
    (s.mode.held = true ∨ s.ring.reception = .discarding →
      exec (.blockFrame ⟨piece, last⟩) s = .next (became (if last then .idle else .discarding))) ∧
    (s.mode.held = false → s.ring.reception = .idle → exec (.blockFrame ⟨piece, false⟩) s = .next (became (.receiving piece))) ∧
    (∀ before, s.mode.held = false → s.ring.reception = .receiving before →
      exec (.blockFrame ⟨piece, false⟩) s = .next (became (.receiving (before ++ piece))))) ∧
  (∀ (piece bytes : List Byte) (kind : FaultKind) (loc : Option (Nat × Nat)) (s : State), s.mode.held = false → s.checkHit = false →
    FrameWhole s piece bytes →
    let g := leNat (bytes.take 2)
    let b := leNat ((bytes.drop 2).take 6)
    let became (f : FaultRecord) : State := s.withRing { s.ring with fault := some f, reception := .idle }
    ((kind = .length ∧ bytes.length ≠ 6154 ∧ loc = (if 8 ≤ bytes.length then some (g, b) else none)) ∨
     (kind = .check ∧ bytes.length = 6154 ∧ checkOf bytes ≠ 0 ∧ loc = some (g, b)) ∨
     (kind = .jump ∧ bytes.length = 6154 ∧ checkOf bytes = 0 ∧ loc = some (g, b) ∧
       s.firstGroup ≤ g ∧ g < s.firstGroup + s.groups ∧ (2 ^ 43 - 1 < b ∨ ∃ h, s.ring.head = some h ∧ h + 2048 < b))) →
    ∃ t, exec (.blockFrame ⟨piece, true⟩) s = .next t ∧
      (s.ring.fault = none → Offered (.spreadFault kind loc) (became { kind := kind, loc := loc, later := 0 }) t) ∧
      (∀ fr, s.ring.fault = some fr → t = became { fr with later := min 65535 (fr.later + 1) })) ∧
  (∀ (piece bytes : List Byte) (s : State), s.mode.held = false → s.checkHit = false → FrameWhole s piece bytes →
    bytes.length = 6154 → checkOf bytes = 0 →
    let g := leNat (bytes.take 2)
    let b := leNat ((bytes.drop 2).take 6)
    (¬ (s.firstGroup ≤ g ∧ g < s.firstGroup + s.groups) →
      exec (.blockFrame ⟨piece, true⟩) s = .next (s.withRing { s.ring with reception := .idle })) ∧
    (s.firstGroup ≤ g → g < s.firstGroup + s.groups → b ≤ 2 ^ 43 - 1 → BlockValid s (g - s.firstGroup) b →
      exec (.blockFrame ⟨piece, true⟩) s =
        .next (s.withRing { s.ring with duplicates := s.ring.duplicates + 1, reception := .idle })) ∧
    (∀ h, s.firstGroup ≤ g → g < s.firstGroup + s.groups → b ≤ 2 ^ 43 - 1 → s.ring.head = some h → b < h - 2047 →
      exec (.blockFrame ⟨piece, true⟩) s =
        .next (s.withRing { s.ring with tooOld := s.ring.tooOld + 1, reception := .idle })))

/-- BLOCK_FRAME, a late fill: the frame's signed 24-bit samples are stored lane by lane, the flag set and the frame counted, G stays, every
WAITING sweep is tested, the drain test is made, and the engine's arbiter looks (R8, R14, R18, R74, R75, R84, R160, R177). That the drain
test is made after a frame that drops nothing is the model's choice: log entry 23. -/
def Obligations.BlockFillsLate : Prop :=
  ∀ (piece bytes : List Byte) (h : Nat) (s : State), s.mode.held = false → Clean s → ListOrdered s → FrameWhole s piece bytes →
    bytes.length = 6154 → checkOf bytes = 0 →
    let g := leNat (bytes.take 2) - s.firstGroup
    let b := leNat ((bytes.drop 2).take 6)
    let key := g * 2048 + b % 2048
    s.firstGroup ≤ leNat (bytes.take 2) → g < s.groups → b ≤ 2 ^ 43 - 1 → s.ring.head = some h → h - 2047 ≤ b → b ≤ h →
    ¬ BlockValid s g b →
    let stored (xs : List RingSample) : State := s.withRing { s.ring with
      valid := sparseSet false key true s.ring.valid
      samples := sparseSet [] key xs s.ring.samples
      accepted := s.ring.accepted + 1
      reception := .idle }
    ∃ t xs v w, exec (.blockFrame ⟨piece, true⟩) s = .next t ∧ SamplesRead bytes xs ∧ AllTested (stored xs) v ∧ DrainTested v w ∧ EngineLooks w t

/-- BLOCK_FRAME that advances the head, or the first frame after a reset: G is its block index, the flags of the blocks entering the
window are clear but the frame's own, every other flag keeps its value, and the frame's signed 24-bit samples are stored; every sweep whose
first block fell below the window is dropped LATE, in list order, with SWEEP DROPPED and RING LATE; every WAITING sweep left is tested; then
the drain test and the engine's arbiter (R10 to R12, R17, R18, R77, R79, R84, R160, R177). Two points are the model's choice: that a TRACE
one drop's close offers can be started before a later drop's report is log entry 17, that the drain test is made after a frame that drops
nothing too is log entry 23. -/
def Obligations.BlockAdvances : Prop :=
  ∀ (piece bytes : List Byte) (s : State), s.mode.held = false → Clean s → ListOrdered s → FrameWhole s piece bytes →
    bytes.length = 6154 → checkOf bytes = 0 →
    let g := leNat (bytes.take 2) - s.firstGroup
    let b := leNat ((bytes.drop 2).take 6)
    s.firstGroup ≤ leNat (bytes.take 2) → g < s.groups → b ≤ 2 ^ 43 - 1 →
    (s.ring.valid.Pairwise fun x y => x.1 < y.1) → (s.ring.samples.Pairwise fun x y => x.1 < y.1) →
    ((s.ring.head = none ∧ s.ring.valid = []) ∨ ∃ h, s.ring.head = some h ∧ h < b ∧ b ≤ h + 2048) → InWindow s →
    ∃ t u v w, exec (.blockFrame ⟨piece, true⟩) s = .next t ∧
      t.ring.head = some b ∧ t.ring.accepted = s.ring.accepted + 1 ∧ t.ring.duplicates = s.ring.duplicates ∧
      t.ring.tooOld = s.ring.tooOld ∧ t.ring.fault = s.ring.fault ∧ t.ring.reception = .idle ∧
      (∀ g' < s.groups, ∀ b', b - 2047 ≤ b' → b' ≤ b →
        (BlockValid t g' b' ↔ (g' = g ∧ b' = b) ∨ BlockValid s g' b')) ∧
      SamplesRead bytes (sparseGet [] t.ring.samples (g * 2048 + b % 2048)) ∧
      (∀ key, key ≠ g * 2048 + b % 2048 → sparseGet [] t.ring.samples key = sparseGet [] s.ring.samples key) ∧
      Chain (Dropped .late true) (s.listed.filter fun r => r.first < b - 2047) (s.withRing t.ring) u ∧
      AllTested u v ∧ DrainTested v w ∧ EngineLooks w t

/-! ### The correlation engine and the fold (R83 to R116) -/

/-- Rounding is half away from zero: the rounded quotient is nearest to a / b, of the two nearest the one of greater magnitude, and
symmetric (R90). -/
def Obligations.RoundsHalfAway : Prop :=
  ∀ (a : Int) (b : Nat), 0 < b →
    2 * (a - b * roundQuot a b).natAbs ≤ b ∧ (2 * (a - b * roundQuot a b).natAbs = b → a.natAbs < b * (roundQuot a b).natAbs) ∧
    roundQuot (-a) b = -roundQuot a b

/-- CORRELATION_PASS_END: every channel the pass has not yet finished gets its record, with the sum of products of R89 over the samples of
R88, scaled, clamped and counted, and its GAP flag; the records already finished stay, and the editing pass begins at channel 0 (R88 to
R95). That the pass's end is a command is log entry 5. -/
def Obligations.PassCorrelates : Prop :=
  ∀ (j : Job) (s : State), s.mode.held = false → s.checkHit = false → s.engine.job = some j → j.pass = .correlation →
    JobStored s j →
    ∃ t, exec .correlationPassEnd s = .next t ∧
      t = s.withEngine { s.engine with
        job := some { j with pass := .editing, done := 0, elapsed := 0 }, scratch := t.engine.scratch } ∧
      t.engine.scratch.length = s.channels ∧ (∀ c < j.done, t.engine.scratch[c]? = s.engine.scratch[c]?) ∧
      ∀ c, j.done ≤ c → c < s.channels → ∃ q, t.engine.scratch[c]? = some q ∧ Correlated s j.sweep c q

/-- A channel's findings: each window's peak is its largest magnitude, the reference peak is a peak with at least as many not above it as
its place and no more below, the list of rejected windows, ascending, holds each whose peak times 16 exceeds E times the reference, and the
whole-trace test goes before the gap policy (R102 to R106). -/
def Obligations.EditingFinds : Prop :=
  ∀ (edit reject wn : Nat) (policy : GapPolicy) (q : ChannelRecord), 1 ≤ wn → q.trace.length = 64 * wn →
    let f := findingsOf edit reject policy wn q
    f.peaks.length = wn ∧
    (∀ w < wn, (∀ lag, lag / 64 = w → (q.trace.getD lag 0).natAbs ≤ f.peaks.getD w 0) ∧
      ∃ lag, lag / 64 = w ∧ (q.trace.getD lag 0).natAbs = f.peaks.getD w 0) ∧
    f.pref ∈ f.peaks ∧
    f.peaks.countP (fun x => decide (x < f.pref)) ≤ (wn - 1) / 2 ∧ (wn - 1) / 2 < f.peaks.countP (fun x => decide (x ≤ f.pref)) ∧
    (∀ w, w ∈ f.rejected ↔ w < wn ∧ edit ≠ 0 ∧ f.pref ≠ 0 ∧ edit * f.pref < 16 * f.peaks.getD w 0) ∧
    f.rejected.Pairwise (· < ·) ∧
    f.outcome = (if reject < f.rejected.length then .editDiscard
      else if q.gap = true ∧ policy = .discard then .gapDiscard else .accepted)

/-- The fold of an ACCEPTED trace: each accepted window's count rises by 1 and each of its accumulators by the trace's sample, a rejected
window is left, and the flags are set (R109, R111). A check error on a count or an accumulator the fold reads sets BAD, and the values are
first brought within the bounds of R110: a count to the folded count, an accumulator to the nearer end; every value written is good again
(R112). -/
def Obligations.FoldAdds : Prop :=
  ∀ (folded wn : Nat) (q : ChannelRecord) (rejected : List Nat) (r : StackRecord) (err : Bool),
    r.acc.length = 64 * wn → r.counts.length = wn →
    (err = true ↔ (∃ lag ∈ r.accErr, lag / 64 < wn ∧ lag / 64 ∉ rejected) ∨ ∃ w ∈ r.cntErr, w < wn ∧ w ∉ rejected) →
    let t := foldRecord folded wn q rejected r
    let count (w : Nat) : Nat := if err then min folded (r.counts.getD w 0) else r.counts.getD w 0
    let value (lag : Nat) : Int :=
      if err then max (-((count (lag / 64) : Int) * 2 ^ 31)) (min ((count (lag / 64) : Int) * (2 ^ 31 - 1)) (r.acc.getD lag 0))
      else r.acc.getD lag 0
    t.acc.length = 64 * wn ∧ t.counts.length = wn ∧
    (∀ w < wn, t.counts.getD w 0 = if w ∈ rejected then r.counts.getD w 0 else count w + 1) ∧
    (∀ lag < 64 * wn, t.acc.getD lag 0 = if lag / 64 ∈ rejected then r.acc.getD lag 0 else value lag + q.trace.getD lag 0) ∧
    (t.gapSeen = true ↔ r.gapSeen = true ∨ q.gap = true) ∧ (t.satSeen = true ↔ r.satSeen = true ∨ q.saturated ≠ 0) ∧
    (t.bad = true ↔ r.bad = true ∨ err = true) ∧
    (∀ lag, lag ∈ t.accErr ↔ lag ∈ r.accErr ∧ ¬ (lag / 64 < wn ∧ lag / 64 ∉ rejected)) ∧
    (∀ w, w ∈ t.cntErr ↔ w ∈ r.cntErr ∧ ¬ (w < wn ∧ w ∉ rejected))

/-- JOB_COMPLETION: every channel is decided and the ACCEPTED ones folded into the sweep's context, which moves the sweep from attached to
folded; SWEEP FOLDED is offered with the six totals and its event raised; the sweep leaves the list and the engine is IDLE; the close
condition is applied to the context, the drain test is made, and the engine's arbiter looks (R84, R95, R96, R107, R108, R114 to R116, R125,
R160). That the end of the job is a command is log entry 5. -/
def Obligations.JobFolds : Prop :=
  ∀ (j : Job) (r : SweepRecord) (s : State), s.mode.held = false → Clean s → ListOrdered s →
    s.engine.job = some j → j.pass = .editing → s.engine.scratch.length = s.channels → r ∈ s.listed → r.id = j.sweep.id →
    let c := s.ctx r.ctx
    let outcome (q : ChannelRecord) : Option TraceOutcome := q.findings.map (·.outcome)
    let rejected (q : ChannelRecord) : List Nat := (q.findings.map (·.rejected)).getD []
    ∃ t qs c' tot u v w x y, exec .jobCompletion s = .next t ∧ PassFinished s j s.channels qs ∧
      c' = { c with attached := c.attached - 1, folded := c.folded + 1, records := c'.records } ∧
      (c.records.Pairwise (fun x y => x.1 < y.1) → ∀ ch q, qs[ch]? = some q →
        stackRecord c' ch =
          if outcome q = some .accepted then foldRecord c.folded (c.k / 64) q (rejected q) (stackRecord c ch)
          else stackRecord c ch) ∧
      tot.accepted = qs.countP (fun q => outcome q = some .accepted) ∧
      tot.editDiscarded = qs.countP (fun q => outcome q = some .editDiscard) ∧
      tot.gapDiscarded = qs.countP (fun q => outcome q = some .gapDiscard) ∧
      tot.windowsRejected = ((qs.filter fun q => outcome q = some .accepted).map fun q => (rejected q).length).sum ∧
      tot.saturated = (qs.map (·.saturated)).sum ∧
      (∃ bad : List Nat, bad.Nodup ∧ tot.checkErrors = bad.length ∧
        ∀ ch, ch ∈ bad ↔ ∃ q, qs[ch]? = some q ∧ outcome q = some .accepted ∧
          ((∃ lag ∈ (stackRecord c ch).accErr, lag / 64 < c.k / 64 ∧ lag / 64 ∉ rejected q) ∨
           ∃ w ∈ (stackRecord c ch).cntErr, w < c.k / 64 ∧ w ∉ rejected q)) ∧
      Offered (.sweepFolded r.id r.fleet r.vp r.t0 r.ctx c.gen (c.folded + 1) c.dropped tot) (s.withCtx r.ctx c') u ∧
      Raised .sweepFolded u v ∧
      w = (v.withListed (s.listed.filter fun q => q.id ≠ r.id)).withEngine { job := none, snapshot := [], scratch := [] } ∧
      CloseTested r.ctx w x ∧ DrainTested x y ∧ EngineLooks y t

/-! ### Invariants, kept by every step from every state that has them -/

/-- The reset state has every invariant stated below. -/
def Obligations.InvariantsAtReset : Prop :=
  let s := State.reset
  QueuesBounded s ∧ StoresCanonical s ∧ ListOrdered s ∧ ParamsInRange s ∧ RolesUnique s ∧ Clean s ∧ ArbiterServed s ∧
  EngineMatches s ∧ Attached s ∧ ClosingMatches s ∧ LineServed s ∧ FleetsInRange s ∧ Budgeted s ∧ PilotsHeld s ∧ InWindow s ∧
  SetupEmpty s ∧ FoldBounds s ∧ JobsStored s

/-- Every step keeps the notice queue within 64 entries and the receive buffer within 8 frames (R143, R146, R148). -/
def Obligations.StepKeepsQueuesBounded : Prop :=
  ∀ s t : State, QueuesBounded s → step s = .next t → QueuesBounded t

/-- Every step keeps the canonical form of the validity table, the sample slots and the stack records. -/
def Obligations.StepKeepsStoresCanonical : Prop :=
  ∀ s t : State, StoresCanonical s → step s = .next t → StoresCanonical t

/-- Every step keeps the sweep list's bounds: at most 16 records, ordered by T0, ids distinct and within 1..65,535 (R67, R68). -/
def Obligations.StepKeepsListOrdered : Prop :=
  ∀ s t : State, ListOrdered s → step s = .next t → ListOrdered t

/-- Every step keeps the parameters within their ranges and the three lasting enables set (R151, R161), the fleet records within theirs
(R60), and each input role on at most one line (R52). No step makes a check error: with none standing, none is found. That no command
injects one is the model's scope, log entry 13. -/
def Obligations.StepKeepsSmallInvariants : Prop :=
  (∀ s t : State, ParamsInRange s → step s = .next t → ParamsInRange t) ∧
  (∀ s t : State, FleetsInRange s → step s = .next t → FleetsInRange t) ∧
  (∀ s t : State, RolesUnique s → step s = .next t → RolesUnique t) ∧
  (∀ s t : State, Clean s → step s = .next t → Clean t)

/-- No step leaves the engine IDLE beside a READY sweep (R84). No step leaves the line idle, with the hold deasserted, beside an entry of
the notice queue or a pending TRACE (R152, R153). -/
def Obligations.StepKeepsArbiterServed : Prop :=
  (∀ s t : State, ArbiterServed s → step s = .next t → ArbiterServed t) ∧
  (∀ s t : State, LineServed s → step s = .next t → LineServed t)

/-- Every step keeps the engine BUSY exactly with the one CORRELATING sweep, every context's attached count equal to the number of listed
sweeps attached to it, every such context OPEN or CLOSE PENDING, and the closing order equal to the CLOSING contexts (R83, R121, R132); and
with these no context counts more sweeps than its fold target, and no VP has two collecting contexts (R121, R122). -/
def Obligations.StepKeepsAccounts : Prop :=
  ∀ s t : State, ListOrdered s → EngineMatches s → Attached s → ClosingMatches s → step s = .next t →
    (EngineMatches t ∧ Attached t ∧ ClosingMatches t) ∧ (FleetsInRange s → Budgeted s → Budgeted t)

/-- Every step keeps each listed sweep's pilot slot VALID with the sweep's pilot (R27, R37), no listed sweep's first block below the window
(R17), the list empty and every context FREE in SETUP (R156), the bounds of the window counts and accumulators (R110), and the job on the
CORRELATING sweep's own record with its stores of the lengths of its place (R37, R83, R86, R94, R95). -/
def Obligations.StepKeepsPromises : Prop :=
  (∀ s t : State, PilotsHeld s → step s = .next t → PilotsHeld t) ∧
  (∀ s t : State, InWindow s → step s = .next t → InWindow t) ∧
  (∀ s t : State, SetupEmpty s → step s = .next t → SetupEmpty t) ∧
  (∀ s t : State, FleetsInRange s → StoresCanonical s → FoldBounds s → step s = .next t → FoldBounds t) ∧
  (∀ s t : State, ListOrdered s → FleetsInRange s → PilotsHeld s → JobsStored s → step s = .next t → JobsStored t)
end

