-- ==== Sys2Proof/Laws/Bytes.lean ====
section
/-! SUPPORT. The laws of little-endian fields, of the frame and of the bodies a host builds. -/

namespace Sys2Proof.Machine

/-! ### Little-endian numbers -/

@[simp] theorem leBytes_length (n v : Nat) : (leBytes n v).length = n := by
  induction n generalizing v with
  | zero => rfl
  | succ n ih => simp [leBytes, ih]

theorem leNat_leBytes (n v : Nat) : leNat (leBytes n v) = v % 256 ^ n := by
  induction n generalizing v with
  | zero => simp [leBytes, leNat, Nat.mod_one]
  | succ n ih =>
    have e : 256 ^ (n + 1) = 256 * 256 ^ n := by rw [pow_succ, Nat.mul_comm]
    rw [leBytes, leNat, ih, BitVec.toNat_ofNat, e, Nat.mod_mul]

theorem leNat_leBytes_of_lt {n v : Nat} (h : v < 256 ^ n) : leNat (leBytes n v) = v := by
  rw [leNat_leBytes, Nat.mod_eq_of_lt h]

theorem leNat_lt (bs : List Byte) : leNat bs < 256 ^ bs.length := by
  induction bs with
  | nil => simp [leNat]
  | cons b bs ih =>
    have hb : b.toNat < 256 := b.isLt
    simp only [leNat, List.length_cons, pow_succ]
    omega

@[simp] theorem leBytes_leNat (bs : List Byte) : leBytes bs.length (leNat bs) = bs := by
  induction bs with
  | nil => rfl
  | cons b bs ih =>
    have hb : b.toNat < 256 := b.isLt
    have h1 : (b.toNat + 256 * leNat bs) / 256 = leNat bs := by omega
    have h2 : BitVec.ofNat 8 (b.toNat + 256 * leNat bs) = b := by
      apply BitVec.eq_of_toNat_eq
      simp only [BitVec.toNat_ofNat]
      omega
    simp [leBytes, leNat, h1, h2, ih]

/-! ### Fields of a body -/

theorem fieldAt_zero_append (bs rest : List Byte) {n : Nat} (h : bs.length = n) : fieldAt (bs ++ rest) 0 n = leNat bs := by
  subst h
  simp [fieldAt]

theorem fieldAt_append_right (bs rest : List Byte) (k n : Nat) {m : Nat} (h : m = bs.length + k) :
    fieldAt (bs ++ rest) m n = fieldAt rest k n := by
  subst h
  have h : bs.drop (bs.length + k) = [] := List.drop_eq_nil_of_le (Nat.le_add_right _ _)
  simp [fieldAt, List.drop_append, h]

theorem fieldAt_cons_succ (b : Byte) (bs : List Byte) (k n : Nat) : fieldAt (b :: bs) (k + 1) n = fieldAt bs k n := rfl

@[simp] theorem byteAt_cons_zero (b : Byte) (bs : List Byte) : byteAt (b :: bs) 0 = b := rfl

theorem byteAt_cons_succ (b : Byte) (bs : List Byte) (k : Nat) : byteAt (b :: bs) (k + 1) = byteAt bs k := by
  simp [byteAt]

theorem byteAt_append_right (bs rest : List Byte) (k : Nat) {m : Nat} (h : m = bs.length + k) :
    byteAt (bs ++ rest) m = byteAt rest k := by
  subst h
  simp [byteAt, List.getD_eq_getElem?_getD, List.getElem?_append_right]

/-! ### Bodies a host builds -/

@[simp] theorem paramSetBody_length (k : Byte) (v : BitVec 32) : (paramSetBody k v).length = 5 := by simp [paramSetBody]
@[simp] theorem paramSetBody_key (k : Byte) (v : BitVec 32) : byteAt (paramSetBody k v) 0 = k := rfl
@[simp] theorem paramSetBody_value (k : Byte) (v : BitVec 32) : fieldAt (paramSetBody k v) 1 4 = v.toNat := by
  have h : v.toNat < 256 ^ 4 := v.isLt
  have := fieldAt_zero_append (leBytes 4 v.toNat) [] (by simp : _ = 4)
  simpa [paramSetBody, fieldAt_cons_succ, leNat_leBytes_of_lt h] using this

@[simp] theorem syncBody_length (w : Word) : (syncBody w).length = 2 := by simp [syncBody]
@[simp] theorem syncBody_count (w : Word) : fieldAt (syncBody w) 0 2 = w.toNat := by
  have h : w.toNat < 256 ^ 2 := w.isLt
  have := fieldAt_zero_append (leBytes 2 w.toNat) [] (by simp : _ = 2)
  simpa [syncBody, leNat_leBytes_of_lt h] using this

@[simp] theorem timeSetBody_length (n : SampleIndex) : (timeSetBody n).length = 6 := by simp [timeSetBody]
@[simp] theorem timeSetBody_n (n : SampleIndex) : fieldAt (timeSetBody n) 0 6 = n.toNat := by
  have h : n.toNat < 256 ^ 6 := n.isLt
  have := fieldAt_zero_append (leBytes 6 n.toNat) [] (by simp : _ = 6)
  simpa [timeSetBody, leNat_leBytes_of_lt h] using this

@[simp] theorem pilotOpenBody_length (b : Byte) (lp : Word) (sh : Byte) : (pilotOpenBody b lp sh).length = 4 := by
  simp [pilotOpenBody]
@[simp] theorem pilotOpenBody_slot (b : Byte) (lp : Word) (sh : Byte) : byteAt (pilotOpenBody b lp sh) 0 = b := rfl
@[simp] theorem pilotOpenBody_lp (b : Byte) (lp : Word) (sh : Byte) : fieldAt (pilotOpenBody b lp sh) 1 2 = lp.toNat := by
  have h : lp.toNat < 256 ^ 2 := lp.isLt
  rw [pilotOpenBody, fieldAt_cons_succ, fieldAt_zero_append _ _ (by simp), leNat_leBytes_of_lt h]
@[simp] theorem pilotOpenBody_shift (b : Byte) (lp : Word) (sh : Byte) : byteAt (pilotOpenBody b lp sh) 3 = sh := by
  rw [pilotOpenBody, byteAt_cons_succ, byteAt_append_right _ _ 0 (by simp), byteAt_cons_zero]

@[simp] theorem pilotCloseBody_length (b : Byte) (w : Word) : (pilotCloseBody b w).length = 3 := by simp [pilotCloseBody]
@[simp] theorem pilotCloseBody_slot (b : Byte) (w : Word) : byteAt (pilotCloseBody b w) 0 = b := rfl
@[simp] theorem pilotCloseBody_word (b : Byte) (w : Word) : fieldAt (pilotCloseBody b w) 1 2 = w.toNat := by
  have h : w.toNat < 256 ^ 2 := w.isLt
  have := fieldAt_zero_append (leBytes 2 w.toNat) [] (by simp : _ = 2)
  simpa [pilotCloseBody, fieldAt_cons_succ, leNat_leBytes_of_lt h] using this

@[simp] theorem pilotWordsBody_slot (b : Byte) (ws : List PilotSample) : byteAt (pilotWordsBody b ws) 0 = b := rfl
@[simp] theorem pilotWordsBody_length (b : Byte) (ws : List PilotSample) :
    (pilotWordsBody b ws).length = 2 * ws.length + 1 := by
  simp only [pilotWordsBody, List.length_cons]
  induction ws with
  | nil => rfl
  | cons w ws ih => simp only [List.flatMap_cons, List.length_append, leBytes_length, List.length_cons]; omega

theorem wordsOf_leBytes (w : Word) (bs : List Byte) : wordsOf (leBytes 2 w.toNat ++ bs) = w :: wordsOf bs := by
  have h : w.toNat < 65536 := w.isLt
  have e : BitVec.ofNat 16 (w.toNat % 256 + 256 * (w.toNat / 256 % 256)) = w := by
    apply BitVec.eq_of_toNat_eq
    simp only [BitVec.toNat_ofNat]
    omega
  simp [leBytes, wordsOf, BitVec.toNat_ofNat, e]

@[simp] theorem pilotWordsBody_words (b : Byte) (ws : List PilotSample) : wordsOf ((pilotWordsBody b ws).drop 1) = ws := by
  simp only [pilotWordsBody, List.drop_succ_cons, List.drop_zero]
  induction ws with
  | nil => rfl
  | cons w ws ih => rw [List.flatMap_cons, wordsOf_leBytes, ih]

@[simp] theorem armBody_length (b : Byte) (vp : VpId) (n : Byte) : (armBody b vp n).length = 6 := by simp [armBody]
@[simp] theorem armBody_fleet (b : Byte) (vp : VpId) (n : Byte) : byteAt (armBody b vp n) 0 = b := rfl
@[simp] theorem armBody_vp (b : Byte) (vp : VpId) (n : Byte) : fieldAt (armBody b vp n) 1 4 = vp.toNat := by
  have h : vp.toNat < 256 ^ 4 := vp.isLt
  rw [armBody, fieldAt_cons_succ, fieldAt_zero_append _ _ (by simp), leNat_leBytes_of_lt h]
@[simp] theorem armBody_count (b : Byte) (vp : VpId) (n : Byte) : byteAt (armBody b vp n) 5 = n := by
  rw [armBody, byteAt_cons_succ, byteAt_append_right _ _ 0 (by simp), byteAt_cons_zero]

@[simp] theorem sweepBody_length (b : Byte) (vp : VpId) (t0 : SampleIndex) : (sweepBody b vp t0).length = 11 := by simp [sweepBody]
@[simp] theorem sweepBody_fleet (b : Byte) (vp : VpId) (t0 : SampleIndex) : byteAt (sweepBody b vp t0) 0 = b := rfl
@[simp] theorem sweepBody_vp (b : Byte) (vp : VpId) (t0 : SampleIndex) : fieldAt (sweepBody b vp t0) 1 4 = vp.toNat := by
  have h : vp.toNat < 256 ^ 4 := vp.isLt
  rw [sweepBody, fieldAt_cons_succ, fieldAt_zero_append _ _ (by simp), leNat_leBytes_of_lt h]
@[simp] theorem sweepBody_t0 (b : Byte) (vp : VpId) (t0 : SampleIndex) : fieldAt (sweepBody b vp t0) 5 6 = t0.toNat := by
  have h : t0.toNat < 256 ^ 6 := t0.isLt
  rw [sweepBody, fieldAt_cons_succ, fieldAt_append_right _ _ 0 6 (by simp)]
  have := fieldAt_zero_append (leBytes 6 t0.toNat) [] (by simp : _ = 6)
  simpa [leNat_leBytes_of_lt h] using this

@[simp] theorem cancelBody_length (w : Word) : (cancelBody w).length = 2 := by simp [cancelBody]
@[simp] theorem cancelBody_id (w : Word) : fieldAt (cancelBody w) 0 2 = w.toNat := syncBody_count w

@[simp] theorem closeVpBody_length (vp : VpId) (m : Byte) : (closeVpBody vp m).length = 5 := by simp [closeVpBody]
@[simp] theorem closeVpBody_vp (vp : VpId) (m : Byte) : fieldAt (closeVpBody vp m) 0 4 = vp.toNat := by
  have h : vp.toNat < 256 ^ 4 := vp.isLt
  rw [closeVpBody, fieldAt_zero_append _ _ (by simp), leNat_leBytes_of_lt h]
@[simp] theorem closeVpBody_mode (vp : VpId) (m : Byte) : byteAt (closeVpBody vp m) 4 = m := by
  rw [closeVpBody, byteAt_append_right _ _ 0 (by simp), byteAt_cons_zero]

section fleet
variable (b sl : Byte) (k e : Word) (j f : Byte) (l o : BitVec 16)

@[simp] theorem fleetSetBody_length : (fleetSetBody b sl k e j f l o).length = 12 := by simp [fleetSetBody]
@[simp] theorem fleetSetBody_fleet : byteAt (fleetSetBody b sl k e j f l o) 0 = b := rfl
@[simp] theorem fleetSetBody_slot : byteAt (fleetSetBody b sl k e j f l o) 1 = sl := rfl
@[simp] theorem fleetSetBody_j : byteAt (fleetSetBody b sl k e j f l o) 6 = j := rfl
@[simp] theorem fleetSetBody_f : byteAt (fleetSetBody b sl k e j f l o) 7 = f := rfl
theorem leNat_two (w : BitVec 16) : leNat (leBytes 2 w.toNat) = w.toNat := leNat_leBytes_of_lt w.isLt
@[simp] theorem fleetSetBody_k : fieldAt (fleetSetBody b sl k e j f l o) 2 2 = k.toNat := leNat_two k
@[simp] theorem fleetSetBody_e : fieldAt (fleetSetBody b sl k e j f l o) 4 2 = e.toNat := leNat_two e
@[simp] theorem fleetSetBody_lead : fieldAt (fleetSetBody b sl k e j f l o) 8 2 = l.toNat := leNat_two l
@[simp] theorem fleetSetBody_offset : fieldAt (fleetSetBody b sl k e j f l o) 10 2 = o.toNat := leNat_two o

end fleet

/-! ### The longitudinal check -/

/-- A word taken in when the check stands at that word leaves 0: so a check word that closes a frame makes the whole check 0. -/
@[simp] theorem checkStep_self (w : Word) : checkStep w w = 0 := by simp [checkStep]

theorem checkStep_eq_zero {c w : Word} (h : checkStep c w = 0) : c = w := by
  have h2 : ∀ x : Word, x.rotateLeft 1 = 0 → x = 0 := by
    intro x hx
    apply BitVec.eq_of_getLsbD_eq
    intro i hi
    have key := congrArg (fun y : Word => y.getLsbD ((i + 1) % 16)) hx
    simp only [BitVec.getLsbD_rotateLeft] at key
    by_cases hlast : i = 15
    · subst hlast
      simpa using key
    · have h1 : (i + 1) % 16 = i + 1 := by omega
      have h3 : i + 1 < 16 := by omega
      rw [h1] at key
      simpa [h3] using key
  have h3 : c ^^^ w = 0 := h2 _ h
  simpa using (BitVec.xor_eq_zero_iff.mp h3)

theorem checkOver_append (c : Word) (xs ys : List Word) : checkOver c (xs ++ ys) = checkOver (checkOver c xs) ys := by
  simp [checkOver, List.foldl_append]

end Sys2Proof.Machine
end

