-- ==== Sys2Proof/Laws/Memory.lean ====
section
/-! SUPPORT. The laws of the sparse stores: what a write reads back, what it leaves, and that every operation keeps the canonical form. -/

namespace Sys2Proof.Machine

variable {α : Type}

theorem sparseGet_set_same [DecidableEq α] (d v : α) (k : Nat) (m : Sparse α) (h : m.Pairwise fun x y => x.1 < y.1) :
    sparseGet d (sparseSet d k v m) k = v := by
  induction m with
  | nil => by_cases hv : v = d <;> simp [sparseSet, sparseGet, hv]
  | cons e m ih =>
    obtain ⟨a, w⟩ := e
    rw [List.pairwise_cons] at h
    have absent : ∀ m' : Sparse α, (∀ e ∈ m', k < e.1) → sparseGet d m' k = d := by
      intro m' hm'
      induction m' with
      | nil => rfl
      | cons e m' ih' =>
        have h1 := hm' e (by simp)
        have h2 := ih' fun e he => hm' e (by simp [he])
        simp [sparseGet, Nat.ne_of_gt h1, h2]
    by_cases hka : k < a
    · by_cases hv : v = d
      · have h3 := absent ((a, w) :: m) (by
          intro e he
          rcases List.mem_cons.mp he with rfl | he
          · exact hka
          · exact Nat.lt_trans hka (h.1 e he))
        simpa [sparseSet, hka, hv] using h3
      · simp [sparseSet, hka, hv, sparseGet]
    · by_cases he : k = a
      · subst he
        by_cases hv : v = d
        · simpa [sparseSet, hv] using absent m h.1
        · simp [sparseSet, hv, sparseGet]
      · simp [sparseSet, hka, he, sparseGet, Ne.symm he, ih h.2]

theorem sparseGet_set_other [DecidableEq α] (d v : α) {k j : Nat} (hj : j ≠ k) (m : Sparse α) :
    sparseGet d (sparseSet d k v m) j = sparseGet d m j := by
  induction m with
  | nil => by_cases hv : v = d <;> simp [sparseSet, sparseGet, hv, Ne.symm hj]
  | cons e m ih =>
    obtain ⟨a, w⟩ := e
    by_cases hka : k < a
    · by_cases hv : v = d <;> simp [sparseSet, hka, hv, sparseGet, Ne.symm hj]
    · by_cases he : k = a
      · subst he
        by_cases hv : v = d <;> simp [sparseSet, hv, sparseGet, Ne.symm hj]
      · by_cases hja : a = j
        · subst hja
          simp [sparseSet, hka, he, sparseGet]
        · simp [sparseSet, hka, he, sparseGet, hja, ih]

theorem sparseSet_mem [DecidableEq α] {d v : α} {k : Nat} {m : Sparse α} {e : Nat × α} (he : e ∈ sparseSet d k v m) :
    e ∈ m ∨ (e = (k, v) ∧ v ≠ d) := by
  induction m with
  | nil => by_cases hv : v = d <;> simp_all [sparseSet]
  | cons x m ih =>
    obtain ⟨a, w⟩ := x
    simp only [sparseSet] at he
    split at he
    · split at he
      · exact .inl he
      · next hv => rcases List.mem_cons.mp he with rfl | he
                   · exact .inr ⟨rfl, hv⟩
                   · exact .inl he
    · split at he
      · split at he
        · exact .inl (List.mem_cons_of_mem _ he)
        · next hv => rcases List.mem_cons.mp he with rfl | he
                     · exact .inr ⟨rfl, hv⟩
                     · exact .inl (List.mem_cons_of_mem _ he)
      · rcases List.mem_cons.mp he with rfl | he
        · exact .inl (by simp)
        · rcases ih he with h | h
          · exact .inl (List.mem_cons_of_mem _ h)
          · exact .inr h

theorem sparseWf_iff [DecidableEq α] (d : α) (m : Sparse α) :
    sparseWf d m = true ↔ (m.Pairwise fun x y => x.1 < y.1) ∧ ∀ e ∈ m, e.2 ≠ d := by
  simp [sparseWf]

theorem sparseSet_pairwise [DecidableEq α] (d v : α) (k : Nat) {m : Sparse α} (h : m.Pairwise fun x y => x.1 < y.1) :
    (sparseSet d k v m).Pairwise fun x y => x.1 < y.1 := by
  induction m with
  | nil => by_cases hv : v = d <;> simp [sparseSet, hv]
  | cons e m ih =>
    obtain ⟨a, w⟩ := e
    have h' := List.pairwise_cons.mp h
    simp only [sparseSet]
    split
    · next hka =>
      split
      · exact h
      · refine List.pairwise_cons.mpr ⟨?_, h⟩
        intro e he
        rcases List.mem_cons.mp he with rfl | he
        · exact hka
        · exact Nat.lt_trans hka (h'.1 e he)
    · next hka =>
      split
      · next hk =>
        subst hk
        split
        · exact h'.2
        · exact List.pairwise_cons.mpr ⟨h'.1, h'.2⟩
      · next hk =>
        refine List.pairwise_cons.mpr ⟨?_, ih h'.2⟩
        intro e he
        rcases sparseSet_mem he with he | ⟨rfl, -⟩
        · exact h'.1 e he
        · exact Nat.lt_of_le_of_ne (Nat.le_of_not_lt hka) (Ne.symm hk)

/-- A write keeps the canonical form. -/
theorem sparseSet_wf [DecidableEq α] (d v : α) (k : Nat) {m : Sparse α} (h : sparseWf d m = true) :
    sparseWf d (sparseSet d k v m) = true := by
  rw [sparseWf_iff] at h ⊢
  refine ⟨sparseSet_pairwise d v k h.1, ?_⟩
  intro e he
  rcases sparseSet_mem he with he | ⟨rfl, hv⟩
  · exact h.2 e he
  · exact hv

/-- Clearing keys keeps the canonical form. -/
theorem sparseClear_wf [DecidableEq α] (d : α) (p : Nat → Bool) {m : Sparse α} (h : sparseWf d m = true) :
    sparseWf d (sparseClear p m) = true := by
  rw [sparseWf_iff] at h ⊢
  exact ⟨h.1.filter _, fun e he => h.2 e (List.mem_of_mem_filter he)⟩

theorem sparseWf_nil [DecidableEq α] (d : α) : sparseWf d ([] : Sparse α) = true := by simp [sparseWf]

/-- A cleared key reads as the default; every other key as before. -/
theorem sparseGet_clear (d : α) (p : Nat → Bool) (m : Sparse α) (k : Nat) :
    sparseGet d (sparseClear p m) k = if p k then d else sparseGet d m k := by
  induction m with
  | nil => simp [sparseClear, sparseGet]
  | cons e m ih =>
    obtain ⟨a, w⟩ := e
    by_cases hp : p a
    · by_cases ha : a = k
      · subst ha
        simpa [sparseClear, hp, sparseGet] using ih
      · have : sparseGet d (sparseClear p ((a, w) :: m)) k = sparseGet d (sparseClear p m) k := by simp [sparseClear, hp]
        rw [this, ih]
        simp [sparseGet, ha]
    · by_cases ha : a = k
      · subst ha
        simp [sparseClear, hp, sparseGet]
      · have : sparseGet d (sparseClear p ((a, w) :: m)) k = sparseGet d (sparseClear p m) k := by
          simp [sparseClear, hp, sparseGet, ha]
        rw [this, ih]
        simp [sparseGet, ha]

end Sys2Proof.Machine
end

