-- ==== Sys2Proof/Laws/State.lean ====
section
/-! SUPPORT. One lemma per field per update of the state, true by rfl, and what each update leaves of the tables read off the state. -/

namespace Sys2Proof.Machine

@[simp] theorem mapFour_getElem {α β : Type} (g : α → β) (v : Vector α 4) (i : Nat) (h : i < 4) :
    (mapFour g v)[i] = g v[i] := by
  match i, h with
  | 0, _ => rfl
  | 1, _ => rfl
  | 2, _ => rfl
  | 3, _ => rfl

/-! ### State.withRing -/

@[simp] theorem State.withRing_ring (s : State) (r : Ring) : (s.withRing r).ring = r := rfl
@[simp] theorem State.withRing_pilots (s : State) (r : Ring) : (s.withRing r).pilots = s.pilots := rfl
@[simp] theorem State.withRing_time (s : State) (r : Ring) : (s.withRing r).time = s.time := rfl
@[simp] theorem State.withRing_router (s : State) (r : Ring) : (s.withRing r).router = s.router := rfl
@[simp] theorem State.withRing_fleets (s : State) (r : Ring) : (s.withRing r).fleets = s.fleets := rfl
@[simp] theorem State.withRing_sweeps (s : State) (r : Ring) : (s.withRing r).sweeps = s.sweeps := rfl
@[simp] theorem State.withRing_engine (s : State) (r : Ring) : (s.withRing r).engine = s.engine := rfl
@[simp] theorem State.withRing_stack (s : State) (r : Ring) : (s.withRing r).stack = s.stack := rfl
@[simp] theorem State.withRing_emitter (s : State) (r : Ring) : (s.withRing r).emitter = s.emitter := rfl
@[simp] theorem State.withRing_link (s : State) (r : Ring) : (s.withRing r).link = s.link := rfl
@[simp] theorem State.withRing_mode (s : State) (r : Ring) : (s.withRing r).mode = s.mode := rfl
@[simp] theorem State.withRing_checkHit (s : State) (r : Ring) : (s.withRing r).checkHit = s.checkHit := rfl
@[simp] theorem State.withRing_pending (s : State) (r : Ring) : (s.withRing r).pending = s.pending := rfl
@[simp] theorem State.withRing_slot (s : State) (r : Ring) (i : Fin 8) : (s.withRing r).slot i = s.slot i := rfl
@[simp] theorem State.withRing_fleet (s : State) (r : Ring) (i : Fin 4) : (s.withRing r).fleet i = s.fleet i := rfl
@[simp] theorem State.withRing_ctx (s : State) (r : Ring) (i : Fin 4) : (s.withRing r).ctx i = s.ctx i := rfl
@[simp] theorem State.withRing_listed (s : State) (r : Ring) : (s.withRing r).listed = s.listed := rfl
@[simp] theorem State.withRing_enabled (s : State) (r : Ring) (i : Nat) : (s.withRing r).enabled i = s.enabled i := rfl
@[simp] theorem State.withRing_sps (s : State) (r : Ring) : (s.withRing r).sps = s.sps := rfl
@[simp] theorem State.withRing_channels (s : State) (r : Ring) : (s.withRing r).channels = s.channels := rfl
@[simp] theorem State.withRing_groups (s : State) (r : Ring) : (s.withRing r).groups = s.groups := rfl
@[simp] theorem State.withRing_listBad (s : State) (r : Ring) : (s.withRing r).listBad = s.listBad := rfl
@[simp] theorem State.withRing_ctxsBad (s : State) (r : Ring) : (s.withRing r).ctxsBad = s.ctxsBad := rfl
@[simp] theorem State.withRing_noticeHighLevel (s : State) (r : Ring) : (s.withRing r).noticeHighLevel = s.noticeHighLevel := rfl
@[simp] theorem State.withRing_holdoverLevel (s : State) (r : Ring) : (s.withRing r).holdoverLevel = s.holdoverLevel := rfl
@[simp] theorem State.withRing_acquireLevel (s : State) (r : Ring) : (s.withRing r).acquireLevel = s.acquireLevel := rfl

/-! ### State.withPilots -/

@[simp] theorem State.withPilots_ring (s : State) (p : Vector PilotSlot 8) : (s.withPilots p).ring = s.ring := rfl
@[simp] theorem State.withPilots_pilots (s : State) (p : Vector PilotSlot 8) : (s.withPilots p).pilots = p := rfl
@[simp] theorem State.withPilots_time (s : State) (p : Vector PilotSlot 8) : (s.withPilots p).time = s.time := rfl
@[simp] theorem State.withPilots_router (s : State) (p : Vector PilotSlot 8) : (s.withPilots p).router = s.router := rfl
@[simp] theorem State.withPilots_fleets (s : State) (p : Vector PilotSlot 8) : (s.withPilots p).fleets = s.fleets := rfl
@[simp] theorem State.withPilots_sweeps (s : State) (p : Vector PilotSlot 8) : (s.withPilots p).sweeps = s.sweeps := rfl
@[simp] theorem State.withPilots_engine (s : State) (p : Vector PilotSlot 8) : (s.withPilots p).engine = s.engine := rfl
@[simp] theorem State.withPilots_stack (s : State) (p : Vector PilotSlot 8) : (s.withPilots p).stack = s.stack := rfl
@[simp] theorem State.withPilots_emitter (s : State) (p : Vector PilotSlot 8) : (s.withPilots p).emitter = s.emitter := rfl
@[simp] theorem State.withPilots_link (s : State) (p : Vector PilotSlot 8) : (s.withPilots p).link = s.link := rfl
@[simp] theorem State.withPilots_mode (s : State) (p : Vector PilotSlot 8) : (s.withPilots p).mode = s.mode := rfl
@[simp] theorem State.withPilots_checkHit (s : State) (p : Vector PilotSlot 8) : (s.withPilots p).checkHit = s.checkHit := rfl
@[simp] theorem State.withPilots_pending (s : State) (p : Vector PilotSlot 8) : (s.withPilots p).pending = s.pending := rfl
@[simp] theorem State.withPilots_fleet (s : State) (p : Vector PilotSlot 8) (i : Fin 4) : (s.withPilots p).fleet i = s.fleet i := rfl
@[simp] theorem State.withPilots_ctx (s : State) (p : Vector PilotSlot 8) (i : Fin 4) : (s.withPilots p).ctx i = s.ctx i := rfl
@[simp] theorem State.withPilots_listed (s : State) (p : Vector PilotSlot 8) : (s.withPilots p).listed = s.listed := rfl
@[simp] theorem State.withPilots_enabled (s : State) (p : Vector PilotSlot 8) (i : Nat) : (s.withPilots p).enabled i = s.enabled i := rfl
@[simp] theorem State.withPilots_sps (s : State) (p : Vector PilotSlot 8) : (s.withPilots p).sps = s.sps := rfl
@[simp] theorem State.withPilots_channels (s : State) (p : Vector PilotSlot 8) : (s.withPilots p).channels = s.channels := rfl
@[simp] theorem State.withPilots_groups (s : State) (p : Vector PilotSlot 8) : (s.withPilots p).groups = s.groups := rfl
@[simp] theorem State.withPilots_listBad (s : State) (p : Vector PilotSlot 8) : (s.withPilots p).listBad = s.listBad := rfl
@[simp] theorem State.withPilots_ctxsBad (s : State) (p : Vector PilotSlot 8) : (s.withPilots p).ctxsBad = s.ctxsBad := rfl
@[simp] theorem State.withPilots_noticeHighLevel (s : State) (p : Vector PilotSlot 8) : (s.withPilots p).noticeHighLevel = s.noticeHighLevel := rfl
@[simp] theorem State.withPilots_holdoverLevel (s : State) (p : Vector PilotSlot 8) : (s.withPilots p).holdoverLevel = s.holdoverLevel := rfl
@[simp] theorem State.withPilots_acquireLevel (s : State) (p : Vector PilotSlot 8) : (s.withPilots p).acquireLevel = s.acquireLevel := rfl

/-! ### State.withTime -/

@[simp] theorem State.withTime_ring (s : State) (t : Timebase) : (s.withTime t).ring = s.ring := rfl
@[simp] theorem State.withTime_pilots (s : State) (t : Timebase) : (s.withTime t).pilots = s.pilots := rfl
@[simp] theorem State.withTime_time (s : State) (t : Timebase) : (s.withTime t).time = t := rfl
@[simp] theorem State.withTime_router (s : State) (t : Timebase) : (s.withTime t).router = s.router := rfl
@[simp] theorem State.withTime_fleets (s : State) (t : Timebase) : (s.withTime t).fleets = s.fleets := rfl
@[simp] theorem State.withTime_sweeps (s : State) (t : Timebase) : (s.withTime t).sweeps = s.sweeps := rfl
@[simp] theorem State.withTime_engine (s : State) (t : Timebase) : (s.withTime t).engine = s.engine := rfl
@[simp] theorem State.withTime_stack (s : State) (t : Timebase) : (s.withTime t).stack = s.stack := rfl
@[simp] theorem State.withTime_emitter (s : State) (t : Timebase) : (s.withTime t).emitter = s.emitter := rfl
@[simp] theorem State.withTime_link (s : State) (t : Timebase) : (s.withTime t).link = s.link := rfl
@[simp] theorem State.withTime_mode (s : State) (t : Timebase) : (s.withTime t).mode = s.mode := rfl
@[simp] theorem State.withTime_checkHit (s : State) (t : Timebase) : (s.withTime t).checkHit = s.checkHit := rfl
@[simp] theorem State.withTime_pending (s : State) (t : Timebase) : (s.withTime t).pending = s.pending := rfl
@[simp] theorem State.withTime_slot (s : State) (t : Timebase) (i : Fin 8) : (s.withTime t).slot i = s.slot i := rfl
@[simp] theorem State.withTime_fleet (s : State) (t : Timebase) (i : Fin 4) : (s.withTime t).fleet i = s.fleet i := rfl
@[simp] theorem State.withTime_ctx (s : State) (t : Timebase) (i : Fin 4) : (s.withTime t).ctx i = s.ctx i := rfl
@[simp] theorem State.withTime_listed (s : State) (t : Timebase) : (s.withTime t).listed = s.listed := rfl
@[simp] theorem State.withTime_enabled (s : State) (t : Timebase) (i : Nat) : (s.withTime t).enabled i = s.enabled i := rfl
@[simp] theorem State.withTime_sps (s : State) (t : Timebase) : (s.withTime t).sps = s.sps := rfl
@[simp] theorem State.withTime_channels (s : State) (t : Timebase) : (s.withTime t).channels = s.channels := rfl
@[simp] theorem State.withTime_groups (s : State) (t : Timebase) : (s.withTime t).groups = s.groups := rfl
@[simp] theorem State.withTime_listBad (s : State) (t : Timebase) : (s.withTime t).listBad = s.listBad := rfl
@[simp] theorem State.withTime_ctxsBad (s : State) (t : Timebase) : (s.withTime t).ctxsBad = s.ctxsBad := rfl
@[simp] theorem State.withTime_noticeHighLevel (s : State) (t : Timebase) : (s.withTime t).noticeHighLevel = s.noticeHighLevel := rfl
@[simp] theorem State.withTime_acquireLevel (s : State) (t : Timebase) : (s.withTime t).acquireLevel = s.acquireLevel := rfl

/-! ### State.withRouter -/

@[simp] theorem State.withRouter_ring (s : State) (r : Router) : (s.withRouter r).ring = s.ring := rfl
@[simp] theorem State.withRouter_pilots (s : State) (r : Router) : (s.withRouter r).pilots = s.pilots := rfl
@[simp] theorem State.withRouter_time (s : State) (r : Router) : (s.withRouter r).time = s.time := rfl
@[simp] theorem State.withRouter_router (s : State) (r : Router) : (s.withRouter r).router = r := rfl
@[simp] theorem State.withRouter_fleets (s : State) (r : Router) : (s.withRouter r).fleets = s.fleets := rfl
@[simp] theorem State.withRouter_sweeps (s : State) (r : Router) : (s.withRouter r).sweeps = s.sweeps := rfl
@[simp] theorem State.withRouter_engine (s : State) (r : Router) : (s.withRouter r).engine = s.engine := rfl
@[simp] theorem State.withRouter_stack (s : State) (r : Router) : (s.withRouter r).stack = s.stack := rfl
@[simp] theorem State.withRouter_emitter (s : State) (r : Router) : (s.withRouter r).emitter = s.emitter := rfl
@[simp] theorem State.withRouter_link (s : State) (r : Router) : (s.withRouter r).link = s.link := rfl
@[simp] theorem State.withRouter_mode (s : State) (r : Router) : (s.withRouter r).mode = s.mode := rfl
@[simp] theorem State.withRouter_checkHit (s : State) (r : Router) : (s.withRouter r).checkHit = s.checkHit := rfl
@[simp] theorem State.withRouter_pending (s : State) (r : Router) : (s.withRouter r).pending = s.pending := rfl
@[simp] theorem State.withRouter_slot (s : State) (r : Router) (i : Fin 8) : (s.withRouter r).slot i = s.slot i := rfl
@[simp] theorem State.withRouter_fleet (s : State) (r : Router) (i : Fin 4) : (s.withRouter r).fleet i = s.fleet i := rfl
@[simp] theorem State.withRouter_ctx (s : State) (r : Router) (i : Fin 4) : (s.withRouter r).ctx i = s.ctx i := rfl
@[simp] theorem State.withRouter_listed (s : State) (r : Router) : (s.withRouter r).listed = s.listed := rfl
@[simp] theorem State.withRouter_enabled (s : State) (r : Router) (i : Nat) : (s.withRouter r).enabled i = s.enabled i := rfl
@[simp] theorem State.withRouter_sps (s : State) (r : Router) : (s.withRouter r).sps = s.sps := rfl
@[simp] theorem State.withRouter_channels (s : State) (r : Router) : (s.withRouter r).channels = s.channels := rfl
@[simp] theorem State.withRouter_groups (s : State) (r : Router) : (s.withRouter r).groups = s.groups := rfl
@[simp] theorem State.withRouter_listBad (s : State) (r : Router) : (s.withRouter r).listBad = s.listBad := rfl
@[simp] theorem State.withRouter_ctxsBad (s : State) (r : Router) : (s.withRouter r).ctxsBad = s.ctxsBad := rfl
@[simp] theorem State.withRouter_noticeHighLevel (s : State) (r : Router) : (s.withRouter r).noticeHighLevel = s.noticeHighLevel := rfl
@[simp] theorem State.withRouter_holdoverLevel (s : State) (r : Router) : (s.withRouter r).holdoverLevel = s.holdoverLevel := rfl
@[simp] theorem State.withRouter_acquireLevel (s : State) (r : Router) : (s.withRouter r).acquireLevel = s.acquireLevel := rfl

/-! ### State.withFleets -/

@[simp] theorem State.withFleets_ring (s : State) (f : Vector FleetRecord 4) : (s.withFleets f).ring = s.ring := rfl
@[simp] theorem State.withFleets_pilots (s : State) (f : Vector FleetRecord 4) : (s.withFleets f).pilots = s.pilots := rfl
@[simp] theorem State.withFleets_time (s : State) (f : Vector FleetRecord 4) : (s.withFleets f).time = s.time := rfl
@[simp] theorem State.withFleets_router (s : State) (f : Vector FleetRecord 4) : (s.withFleets f).router = s.router := rfl
@[simp] theorem State.withFleets_fleets (s : State) (f : Vector FleetRecord 4) : (s.withFleets f).fleets = f := rfl
@[simp] theorem State.withFleets_sweeps (s : State) (f : Vector FleetRecord 4) : (s.withFleets f).sweeps = s.sweeps := rfl
@[simp] theorem State.withFleets_engine (s : State) (f : Vector FleetRecord 4) : (s.withFleets f).engine = s.engine := rfl
@[simp] theorem State.withFleets_stack (s : State) (f : Vector FleetRecord 4) : (s.withFleets f).stack = s.stack := rfl
@[simp] theorem State.withFleets_emitter (s : State) (f : Vector FleetRecord 4) : (s.withFleets f).emitter = s.emitter := rfl
@[simp] theorem State.withFleets_link (s : State) (f : Vector FleetRecord 4) : (s.withFleets f).link = s.link := rfl
@[simp] theorem State.withFleets_mode (s : State) (f : Vector FleetRecord 4) : (s.withFleets f).mode = s.mode := rfl
@[simp] theorem State.withFleets_checkHit (s : State) (f : Vector FleetRecord 4) : (s.withFleets f).checkHit = s.checkHit := rfl
@[simp] theorem State.withFleets_pending (s : State) (f : Vector FleetRecord 4) : (s.withFleets f).pending = s.pending := rfl
@[simp] theorem State.withFleets_slot (s : State) (f : Vector FleetRecord 4) (i : Fin 8) : (s.withFleets f).slot i = s.slot i := rfl
@[simp] theorem State.withFleets_ctx (s : State) (f : Vector FleetRecord 4) (i : Fin 4) : (s.withFleets f).ctx i = s.ctx i := rfl
@[simp] theorem State.withFleets_listed (s : State) (f : Vector FleetRecord 4) : (s.withFleets f).listed = s.listed := rfl
@[simp] theorem State.withFleets_enabled (s : State) (f : Vector FleetRecord 4) (i : Nat) : (s.withFleets f).enabled i = s.enabled i := rfl
@[simp] theorem State.withFleets_sps (s : State) (f : Vector FleetRecord 4) : (s.withFleets f).sps = s.sps := rfl
@[simp] theorem State.withFleets_channels (s : State) (f : Vector FleetRecord 4) : (s.withFleets f).channels = s.channels := rfl
@[simp] theorem State.withFleets_groups (s : State) (f : Vector FleetRecord 4) : (s.withFleets f).groups = s.groups := rfl
@[simp] theorem State.withFleets_listBad (s : State) (f : Vector FleetRecord 4) : (s.withFleets f).listBad = s.listBad := rfl
@[simp] theorem State.withFleets_ctxsBad (s : State) (f : Vector FleetRecord 4) : (s.withFleets f).ctxsBad = s.ctxsBad := rfl
@[simp] theorem State.withFleets_noticeHighLevel (s : State) (f : Vector FleetRecord 4) : (s.withFleets f).noticeHighLevel = s.noticeHighLevel := rfl
@[simp] theorem State.withFleets_holdoverLevel (s : State) (f : Vector FleetRecord 4) : (s.withFleets f).holdoverLevel = s.holdoverLevel := rfl
@[simp] theorem State.withFleets_acquireLevel (s : State) (f : Vector FleetRecord 4) : (s.withFleets f).acquireLevel = s.acquireLevel := rfl

/-! ### State.withSweeps -/

@[simp] theorem State.withSweeps_ring (s : State) (l : SweepList) : (s.withSweeps l).ring = s.ring := rfl
@[simp] theorem State.withSweeps_pilots (s : State) (l : SweepList) : (s.withSweeps l).pilots = s.pilots := rfl
@[simp] theorem State.withSweeps_time (s : State) (l : SweepList) : (s.withSweeps l).time = s.time := rfl
@[simp] theorem State.withSweeps_router (s : State) (l : SweepList) : (s.withSweeps l).router = s.router := rfl
@[simp] theorem State.withSweeps_fleets (s : State) (l : SweepList) : (s.withSweeps l).fleets = s.fleets := rfl
@[simp] theorem State.withSweeps_sweeps (s : State) (l : SweepList) : (s.withSweeps l).sweeps = l := rfl
@[simp] theorem State.withSweeps_engine (s : State) (l : SweepList) : (s.withSweeps l).engine = s.engine := rfl
@[simp] theorem State.withSweeps_stack (s : State) (l : SweepList) : (s.withSweeps l).stack = s.stack := rfl
@[simp] theorem State.withSweeps_emitter (s : State) (l : SweepList) : (s.withSweeps l).emitter = s.emitter := rfl
@[simp] theorem State.withSweeps_link (s : State) (l : SweepList) : (s.withSweeps l).link = s.link := rfl
@[simp] theorem State.withSweeps_mode (s : State) (l : SweepList) : (s.withSweeps l).mode = s.mode := rfl
@[simp] theorem State.withSweeps_checkHit (s : State) (l : SweepList) : (s.withSweeps l).checkHit = s.checkHit := rfl
@[simp] theorem State.withSweeps_pending (s : State) (l : SweepList) : (s.withSweeps l).pending = s.pending := rfl
@[simp] theorem State.withSweeps_slot (s : State) (l : SweepList) (i : Fin 8) : (s.withSweeps l).slot i = s.slot i := rfl
@[simp] theorem State.withSweeps_fleet (s : State) (l : SweepList) (i : Fin 4) : (s.withSweeps l).fleet i = s.fleet i := rfl
@[simp] theorem State.withSweeps_ctx (s : State) (l : SweepList) (i : Fin 4) : (s.withSweeps l).ctx i = s.ctx i := rfl
@[simp] theorem State.withSweeps_enabled (s : State) (l : SweepList) (i : Nat) : (s.withSweeps l).enabled i = s.enabled i := rfl
@[simp] theorem State.withSweeps_sps (s : State) (l : SweepList) : (s.withSweeps l).sps = s.sps := rfl
@[simp] theorem State.withSweeps_channels (s : State) (l : SweepList) : (s.withSweeps l).channels = s.channels := rfl
@[simp] theorem State.withSweeps_groups (s : State) (l : SweepList) : (s.withSweeps l).groups = s.groups := rfl
@[simp] theorem State.withSweeps_ctxsBad (s : State) (l : SweepList) : (s.withSweeps l).ctxsBad = s.ctxsBad := rfl
@[simp] theorem State.withSweeps_noticeHighLevel (s : State) (l : SweepList) : (s.withSweeps l).noticeHighLevel = s.noticeHighLevel := rfl
@[simp] theorem State.withSweeps_holdoverLevel (s : State) (l : SweepList) : (s.withSweeps l).holdoverLevel = s.holdoverLevel := rfl
@[simp] theorem State.withSweeps_acquireLevel (s : State) (l : SweepList) : (s.withSweeps l).acquireLevel = s.acquireLevel := rfl

/-! ### State.withEngine -/

@[simp] theorem State.withEngine_ring (s : State) (e : Engine) : (s.withEngine e).ring = s.ring := rfl
@[simp] theorem State.withEngine_pilots (s : State) (e : Engine) : (s.withEngine e).pilots = s.pilots := rfl
@[simp] theorem State.withEngine_time (s : State) (e : Engine) : (s.withEngine e).time = s.time := rfl
@[simp] theorem State.withEngine_router (s : State) (e : Engine) : (s.withEngine e).router = s.router := rfl
@[simp] theorem State.withEngine_fleets (s : State) (e : Engine) : (s.withEngine e).fleets = s.fleets := rfl
@[simp] theorem State.withEngine_sweeps (s : State) (e : Engine) : (s.withEngine e).sweeps = s.sweeps := rfl
@[simp] theorem State.withEngine_engine (s : State) (e : Engine) : (s.withEngine e).engine = e := rfl
@[simp] theorem State.withEngine_stack (s : State) (e : Engine) : (s.withEngine e).stack = s.stack := rfl
@[simp] theorem State.withEngine_emitter (s : State) (e : Engine) : (s.withEngine e).emitter = s.emitter := rfl
@[simp] theorem State.withEngine_link (s : State) (e : Engine) : (s.withEngine e).link = s.link := rfl
@[simp] theorem State.withEngine_mode (s : State) (e : Engine) : (s.withEngine e).mode = s.mode := rfl
@[simp] theorem State.withEngine_checkHit (s : State) (e : Engine) : (s.withEngine e).checkHit = s.checkHit := rfl
@[simp] theorem State.withEngine_pending (s : State) (e : Engine) : (s.withEngine e).pending = s.pending := rfl
@[simp] theorem State.withEngine_slot (s : State) (e : Engine) (i : Fin 8) : (s.withEngine e).slot i = s.slot i := rfl
@[simp] theorem State.withEngine_fleet (s : State) (e : Engine) (i : Fin 4) : (s.withEngine e).fleet i = s.fleet i := rfl
@[simp] theorem State.withEngine_ctx (s : State) (e : Engine) (i : Fin 4) : (s.withEngine e).ctx i = s.ctx i := rfl
@[simp] theorem State.withEngine_listed (s : State) (e : Engine) : (s.withEngine e).listed = s.listed := rfl
@[simp] theorem State.withEngine_enabled (s : State) (e : Engine) (i : Nat) : (s.withEngine e).enabled i = s.enabled i := rfl
@[simp] theorem State.withEngine_sps (s : State) (e : Engine) : (s.withEngine e).sps = s.sps := rfl
@[simp] theorem State.withEngine_channels (s : State) (e : Engine) : (s.withEngine e).channels = s.channels := rfl
@[simp] theorem State.withEngine_groups (s : State) (e : Engine) : (s.withEngine e).groups = s.groups := rfl
@[simp] theorem State.withEngine_listBad (s : State) (e : Engine) : (s.withEngine e).listBad = s.listBad := rfl
@[simp] theorem State.withEngine_ctxsBad (s : State) (e : Engine) : (s.withEngine e).ctxsBad = s.ctxsBad := rfl
@[simp] theorem State.withEngine_noticeHighLevel (s : State) (e : Engine) : (s.withEngine e).noticeHighLevel = s.noticeHighLevel := rfl
@[simp] theorem State.withEngine_holdoverLevel (s : State) (e : Engine) : (s.withEngine e).holdoverLevel = s.holdoverLevel := rfl
@[simp] theorem State.withEngine_acquireLevel (s : State) (e : Engine) : (s.withEngine e).acquireLevel = s.acquireLevel := rfl

/-! ### State.withStack -/

@[simp] theorem State.withStack_ring (s : State) (k : StackStore) : (s.withStack k).ring = s.ring := rfl
@[simp] theorem State.withStack_pilots (s : State) (k : StackStore) : (s.withStack k).pilots = s.pilots := rfl
@[simp] theorem State.withStack_time (s : State) (k : StackStore) : (s.withStack k).time = s.time := rfl
@[simp] theorem State.withStack_router (s : State) (k : StackStore) : (s.withStack k).router = s.router := rfl
@[simp] theorem State.withStack_fleets (s : State) (k : StackStore) : (s.withStack k).fleets = s.fleets := rfl
@[simp] theorem State.withStack_sweeps (s : State) (k : StackStore) : (s.withStack k).sweeps = s.sweeps := rfl
@[simp] theorem State.withStack_engine (s : State) (k : StackStore) : (s.withStack k).engine = s.engine := rfl
@[simp] theorem State.withStack_stack (s : State) (k : StackStore) : (s.withStack k).stack = k := rfl
@[simp] theorem State.withStack_emitter (s : State) (k : StackStore) : (s.withStack k).emitter = s.emitter := rfl
@[simp] theorem State.withStack_link (s : State) (k : StackStore) : (s.withStack k).link = s.link := rfl
@[simp] theorem State.withStack_mode (s : State) (k : StackStore) : (s.withStack k).mode = s.mode := rfl
@[simp] theorem State.withStack_checkHit (s : State) (k : StackStore) : (s.withStack k).checkHit = s.checkHit := rfl
@[simp] theorem State.withStack_pending (s : State) (k : StackStore) : (s.withStack k).pending = s.pending := rfl
@[simp] theorem State.withStack_slot (s : State) (k : StackStore) (i : Fin 8) : (s.withStack k).slot i = s.slot i := rfl
@[simp] theorem State.withStack_fleet (s : State) (k : StackStore) (i : Fin 4) : (s.withStack k).fleet i = s.fleet i := rfl
@[simp] theorem State.withStack_listed (s : State) (k : StackStore) : (s.withStack k).listed = s.listed := rfl
@[simp] theorem State.withStack_enabled (s : State) (k : StackStore) (i : Nat) : (s.withStack k).enabled i = s.enabled i := rfl
@[simp] theorem State.withStack_sps (s : State) (k : StackStore) : (s.withStack k).sps = s.sps := rfl
@[simp] theorem State.withStack_channels (s : State) (k : StackStore) : (s.withStack k).channels = s.channels := rfl
@[simp] theorem State.withStack_groups (s : State) (k : StackStore) : (s.withStack k).groups = s.groups := rfl
@[simp] theorem State.withStack_listBad (s : State) (k : StackStore) : (s.withStack k).listBad = s.listBad := rfl
@[simp] theorem State.withStack_noticeHighLevel (s : State) (k : StackStore) : (s.withStack k).noticeHighLevel = s.noticeHighLevel := rfl
@[simp] theorem State.withStack_holdoverLevel (s : State) (k : StackStore) : (s.withStack k).holdoverLevel = s.holdoverLevel := rfl
@[simp] theorem State.withStack_acquireLevel (s : State) (k : StackStore) : (s.withStack k).acquireLevel = s.acquireLevel := rfl

/-! ### State.withEmitter -/

@[simp] theorem State.withEmitter_ring (s : State) (e : Emitter) : (s.withEmitter e).ring = s.ring := rfl
@[simp] theorem State.withEmitter_pilots (s : State) (e : Emitter) : (s.withEmitter e).pilots = s.pilots := rfl
@[simp] theorem State.withEmitter_time (s : State) (e : Emitter) : (s.withEmitter e).time = s.time := rfl
@[simp] theorem State.withEmitter_router (s : State) (e : Emitter) : (s.withEmitter e).router = s.router := rfl
@[simp] theorem State.withEmitter_fleets (s : State) (e : Emitter) : (s.withEmitter e).fleets = s.fleets := rfl
@[simp] theorem State.withEmitter_sweeps (s : State) (e : Emitter) : (s.withEmitter e).sweeps = s.sweeps := rfl
@[simp] theorem State.withEmitter_engine (s : State) (e : Emitter) : (s.withEmitter e).engine = s.engine := rfl
@[simp] theorem State.withEmitter_stack (s : State) (e : Emitter) : (s.withEmitter e).stack = s.stack := rfl
@[simp] theorem State.withEmitter_emitter (s : State) (e : Emitter) : (s.withEmitter e).emitter = e := rfl
@[simp] theorem State.withEmitter_link (s : State) (e : Emitter) : (s.withEmitter e).link = s.link := rfl
@[simp] theorem State.withEmitter_mode (s : State) (e : Emitter) : (s.withEmitter e).mode = s.mode := rfl
@[simp] theorem State.withEmitter_checkHit (s : State) (e : Emitter) : (s.withEmitter e).checkHit = s.checkHit := rfl
@[simp] theorem State.withEmitter_pending (s : State) (e : Emitter) : (s.withEmitter e).pending = s.pending := rfl
@[simp] theorem State.withEmitter_slot (s : State) (e : Emitter) (i : Fin 8) : (s.withEmitter e).slot i = s.slot i := rfl
@[simp] theorem State.withEmitter_fleet (s : State) (e : Emitter) (i : Fin 4) : (s.withEmitter e).fleet i = s.fleet i := rfl
@[simp] theorem State.withEmitter_ctx (s : State) (e : Emitter) (i : Fin 4) : (s.withEmitter e).ctx i = s.ctx i := rfl
@[simp] theorem State.withEmitter_listed (s : State) (e : Emitter) : (s.withEmitter e).listed = s.listed := rfl
@[simp] theorem State.withEmitter_enabled (s : State) (e : Emitter) (i : Nat) : (s.withEmitter e).enabled i = s.enabled i := rfl
@[simp] theorem State.withEmitter_sps (s : State) (e : Emitter) : (s.withEmitter e).sps = s.sps := rfl
@[simp] theorem State.withEmitter_channels (s : State) (e : Emitter) : (s.withEmitter e).channels = s.channels := rfl
@[simp] theorem State.withEmitter_groups (s : State) (e : Emitter) : (s.withEmitter e).groups = s.groups := rfl
@[simp] theorem State.withEmitter_listBad (s : State) (e : Emitter) : (s.withEmitter e).listBad = s.listBad := rfl
@[simp] theorem State.withEmitter_ctxsBad (s : State) (e : Emitter) : (s.withEmitter e).ctxsBad = s.ctxsBad := rfl
@[simp] theorem State.withEmitter_noticeHighLevel (s : State) (e : Emitter) : (s.withEmitter e).noticeHighLevel = s.noticeHighLevel := rfl
@[simp] theorem State.withEmitter_holdoverLevel (s : State) (e : Emitter) : (s.withEmitter e).holdoverLevel = s.holdoverLevel := rfl
@[simp] theorem State.withEmitter_acquireLevel (s : State) (e : Emitter) : (s.withEmitter e).acquireLevel = s.acquireLevel := rfl

/-! ### State.withLink -/

@[simp] theorem State.withLink_ring (s : State) (l : HostLink) : (s.withLink l).ring = s.ring := rfl
@[simp] theorem State.withLink_pilots (s : State) (l : HostLink) : (s.withLink l).pilots = s.pilots := rfl
@[simp] theorem State.withLink_time (s : State) (l : HostLink) : (s.withLink l).time = s.time := rfl
@[simp] theorem State.withLink_router (s : State) (l : HostLink) : (s.withLink l).router = s.router := rfl
@[simp] theorem State.withLink_fleets (s : State) (l : HostLink) : (s.withLink l).fleets = s.fleets := rfl
@[simp] theorem State.withLink_sweeps (s : State) (l : HostLink) : (s.withLink l).sweeps = s.sweeps := rfl
@[simp] theorem State.withLink_engine (s : State) (l : HostLink) : (s.withLink l).engine = s.engine := rfl
@[simp] theorem State.withLink_stack (s : State) (l : HostLink) : (s.withLink l).stack = s.stack := rfl
@[simp] theorem State.withLink_emitter (s : State) (l : HostLink) : (s.withLink l).emitter = s.emitter := rfl
@[simp] theorem State.withLink_link (s : State) (l : HostLink) : (s.withLink l).link = l := rfl
@[simp] theorem State.withLink_mode (s : State) (l : HostLink) : (s.withLink l).mode = s.mode := rfl
@[simp] theorem State.withLink_checkHit (s : State) (l : HostLink) : (s.withLink l).checkHit = s.checkHit := rfl
@[simp] theorem State.withLink_pending (s : State) (l : HostLink) : (s.withLink l).pending = s.pending := rfl
@[simp] theorem State.withLink_slot (s : State) (l : HostLink) (i : Fin 8) : (s.withLink l).slot i = s.slot i := rfl
@[simp] theorem State.withLink_fleet (s : State) (l : HostLink) (i : Fin 4) : (s.withLink l).fleet i = s.fleet i := rfl
@[simp] theorem State.withLink_ctx (s : State) (l : HostLink) (i : Fin 4) : (s.withLink l).ctx i = s.ctx i := rfl
@[simp] theorem State.withLink_listed (s : State) (l : HostLink) : (s.withLink l).listed = s.listed := rfl
@[simp] theorem State.withLink_enabled (s : State) (l : HostLink) (i : Nat) : (s.withLink l).enabled i = s.enabled i := rfl
@[simp] theorem State.withLink_sps (s : State) (l : HostLink) : (s.withLink l).sps = s.sps := rfl
@[simp] theorem State.withLink_channels (s : State) (l : HostLink) : (s.withLink l).channels = s.channels := rfl
@[simp] theorem State.withLink_groups (s : State) (l : HostLink) : (s.withLink l).groups = s.groups := rfl
@[simp] theorem State.withLink_listBad (s : State) (l : HostLink) : (s.withLink l).listBad = s.listBad := rfl
@[simp] theorem State.withLink_ctxsBad (s : State) (l : HostLink) : (s.withLink l).ctxsBad = s.ctxsBad := rfl
@[simp] theorem State.withLink_holdoverLevel (s : State) (l : HostLink) : (s.withLink l).holdoverLevel = s.holdoverLevel := rfl
@[simp] theorem State.withLink_acquireLevel (s : State) (l : HostLink) : (s.withLink l).acquireLevel = s.acquireLevel := rfl

/-! ### State.withMode -/

@[simp] theorem State.withMode_ring (s : State) (m : ModeControl) : (s.withMode m).ring = s.ring := rfl
@[simp] theorem State.withMode_pilots (s : State) (m : ModeControl) : (s.withMode m).pilots = s.pilots := rfl
@[simp] theorem State.withMode_time (s : State) (m : ModeControl) : (s.withMode m).time = s.time := rfl
@[simp] theorem State.withMode_router (s : State) (m : ModeControl) : (s.withMode m).router = s.router := rfl
@[simp] theorem State.withMode_fleets (s : State) (m : ModeControl) : (s.withMode m).fleets = s.fleets := rfl
@[simp] theorem State.withMode_sweeps (s : State) (m : ModeControl) : (s.withMode m).sweeps = s.sweeps := rfl
@[simp] theorem State.withMode_engine (s : State) (m : ModeControl) : (s.withMode m).engine = s.engine := rfl
@[simp] theorem State.withMode_stack (s : State) (m : ModeControl) : (s.withMode m).stack = s.stack := rfl
@[simp] theorem State.withMode_emitter (s : State) (m : ModeControl) : (s.withMode m).emitter = s.emitter := rfl
@[simp] theorem State.withMode_link (s : State) (m : ModeControl) : (s.withMode m).link = s.link := rfl
@[simp] theorem State.withMode_mode (s : State) (m : ModeControl) : (s.withMode m).mode = m := rfl
@[simp] theorem State.withMode_checkHit (s : State) (m : ModeControl) : (s.withMode m).checkHit = s.checkHit := rfl
@[simp] theorem State.withMode_pending (s : State) (m : ModeControl) : (s.withMode m).pending = s.pending := rfl
@[simp] theorem State.withMode_slot (s : State) (m : ModeControl) (i : Fin 8) : (s.withMode m).slot i = s.slot i := rfl
@[simp] theorem State.withMode_fleet (s : State) (m : ModeControl) (i : Fin 4) : (s.withMode m).fleet i = s.fleet i := rfl
@[simp] theorem State.withMode_ctx (s : State) (m : ModeControl) (i : Fin 4) : (s.withMode m).ctx i = s.ctx i := rfl
@[simp] theorem State.withMode_listed (s : State) (m : ModeControl) : (s.withMode m).listed = s.listed := rfl
@[simp] theorem State.withMode_listBad (s : State) (m : ModeControl) : (s.withMode m).listBad = s.listBad := rfl
@[simp] theorem State.withMode_ctxsBad (s : State) (m : ModeControl) : (s.withMode m).ctxsBad = s.ctxsBad := rfl
@[simp] theorem State.withMode_noticeHighLevel (s : State) (m : ModeControl) : (s.withMode m).noticeHighLevel = s.noticeHighLevel := rfl
@[simp] theorem State.withMode_holdoverLevel (s : State) (m : ModeControl) : (s.withMode m).holdoverLevel = s.holdoverLevel := rfl

/-! ### State.withCheckHit -/

@[simp] theorem State.withCheckHit_ring (s : State) (b : Bool) : (s.withCheckHit b).ring = s.ring := rfl
@[simp] theorem State.withCheckHit_pilots (s : State) (b : Bool) : (s.withCheckHit b).pilots = s.pilots := rfl
@[simp] theorem State.withCheckHit_time (s : State) (b : Bool) : (s.withCheckHit b).time = s.time := rfl
@[simp] theorem State.withCheckHit_router (s : State) (b : Bool) : (s.withCheckHit b).router = s.router := rfl
@[simp] theorem State.withCheckHit_fleets (s : State) (b : Bool) : (s.withCheckHit b).fleets = s.fleets := rfl
@[simp] theorem State.withCheckHit_sweeps (s : State) (b : Bool) : (s.withCheckHit b).sweeps = s.sweeps := rfl
@[simp] theorem State.withCheckHit_engine (s : State) (b : Bool) : (s.withCheckHit b).engine = s.engine := rfl
@[simp] theorem State.withCheckHit_stack (s : State) (b : Bool) : (s.withCheckHit b).stack = s.stack := rfl
@[simp] theorem State.withCheckHit_emitter (s : State) (b : Bool) : (s.withCheckHit b).emitter = s.emitter := rfl
@[simp] theorem State.withCheckHit_link (s : State) (b : Bool) : (s.withCheckHit b).link = s.link := rfl
@[simp] theorem State.withCheckHit_mode (s : State) (b : Bool) : (s.withCheckHit b).mode = s.mode := rfl
@[simp] theorem State.withCheckHit_checkHit (s : State) (b : Bool) : (s.withCheckHit b).checkHit = b := rfl
@[simp] theorem State.withCheckHit_pending (s : State) (b : Bool) : (s.withCheckHit b).pending = s.pending := rfl
@[simp] theorem State.withCheckHit_slot (s : State) (b : Bool) (i : Fin 8) : (s.withCheckHit b).slot i = s.slot i := rfl
@[simp] theorem State.withCheckHit_fleet (s : State) (b : Bool) (i : Fin 4) : (s.withCheckHit b).fleet i = s.fleet i := rfl
@[simp] theorem State.withCheckHit_ctx (s : State) (b : Bool) (i : Fin 4) : (s.withCheckHit b).ctx i = s.ctx i := rfl
@[simp] theorem State.withCheckHit_listed (s : State) (b : Bool) : (s.withCheckHit b).listed = s.listed := rfl
@[simp] theorem State.withCheckHit_enabled (s : State) (b : Bool) (i : Nat) : (s.withCheckHit b).enabled i = s.enabled i := rfl
@[simp] theorem State.withCheckHit_sps (s : State) (b : Bool) : (s.withCheckHit b).sps = s.sps := rfl
@[simp] theorem State.withCheckHit_channels (s : State) (b : Bool) : (s.withCheckHit b).channels = s.channels := rfl
@[simp] theorem State.withCheckHit_groups (s : State) (b : Bool) : (s.withCheckHit b).groups = s.groups := rfl
@[simp] theorem State.withCheckHit_listBad (s : State) (b : Bool) : (s.withCheckHit b).listBad = s.listBad := rfl
@[simp] theorem State.withCheckHit_ctxsBad (s : State) (b : Bool) : (s.withCheckHit b).ctxsBad = s.ctxsBad := rfl
@[simp] theorem State.withCheckHit_noticeHighLevel (s : State) (b : Bool) : (s.withCheckHit b).noticeHighLevel = s.noticeHighLevel := rfl
@[simp] theorem State.withCheckHit_holdoverLevel (s : State) (b : Bool) : (s.withCheckHit b).holdoverLevel = s.holdoverLevel := rfl
@[simp] theorem State.withCheckHit_acquireLevel (s : State) (b : Bool) : (s.withCheckHit b).acquireLevel = s.acquireLevel := rfl

/-! ### State.withSlot -/

@[simp] theorem State.withSlot_ring (s : State) (j : Fin 8) (p : PilotSlot) : (s.withSlot j p).ring = s.ring := rfl
@[simp] theorem State.withSlot_time (s : State) (j : Fin 8) (p : PilotSlot) : (s.withSlot j p).time = s.time := rfl
@[simp] theorem State.withSlot_router (s : State) (j : Fin 8) (p : PilotSlot) : (s.withSlot j p).router = s.router := rfl
@[simp] theorem State.withSlot_fleets (s : State) (j : Fin 8) (p : PilotSlot) : (s.withSlot j p).fleets = s.fleets := rfl
@[simp] theorem State.withSlot_sweeps (s : State) (j : Fin 8) (p : PilotSlot) : (s.withSlot j p).sweeps = s.sweeps := rfl
@[simp] theorem State.withSlot_engine (s : State) (j : Fin 8) (p : PilotSlot) : (s.withSlot j p).engine = s.engine := rfl
@[simp] theorem State.withSlot_stack (s : State) (j : Fin 8) (p : PilotSlot) : (s.withSlot j p).stack = s.stack := rfl
@[simp] theorem State.withSlot_emitter (s : State) (j : Fin 8) (p : PilotSlot) : (s.withSlot j p).emitter = s.emitter := rfl
@[simp] theorem State.withSlot_link (s : State) (j : Fin 8) (p : PilotSlot) : (s.withSlot j p).link = s.link := rfl
@[simp] theorem State.withSlot_mode (s : State) (j : Fin 8) (p : PilotSlot) : (s.withSlot j p).mode = s.mode := rfl
@[simp] theorem State.withSlot_checkHit (s : State) (j : Fin 8) (p : PilotSlot) : (s.withSlot j p).checkHit = s.checkHit := rfl
@[simp] theorem State.withSlot_pending (s : State) (j : Fin 8) (p : PilotSlot) : (s.withSlot j p).pending = s.pending := rfl
@[simp] theorem State.withSlot_fleet (s : State) (j : Fin 8) (p : PilotSlot) (i : Fin 4) : (s.withSlot j p).fleet i = s.fleet i := rfl
@[simp] theorem State.withSlot_ctx (s : State) (j : Fin 8) (p : PilotSlot) (i : Fin 4) : (s.withSlot j p).ctx i = s.ctx i := rfl
@[simp] theorem State.withSlot_listed (s : State) (j : Fin 8) (p : PilotSlot) : (s.withSlot j p).listed = s.listed := rfl
@[simp] theorem State.withSlot_enabled (s : State) (j : Fin 8) (p : PilotSlot) (i : Nat) : (s.withSlot j p).enabled i = s.enabled i := rfl
@[simp] theorem State.withSlot_sps (s : State) (j : Fin 8) (p : PilotSlot) : (s.withSlot j p).sps = s.sps := rfl
@[simp] theorem State.withSlot_channels (s : State) (j : Fin 8) (p : PilotSlot) : (s.withSlot j p).channels = s.channels := rfl
@[simp] theorem State.withSlot_groups (s : State) (j : Fin 8) (p : PilotSlot) : (s.withSlot j p).groups = s.groups := rfl
@[simp] theorem State.withSlot_listBad (s : State) (j : Fin 8) (p : PilotSlot) : (s.withSlot j p).listBad = s.listBad := rfl
@[simp] theorem State.withSlot_ctxsBad (s : State) (j : Fin 8) (p : PilotSlot) : (s.withSlot j p).ctxsBad = s.ctxsBad := rfl
@[simp] theorem State.withSlot_noticeHighLevel (s : State) (j : Fin 8) (p : PilotSlot) : (s.withSlot j p).noticeHighLevel = s.noticeHighLevel := rfl
@[simp] theorem State.withSlot_holdoverLevel (s : State) (j : Fin 8) (p : PilotSlot) : (s.withSlot j p).holdoverLevel = s.holdoverLevel := rfl
@[simp] theorem State.withSlot_acquireLevel (s : State) (j : Fin 8) (p : PilotSlot) : (s.withSlot j p).acquireLevel = s.acquireLevel := rfl

/-! ### State.withFleet -/

@[simp] theorem State.withFleet_ring (s : State) (j : Fin 4) (r : FleetRecord) : (s.withFleet j r).ring = s.ring := rfl
@[simp] theorem State.withFleet_pilots (s : State) (j : Fin 4) (r : FleetRecord) : (s.withFleet j r).pilots = s.pilots := rfl
@[simp] theorem State.withFleet_time (s : State) (j : Fin 4) (r : FleetRecord) : (s.withFleet j r).time = s.time := rfl
@[simp] theorem State.withFleet_router (s : State) (j : Fin 4) (r : FleetRecord) : (s.withFleet j r).router = s.router := rfl
@[simp] theorem State.withFleet_sweeps (s : State) (j : Fin 4) (r : FleetRecord) : (s.withFleet j r).sweeps = s.sweeps := rfl
@[simp] theorem State.withFleet_engine (s : State) (j : Fin 4) (r : FleetRecord) : (s.withFleet j r).engine = s.engine := rfl
@[simp] theorem State.withFleet_stack (s : State) (j : Fin 4) (r : FleetRecord) : (s.withFleet j r).stack = s.stack := rfl
@[simp] theorem State.withFleet_emitter (s : State) (j : Fin 4) (r : FleetRecord) : (s.withFleet j r).emitter = s.emitter := rfl
@[simp] theorem State.withFleet_link (s : State) (j : Fin 4) (r : FleetRecord) : (s.withFleet j r).link = s.link := rfl
@[simp] theorem State.withFleet_mode (s : State) (j : Fin 4) (r : FleetRecord) : (s.withFleet j r).mode = s.mode := rfl
@[simp] theorem State.withFleet_checkHit (s : State) (j : Fin 4) (r : FleetRecord) : (s.withFleet j r).checkHit = s.checkHit := rfl
@[simp] theorem State.withFleet_pending (s : State) (j : Fin 4) (r : FleetRecord) : (s.withFleet j r).pending = s.pending := rfl
@[simp] theorem State.withFleet_slot (s : State) (j : Fin 4) (r : FleetRecord) (i : Fin 8) : (s.withFleet j r).slot i = s.slot i := rfl
@[simp] theorem State.withFleet_ctx (s : State) (j : Fin 4) (r : FleetRecord) (i : Fin 4) : (s.withFleet j r).ctx i = s.ctx i := rfl
@[simp] theorem State.withFleet_listed (s : State) (j : Fin 4) (r : FleetRecord) : (s.withFleet j r).listed = s.listed := rfl
@[simp] theorem State.withFleet_enabled (s : State) (j : Fin 4) (r : FleetRecord) (i : Nat) : (s.withFleet j r).enabled i = s.enabled i := rfl
@[simp] theorem State.withFleet_sps (s : State) (j : Fin 4) (r : FleetRecord) : (s.withFleet j r).sps = s.sps := rfl
@[simp] theorem State.withFleet_channels (s : State) (j : Fin 4) (r : FleetRecord) : (s.withFleet j r).channels = s.channels := rfl
@[simp] theorem State.withFleet_groups (s : State) (j : Fin 4) (r : FleetRecord) : (s.withFleet j r).groups = s.groups := rfl
@[simp] theorem State.withFleet_listBad (s : State) (j : Fin 4) (r : FleetRecord) : (s.withFleet j r).listBad = s.listBad := rfl
@[simp] theorem State.withFleet_ctxsBad (s : State) (j : Fin 4) (r : FleetRecord) : (s.withFleet j r).ctxsBad = s.ctxsBad := rfl
@[simp] theorem State.withFleet_noticeHighLevel (s : State) (j : Fin 4) (r : FleetRecord) : (s.withFleet j r).noticeHighLevel = s.noticeHighLevel := rfl
@[simp] theorem State.withFleet_holdoverLevel (s : State) (j : Fin 4) (r : FleetRecord) : (s.withFleet j r).holdoverLevel = s.holdoverLevel := rfl
@[simp] theorem State.withFleet_acquireLevel (s : State) (j : Fin 4) (r : FleetRecord) : (s.withFleet j r).acquireLevel = s.acquireLevel := rfl

/-! ### State.withCtx -/

@[simp] theorem State.withCtx_ring (s : State) (j : Fin 4) (c : Context) : (s.withCtx j c).ring = s.ring := rfl
@[simp] theorem State.withCtx_pilots (s : State) (j : Fin 4) (c : Context) : (s.withCtx j c).pilots = s.pilots := rfl
@[simp] theorem State.withCtx_time (s : State) (j : Fin 4) (c : Context) : (s.withCtx j c).time = s.time := rfl
@[simp] theorem State.withCtx_router (s : State) (j : Fin 4) (c : Context) : (s.withCtx j c).router = s.router := rfl
@[simp] theorem State.withCtx_fleets (s : State) (j : Fin 4) (c : Context) : (s.withCtx j c).fleets = s.fleets := rfl
@[simp] theorem State.withCtx_sweeps (s : State) (j : Fin 4) (c : Context) : (s.withCtx j c).sweeps = s.sweeps := rfl
@[simp] theorem State.withCtx_engine (s : State) (j : Fin 4) (c : Context) : (s.withCtx j c).engine = s.engine := rfl
@[simp] theorem State.withCtx_emitter (s : State) (j : Fin 4) (c : Context) : (s.withCtx j c).emitter = s.emitter := rfl
@[simp] theorem State.withCtx_link (s : State) (j : Fin 4) (c : Context) : (s.withCtx j c).link = s.link := rfl
@[simp] theorem State.withCtx_mode (s : State) (j : Fin 4) (c : Context) : (s.withCtx j c).mode = s.mode := rfl
@[simp] theorem State.withCtx_checkHit (s : State) (j : Fin 4) (c : Context) : (s.withCtx j c).checkHit = s.checkHit := rfl
@[simp] theorem State.withCtx_pending (s : State) (j : Fin 4) (c : Context) : (s.withCtx j c).pending = s.pending := rfl
@[simp] theorem State.withCtx_slot (s : State) (j : Fin 4) (c : Context) (i : Fin 8) : (s.withCtx j c).slot i = s.slot i := rfl
@[simp] theorem State.withCtx_fleet (s : State) (j : Fin 4) (c : Context) (i : Fin 4) : (s.withCtx j c).fleet i = s.fleet i := rfl
@[simp] theorem State.withCtx_listed (s : State) (j : Fin 4) (c : Context) : (s.withCtx j c).listed = s.listed := rfl
@[simp] theorem State.withCtx_enabled (s : State) (j : Fin 4) (c : Context) (i : Nat) : (s.withCtx j c).enabled i = s.enabled i := rfl
@[simp] theorem State.withCtx_sps (s : State) (j : Fin 4) (c : Context) : (s.withCtx j c).sps = s.sps := rfl
@[simp] theorem State.withCtx_channels (s : State) (j : Fin 4) (c : Context) : (s.withCtx j c).channels = s.channels := rfl
@[simp] theorem State.withCtx_groups (s : State) (j : Fin 4) (c : Context) : (s.withCtx j c).groups = s.groups := rfl
@[simp] theorem State.withCtx_listBad (s : State) (j : Fin 4) (c : Context) : (s.withCtx j c).listBad = s.listBad := rfl
@[simp] theorem State.withCtx_noticeHighLevel (s : State) (j : Fin 4) (c : Context) : (s.withCtx j c).noticeHighLevel = s.noticeHighLevel := rfl
@[simp] theorem State.withCtx_holdoverLevel (s : State) (j : Fin 4) (c : Context) : (s.withCtx j c).holdoverLevel = s.holdoverLevel := rfl
@[simp] theorem State.withCtx_acquireLevel (s : State) (j : Fin 4) (c : Context) : (s.withCtx j c).acquireLevel = s.acquireLevel := rfl

/-! ### State.withListed -/

@[simp] theorem State.withListed_ring (s : State) (l : List SweepRecord) : (s.withListed l).ring = s.ring := rfl
@[simp] theorem State.withListed_pilots (s : State) (l : List SweepRecord) : (s.withListed l).pilots = s.pilots := rfl
@[simp] theorem State.withListed_time (s : State) (l : List SweepRecord) : (s.withListed l).time = s.time := rfl
@[simp] theorem State.withListed_router (s : State) (l : List SweepRecord) : (s.withListed l).router = s.router := rfl
@[simp] theorem State.withListed_fleets (s : State) (l : List SweepRecord) : (s.withListed l).fleets = s.fleets := rfl
@[simp] theorem State.withListed_engine (s : State) (l : List SweepRecord) : (s.withListed l).engine = s.engine := rfl
@[simp] theorem State.withListed_stack (s : State) (l : List SweepRecord) : (s.withListed l).stack = s.stack := rfl
@[simp] theorem State.withListed_emitter (s : State) (l : List SweepRecord) : (s.withListed l).emitter = s.emitter := rfl
@[simp] theorem State.withListed_link (s : State) (l : List SweepRecord) : (s.withListed l).link = s.link := rfl
@[simp] theorem State.withListed_mode (s : State) (l : List SweepRecord) : (s.withListed l).mode = s.mode := rfl
@[simp] theorem State.withListed_checkHit (s : State) (l : List SweepRecord) : (s.withListed l).checkHit = s.checkHit := rfl
@[simp] theorem State.withListed_pending (s : State) (l : List SweepRecord) : (s.withListed l).pending = s.pending := rfl
@[simp] theorem State.withListed_slot (s : State) (l : List SweepRecord) (i : Fin 8) : (s.withListed l).slot i = s.slot i := rfl
@[simp] theorem State.withListed_fleet (s : State) (l : List SweepRecord) (i : Fin 4) : (s.withListed l).fleet i = s.fleet i := rfl
@[simp] theorem State.withListed_ctx (s : State) (l : List SweepRecord) (i : Fin 4) : (s.withListed l).ctx i = s.ctx i := rfl
@[simp] theorem State.withListed_enabled (s : State) (l : List SweepRecord) (i : Nat) : (s.withListed l).enabled i = s.enabled i := rfl
@[simp] theorem State.withListed_sps (s : State) (l : List SweepRecord) : (s.withListed l).sps = s.sps := rfl
@[simp] theorem State.withListed_channels (s : State) (l : List SweepRecord) : (s.withListed l).channels = s.channels := rfl
@[simp] theorem State.withListed_groups (s : State) (l : List SweepRecord) : (s.withListed l).groups = s.groups := rfl
@[simp] theorem State.withListed_ctxsBad (s : State) (l : List SweepRecord) : (s.withListed l).ctxsBad = s.ctxsBad := rfl
@[simp] theorem State.withListed_noticeHighLevel (s : State) (l : List SweepRecord) : (s.withListed l).noticeHighLevel = s.noticeHighLevel := rfl
@[simp] theorem State.withListed_holdoverLevel (s : State) (l : List SweepRecord) : (s.withListed l).holdoverLevel = s.holdoverLevel := rfl
@[simp] theorem State.withListed_acquireLevel (s : State) (l : List SweepRecord) : (s.withListed l).acquireLevel = s.acquireLevel := rfl

/-! ### State.mapOutputs -/

@[simp] theorem State.mapOutputs_ring (s : State) (g : OutputEntry → OutputEntry) : (s.mapOutputs g).ring = s.ring := rfl
@[simp] theorem State.mapOutputs_pilots (s : State) (g : OutputEntry → OutputEntry) : (s.mapOutputs g).pilots = s.pilots := rfl
@[simp] theorem State.mapOutputs_time (s : State) (g : OutputEntry → OutputEntry) : (s.mapOutputs g).time = s.time := rfl
@[simp] theorem State.mapOutputs_fleets (s : State) (g : OutputEntry → OutputEntry) : (s.mapOutputs g).fleets = s.fleets := rfl
@[simp] theorem State.mapOutputs_sweeps (s : State) (g : OutputEntry → OutputEntry) : (s.mapOutputs g).sweeps = s.sweeps := rfl
@[simp] theorem State.mapOutputs_engine (s : State) (g : OutputEntry → OutputEntry) : (s.mapOutputs g).engine = s.engine := rfl
@[simp] theorem State.mapOutputs_stack (s : State) (g : OutputEntry → OutputEntry) : (s.mapOutputs g).stack = s.stack := rfl
@[simp] theorem State.mapOutputs_emitter (s : State) (g : OutputEntry → OutputEntry) : (s.mapOutputs g).emitter = s.emitter := rfl
@[simp] theorem State.mapOutputs_link (s : State) (g : OutputEntry → OutputEntry) : (s.mapOutputs g).link = s.link := rfl
@[simp] theorem State.mapOutputs_mode (s : State) (g : OutputEntry → OutputEntry) : (s.mapOutputs g).mode = s.mode := rfl
@[simp] theorem State.mapOutputs_checkHit (s : State) (g : OutputEntry → OutputEntry) : (s.mapOutputs g).checkHit = s.checkHit := rfl
@[simp] theorem State.mapOutputs_pending (s : State) (g : OutputEntry → OutputEntry) : (s.mapOutputs g).pending = s.pending := rfl
@[simp] theorem State.mapOutputs_slot (s : State) (g : OutputEntry → OutputEntry) (i : Fin 8) : (s.mapOutputs g).slot i = s.slot i := rfl
@[simp] theorem State.mapOutputs_fleet (s : State) (g : OutputEntry → OutputEntry) (i : Fin 4) : (s.mapOutputs g).fleet i = s.fleet i := rfl
@[simp] theorem State.mapOutputs_ctx (s : State) (g : OutputEntry → OutputEntry) (i : Fin 4) : (s.mapOutputs g).ctx i = s.ctx i := rfl
@[simp] theorem State.mapOutputs_listed (s : State) (g : OutputEntry → OutputEntry) : (s.mapOutputs g).listed = s.listed := rfl
@[simp] theorem State.mapOutputs_enabled (s : State) (g : OutputEntry → OutputEntry) (i : Nat) : (s.mapOutputs g).enabled i = s.enabled i := rfl
@[simp] theorem State.mapOutputs_sps (s : State) (g : OutputEntry → OutputEntry) : (s.mapOutputs g).sps = s.sps := rfl
@[simp] theorem State.mapOutputs_channels (s : State) (g : OutputEntry → OutputEntry) : (s.mapOutputs g).channels = s.channels := rfl
@[simp] theorem State.mapOutputs_groups (s : State) (g : OutputEntry → OutputEntry) : (s.mapOutputs g).groups = s.groups := rfl
@[simp] theorem State.mapOutputs_listBad (s : State) (g : OutputEntry → OutputEntry) : (s.mapOutputs g).listBad = s.listBad := rfl
@[simp] theorem State.mapOutputs_ctxsBad (s : State) (g : OutputEntry → OutputEntry) : (s.mapOutputs g).ctxsBad = s.ctxsBad := rfl
@[simp] theorem State.mapOutputs_noticeHighLevel (s : State) (g : OutputEntry → OutputEntry) : (s.mapOutputs g).noticeHighLevel = s.noticeHighLevel := rfl
@[simp] theorem State.mapOutputs_holdoverLevel (s : State) (g : OutputEntry → OutputEntry) : (s.mapOutputs g).holdoverLevel = s.holdoverLevel := rfl
@[simp] theorem State.mapOutputs_acquireLevel (s : State) (g : OutputEntry → OutputEntry) : (s.mapOutputs g).acquireLevel = s.acquireLevel := rfl

@[simp] theorem State.withListed_listed (s : State) (l : List SweepRecord) : (s.withListed l).listed = l := rfl
@[simp] theorem State.withListed_nextId (s : State) (l : List SweepRecord) : (s.withListed l).sweeps.nextId = s.sweeps.nextId := rfl
@[simp] theorem State.withCtx_openOrder (s : State) (j : Fin 4) (c : Context) : (s.withCtx j c).stack.openOrder = s.stack.openOrder := rfl
@[simp] theorem State.mapOutputs_inputs (s : State) (g : OutputEntry → OutputEntry) : (s.mapOutputs g).router.inputs = s.router.inputs := rfl
@[simp] theorem State.mapOutputs_pins (s : State) (g : OutputEntry → OutputEntry) : (s.mapOutputs g).router.pins = s.router.pins := rfl
@[simp] theorem State.mapOutputs_outputs (s : State) (g : OutputEntry → OutputEntry) :
    (s.mapOutputs g).router.outputs = mapFour g s.router.outputs := rfl

/-! ### Reading the tables back -/

@[simp] theorem State.slot_withSlot (s : State) (i : Fin 8) (p : PilotSlot) : (s.withSlot i p).slot i = p := by
  simp [State.withSlot, State.slot]

theorem State.slot_withSlot_ne (s : State) {i j : Fin 8} (h : j ≠ i) (p : PilotSlot) : (s.withSlot i p).slot j = s.slot j := by
  have : i.val ≠ j.val := fun e => h (Fin.ext e.symm)
  simp [State.withSlot, State.slot, Vector.getElem_set_ne, this]

@[simp] theorem State.fleet_withFleet (s : State) (i : Fin 4) (r : FleetRecord) : (s.withFleet i r).fleet i = r := by
  simp [State.withFleet, State.fleet]

theorem State.fleet_withFleet_ne (s : State) {i j : Fin 4} (h : j ≠ i) (r : FleetRecord) :
    (s.withFleet i r).fleet j = s.fleet j := by
  have : i.val ≠ j.val := fun e => h (Fin.ext e.symm)
  simp [State.withFleet, State.fleet, Vector.getElem_set_ne, this]

@[simp] theorem State.ctx_withCtx (s : State) (i : Fin 4) (c : Context) : (s.withCtx i c).ctx i = c := by
  simp [State.withCtx, State.ctx]

theorem State.ctx_withCtx_ne (s : State) {i j : Fin 4} (h : j ≠ i) (c : Context) : (s.withCtx i c).ctx j = s.ctx j := by
  have : i.val ≠ j.val := fun e => h (Fin.ext e.symm)
  simp [State.withCtx, State.ctx, Vector.getElem_set_ne, this]

theorem State.ctx_withCtx_cases (s : State) (i j : Fin 4) (c : Context) :
    (s.withCtx i c).ctx j = if j = i then c else s.ctx j := by
  split
  · next h => subst h; simp
  · next h => exact s.ctx_withCtx_ne h c

end Sys2Proof.Machine
end

