-- ==== Sys2Proof/Laws/Ops.lean ====
section
/-! SUPPORT. What the shared operations can do, said once: the event router's deliveries, the notice queue, the reports, the taking of a
request, the readiness test and the list's changes. -/

namespace Sys2Proof.Machine

/-! ### Only the link and the lines -/

theorem OnlyLinkLines.refl (s : State) : OnlyLinkLines s s := rfl

theorem OnlyLinkLines.trans {s t u : State} (h : OnlyLinkLines s t) (k : OnlyLinkLines t u) : OnlyLinkLines s u := by
  unfold OnlyLinkLines at *
  rw [k, h]

theorem OnlyLinkLines.ring {s t : State} (h : OnlyLinkLines s t) : t.ring = s.ring := by rw [h]
theorem OnlyLinkLines.pilots {s t : State} (h : OnlyLinkLines s t) : t.pilots = s.pilots := by rw [h]
theorem OnlyLinkLines.time {s t : State} (h : OnlyLinkLines s t) : t.time = s.time := by rw [h]
theorem OnlyLinkLines.fleets {s t : State} (h : OnlyLinkLines s t) : t.fleets = s.fleets := by rw [h]
theorem OnlyLinkLines.sweeps {s t : State} (h : OnlyLinkLines s t) : t.sweeps = s.sweeps := by rw [h]
theorem OnlyLinkLines.engine {s t : State} (h : OnlyLinkLines s t) : t.engine = s.engine := by rw [h]
theorem OnlyLinkLines.stack {s t : State} (h : OnlyLinkLines s t) : t.stack = s.stack := by rw [h]
theorem OnlyLinkLines.emitter {s t : State} (h : OnlyLinkLines s t) : t.emitter = s.emitter := by rw [h]
theorem OnlyLinkLines.mode {s t : State} (h : OnlyLinkLines s t) : t.mode = s.mode := by rw [h]
theorem OnlyLinkLines.checkHit {s t : State} (h : OnlyLinkLines s t) : t.checkHit = s.checkHit := by rw [h]
theorem OnlyLinkLines.pending {s t : State} (h : OnlyLinkLines s t) : t.pending = s.pending := by rw [h]
theorem OnlyLinkLines.inputs {s t : State} (h : OnlyLinkLines s t) : t.router.inputs = s.router.inputs := by rw [h]
theorem OnlyLinkLines.pins {s t : State} (h : OnlyLinkLines s t) : t.router.pins = s.router.pins := by rw [h]
theorem OnlyLinkLines.listed {s t : State} (h : OnlyLinkLines s t) : t.listed = s.listed := congrArg SweepList.recs h.sweeps
theorem OnlyLinkLines.ctx {s t : State} (h : OnlyLinkLines s t) (i : Fin 4) : t.ctx i = s.ctx i := by
  simp only [State.ctx, h.stack]
theorem OnlyLinkLines.slot {s t : State} (h : OnlyLinkLines s t) (i : Fin 8) : t.slot i = s.slot i := by
  simp only [State.slot, h.pilots]
theorem OnlyLinkLines.fleet {s t : State} (h : OnlyLinkLines s t) (i : Fin 4) : t.fleet i = s.fleet i := by
  simp only [State.fleet, h.fleets]

/-- The fields an `OnlyLinkLines` needs, one by one. -/
theorem OnlyLinkLines.of_fields {s t : State} (h1 : t.ring = s.ring) (h2 : t.pilots = s.pilots) (h3 : t.time = s.time)
    (h4 : t.router.inputs = s.router.inputs) (h5 : t.router.pins = s.router.pins) (h6 : t.fleets = s.fleets)
    (h7 : t.sweeps = s.sweeps) (h8 : t.engine = s.engine) (h9 : t.stack = s.stack) (h10 : t.emitter = s.emitter)
    (h11 : t.mode = s.mode) (h12 : t.checkHit = s.checkHit) (h13 : t.pending = s.pending) : OnlyLinkLines s t := by
  obtain ⟨a, b, c, ⟨r1, r2, r3⟩, e, f, g, h, i, j, k, l, m⟩ := t
  simp only at *
  subst h1 h2 h3 h4 h5 h6 h7 h8 h9 h10 h11 h12 h13
  rfl

theorem mapOutputs_only (g : OutputEntry → OutputEntry) (s : State) : OnlyLinkLines s (s.mapOutputs g) := rfl
theorem raiseEvent_only (src : Source) (s : State) : OnlyLinkLines s (raiseEvent src s) := rfl
theorem raiseLevel_only (src : Source) (s : State) : OnlyLinkLines s (raiseLevel src s) := rfl
theorem dropLevel_only (src : Source) (s : State) : OnlyLinkLines s (dropLevel src s) := rfl
theorem withLink_only (l : HostLink) (s : State) : OnlyLinkLines s (s.withLink l) := rfl

@[simp] theorem raiseEvent_link (src : Source) (s : State) : (raiseEvent src s).link = s.link := rfl
@[simp] theorem raiseLevel_link (src : Source) (s : State) : (raiseLevel src s).link = s.link := rfl
@[simp] theorem dropLevel_link (src : Source) (s : State) : (dropLevel src s).link = s.link := rfl

/-! ### Routes and lines -/

theorem RoutesKept.refl (s : State) : RoutesKept s s := fun _ => ⟨rfl, rfl, rfl, rfl⟩

theorem RoutesKept.trans {s t u : State} (h : RoutesKept s t) (k : RoutesKept t u) : RoutesKept s u := fun i =>
  ⟨(k i).1.trans (h i).1, (k i).2.1.trans (h i).2.1, (k i).2.2.1.trans (h i).2.2.1, (k i).2.2.2.trans (h i).2.2.2⟩

theorem RoutesKept.of_outputs {s t : State} (h : t.router.outputs = s.router.outputs) : RoutesKept s t := fun i => by
  rw [h]; exact ⟨rfl, rfl, rfl, rfl⟩

theorem LinesFollow.of_outputs {srcs : List Source} {s t : State} (h : t.router.outputs = s.router.outputs) :
    LinesFollow srcs s t := ⟨fun i _ => by rw [h], .of_outputs h⟩

theorem LinesFollow.refl (srcs : List Source) (s : State) : LinesFollow srcs s s := .of_outputs rfl

theorem LinesFollow.trans {srcs : List Source} {s t u : State} (h : LinesFollow srcs s t) (k : LinesFollow srcs t u) :
    LinesFollow srcs s u :=
  ⟨fun i hi => (k.1 i (by rw [(h.2 i).1]; exact hi)).trans (h.1 i hi), h.2.trans k.2⟩

theorem LinesFollow.mono {as bs : List Source} (sub : ∀ x ∈ as, x ∈ bs) {s t : State} (h : LinesFollow as s t) :
    LinesFollow bs s t := ⟨fun i hi => h.1 i fun hm => hi (sub _ hm), h.2⟩

theorem LinesFollow.link_left {srcs : List Source} {s t : State} {l : HostLink} (h : LinesFollow srcs (s.withLink l) t) :
    LinesFollow srcs s t := h

theorem outputEvent_route (e : OutputEntry) : (outputEvent e).source = e.source ∧ (outputEvent e).form = e.form ∧
    (outputEvent e).width = e.width ∧ (outputEvent e).polarity = e.polarity := by
  unfold outputEvent; split <;> exact ⟨rfl, rfl, rfl, rfl⟩
theorem outputRise_route (e : OutputEntry) : (outputRise e).source = e.source ∧ (outputRise e).form = e.form ∧
    (outputRise e).width = e.width ∧ (outputRise e).polarity = e.polarity := by
  unfold outputRise; split <;> exact ⟨rfl, rfl, rfl, rfl⟩
theorem outputFall_route (e : OutputEntry) : (outputFall e).source = e.source ∧ (outputFall e).form = e.form ∧
    (outputFall e).width = e.width ∧ (outputFall e).polarity = e.polarity := by
  unfold outputFall; split <;> exact ⟨rfl, rfl, rfl, rfl⟩
theorem outputTick_route (e : OutputEntry) : (outputTick e).source = e.source ∧ (outputTick e).form = e.form ∧
    (outputTick e).width = e.width ∧ (outputTick e).polarity = e.polarity := by
  unfold outputTick; split <;> [skip; split] <;> exact ⟨rfl, rfl, rfl, rfl⟩

theorem mapOutputs_follow (src : Source) (g : OutputEntry → OutputEntry)
    (hg : ∀ e : OutputEntry, (g e).source = e.source ∧ (g e).form = e.form ∧ (g e).width = e.width ∧ (g e).polarity = e.polarity)
    (s : State) : LinesFollow [src] s (s.mapOutputs fun e => if e.source = src then g e else e) := by
  refine ⟨fun i hi => ?_, fun i => ?_⟩
  · have : s.router.outputs[i.val].source ≠ src := fun e => hi (by simp [e])
    simp [this]
  · by_cases h : s.router.outputs[i.val].source = src
    · simpa [h] using hg s.router.outputs[i.val]
    · simp [h]

/-- A pulse source's event changes only the lines that follow it, by R55's table. -/
theorem raiseEvent_follow (src : Source) (s : State) : LinesFollow [src] s (raiseEvent src s) :=
  mapOutputs_follow src _ outputEvent_route s
theorem raiseLevel_follow (src : Source) (s : State) : LinesFollow [src] s (raiseLevel src s) :=
  mapOutputs_follow src _ outputRise_route s
theorem dropLevel_follow (src : Source) (s : State) : LinesFollow [src] s (dropLevel src s) :=
  mapOutputs_follow src _ outputFall_route s

theorem raiseEvent_outputs (src : Source) (s : State) (i : Fin 4) :
    (raiseEvent src s).router.outputs[i.val] =
      if s.router.outputs[i.val].source = src then outputEvent s.router.outputs[i.val] else s.router.outputs[i.val] := by
  simp [raiseEvent]
theorem raiseLevel_outputs (src : Source) (s : State) (i : Fin 4) :
    (raiseLevel src s).router.outputs[i.val] =
      if s.router.outputs[i.val].source = src then outputRise s.router.outputs[i.val] else s.router.outputs[i.val] := by
  simp [raiseLevel]
theorem dropLevel_outputs (src : Source) (s : State) (i : Fin 4) :
    (dropLevel src s).router.outputs[i.val] =
      if s.router.outputs[i.val].source = src then outputFall s.router.outputs[i.val] else s.router.outputs[i.val] := by
  simp [dropLevel]

/-! ### The lines by their forms -/

theorem outputEvent_eq (e : OutputEntry) : outputEvent e = eventLine e := by
  obtain ⟨a, f, w, p, x, n⟩ := e; cases f <;> rfl
theorem outputRise_eq (e : OutputEntry) : outputRise e = riseLine e := by
  obtain ⟨a, f, w, p, x, n⟩ := e; cases f <;> rfl
theorem outputFall_eq (e : OutputEntry) : outputFall e = fallLine e := by
  obtain ⟨a, f, w, p, x, n⟩ := e; cases f <;> rfl

theorem raiseEvent_raised (src : Source) (s : State) : Raised src s (raiseEvent src s) :=
  ⟨rfl, fun i => by rw [raiseEvent_outputs, outputEvent_eq]⟩
theorem raiseLevel_rose (src : Source) (s : State) : Rose src s (raiseLevel src s) :=
  ⟨rfl, fun i => by rw [raiseLevel_outputs, outputRise_eq]⟩
theorem dropLevel_fell (src : Source) (s : State) : Fell src s (dropLevel src s) :=
  ⟨rfl, fun i => by rw [dropLevel_outputs, outputFall_eq]⟩

/-! ### The notice queue -/

theorem lineFree_iff (s : State) : s.lineFree = true ↔ LineFree s := by
  simp [State.lineFree, LineFree, and_assoc]

/-- Whether the line is free is read off the link's message, the mode, the mark and the hold. -/
theorem lineFree_congr {s t : State} (h1 : t.mode.held = s.mode.held) (h2 : t.checkHit = s.checkHit) (h3 : t.link.tx = s.link.tx)
    (h4 : t.transmitHold = s.transmitHold) : t.lineFree = s.lineFree := by
  simp only [State.lineFree, h1, h2, h3, h4]

theorem transmitHold_congr {s t : State} (h1 : t.router.inputs = s.router.inputs) (h2 : t.router.pins = s.router.pins) :
    t.transmitHold = s.transmitHold := by simp only [State.transmitHold, h1, h2]

theorem OnlyLinkLines.transmitHold {s t : State} (h : OnlyLinkLines s t) : t.transmitHold = s.transmitHold :=
  transmitHold_congr h.inputs h.pins

@[simp] theorem State.withRing_transmitHold (s : State) (r : Ring) : (s.withRing r).transmitHold = s.transmitHold := rfl
@[simp] theorem State.withPilots_transmitHold (s : State) (p : Vector PilotSlot 8) : (s.withPilots p).transmitHold = s.transmitHold :=
  rfl
@[simp] theorem State.withTime_transmitHold (s : State) (r : Timebase) : (s.withTime r).transmitHold = s.transmitHold := rfl
@[simp] theorem State.withFleets_transmitHold (s : State) (f : Vector FleetRecord 4) :
    (s.withFleets f).transmitHold = s.transmitHold := rfl
@[simp] theorem State.withSweeps_transmitHold (s : State) (l : SweepList) : (s.withSweeps l).transmitHold = s.transmitHold := rfl
@[simp] theorem State.withEngine_transmitHold (s : State) (e : Engine) : (s.withEngine e).transmitHold = s.transmitHold := rfl
@[simp] theorem State.withStack_transmitHold (s : State) (k : StackStore) : (s.withStack k).transmitHold = s.transmitHold := rfl
@[simp] theorem State.withEmitter_transmitHold (s : State) (e : Emitter) : (s.withEmitter e).transmitHold = s.transmitHold := rfl
@[simp] theorem State.withLink_transmitHold (s : State) (l : HostLink) : (s.withLink l).transmitHold = s.transmitHold := rfl
@[simp] theorem State.withMode_transmitHold (s : State) (m : ModeControl) : (s.withMode m).transmitHold = s.transmitHold := rfl
@[simp] theorem State.withCheckHit_transmitHold (s : State) (b : Bool) : (s.withCheckHit b).transmitHold = s.transmitHold := rfl

/-- A link with an entry joined depends on the mode, the mark and the hold alone. -/
theorem joined_congr {s t : State} (h1 : t.mode.held = s.mode.held) (h2 : t.checkHit = s.checkHit)
    (h4 : t.transmitHold = s.transmitHold) (n : Notice) (l : HostLink) : joined t n l = joined s n l := by
  simp only [joined, h1, h2, h4]
theorem OnlyLinkLines.joined {s t : State} (h : OnlyLinkLines s t) (n : Notice) (l : HostLink) :
    Sys2Proof.Machine.joined t n l = Sys2Proof.Machine.joined s n l :=
  joined_congr (by rw [h.mode]) h.checkHit h.transmitHold n l

/-- What joining leaves of the link. -/
theorem joined_frame (s : State) (n : Notice) (l : HostLink) :
    joined s n l = { l with notices := (joined s n l).notices, tx := (joined s n l).tx } := by unfold joined; split <;> rfl
theorem joined_notices (s : State) (n : Notice) (l : HostLink) :
    (joined s n l).notices = [] ∧ l.notices = [] ∨ (joined s n l).notices = l.notices ++ [n] := by
  unfold joined
  split
  · next h => exact .inl ⟨h.2.2.2.2, h.2.2.2.2⟩
  · exact .inr rfl
theorem joined_length (s : State) (n : Notice) (l : HostLink) :
    l.notices.length ≤ (joined s n l).notices.length ∧ (joined s n l).notices.length ≤ l.notices.length + 1 := by
  rcases joined_notices s n l with ⟨h, h'⟩ | h
  · simp [h, h']
  · simp [h]
/-- Behind another entry an entry joins the tail. -/
theorem joined_behind (s : State) (n : Notice) {l : HostLink} (h : l.notices ≠ []) :
    joined s n l = { l with notices := l.notices ++ [n] } := if_neg fun k => h k.2.2.2.2

theorem placeNotice_only (n : Notice) (s : State) : OnlyLinkLines s (placeNotice n s) := by
  unfold placeNotice; split
  · rfl
  · simp only; split <;> rfl

@[simp] theorem placeNotice_link (n : Notice) (s : State) : (placeNotice n s).link = joined s n s.link := by
  unfold placeNotice joined
  have e : (s.mode.held = false ∧ s.checkHit = false ∧ s.transmitHold = false ∧ s.link.tx = none ∧ s.link.notices = []) ↔
      (s.lineFree = true ∧ s.link.notices = []) := by rw [lineFree_iff]; unfold LineFree; tauto
  simp only [e]
  split
  · rfl
  · split <;> rfl

theorem placeNotice_follow (n : Notice) (s : State) : LinesFollow [.noticeHigh] s (placeNotice n s) := by
  unfold placeNotice
  split
  · exact .of_outputs rfl
  · simp only
    split
    · exact raiseLevel_follow .noticeHigh (s.withLink { s.link with notices := s.link.notices ++ [n] })
    · exact .of_outputs rfl

/-- A placement that does not bring the queue to 48 entries leaves every line. -/
theorem placeNotice_outputs (n : Notice) (s : State) (h : s.link.notices.length ≠ 47) :
    (placeNotice n s).router = s.router := by
  unfold placeNotice
  split
  · rfl
  · simp only
    rw [if_neg (by unfold Config.noticeHigh; omega)]
    rfl

/-- A placement, by R148 and R152. -/
theorem placeNotice_placed (n : Notice) (s : State) : Placed n s (placeNotice n s) := by
  unfold placeNotice Placed
  by_cases h : LineFree s ∧ s.link.notices = []
  · exact .inl ⟨h.1, h.2, by rw [if_pos ⟨(lineFree_iff s).mpr h.1, h.2⟩]⟩
  · refine .inr ⟨h, ?_⟩
    have e : ¬ (s.lineFree = true ∧ s.link.notices = []) := by rw [lineFree_iff]; exact h
    simp only [e, if_false, Config.noticeHigh]
    by_cases h' : s.link.notices.length = 47
    · simp only [h', if_true]
      exact raiseLevel_rose .noticeHigh (s.withLink { s.link with notices := s.link.notices ++ [n] })
    · have h'' : ¬ s.link.notices.length + 1 = 48 := by omega
      simp only [h', h'', if_false]

@[simp] theorem departNotice_link (s : State) : (departNotice s).link = { s.link with notices := s.link.notices.tail } := by
  unfold departNotice; split <;> rfl
theorem departNotice_only (s : State) : OnlyLinkLines s (departNotice s) := by unfold departNotice; split <;> rfl
theorem departNotice_follow (s : State) : LinesFollow [.noticeHigh] s (departNotice s) := by
  unfold departNotice
  split
  · exact dropLevel_follow .noticeHigh (s.withLink { s.link with notices := s.link.notices.tail })
  · exact .of_outputs rfl

theorem placeReply_only (f : RxFrame) (st : Status) (c : List Byte) (s : State) : OnlyLinkLines s (placeReply f st c s) :=
  placeNotice_only _ s
theorem placeReply_follow (f : RxFrame) (st : Status) (c : List Byte) (s : State) :
    LinesFollow [.noticeHigh] s (placeReply f st c s) := placeNotice_follow _ s
@[simp] theorem placeReply_link (f : RxFrame) (st : Status) (c : List Byte) (s : State) :
    (placeReply f st c s).link = joined s (.reply f.kind f.tag st c) s.link := placeNotice_link _ s
theorem placeReply_replied (f : RxFrame) (st : Status) (c : List Byte) (s : State) : Replied f st c s (placeReply f st c s) :=
  placeNotice_placed _ s

/-! ### Reports -/

theorem admitReport_only (r : Report) (s : State) : OnlyLinkLines s (admitReport r s) := by
  unfold admitReport; split
  · exact placeNotice_only _ s
  · exact rfl
theorem admitReport_follow (r : Report) (s : State) : LinesFollow [.noticeHigh] s (admitReport r s) := by
  unfold admitReport; split
  · exact placeNotice_follow _ s
  · exact .of_outputs rfl

theorem offerReport_only (r : Report) (s : State) : OnlyLinkLines s (offerReport r s) := by
  unfold offerReport
  split
  · rfl
  · split
    · rfl
    · split
      · exact placeNotice_only _ s
      · exact ((placeNotice_only _ s).trans (withLink_only _ _)).trans (admitReport_only _ _)

theorem offerReport_follow (r : Report) (s : State) : LinesFollow [.noticeHigh] s (offerReport r s) := by
  unfold offerReport
  split
  · exact .refl _ _
  · split
    · exact .of_outputs rfl
    · split
      · exact placeNotice_follow _ s
      · exact (placeNotice_follow _ s).trans (admitReport_follow r
          ((placeNotice (.report 0 (.reportsLost s.link.lost)) s).withLink _)).link_left

/-- An offered report, by R149 to R151. -/
theorem offerReport_offered (r : Report) (s : State) : Offered r s (offerReport r s) := by
  unfold offerReport Offered
  have he : s.mode.params.mask.getLsbD (reportIndex r) = s.enabled (reportIndex r) := rfl
  rw [he]
  cases s.enabled (reportIndex r)
  · exact .inl ⟨rfl, rfl⟩
  · simp only [Config.reportLimit]
    refine .inr ?_
    by_cases h56 : 56 ≤ s.link.notices.length
    · exact .inl ⟨trivial, h56, by simp [h56, loseReport]⟩
    · refine .inr ?_
      simp only [Bool.true_eq_false, if_false, h56]
      by_cases h0 : s.link.lost = 0
      · exact .inl ⟨trivial, by omega, h0, by simp only [h0, if_true]; exact placeNotice_placed _ _⟩
      · refine .inr ⟨trivial, by omega, h0, placeNotice (.report 0 (.reportsLost s.link.lost)) s, placeNotice_placed _ _, ?_⟩
        simp only [h0, if_false]
        generalize hv : (placeNotice (.report 0 (.reportsLost s.link.lost)) s).withLink _ = v
        have hv0 : v.link.lost = 0 := by rw [← hv]; rfl
        unfold admitReport
        by_cases h : 56 ≤ v.link.notices.length
        · have h' : ¬ v.link.notices.length < 56 := by omega
          simp only [h, if_true, Config.reportLimit, h', if_false, loseReport, hv0]
          rfl
        · have h' : v.link.notices.length < 56 := by omega
          simp only [h, if_false, Config.reportLimit, h', if_true]
          exact placeNotice_placed _ _

/-! ### What the relations leave -/

/-- Lines that become other lines: nothing else differs but the lines that follow the source. -/
theorem LinesBecome.only {g : OutputEntry → OutputEntry} {src : Source} {s t : State}
    (hg : ∀ e : OutputEntry, (g e).source = e.source ∧ (g e).form = e.form ∧ (g e).width = e.width ∧ (g e).polarity = e.polarity)
    (h : LinesBecome g src s t) : OnlyLinkLines s t ∧ t.link = s.link ∧ LinesFollow [src] s t := by
  obtain ⟨h1, h2⟩ := h
  have hl : t.link = s.link := by rw [h1]
  refine ⟨by unfold OnlyLinkLines; rw [hl]; exact h1, hl, fun i hi => ?_, fun i => ?_⟩
  · rw [h2, if_neg (by simpa using hi)]
  · rw [h2]; split
    · exact hg _
    · exact ⟨rfl, rfl, rfl, rfl⟩

theorem Raised.only {src : Source} {s t : State} (h : Raised src s t) : OnlyLinkLines s t ∧ t.link = s.link ∧ LinesFollow [src] s t :=
  LinesBecome.only (g := eventLine) (fun _ => ⟨rfl, rfl, rfl, rfl⟩) h
theorem Rose.only {src : Source} {s t : State} (h : Rose src s t) : OnlyLinkLines s t ∧ t.link = s.link ∧ LinesFollow [src] s t :=
  LinesBecome.only (g := riseLine) (fun _ => ⟨rfl, rfl, rfl, rfl⟩) h
theorem Fell.only {src : Source} {s t : State} (h : Fell src s t) : OnlyLinkLines s t ∧ t.link = s.link ∧ LinesFollow [src] s t :=
  LinesBecome.only (g := fallLine) (fun _ => ⟨rfl, rfl, rfl, rfl⟩) h

/-- A placement changes nothing but the link and the lines that follow NOTICE HIGH. -/
theorem Placed.only {n : Notice} {s t : State} (h : Placed n s t) : OnlyLinkLines s t ∧ LinesFollow [.noticeHigh] s t := by
  rcases h with ⟨-, -, rfl⟩ | ⟨-, h⟩
  · exact ⟨rfl, .of_outputs rfl⟩
  · simp only at h
    split at h
    · obtain ⟨h1, -, h3⟩ := h.only
      exact ⟨(withLink_only _ _).trans h1, h3.link_left⟩
    · subst h; exact ⟨rfl, .of_outputs rfl⟩

/-- An offered report changes nothing but the link and the lines that follow NOTICE HIGH. -/
theorem Offered.only {r : Report} {s t : State} (h : Offered r s t) : OnlyLinkLines s t ∧ LinesFollow [.noticeHigh] s t := by
  rcases h with ⟨-, rfl⟩ | ⟨-, -, rfl⟩ | ⟨-, -, -, h⟩ | ⟨-, -, -, u, h, k⟩
  · exact ⟨.refl _, .refl _ _⟩
  · exact ⟨rfl, .of_outputs rfl⟩
  · exact h.only
  · simp only at k
    split at k
    · subst k; exact ⟨h.only.1.trans rfl, h.only.2.trans (.of_outputs rfl)⟩
    · exact ⟨(h.only.1.trans (withLink_only _ _)).trans k.only.1, h.only.2.trans k.only.2.link_left⟩

/-- VP DONE changes nothing but the link and the lines that follow it or NOTICE HIGH. -/
theorem VpDone.only {i : Fin 4} {n : Nat} {s t : State} (h : VpDone i n s t) :
    OnlyLinkLines s t ∧ LinesFollow [.vpDone, .noticeHigh] s t := by
  obtain ⟨u, h1, h2⟩ := h
  exact ⟨h1.only.1.trans h2.only.1, (h1.only.2.mono (by simp)).trans (h2.only.2.2.mono (by simp))⟩

/-- What an offered report can do to the link: nothing (disabled), one more lost, the report placed, or REPORTS LOST placed and the
report behind it or lost (R149 to R151). -/
theorem offerReport_cases (r : Report) (s : State) :
    (s.enabled (reportIndex r) = false ∧ (offerReport r s).link = s.link) ∨
    (s.enabled (reportIndex r) = true ∧ 56 ≤ s.link.notices.length ∧
      (offerReport r s).link = { s.link with lost := min 65535 (s.link.lost + 1) }) ∨
    (s.enabled (reportIndex r) = true ∧ s.link.notices.length < 56 ∧ s.link.lost = 0 ∧
      (offerReport r s).link = joined s (.report 0 r) s.link) ∨
    (s.enabled (reportIndex r) = true ∧ s.link.notices.length < 55 ∧ s.link.lost ≠ 0 ∧
      (offerReport r s).link =
        joined s (.report 0 r) { joined s (.report 0 (.reportsLost s.link.lost)) s.link with lost := 0 }) ∨
    (s.enabled (reportIndex r) = true ∧ s.link.notices.length = 55 ∧ s.link.lost ≠ 0 ∧
      (offerReport r s).link =
        { s.link with notices := s.link.notices ++ [.report 0 (.reportsLost s.link.lost)], lost := 1 }) := by
  unfold offerReport
  cases he : s.enabled (reportIndex r)
  · simp
  · simp only [Config.reportLimit]
    by_cases h56 : 56 ≤ s.link.notices.length
    · exact .inr (.inl ⟨trivial, h56, by simp [h56, loseReport]⟩)
    · by_cases h0 : s.link.lost = 0
      · exact .inr (.inr (.inl ⟨trivial, by omega, h0, by simp [h56, h0]⟩))
      · simp only [Bool.true_eq_false, if_false, h56, h0]
        by_cases h55 : s.link.notices.length = 55
        · refine .inr (.inr (.inr (.inr ⟨trivial, h55, h0, ?_⟩)))
          have hne : s.link.notices ≠ [] := fun e => by simp [e] at h55
          simp [admitReport, Config.reportLimit, loseReport, joined_behind s _ hne, h55]
        · refine .inr (.inr (.inr (.inl ⟨trivial, by omega, h0, ?_⟩)))
          have hlt : (joined s (.report 0 (.reportsLost s.link.lost)) s.link).notices.length < 56 := by
            have := (joined_length s (.report 0 (.reportsLost s.link.lost)) s.link).2
            omega
          simp only [admitReport, Config.reportLimit, State.withLink_link, placeNotice_link, hlt, if_true]
          exact joined_congr (by rw [State.withLink_mode, (placeNotice_only _ _).mode])
            (by rw [State.withLink_checkHit, (placeNotice_only _ _).checkHit])
            (by rw [State.withLink_transmitHold, (placeNotice_only _ _).transmitHold]) _ _

/-- What an offered report leaves of the link, and how far it fills the queue: all but the queue, the message in transmission and the lost
count is as it was, and reports never bring the queue above 56 entries (R148). -/
theorem offerReport_keeps (r : Report) (s : State) :
    (offerReport r s).link = { s.link with notices := (offerReport r s).link.notices, lost := (offerReport r s).link.lost
                                           tx := (offerReport r s).link.tx } ∧
    s.link.notices.length ≤ (offerReport r s).link.notices.length ∧
    (offerReport r s).link.notices.length ≤ max s.link.notices.length 56 := by
  rcases offerReport_cases r s with ⟨-, h⟩ | ⟨-, -, h⟩ | ⟨-, hl, -, h⟩ | ⟨-, hl, -, h⟩ | ⟨-, hl, -, h⟩ <;> rw [h]
  · exact ⟨rfl, by omega, by omega⟩
  · exact ⟨rfl, by simp only; omega, by simp only; omega⟩
  · have h1 := joined_length s (.report 0 r) s.link
    have h2 := joined_frame s (.report 0 r) s.link
    generalize joined s (.report 0 r) s.link = a at h1 h2
    exact ⟨by rw [h2], by omega, by omega⟩
  · have h1 := joined_length s (.report 0 (.reportsLost s.link.lost)) s.link
    have h2 := joined_frame s (.report 0 (.reportsLost s.link.lost)) s.link
    generalize joined s (.report 0 (.reportsLost s.link.lost)) s.link = a at h1 h2
    have h3 := joined_length s (.report 0 r) { a with lost := 0 }
    have h4 := joined_frame s (.report 0 r) { a with lost := 0 }
    have e : ({ a with lost := 0 } : HostLink).notices = a.notices := rfl
    rw [e] at h3
    refine ⟨?_, show s.link.notices.length ≤ (joined s (.report 0 r) { a with lost := 0 }).notices.length by omega,
      show (joined s (.report 0 r) { a with lost := 0 }).notices.length ≤ _ by omega⟩
    show joined s (.report 0 r) { a with lost := 0 } = _
    generalize joined s (.report 0 r) { a with lost := 0 } = b at h4
    rw [h4, h2]
  · exact ⟨rfl, by simp, by simp; omega⟩

/-- Reports never bring the queue above 56 entries (R148). -/
theorem offerReport_length (r : Report) (s : State) :
    s.link.notices.length ≤ (offerReport r s).link.notices.length ∧
    (offerReport r s).link.notices.length ≤ max s.link.notices.length 56 := (offerReport_keeps r s).2

/-- An offered report leaves all of the link but the queue, the message in transmission and the lost count. -/
theorem offerReport_link_frame (r : Report) (s : State) : (offerReport r s).link =
    { s.link with notices := (offerReport r s).link.notices, lost := (offerReport r s).link.lost
                  tx := (offerReport r s).link.tx } := (offerReport_keeps r s).1

/-- Two states treat an offered report alike, their links apart: same mask, and the same that lets the line start a message. -/
def SendsAlike (s t : State) : Prop :=
  t.mode.params.mask = s.mode.params.mask ∧ t.mode.held = s.mode.held ∧ t.checkHit = s.checkHit ∧ t.transmitHold = s.transmitHold

theorem SendsAlike.refl (s : State) : SendsAlike s s := ⟨rfl, rfl, rfl, rfl⟩
theorem SendsAlike.trans {s t u : State} (h : SendsAlike s t) (k : SendsAlike t u) : SendsAlike s u :=
  ⟨k.1.trans h.1, k.2.1.trans h.2.1, k.2.2.1.trans h.2.2.1, k.2.2.2.trans h.2.2.2⟩
theorem SendsAlike.symm {s t : State} (h : SendsAlike s t) : SendsAlike t s := ⟨h.1.symm, h.2.1.symm, h.2.2.1.symm, h.2.2.2.symm⟩
theorem OnlyLinkLines.alike {s t : State} (h : OnlyLinkLines s t) : SendsAlike s t :=
  ⟨by rw [h.mode], by rw [h.mode], h.checkHit, h.transmitHold⟩

/-- The link after an offer depends on the link, the mask, and what lets the line start a message. -/
theorem offerReport_link_congr (r : Report) {s t : State} (hl : t.link = s.link) (ha : SendsAlike s t) :
    (offerReport r t).link = (offerReport r s).link := by
  obtain ⟨hm, h1, h2, h4⟩ := ha
  have he : t.enabled (reportIndex r) = s.enabled (reportIndex r) := by simp only [State.enabled, hm]
  have hj : ∀ n l, joined t n l = joined s n l := joined_congr h1 h2 h4
  rcases offerReport_cases r s with ⟨e, h⟩ | ⟨e, a, h⟩ | ⟨e, a, b, h⟩ | ⟨e, a, b, h⟩ | ⟨e, a, b, h⟩ <;>
  rcases offerReport_cases r t with ⟨e', h'⟩ | ⟨e', a', h'⟩ | ⟨e', a', b', h'⟩ | ⟨e', a', b', h'⟩ | ⟨e', a', b', h'⟩ <;>
  rw [h, h'] <;> rw [hl] at * <;>
    first | rfl | exact hj _ _ | (rw [hj, hj]; done) | (exfalso; rw [he] at e'; simp_all; done) | (exfalso; omega)

/-! ### Taking a request -/

@[simp] theorem markHit_false (s : State) : markHit false s = s := rfl
@[simp] theorem markHit_true (s : State) : markHit true s = s.withCheckHit true := rfl

theorem taken_eq (rest : List RxFrame) (s : State) : s.withLink (takenLink rest s) = taken rest s := rfl

theorem settle_clean {s : State} (h : s.checkHit = false) : settle s = s := by simp [settle, h]

/-- A request taken with a right body length: its block's handling runs on the state with the frame taken. -/
theorem takeRequest_taken {f : RxFrame} {rest : List RxFrame} {s : State} (h : Taken f rest s) (g : State → State)
    (hl : lengthAllowed f.kind f.body.length = some true) :
    takeRequest f g s = .next (settle (g (s.withLink (takenLink rest s)))) := by
  obtain ⟨h1, h2, h3⟩ := h
  simp [takeRequest, handle, h1, h2, h3, hl, Config.noticeCapacity, takenLink]

/-- A request taken with a wrong body length is answered LENGTH. -/
theorem takeRequest_length {f : RxFrame} {rest : List RxFrame} {s : State} (h : Taken f rest s) (g : State → State)
    (hl : lengthAllowed f.kind f.body.length = some false) :
    takeRequest f g s = .next (settle (placeReply f .length [] (s.withLink (takenLink rest s)))) := by
  obtain ⟨h1, h2, h3⟩ := h
  simp [takeRequest, handle, h1, h2, h3, hl, Config.noticeCapacity, takenLink]

/-- A request taken whose kind names none is answered KIND. -/
theorem takeRequest_kind {f : RxFrame} {rest : List RxFrame} {s : State} (h : Taken f rest s) (g : State → State)
    (hl : lengthAllowed f.kind f.body.length = none) :
    takeRequest f g s = .next (settle (placeReply f .kind [] (s.withLink (takenLink rest s)))) := by
  obtain ⟨h1, h2, h3⟩ := h
  simp [takeRequest, handle, h1, h2, h3, hl, Config.noticeCapacity, takenLink]

/-- A request that is not taken leaves a settled state as it is (R146). -/
theorem takeRequest_not_taken {f : RxFrame} {s : State} (g : State → State) (hc : s.checkHit = false)
    (h : ¬ ∃ rest, Taken f rest s) : takeRequest f g s = .next s := by
  unfold takeRequest handle
  cases hh : s.mode.held
  · simp only [Bool.false_eq_true, if_false]
    cases hb : s.link.rxBuf with
    | nil => simp [settle_clean hc]
    | cons x rest =>
      have : ¬ (x = f ∧ s.link.notices.length < Config.noticeCapacity) := by
        rintro ⟨rfl, hn⟩
        exact h ⟨rest, hh, hb, hn⟩
      simp [this, settle_clean hc]
  · simp

/-- The answered-only reply: a taken request whose block only places a reply. -/
theorem answeredOnly_reply (f : RxFrame) (rest : List RxFrame) (st : Status) (c : List Byte) (s : State) :
    AnsweredOnly f rest st c s (placeReply f st c (s.withLink (takenLink rest s))) :=
  ⟨by rw [Answered, placeReply_link, (placeReply_only _ _ _ _).joined]; rfl,
    (withLink_only _ s).trans (placeReply_only _ _ _ _), (placeReply_follow f st c _).link_left⟩

/-- A handled event on a settled part that is not held. -/
theorem handle_next {s : State} (g : State → State) (hh : s.mode.held = false) (hc : (g s).checkHit = false) :
    handle g s = .next (g s) := by
  simp [handle, hh, settle_clean hc]

/-- A handled event whose handling is known, on a part that is not held. -/
theorem handle_eq {s t : State} {g : State → State} (hh : s.mode.held = false) (e : g s = t) (hc : t.checkHit = false) :
    handle g s = .next t := by
  subst e; exact handle_next g hh hc

/-! ### The sweep list -/

theorem insertSweep_mem {r x : SweepRecord} {l : List SweepRecord} : x ∈ insertSweep r l ↔ x = r ∨ x ∈ l := by
  induction l with
  | nil => simp [insertSweep]
  | cons q l ih =>
    simp only [insertSweep]
    split
    · simp
    · simp [ih]; tauto

theorem insertSweep_length (r : SweepRecord) (l : List SweepRecord) : (insertSweep r l).length = l.length + 1 := by
  induction l with
  | nil => rfl
  | cons q l ih => simp only [insertSweep]; split <;> simp [ih]

/-- A record goes in behind every record whose T0 is at most its own (R68). -/
theorem insertSweep_sorted {r : SweepRecord} {l : List SweepRecord} (h : l.Pairwise fun a b => a.t0.toNat ≤ b.t0.toNat) :
    (insertSweep r l).Pairwise fun a b => a.t0.toNat ≤ b.t0.toNat := by
  induction l with
  | nil => simp [insertSweep]
  | cons q l ih =>
    have h' := List.pairwise_cons.mp h
    simp only [insertSweep]
    split
    · next hlt =>
      refine List.pairwise_cons.mpr ⟨?_, h⟩
      intro x hx
      rcases List.mem_cons.mp hx with rfl | hx
      · exact Nat.le_of_lt hlt
      · exact Nat.le_trans (Nat.le_of_lt hlt) (h'.1 x hx)
    · next hge =>
      refine List.pairwise_cons.mpr ⟨?_, ih h'.2⟩
      intro x hx
      rcases insertSweep_mem.mp hx with rfl | hx
      · exact Nat.le_of_not_lt hge
      · exact h'.1 x hx

theorem readied_id (s : State) (r : SweepRecord) : (readied s r).id = r.id := by unfold readied; split <;> rfl
theorem readied_t0 (s : State) (r : SweepRecord) : (readied s r).t0 = r.t0 := by unfold readied; split <;> rfl
theorem readied_ctx (s : State) (r : SweepRecord) : (readied s r).ctx = r.ctx := by unfold readied; split <;> rfl
theorem readied_checkBad (s : State) (r : SweepRecord) : (readied s r).checkBad = r.checkBad := by unfold readied; split <;> rfl

/-! ### Reading the tables -/

theorem mem_ctxOrder (i : Fin 4) : i ∈ ctxOrder := by fin_cases i <;> simp [ctxOrder]

theorem listBad_iff (s : State) : s.listBad = true ↔ ∃ r ∈ s.listed, r.checkBad = true := by simp [State.listBad]
theorem ctxsBad_iff (s : State) : s.ctxsBad = true ↔ ∃ i, (s.ctx i).checkBad = true := by
  simp only [State.ctxsBad, List.any_eq_true]
  exact ⟨fun ⟨i, _, h⟩ => ⟨i, h⟩, fun ⟨i, h⟩ => ⟨i, mem_ctxOrder i, h⟩⟩

theorem Clean.listed {s : State} (h : Clean s) {r : SweepRecord} (hr : r ∈ s.listed) : r.checkBad = false := by
  cases hb : r.checkBad
  · rfl
  · exact absurd ((listBad_iff s).mpr ⟨r, hr, hb⟩) (by rw [h.2.1]; decide)
theorem Clean.ctx {s : State} (h : Clean s) (i : Fin 4) : (s.ctx i).checkBad = false := by
  cases hb : (s.ctx i).checkBad
  · rfl
  · exact absurd ((ctxsBad_iff s).mpr ⟨i, hb⟩) (by rw [h.2.2]; decide)
theorem Clean.of {s : State} (h : s.checkHit = false) (hl : ∀ r ∈ s.listed, r.checkBad = false)
    (hc : ∀ i, (s.ctx i).checkBad = false) : Clean s := by
  refine ⟨h, ?_, ?_⟩
  · cases hb : s.listBad
    · rfl
    · obtain ⟨r, hr, hb⟩ := (listBad_iff s).mp hb
      rw [hl r hr] at hb; exact hb.symm
  · cases hb : s.ctxsBad
    · rfl
    · obtain ⟨i, hb⟩ := (ctxsBad_iff s).mp hb
      rw [hc i] at hb; exact hb.symm
theorem clean_iff (s : State) : Clean s ↔
    s.checkHit = false ∧ (∀ r ∈ s.listed, r.checkBad = false) ∧ ∀ i, (s.ctx i).checkBad = false :=
  ⟨fun h => ⟨h.1, fun _ => h.listed, h.ctx⟩, fun h => .of h.1 h.2.1 h.2.2⟩

theorem referenced_iff (s : State) (i : Fin 8) : s.referenced i = true ↔ ∃ r ∈ s.listed, r.slot = i := by
  simp [State.referenced]
theorem fleetListed_iff (s : State) (i : Fin 4) : s.fleetListed i = true ↔ ∃ r ∈ s.listed, r.fleet = i := by
  simp [State.fleetListed]

theorem findCtx_some {p : Context → Bool} {s : State} {i : Fin 4} :
    findCtx p s = some i ↔ p (s.ctx i) = true ∧ ∀ j : Fin 4, j.val < i.val → p (s.ctx j) = false := by
  have h : findCtx p s = if p (s.ctx 0) then some 0 else if p (s.ctx 1) then some 1 else if p (s.ctx 2) then some 2
      else if p (s.ctx 3) then some 3 else none := by
    simp only [findCtx, ctxOrder, List.find?_cons, List.find?_nil]
    cases p (s.ctx 0) <;> cases p (s.ctx 1) <;> cases p (s.ctx 2) <;> cases p (s.ctx 3) <;> rfl
  rw [h]
  constructor
  · intro e
    cases h0 : p (s.ctx 0) <;> cases h1 : p (s.ctx 1) <;> cases h2 : p (s.ctx 2) <;> cases h3 : p (s.ctx 3) <;>
      simp [h0, h1, h2, h3] at e <;> subst e <;> refine ⟨by assumption, fun j hj => ?_⟩ <;>
      fin_cases j <;> simp_all
  · rintro ⟨hi, hlt⟩
    have h0 := hlt 0
    have h1 := hlt 1
    have h2 := hlt 2
    fin_cases i <;> simp_all

theorem findCtx_none {p : Context → Bool} {s : State} : findCtx p s = none ↔ ∀ i, p (s.ctx i) = false := by
  simp only [findCtx, List.find?_eq_none]
  exact ⟨fun h i => by simpa using h i (mem_ctxOrder i), fun h i _ => by simp [h i]⟩

theorem indexOf_val {n : Nat} (i : Fin n) {k : Nat} (h : k = i.val) : indexOf n k = some i := by
  subst h; simp [indexOf]
theorem indexOf_none {n k : Nat} (h : n ≤ k) : indexOf n k = none := by
  simp [indexOf]; omega

end Sys2Proof.Machine
end

