-- ==== Sys2Proof/Laws/Levels.lean ====
section
/-! SUPPORT. What the lock state, the operating state, the readiness test, the arbiter, the entries and the drops can do, said once. -/

namespace Sys2Proof.Machine

/-! ### Lock state and operating state -/

theorem setLock_only (l : LockState) (s : State) : OnlyLinkLines (s.withTime { s.time with lock := l }) (setLock l s) := by
  unfold setLock; split
  · split
    · rfl
    · exact dropLevel_only _ _
  · split
    · exact raiseLevel_only _ _
    · rfl
@[simp] theorem setLock_link (l : LockState) (s : State) : (setLock l s).link = s.link := by
  unfold setLock; split <;> split <;> rfl
theorem setLock_follow (l : LockState) (s : State) : LinesFollow [.holdover] s (setLock l s) := by
  unfold setLock; split
  · split
    · exact .of_outputs rfl
    · exact dropLevel_follow .holdover (s.withTime { s.time with lock := l })
  · split
    · exact raiseLevel_follow .holdover (s.withTime { s.time with lock := l })
    · exact .of_outputs rfl
/-- Leaving HOLDOVER ends the level. -/
theorem setLock_drop {l : LockState} {s : State} (h : s.time.lock = .holdover) (hl : l ≠ .holdover) :
    setLock l s = dropLevel .holdover (s.withTime { s.time with lock := l }) := by simp [setLock, h, hl]
/-- Entering HOLDOVER raises the level. -/
theorem setLock_raise {s : State} (h : s.time.lock ≠ .holdover) :
    setLock .holdover s = raiseLevel .holdover (s.withTime { s.time with lock := .holdover }) := by simp [setLock, h]

theorem setOp_only (o : OpState) (d : Option DrainMode) (s : State) :
    OnlyLinkLines (s.withMode { s.mode with op := o, drain := d }) (setOp o d s) := by
  unfold setOp; split
  · split
    · rfl
    · exact dropLevel_only _ _
  · split
    · exact raiseLevel_only _ _
    · rfl
@[simp] theorem setOp_link (o : OpState) (d : Option DrainMode) (s : State) : (setOp o d s).link = s.link := by
  unfold setOp; split <;> split <;> rfl
theorem setOp_follow (o : OpState) (d : Option DrainMode) (s : State) : LinesFollow [.acquire] s (setOp o d s) := by
  unfold setOp; split
  · split
    · exact .of_outputs rfl
    · exact dropLevel_follow .acquire (s.withMode { s.mode with op := o, drain := d })
  · split
    · exact raiseLevel_follow .acquire (s.withMode { s.mode with op := o, drain := d })
    · exact .of_outputs rfl

/-! ### Drain test and arbiter -/

theorem drainTest_not_draining {s : State} (h : s.mode.op ≠ .draining) : drainTest s = s := by simp [drainTest, h]

theorem firstReady_none {s : State} : firstReady s = none ↔ ∀ r ∈ s.listed, r.state ≠ .ready := by
  simp [firstReady, List.find?_eq_none]

/-- The arbiter begins nothing where it has already served. -/
theorem arbitrate_served {s : State} (h : ArbiterServed s) : arbitrate s = s := by
  unfold arbitrate
  cases hj : s.engine.job with
  | some j => rfl
  | none =>
    rcases h with h | h
    · simp [hj] at h
    · rw [firstReady_none.mpr h]

/-! ### Readiness -/

theorem ringValid_iff (s : State) (g b : Nat) : ringValid s g b = true ↔ BlockValid s g b := by
  unfold ringValid BlockValid
  cases s.ring.head with
  | none => simp
  | some h => simp [oldestBlock, Config.ringBlocks, slotKey, and_assoc]

theorem readyNow_iff (s : State) (r : SweepRecord) : readyNow s r = true ↔ SpanReady s r := by
  unfold readyNow SpanReady
  cases hh : s.ring.head with
  | none => simp
  | some h =>
    have hs : spanComplete s r = true ↔ ∀ g < s.groups, ∀ b, r.first ≤ b → b ≤ r.last → BlockValid s g b := by
      simp only [spanComplete, List.all_eq_true, List.mem_range, spanBlocks, List.mem_range', ringValid_iff]
      constructor
      · intro hx g hg b h1 h2
        exact hx g hg b ⟨b - r.first, by omega, by omega⟩
      · rintro hx g hg b ⟨i, hi, rfl⟩
        exact hx g hg _ (by omega) (by omega)
    simp only [Bool.or_eq_true, hs, decide_eq_true_eq, Option.some.injEq, exists_eq_left']

/-- A record's readiness test in the terms of R74. -/
theorem readied_tested (u : State) (r : SweepRecord) : Tested u r (readied u r) := by
  have e := readyNow_iff u r
  by_cases h : r.state = .waiting ∧ SpanReady u r
  · exact .inl ⟨h.1, h.2, if_pos ⟨h.1, e.mpr h.2⟩⟩
  · exact .inr ⟨h, if_neg fun k => h ⟨k.1, e.mp k.2⟩⟩

/-- The readiness of a span depends on the ring, the settle margin and the slice alone. -/
theorem SpanReady.congr {s t : State} (h1 : t.ring = s.ring) (h2 : t.mode = s.mode) {r q : SweepRecord} (hf : q.first = r.first)
    (hl : q.last = r.last) : SpanReady t q ↔ SpanReady s r := by
  unfold SpanReady BlockValid State.groups State.channels
  rw [h1, h2, hf, hl]

theorem readyNow_congr {s t : State} (h1 : t.ring = s.ring) (h2 : t.mode = s.mode) (r : SweepRecord) :
    readyNow t r = readyNow s r := by
  have h := SpanReady.congr h1 h2 (r := r) (q := r) rfl rfl
  rw [← readyNow_iff, ← readyNow_iff] at h
  exact Bool.eq_iff_iff.mpr h

theorem readied_congr {s t : State} (h1 : t.ring = s.ring) (h2 : t.mode = s.mode) (r : SweepRecord) : readied t r = readied s r := by
  unfold readied; rw [readyNow_congr h1 h2]

/-! ### Changing one record, entering and leaving -/

/-- With distinct ids, a change by id reaches the one record. -/
theorem map_id_split {a b : List SweepRecord} {r : SweepRecord} (h : (a ++ r :: b).Pairwise fun x y => x.id ≠ y.id)
    (g : SweepRecord → SweepRecord) :
    ((a ++ r :: b).map fun q => if q.id = r.id then g q else q) = a ++ g r :: b := by
  have ha : ∀ x ∈ a, x.id ≠ r.id := fun x hx => (List.pairwise_append.mp h).2.2 x hx r (by simp)
  have hb : ∀ x ∈ b, x.id ≠ r.id := fun x hx => Ne.symm ((List.pairwise_cons.mp (List.pairwise_append.mp h).2.1).1 x hx)
  have e : ∀ l : List SweepRecord, (∀ x ∈ l, x.id ≠ r.id) → l.map (fun q => if q.id = r.id then g q else q) = l := by
    intro l hl
    conv_rhs => rw [← List.map_id l]
    exact List.map_congr_left fun x hx => by simp [hl x hx]
  rw [List.map_append, List.map_cons, e a ha, e b hb, if_pos rfl]

/-- With distinct ids, a record's removal leaves the rest. -/
theorem filter_id_split {a b : List SweepRecord} {r : SweepRecord} (h : (a ++ r :: b).Pairwise fun x y => x.id ≠ y.id) :
    ((a ++ r :: b).filter fun q => decide (q.id ≠ r.id)) = a ++ b := by
  have ha : ∀ x ∈ a, x.id ≠ r.id := fun x hx => (List.pairwise_append.mp h).2.2 x hx r (by simp)
  have hb : ∀ x ∈ b, x.id ≠ r.id := fun x hx => Ne.symm ((List.pairwise_cons.mp (List.pairwise_append.mp h).2.1).1 x hx)
  rw [List.filter_append, List.filter_cons, if_neg (by simp), List.filter_eq_self.mpr (by simpa using ha),
    List.filter_eq_self.mpr (by simpa using hb)]

theorem insertSweep_insertedAt (r : SweepRecord) (l : List SweepRecord) : InsertedAt r l (insertSweep r l) := by
  induction l with
  | nil => exact ⟨[], [], rfl, rfl, by simp, by simp⟩
  | cons q l ih =>
    unfold insertSweep
    split
    · next h => exact ⟨[], q :: l, rfl, rfl, by simp, by simpa using h⟩
    · next h =>
      obtain ⟨a, b, e1, e2, h1, h2⟩ := ih
      refine ⟨q :: a, b, by rw [e1]; rfl, by rw [e2]; rfl, ?_, h2⟩
      intro x hx
      rcases List.mem_cons.mp hx with rfl | hx
      · exact Nat.le_of_not_lt h
      · exact h1 x hx

theorem closeHolds_iff (c : Context) : closeHolds c = true ↔ CloseDue c := by
  unfold closeHolds CloseDue
  cases c.state <;> simp

theorem applyClose_not_due {i : Fin 4} {s : State} (h : ¬ CloseDue (s.ctx i)) : applyClose i s = s := by
  unfold applyClose
  rw [if_neg (by rw [closeHolds_iff]; exact h)]

/-- The link after reports and a reply: what `AnsweredAfter` needs of the state they are placed on. -/
theorem answeredAfter_of {rs : List Report} {f : RxFrame} {rest : List RxFrame} {st : Status} {c : List Byte} {s t : State}
    (h : t.link = offeredLink rs (s.withLink (takenLink rest s))) : AnsweredAfter rs f rest st c s (placeReply f st c t) := by
  rw [AnsweredAfter, placeReply_link, h, (placeReply_only _ _ _ _).joined]; rfl

end Sys2Proof.Machine
end

