-- ==== Sys2Proof/Laws/Replies.lean ====
section
/-! SUPPORT. What a request comes to once it is taken: the reply alone, a reply over a change, a reply behind reports (R147, R149). -/

namespace Sys2Proof.Machine

/-- A request taken with a right body length, by what its handling gives. -/
theorem reply_next {f : RxFrame} {rest : List RxFrame} {s t : State} {g : State → State} (h : Taken f rest s)
    (hl : lengthAllowed f.kind f.body.length = some true) (e : g (s.withLink (takenLink rest s)) = t) (hc : t.checkHit = false) :
    takeRequest f g s = .next t := by
  rw [takeRequest_taken h g hl, e, settle_clean hc]

/-- A handling that only places a reply. -/
theorem reply_only {f : RxFrame} {rest : List RxFrame} {s : State} {g : State → State} (st : Status) (c : List Byte)
    (h : Taken f rest s)
    (hl : lengthAllowed f.kind f.body.length = some true) (hc : s.checkHit = false)
    (e : g (s.withLink (takenLink rest s)) = placeReply f st c (s.withLink (takenLink rest s))) :
    ∃ t, takeRequest f g s = .next t ∧ AnsweredOnly f rest st c s t :=
  ⟨_, reply_next h hl e (by rw [(placeReply_only _ _ _ _).checkHit]; exact hc), answeredOnly_reply _ _ _ _ _⟩

/-- A handling that changes a part of the state and places a reply. -/
theorem reply_change {f : RxFrame} {rest : List RxFrame} {s v : State} {g : State → State} (st : Status) (c : List Byte)
    (h : Taken f rest s)
    (hl : lengthAllowed f.kind f.body.length = some true) (hc : s.checkHit = false)
        (hr : v.router.outputs = s.router.outputs) (hvc : v.checkHit = s.checkHit)
    (e : g (s.withLink (takenLink rest s)) = placeReply f st c (v.withLink (takenLink rest s))) :
    ∃ t, takeRequest f g s = .next t ∧ OnlyLinkLines v t ∧ LinesFollow [.noticeHigh] s t ∧ Answered f rest st c s t := by
  refine ⟨_, reply_next h hl e ?_, ?_, ?_, ?_⟩
  · rw [(placeReply_only _ _ _ _).checkHit]; exact hvc.trans hc
  · exact (withLink_only _ _).trans (placeReply_only _ _ _ _)
  · have h1 : LinesFollow [.noticeHigh] s (v.withLink (takenLink rest s)) := .of_outputs hr
    exact h1.trans (placeReply_follow _ _ _ _)
  · rw [Answered, placeReply_link, (placeReply_only _ _ _ _).joined]; rfl

/-- A handling that offers reports over a change and places the reply behind them. -/
theorem reply_after {f : RxFrame} {rest : List RxFrame} {s v w : State} {g : State → State} {st : Status} {c : List Byte}
    {rs : List Report} {srcs : List Source} (h : Taken f rest s)
    (hl : lengthAllowed f.kind f.body.length = some true) (hc : s.checkHit = false) (hv : v.checkHit = s.checkHit)
    (e : g (s.withLink (takenLink rest s)) = placeReply f st c w) (ho : OnlyLinkLines v w) (hf : LinesFollow srcs s w)
        (hn : Source.noticeHigh ∈ srcs)
    (hk : w.link = offeredLink rs (s.withLink (takenLink rest s))) :
    ∃ t, takeRequest f g s = .next t ∧ OnlyLinkLines v t ∧ LinesFollow srcs s t ∧ AnsweredAfter rs f rest st c s t ∧ t =
        placeReply f st c w := by
  refine ⟨_, reply_next h hl e ?_, ho.trans (placeReply_only _ _ _ _), hf.trans ((placeReply_follow _ _ _ _).mono ?_),
      answeredAfter_of hk, rfl⟩
  · rw [(placeReply_only _ _ _ _).checkHit, ho.checkHit, hv, hc]
  · intro x hx; simp at hx; subst hx; exact hn

/-- Offered reports depend on the link, the mask, and what lets the line start a message. -/
theorem offeredLink_congr (rs : List Report) {s t : State} (hl : t.link = s.link) (ha : SendsAlike s t) :
   offeredLink rs t = offeredLink rs s := by
  unfold offeredLink
  induction rs generalizing s t with
  | nil => exact hl
  | cons r rs ih =>
    exact ih (offerReport_link_congr r hl ha) (((offerReport_only r s).alike.symm.trans ha).trans (offerReport_only r t).alike)

/-- Two reports offered one after the other. -/
theorem offeredLink_two (r1 r2 : Report) {s t : State} (hl : t.link = offeredLink [r1] s)
    (ha : SendsAlike s t) :
   offeredLink [r2] t = offeredLink [r1, r2] s := by
  show (offerReport r2 t).link = (offerReport r2 (offerReport r1 s)).link
  exact offerReport_link_congr _ hl ((offerReport_only r1 s).alike.symm.trans ha)

end Sys2Proof.Machine
end

