-- ==== Sys2Proof/Laws/Sending.lean ====
section
/-! SUPPORT. The transmit arbiter, the transmit hold and the emitter: what each can do, said once (R132, R133, R135, R152, R153). -/

namespace Sys2Proof.Machine

/-! ### The transmit arbiter -/

theorem startTrace_eq (cu : Cursor) (tr : Trace) (s : State) : startTrace cu tr s =
    (s.withLink { s.link with tx := some (.trace tr) }).withEmitter { s.emitter with
      cursor := some
        (if cu.next < s.channels then
          { cu with sending := true, next := cu.next + 1, waiting := some (traceOf s (s.ctx cu.ctx) cu.next) }
         else { cu with sending := true, waiting := none }) } := by
  unfold startTrace prepareTrace
  simp only
  by_cases h : cu.next < s.channels
  · have h' : cu.next < (s.withLink { s.link with tx := some (.trace tr) }).channels := h
    rw [if_pos h', if_pos h]; rfl
  · have h' : ¬ cu.next < (s.withLink { s.link with tx := some (.trace tr) }).channels := h
    rw [if_neg h', if_neg h]; rfl

/-- The arbiter's decision, by R152. -/
theorem decideLine_decided (s : State) : Decided s (decideLine s) := by
  unfold decideLine
  by_cases hf : s.lineFree = true
  · have hl := (lineFree_iff s).mp hf
    rw [if_pos hf]
    unfold startMessage
    cases hn : s.link.notices with
    | cons n rest =>
      refine .inr (.inl ⟨hl, n, rest, hn, ?_⟩)
      simp only
      unfold departNotice
      have e : s.link.notices.length = Config.noticeHigh ↔ rest.length = 47 := by
        rw [hn]; simp [Config.noticeHigh]
      simp only [e]
      by_cases h : rest.length = 47
      · rw [if_pos h, if_pos h]
        have := dropLevel_fell .noticeHigh (s.withLink { s.link with notices := rest, tx := some (.notice n) })
        rw [hn]; exact this
      · rw [if_neg h, if_neg h, hn]; rfl
    | nil =>
      simp only
      cases hc : s.emitter.cursor with
      | none => exact .inr (.inr (.inl ⟨hl, hn, fun cu h => by simp [hc] at h, rfl⟩))
      | some cu =>
        simp only
        cases hw : cu.waiting with
        | none =>
          refine .inr (.inr (.inl ⟨hl, hn, fun cu' h => ?_, rfl⟩))
          rw [hc] at h; cases h; exact hw
        | some tr => exact .inr (.inr (.inr ⟨hl, hn, cu, tr, hc, hw, startTrace_eq cu tr s⟩))
  · rw [if_neg hf]
    exact .inl ⟨fun h => hf ((lineFree_iff s).mpr h), rfl⟩

/-- All that a decision can change: the message in transmission, the queue, the emitter's cursor and the lines that follow NOTICE HIGH. -/
theorem Decided.frame {s t : State} (h : Decided s t) :
    t = { s with link := { s.link with notices := t.link.notices, tx := t.link.tx }
                 emitter := { s.emitter with cursor := t.emitter.cursor }
                 router := { s.router with outputs := t.router.outputs } } ∧ LinesFollow [.noticeHigh] s t := by
  rcases h with ⟨-, rfl⟩ | ⟨-, n, rest, hn, h⟩ | ⟨-, -, -, rfl⟩ | ⟨-, -, cu, tr, -, -, rfl⟩
  · exact ⟨rfl, .refl _ _⟩
  · simp only at h
    split at h
    · obtain ⟨h1, h2⟩ := h
      refine ⟨by rw [h1]; rfl, fun i hi => ?_, fun i => ?_⟩
      · rw [h2, if_neg (by simpa using hi)]; rfl
      · rw [h2]; split <;> exact ⟨rfl, rfl, rfl, rfl⟩
    · subst h; exact ⟨rfl, .of_outputs rfl⟩
  · exact ⟨rfl, .refl _ _⟩
  · exact ⟨rfl, .of_outputs rfl⟩

/-- A decision leaves a line that cannot start anything. -/
theorem decideLine_busy {s : State} (h : ¬ LineFree s) : decideLine s = s := by
  unfold decideLine; rw [if_neg fun k => h ((lineFree_iff s).mp k)]

/-! ### The transmit hold -/

/-- An input line set to a level, by R53 and R153. -/
theorem setPin_set (line : Fin 4) (level : Bool) (s : State) : PinSet line level s (setPin line level s) := by
  unfold setPin holdChanged PinSet
  simp only
  split
  · exact decideLine_decided _
  · rfl

/-- A line without the role leaves the transmit hold (R53). -/
theorem transmitHold_other {line : Fin 4} (level : Bool) {s : State} (h : s.router.inputs[line.val].role ≠ .transmitHold) :
    (s.withRouter { s.router with pins := s.router.pins.set line.val level }).transmitHold = s.transmitHold := by
  have : ∀ i : Fin 4, holdsTransmit s.router.inputs[i.val] (s.router.pins.set line.val level)[i.val] =
      holdsTransmit s.router.inputs[i.val] s.router.pins[i.val] := by
    intro i
    by_cases hi : i = line
    · subst hi; simp [holdsTransmit, h]
    · have : line.val ≠ i.val := fun h => hi (Fin.ext h.symm)
      rw [Vector.getElem_set_ne (h := this)]
  simp only [State.transmitHold, State.withRouter_router]
  congr 1; funext i; exact this i

/-- An edge on a line without the role only moves the line (R53). -/
theorem setPin_other {line : Fin 4} (level : Bool) {s : State} (h : s.router.inputs[line.val].role ≠ .transmitHold) :
    setPin line level s = s.withRouter { s.router with pins := s.router.pins.set line.val level } := by
  unfold setPin holdChanged
  rw [transmitHold_other level h, if_neg]
  intro k; rw [k.1] at k; cases k.2

theorem holdChanged_decided (s t : State) :
    if s.transmitHold = true ∧ t.transmitHold = false then Decided t (holdChanged s t) else holdChanged s t = t := by
  unfold holdChanged; split
  · exact decideLine_decided _
  · rfl

/-! ### The emitter -/

/-- The emitter begins the next context of the closing order, by R132 and R133. -/
theorem emitterBegin_begins {i : Fin 4} {l : List (Fin 4)} {s : State} (hc : s.emitter.closing = i :: l)
    (hb : (s.ctx i).checkBad = false) : EmissionBegins i s (emitterBegin s) := by
  have hch : 0 < s.channels := by unfold State.channels channelsOf; split <;> decide
  unfold emitterBegin EmissionBegins
  split
  · next h => rw [h] at hc; cases hc
  · next j l' h =>
    rw [h] at hc; cases hc
    rw [if_neg (by rw [hb]; decide)]
    unfold prepareTrace
    rw [if_pos hch]
    exact decideLine_decided _

theorem emitterBegin_idle {s : State} (hc : s.emitter.closing = []) :
    emitterBegin s = s.withEmitter { closing := [], cursor := none } := by
  unfold emitterBegin
  split
  · next h => rw [← h]
  · next h => rw [h] at hc; cases hc

/-- All that a begin of the emitter can change. -/
theorem emitterBegin_frame (s : State) : let t := emitterBegin s
    t = { s with link := { s.link with notices := t.link.notices, tx := t.link.tx }
                 emitter := { s.emitter with cursor := t.emitter.cursor }
                 router := { s.router with outputs := t.router.outputs }
                 checkHit := t.checkHit } ∧ LinesFollow [.noticeHigh] s t ∧
    (t.checkHit = true → s.checkHit = true ∨ ∃ i, (s.ctx i).checkBad = true) := by
  unfold emitterBegin
  simp only
  split
  · exact ⟨rfl, .of_outputs rfl, .inl⟩
  · next i l hc =>
    split
    · next hb => exact ⟨rfl, .of_outputs rfl, fun _ => .inr ⟨i, hb⟩⟩
    · have hd := (decideLine_decided (prepareTrace { ctx := i, next := 0, waiting := none, sending := false, sent := 0 } s)).frame
      have hp : prepareTrace { ctx := i, next := 0, waiting := none, sending := false, sent := 0 } s =
          s.withEmitter { s.emitter with cursor :=
            (prepareTrace { ctx := i, next := 0, waiting := none, sending := false, sent := 0 } s).emitter.cursor } := by
        unfold prepareTrace; split <;> rfl
      generalize prepareTrace { ctx := i, next := 0, waiting := none, sending := false, sent := 0 } s = u at *
      obtain ⟨h1, h2⟩ := hd
      generalize decideLine u = t at *
      generalize u.emitter.cursor = cu at hp
      subst hp
      have hk : t.checkHit = s.checkHit := (congrArg State.checkHit h1 :)
      exact ⟨by rw [hk]; exact h1, h2, fun k => .inl (hk ▸ k)⟩

end Sys2Proof.Machine
end

