-- ==== Sys2Proof/Laws/Drops.lean ====
section
/-! SUPPORT. Closing, dropping, draining and the arbiter: all that each can change, from a state without a check error (R77 to R80, R84, R125 to R129, R160). -/

namespace Sys2Proof.Machine

/-! ### Contexts -/

/-- A table check mark leaves the list. -/
theorem mark_listed (b : Bool) (s : State) : (markHit b s).listed = s.listed := by unfold markHit; split <;> rfl

/-- A table check mark leaves the contexts. -/
theorem mark_ctx (b : Bool) (s : State) (i : Fin 4) : (markHit b s).ctx i = s.ctx i := by unfold markHit; split <;> rfl

theorem ctx_with_same (s : State) (i : Fin 4) (c : Context) : (s.withCtx i c).ctx i = c := by simp

theorem ctx_with_other (s : State) {i j : Fin 4} (c : Context) (h : j ≠ i) : (s.withCtx i c).ctx j = s.ctx j := by
  simp only [State.withCtx, State.ctx, State.withStack_stack]
  rw [Vector.getElem_set_ne (h := by intro e; exact h (Fin.ext e.symm))]

/-! ### States that differ in the list, the contexts, the engine, the emitter, the queue and some lines only -/

/-- Nothing differs but the list, the contexts, the engine, the emitter, the notices and the lines that follow `srcs`; no check error is
made. -/
structure Quiet (srcs : List Source) (s t : State) : Prop where
  ring : t.ring = s.ring
  pilots : t.pilots = s.pilots
  time : t.time = s.time
  fleets : t.fleets = s.fleets
  mode : t.mode = s.mode
  inputs : t.router.inputs = s.router.inputs
  pins : t.router.pins = s.router.pins
  pending : t.pending = s.pending
  rx : t.link.rxBuf = s.link.rxBuf
  accepted : t.link.accepted = s.link.accepted
  next : t.sweeps.nextId = s.sweeps.nextId
  follow : LinesFollow srcs s t
  clean : Clean s → Clean t

theorem Quiet.refl (srcs) (s : State) : Quiet srcs s s := ⟨rfl, rfl, rfl, rfl, rfl, rfl, rfl, rfl, rfl, rfl, rfl, .refl _ _, id⟩

theorem Quiet.trans {srcs} {s t u : State} (h : Quiet srcs s t) (k : Quiet srcs t u) : Quiet srcs s u :=
  ⟨k.ring.trans h.ring, k.pilots.trans h.pilots, k.time.trans h.time, k.fleets.trans h.fleets, k.mode.trans h.mode,
      k.inputs.trans h.inputs, k.pins.trans h.pins, k.pending.trans h.pending, k.rx.trans h.rx, k.accepted.trans h.accepted,
          k.next.trans h.next, h.follow.trans k.follow, fun c => k.clean (h.clean c)⟩

theorem Quiet.mono {as bs} (sub : ∀ x ∈ as, x ∈ bs) {s t : State} (h : Quiet as s t) : Quiet bs s t :=
  ⟨h.ring, h.pilots, h.time, h.fleets, h.mode, h.inputs, h.pins, h.pending, h.rx, h.accepted, h.next, h.follow.mono sub, h.clean⟩

theorem clean_only {s t : State} (h : OnlyLinkLines s t) (c : Clean s) : Clean t := by
  refine Clean.of (h.checkHit.trans c.1) ?_ ?_
  · intro r hr; rw [h.listed] at hr; exact c.listed hr
  · intro i; rw [h.ctx]; exact c.ctx i

/-- Offering a report. -/
theorem offer_quiet (r : Report) (s : State) : Quiet [.noticeHigh] s (offerReport r s) := by
  have h := offerReport_only r s
  have k := offerReport_link_frame r s
  exact ⟨h.ring, h.pilots, h.time, h.fleets, h.mode, h.inputs, h.pins, h.pending,
      by rw [k], by rw [k], by rw [h.sweeps], offerReport_follow r s, clean_only h⟩

/-- Raising an event. -/
theorem raise_quiet (src) (s : State) : Quiet [src] s (raiseEvent src s) :=
  ⟨rfl, rfl, rfl, rfl, rfl, rfl, rfl, rfl, rfl, rfl, rfl, raiseEvent_follow _ _, id⟩

/-- VP DONE. -/
theorem vpDone_quiet (i n) (s : State) : Quiet [.vpDone, .noticeHigh] s (vpDone i n s) :=
  ((offer_quiet _ s).mono (by simp)).trans ((raise_quiet _ _).mono (by simp))

theorem quiet_ctx (s : State) (i : Fin 4) (c : Context) (h : c.checkBad = (s.ctx i).checkBad) (srcs) : Quiet srcs s
    (s.withCtx i c) := by
  refine ⟨rfl, rfl, rfl, rfl, rfl, rfl, rfl, rfl, rfl, rfl, rfl, .of_outputs rfl, fun hc => Clean.of hc.1
      (fun r hr => hc.listed hr) ?_⟩
  intro j
  by_cases e : j = i
  · subst e; rw [ctx_with_same, h]; exact hc.ctx _
  · rw [ctx_with_other _ _ e]; exact hc.ctx _

theorem quiet_emitter (s : State) (e : Emitter) (srcs) : Quiet srcs s (s.withEmitter e) :=
  ⟨rfl, rfl, rfl, rfl, rfl, rfl, rfl, rfl, rfl, rfl, rfl, .of_outputs rfl, id⟩

theorem quiet_order (s : State) (o : List (Fin 4)) (srcs) : Quiet srcs s (s.withStack { s.stack with openOrder := o }) :=
  ⟨rfl, rfl, rfl, rfl, rfl, rfl, rfl, rfl, rfl, rfl, rfl, .of_outputs rfl, id⟩

theorem quiet_engine (s : State) (o : Engine) (srcs) : Quiet srcs s (s.withEngine o) :=
  ⟨rfl, rfl, rfl, rfl, rfl, rfl, rfl, rfl, rfl, rfl, rfl, .of_outputs rfl, id⟩

theorem quiet_unlist (s : State) (id : Nat) (srcs) : Quiet srcs s (unlist id s) :=
  ⟨rfl, rfl, rfl, rfl, rfl, rfl, rfl, rfl, rfl, rfl, rfl, .of_outputs rfl, fun c => Clean.of c.1
      (fun _ hr => c.listed (List.mem_of_mem_filter hr)) c.ctx⟩

/-! ### Closing a context (R125, R126) -/

theorem vpDone_only (i : Fin 4) (n : Nat) (s : State) : OnlyLinkLines s (vpDone i n s) := (offerReport_only _ s).trans
    (raiseEvent_only _ _)

theorem vpDone_link (i : Fin 4) (n : Nat) (s : State) : (vpDone i n s).link = offeredLink
    [.vpDone (s.ctx i).vp (s.ctx i).gen i (s.ctx i).target (s.ctx i).k (s.ctx i).folded (s.ctx i).dropped n] s := rfl

/-- A change of the queue, the message in transmission, the cursor and the lines that follow NOTICE HIGH. -/
theorem Quiet.of_sending {s t : State} (h : t = { s with
      link := { s.link with notices := t.link.notices, tx := t.link.tx }
      emitter := { s.emitter with cursor := t.emitter.cursor }
      router := { s.router with outputs := t.router.outputs } })
    (hf : LinesFollow [.noticeHigh] s t) : Quiet [.noticeHigh] s t := by
  refine ⟨?_, ?_, ?_, ?_, ?_, ?_, ?_, ?_, ?_, ?_, ?_, hf, ?_⟩
  case refine_12 =>
    intro hc
    have h1 : t.checkHit = s.checkHit := by rw [h]
    have h2 : t.listed = s.listed := by rw [h]; rfl
    have h3 : ∀ i, t.ctx i = s.ctx i := by intro i; rw [h]; rfl
    exact Clean.of (h1.trans hc.1) (fun r hr => hc.listed (h2 ▸ hr)) fun i => by rw [h3]; exact hc.ctx i
  all_goals rw [h]

/-- The arbiter's decision leaves everything else. -/
theorem decideLine_quiet (s : State) : Quiet [.noticeHigh] s (decideLine s) := by
  have h := (decideLine_decided s).frame
  exact .of_sending h.1 h.2

/-- What a decision leaves of the tables. -/
theorem decideLine_tables (s : State) : (decideLine s).sweeps = s.sweeps ∧ (decideLine s).engine = s.engine ∧
    (decideLine s).stack = s.stack ∧ (decideLine s).emitter.closing = s.emitter.closing := by
  have h := (decideLine_decided s).frame.1
  refine ⟨?_, ?_, ?_, ?_⟩ <;> rw [h]

/-- What a begin of the emitter leaves of the tables. -/
theorem emitterBegin_tables (s : State) : (emitterBegin s).sweeps = s.sweeps ∧ (emitterBegin s).engine = s.engine ∧
    (emitterBegin s).stack = s.stack ∧ (emitterBegin s).emitter.closing = s.emitter.closing := by
  have h := (emitterBegin_frame s).1
  refine ⟨?_, ?_, ?_, ?_⟩ <;> rw [h]

/-- The emitter begins: everything else stays, and no check error is found where none stands. -/
theorem emitterBegin_quiet {s : State} (hc : Clean s) : Quiet [.noticeHigh] s (emitterBegin s) := by
  obtain ⟨h1, h2, h3⟩ := emitterBegin_frame s
  have hk : (emitterBegin s).checkHit = s.checkHit := by
    cases hb : (emitterBegin s).checkHit
    · exact hc.1.symm
    · rcases h3 hb with h | ⟨i, h⟩
      · exact h.symm
      · rw [hc.ctx] at h; cases h
  exact .of_sending (by rw [hk] at h1; exact h1) h2

/-- What a closing context comes to (R126). -/
structure ClosedAt (i : Fin 4) (s t : State) : Prop where
  quiet : Quiet [.vpDone, .noticeHigh] s t
  sweeps : t.sweeps = s.sweeps
  engine : t.engine = s.engine
  other : ∀ j, j ≠ i → t.ctx j = s.ctx j
  free : (s.ctx i).folded = 0 → t.ctx i = Context.freed (s.ctx i).gen ∧ t.emitter = s.emitter
  emit : (s.ctx i).folded ≠ 0 → t.ctx i = { s.ctx i with state := .closing } ∧ t.emitter.closing = s.emitter.closing ++ [i]

theorem quiet_free (i) (s : State) (srcs) : Quiet srcs s (freeCtx i s) := by
  unfold freeCtx
  refine Quiet.trans (quiet_order s (s.stack.openOrder.filter fun j => j ≠ i) srcs) ?_
  refine ⟨rfl, rfl, rfl, rfl, rfl, rfl, rfl, rfl, rfl, rfl, rfl, .of_outputs rfl, fun hc => Clean.of hc.1
      (fun r hr => hc.listed hr) ?_⟩
  intro j
  by_cases e : j = i
  · subst e; rw [ctx_with_same]; rfl
  · rw [ctx_with_other _ _ e]; exact hc.ctx _

theorem freeCtx_ctx (i) (s : State) : (freeCtx i s).ctx i = Context.freed (s.ctx i).gen := by
  unfold freeCtx; rw [ctx_with_same]

theorem freeCtx_other {i j} (s : State) (h : j ≠ i) : (freeCtx i s).ctx j = s.ctx j := by
  unfold freeCtx; rw [ctx_with_other _ _ h]; rfl

/-- A close, whole (R126). -/
theorem closeCtx_spec (i : Fin 4) {s : State} (hc : Clean s) : ClosedAt i s (closeCtx i s) := by
  unfold closeCtx
  by_cases h : 0 < (s.ctx i).folded
  · rw [if_pos h]
    simp only
    set t := s.withCtx i { s.ctx i with state := .closing } with ht
    set u := t.withEmitter { t.emitter with closing := t.emitter.closing ++ [i] } with hu
    have q : Quiet [.vpDone, .noticeHigh] s u := (quiet_ctx s i { s.ctx i with state := .closing } rfl _).trans
        (quiet_emitter _ _ _)
    have hui : u.ctx i = { s.ctx i with state := .closing } := ctx_with_same s i _
    have huj : ∀ j, j ≠ i → u.ctx j = s.ctx j := fun j hj => ctx_with_other s _ hj
    split
    · obtain ⟨t1, t2, t3, t4⟩ := emitterBegin_tables u
      have tc : ∀ j, (emitterBegin u).ctx j = u.ctx j := fun j => by simp only [State.ctx, t3]
      exact ⟨q.trans ((emitterBegin_quiet (q.clean hc)).mono (by simp)), t1, t2, fun j hj => (tc j).trans (huj j hj),
        fun h0 => by omega, fun _ => ⟨(tc i).trans hui, t4⟩⟩
    · exact ⟨q, rfl, rfl, huj, fun h0 => by omega, fun _ => ⟨hui, rfl⟩⟩
  · rw [if_neg h]
    have ho := vpDone_only i 0 s
    refine ⟨(vpDone_quiet i 0 s).trans (quiet_free _ _ _), ho.sweeps, ho.engine, fun j hj => ?_, fun _ => ⟨?_, ho.emitter⟩,
        fun h0 => by omega⟩
    · rw [freeCtx_other _ hj, ho.ctx]
    · rw [freeCtx_ctx, ho.ctx]

/-- The close condition applied: a close where it holds, nothing else (R125). -/
theorem applyClose_spec (i : Fin 4) {s : State} (hc : Clean s) : (CloseDue (s.ctx i) ∧ ClosedAt i s (applyClose i s)) ∨
    (¬ CloseDue (s.ctx i) ∧ applyClose i s = s) := by
  by_cases h : CloseDue (s.ctx i)
  · left; refine ⟨h, ?_⟩
    unfold applyClose; rw [if_pos ((closeHolds_iff _).mpr h)]; exact closeCtx_spec i hc
  · exact .inr ⟨h, applyClose_not_due h⟩

theorem freeCtx_frees (i : Fin 4) (s : State) : Frees i s (freeCtx i s) := rfl

theorem vpDone_done (i : Fin 4) (n : Nat) (s : State) : VpDone i n s (vpDone i n s) :=
  ⟨_, offerReport_offered _ _, raiseEvent_raised _ _⟩

/-- A close, by R126 and R132. -/
theorem closeCtx_closes (i : Fin 4) {s : State} (hc : Clean s) : Closes i s (closeCtx i s) := by
  unfold closeCtx
  split
  · next h =>
    refine .inr ⟨by omega, ?_⟩
    simp only
    split
    · next he =>
      apply emitterBegin_begins (l := [])
      · show s.emitter.closing ++ [i] = _; rw [he.1]; rfl
      · show ((s.withCtx i { s.ctx i with state := .closing }).ctx i).checkBad = false
        rw [ctx_with_same]; exact hc.ctx i
    · rfl
  · next h => exact .inl ⟨by omega, _, vpDone_done i 0 s, freeCtx_frees i _⟩

/-- The close condition applied, by R125. -/
theorem applyClose_tested (i : Fin 4) {s : State} (hc : Clean s) : CloseTested i s (applyClose i s) := by
  unfold applyClose
  split
  · next h => exact .inl ⟨(closeHolds_iff _).mp h, closeCtx_closes i hc⟩
  · next h => exact .inr ⟨fun k => h ((closeHolds_iff _).mpr k), rfl⟩

theorem applyClose_quiet (i : Fin 4) {s : State} (hc : Clean s) : Quiet [.vpDone, .noticeHigh] s (applyClose i s) := by
  rcases applyClose_spec i hc with ⟨_, h⟩ | ⟨_, h⟩
  · exact h.quiet
  · rw [h]; exact .refl _ _

theorem applyClose_other {i j : Fin 4} {s : State} (hc : Clean s) (hj : j ≠ i) : (applyClose i s).ctx j = s.ctx j := by
  rcases applyClose_spec i hc with ⟨_, h⟩ | ⟨_, h⟩
  · exact h.other j hj
  · rw [h]

theorem applyClose_engine {i : Fin 4} {s : State} (hc : Clean s) : (applyClose i s).engine = s.engine ∧ (applyClose i s).sweeps =
    s.sweeps := by
  rcases applyClose_spec i hc with ⟨_, h⟩ | ⟨_, h⟩
  · exact ⟨h.engine, h.sweeps⟩
  · rw [h]; exact ⟨rfl, rfl⟩

/-! ### Drops (R77 to R79) -/

/-- A drop without its step 7, the close condition. -/
def dropPre (cause : DropCause) (s : State) (r : SweepRecord) : State :=
  let s0 := markHit (r.checkBad || (s.ctx r.ctx).checkBad) s
  let s1 := if r.state = .correlating then abandonJob s0 else s0
  let s2 := unlist r.id s1
  let c := s2.ctx r.ctx
  let s3 := s2.withCtx r.ctx { c with attached := c.attached - 1, dropped := c.dropped + 1 }
  let s4 := offerReport (.sweepDropped r.id r.fleet r.vp r.t0 cause (some r.state) (some r.ctx)) s3
  let s5 := raiseEvent .sweepDropped s4
  if cause = .late then raiseEvent .ringLate s5 else s5

theorem dropSweep_eq (cause : DropCause) (close : Bool) (s : State) (r : SweepRecord) : dropSweep cause close s r =
    if close then applyClose r.ctx (dropPre cause s r) else dropPre cause s r := rfl

theorem applyClose_cases (i : Fin 4) (s : State) : applyClose i s = s ∨ (CloseDue (s.ctx i) ∧ applyClose i s = closeCtx i s) := by
  unfold applyClose
  split
  · next h => exact .inr ⟨(closeHolds_iff _).mp h, rfl⟩
  · exact .inl rfl

theorem closeCtx_listed (i : Fin 4) (s : State) : (closeCtx i s).listed = s.listed := by
  unfold closeCtx
  split
  · simp only
    split
    · exact congrArg SweepList.recs (emitterBegin_tables _).1
    · rfl
  · exact (vpDone_only i 0 s).listed

theorem applyClose_listed (i : Fin 4) (s : State) : (applyClose i s).listed = s.listed := by
  rcases applyClose_cases i s with e | ⟨_, e⟩ <;> rw [e]
  exact closeCtx_listed i s

theorem dropPre_listed (cause : DropCause) (s : State) (r : SweepRecord) : (dropPre cause s r).listed = s.listed.filter fun q =>
    decide (q.id ≠ r.id) := by
  unfold dropPre
  simp only
  have hend : ∀ u, (if cause = .late then raiseEvent .ringLate
      (raiseEvent .sweepDropped u) else raiseEvent .sweepDropped u).listed = u.listed := by
    intro u; split <;> rfl
  rw [hend, (offerReport_only _ _).listed]
  show List.filter _ (State.listed _) = _
  congr 1
  split
  · exact mark_listed _ _
  · exact mark_listed _ _

/-- A drop takes the records of its id from the list. -/
theorem dropSweep_listed (cause : DropCause) (close : Bool) (s : State) (r : SweepRecord) : (dropSweep cause close s r).listed =
    s.listed.filter fun q => decide (q.id ≠ r.id) := by
  rw [dropSweep_eq]; split
  · rw [applyClose_listed, dropPre_listed]
  · exact dropPre_listed _ _ _

/-- Drops take the records of their ids from the list. -/
theorem drops_listed (cause : DropCause) (close : Bool) (l : List SweepRecord) (s : State) :
    (l.foldl (dropSweep cause close) s).listed = s.listed.filter fun q => decide (q.id ∉ l.map (·.id)) := by
  induction l generalizing s with
  | nil => simp
  | cons r l ih =>
    rw [List.foldl_cons, ih, dropSweep_listed, List.filter_filter]
    apply List.filter_congr
    intro q _
    simp only [List.map_cons, List.mem_cons, not_or]
    by_cases h1 : q.id = r.id <;> by_cases h2 : q.id ∈ l.map (·.id) <;> simp [h1, h2]

/-- What a drop before step 7 comes to (R77). -/
structure DroppedOpen (srcs : List Source) (r : SweepRecord) (s t : State) : Prop where
  quiet : Quiet srcs s t
  listed : t.listed = s.listed.filter fun q => decide (q.id ≠ r.id)
  engine : t.engine = if r.state = .correlating then Engine.idle else s.engine
  other : ∀ j, j ≠ r.ctx → t.ctx j = s.ctx j
  own : t.ctx r.ctx = { s.ctx r.ctx with attached := (s.ctx r.ctx).attached - 1, dropped := (s.ctx r.ctx).dropped + 1 }
  emitter : t.emitter = s.emitter

/-- The lines a drop before step 7 may move. -/
def dropOwnLines (cause : DropCause) : List Source := if cause = .late then [.sweepDropped, .ringLate, .noticeHigh] else
    [.sweepDropped, .noticeHigh]

/-- A drop before step 7, whole. -/
theorem dropPre_spec (cause : DropCause) {s : State} (hc : Clean s) {r : SweepRecord} (hr : r ∈ s.listed) : DroppedOpen
    (dropOwnLines cause) r s (dropPre cause s r) := by
  have hl := dropPre_listed cause s r
  unfold dropPre at hl ⊢
  rw [hc.listed hr, hc.ctx] at hl ⊢
  simp only [Bool.or_false, markHit_false] at hl ⊢
  set s1 := if r.state = .correlating then abandonJob s else s with hs1
  have q1 : Quiet (dropOwnLines cause) s s1 := by rw [hs1]; split; exact quiet_engine _ _ _; exact .refl _ _
  have hctx : ∀ j, (unlist r.id s1).ctx j = s.ctx j := by intro j; rw [hs1]; split <;> rfl
  set s2 := unlist r.id s1 with hs2
  set c := { s2.ctx r.ctx with attached := (s2.ctx r.ctx).attached - 1, dropped := (s2.ctx r.ctx).dropped + 1 } with hcc
  set s3 := s2.withCtx r.ctx c with hs3
  set rep : Report := .sweepDropped r.id r.fleet r.vp r.t0 cause (some r.state) (some r.ctx)
  have q3 : Quiet (dropOwnLines cause) s s3 := (q1.trans (quiet_unlist _ _ _)).trans (quiet_ctx _ _ c rfl _)
  have q4 : Quiet (dropOwnLines cause) s (offerReport rep s3) := q3.trans
      ((offer_quiet _ _).mono (by unfold dropOwnLines; split <;> simp))
  have q5 : Quiet (dropOwnLines cause) s (raiseEvent .sweepDropped (offerReport rep s3)) := q4.trans
      ((raise_quiet _ _).mono (by unfold dropOwnLines; split <;> simp))
  set s5 := raiseEvent .sweepDropped (offerReport rep s3) with hs5
  have ho : OnlyLinkLines s3 s5 := (offerReport_only rep s3).trans (raiseEvent_only _ _)
  have hend : (if cause = .late then raiseEvent .ringLate s5 else s5) = (if cause = .late then raiseEvent .ringLate s5 else s5) :=
      rfl
  have ho6 : OnlyLinkLines s3 (if cause = .late then raiseEvent .ringLate s5 else s5) := by
    split
    · exact ho.trans (raiseEvent_only _ _)
    · exact ho
  refine ⟨?_, hl, ?_, ?_, ?_, ?_⟩
  · split
    · next hl => exact q5.trans ((raise_quiet _ _).mono (by unfold dropOwnLines; rw [if_pos hl]; simp))
    · exact q5
  · rw [ho6.engine]
    show s1.engine = _
    rw [hs1]; split <;> rfl
  · intro j hj
    rw [ho6.ctx, hs3, ctx_with_other _ _ hj, hctx]
  · rw [ho6.ctx, hs3, ctx_with_same, hcc, hctx]
  · rw [ho6.emitter]
    show s1.emitter = _
    rw [hs1]; split <;> rfl

/-- The lines a drop may move. -/
def dropLines (cause : DropCause) : List Source := .vpDone :: dropOwnLines cause

/-- A drop leaves everything else. -/
theorem dropSweep_quiet (cause : DropCause) (close : Bool) {s : State} (hc : Clean s) {r : SweepRecord} (hr : r ∈ s.listed) :
   Quiet (dropLines cause) s (dropSweep cause close s r) := by
  have d := dropPre_spec cause hc hr
  have dq : Quiet (dropLines cause) s (dropPre cause s r) := d.quiet.mono (by unfold dropLines; simp; intro x h; exact .inr h)
  rw [dropSweep_eq]; split
  · exact dq.trans ((applyClose_quiet _ (d.quiet.clean hc)).mono (by unfold dropLines dropOwnLines; split <;> simp))
  · exact dq

/-- A drop leaves the other contexts, and abandons the job only of the sweep dropped. -/
theorem dropSweep_other (cause : DropCause) (close : Bool) {s : State} (hc : Clean s) {r : SweepRecord} (hr : r ∈ s.listed) :
   (∀ j, j ≠ r.ctx → (dropSweep cause close s r).ctx j = s.ctx j) ∧ (dropSweep cause close s r).engine =
       (if r.state = .correlating then Engine.idle else s.engine) := by
  have d := dropPre_spec cause hc hr
  rw [dropSweep_eq]; split
  · exact ⟨fun j hj =>
      by rw [applyClose_other (d.quiet.clean hc) hj, d.other j hj], by rw [(applyClose_engine (d.quiet.clean hc)).1, d.engine]⟩
  · exact ⟨d.other, d.engine⟩

/-- A drop of a listed sweep, by R77. -/
theorem dropSweep_dropped (cause : DropCause) (close : Bool) {s : State} (hc : Clean s) {r : SweepRecord} (hr : r ∈ s.listed) :
    Dropped cause close r s (dropSweep cause close s r) := by
  have hx : (r.checkBad || (s.ctx r.ctx).checkBad) = false := by rw [hc.listed hr, hc.ctx]; rfl
  have hcc : let u := unlist r.id (if r.state = .correlating then abandonJob s else s)
      u.withCtx r.ctx { u.ctx r.ctx with attached := (u.ctx r.ctx).attached - 1, dropped := (u.ctx r.ctx).dropped + 1 } =
      { s with
        sweeps := { s.sweeps with recs := s.listed.filter fun q => q.id ≠ r.id }
        engine := if r.state = .correlating then { job := none, snapshot := [], scratch := [] } else s.engine
        stack := { s.stack with ctxs := s.stack.ctxs.set r.ctx.val { s.ctx r.ctx with
          attached := (s.ctx r.ctx).attached - 1, dropped := (s.ctx r.ctx).dropped + 1 } } } := by
    split <;> rfl
  rw [dropSweep_eq]
  have hp : ∃ u v w, u = { s with
        sweeps := { s.sweeps with recs := s.listed.filter fun q => q.id ≠ r.id }
        engine := if r.state = .correlating then { job := none, snapshot := [], scratch := [] } else s.engine
        stack := { s.stack with ctxs := s.stack.ctxs.set r.ctx.val { s.ctx r.ctx with
          attached := (s.ctx r.ctx).attached - 1, dropped := (s.ctx r.ctx).dropped + 1 } } } ∧
      Offered (.sweepDropped r.id r.fleet r.vp r.t0 cause (some r.state) (some r.ctx)) u v ∧ Raised .sweepDropped v w ∧
      (if cause = .late then Raised .ringLate w (dropPre cause s r) else dropPre cause s r = w) := by
    refine ⟨_, _, _, hcc, offerReport_offered _ _, raiseEvent_raised _ _, ?_⟩
    unfold dropPre
    rw [hx]
    simp only [markHit_false]
    split
    · exact raiseEvent_raised _ _
    · rfl
  obtain ⟨u, v, w, h1, h2, h3, h4⟩ := hp
  have hc' := (dropPre_spec cause hc hr).quiet.clean hc
  refine ⟨u, v, w, dropPre cause s r, h1, h2, h3, h4, ?_⟩
  cases close
  · rfl
  · exact applyClose_tested _ hc'

/-- Drops of listed sweeps, one after the other in list order (R79). -/
theorem drops_chain (cause : DropCause) (close : Bool) (l : List SweepRecord) {s : State} (hc : Clean s)
    (hp : l.Pairwise fun a b => a.id ≠ b.id) (hm : ∀ r ∈ l, r ∈ s.listed) :
    Chain (Dropped cause close) l s (l.foldl (dropSweep cause close) s) := by
  induction l generalizing s with
  | nil => rfl
  | cons r l ih =>
    have hp' := List.pairwise_cons.mp hp
    refine ⟨_, dropSweep_dropped cause close hc (hm r (by simp)), ih ((dropSweep_quiet cause close hc (hm r (by simp))).clean hc) hp'.2 ?_⟩
    intro x hx
    rw [dropSweep_listed, List.mem_filter]
    exact ⟨hm x (by simp [hx]), by simpa using (hp'.1 x hx).symm⟩

/-- Drops of listed sweeps leave everything else. -/
theorem drops_quiet (cause : DropCause) (close : Bool) (l : List SweepRecord) {s : State} (hc : Clean s)
    (hp : l.Pairwise fun a b => a.id ≠ b.id) (hm : ∀ r ∈ l, r ∈ s.listed) :
   Quiet (dropLines cause) s (l.foldl (dropSweep cause close) s) ∧
       (∀ j, (∀ r ∈ l, r.ctx ≠ j) → (l.foldl (dropSweep cause close) s).ctx j = s.ctx j) ∧
   (l.foldl (dropSweep cause close) s).engine = (if ∃ r ∈ l, r.state = .correlating then Engine.idle else s.engine) := by
  induction l generalizing s with
  | nil => exact ⟨.refl _ _, fun _ _ => rfl, by simp⟩
  | cons r l ih =>
    have hp' := List.pairwise_cons.mp hp
    have hr := hm r (by simp)
    have q := dropSweep_quiet cause close hc hr
    have o := dropSweep_other cause close hc hr
    obtain ⟨i1, i2, i3⟩ := ih (s := dropSweep cause close s r) (q.clean hc) hp'.2 (by
      intro x hx
      rw [dropSweep_listed, List.mem_filter]
      exact ⟨hm x (by simp [hx]), by simpa using (hp'.1 x hx).symm⟩)
    refine ⟨q.trans i1, fun j hj => ?_, ?_⟩
    · rw [List.foldl_cons, i2 j (fun x hx => hj x (by simp [hx])), o.1 j (fun e => hj r (by simp) e.symm)]
    · rw [List.foldl_cons, i3, o.2]
      by_cases h1 : r.state = .correlating <;> simp [h1]

/-- Records kept by id are the records the drop condition spares. -/
theorem filter_ids {l m : List SweepRecord} {p : SweepRecord → Bool} (h : l.Pairwise fun a b => a.id ≠ b.id)
    (hm : m = l.filter p) : l.filter (fun q => decide (q.id ∉ m.map (·.id))) = l.filter fun q => !p q := by
  subst hm
  apply List.filter_congr
  intro q hq
  cases hpq : p q with
  | true =>
    simp only [Bool.not_true, decide_eq_false_iff_not, not_not]
    exact List.mem_map_of_mem (List.mem_filter.mpr ⟨hq, hpq⟩)
  | false =>
    simp
    intro x hx hpx e
    have : x = q := by
      clear hpx hpq
      induction h with
      | nil => simp at hq
      | cons ha _ ih =>
        rcases List.mem_cons.mp hq with h1 | h1 <;> rcases List.mem_cons.mp hx with h2 | h2
        · rw [h1, h2]
        · rw [h1] at e; exact absurd e.symm (ha x h2)
        · rw [h2] at e; exact absurd e (ha q h1)
        · exact ih h1 h2
    rw [this, hpq] at hpx; cases hpx

/-- A context closed after the drops of `n` sweeps attached to it. -/
structure ClosedBy (i : Fin 4) (n : Nat) (s t : State) : Prop where
  free : (s.ctx i).folded = 0 → t.ctx i = Context.freed (s.ctx i).gen ∧ t.emitter = s.emitter
  emit : (s.ctx i).folded ≠ 0 → t.ctx i = { s.ctx i with state := .closing, attached := 0, dropped := (s.ctx i).dropped + n } ∧
      t.emitter.closing = s.emitter.closing ++ [i]

/-- Dropping every sweep attached to a CLOSE PENDING context closes it, at the last drop (R128). -/
theorem dropsClose (i : Fin 4) (l : List SweepRecord) {s : State} (hc : Clean s) (hp : l.Pairwise fun a b => a.id ≠ b.id)
    (hm : ∀ r ∈ l, r ∈ s.listed) (hi : ∀ r ∈ l, r.ctx = i)
   (hst : (s.ctx i).state = .closePending) (hat : (s.ctx i).attached = l.length) (hne : l ≠ []) : ClosedBy i l.length s
       (l.foldl (dropSweep .closed true) s) := by
  induction l generalizing s with
  | nil => exact absurd rfl hne
  | cons r l ih =>
    have hp' := List.pairwise_cons.mp hp
    have hr := hm r (by simp)
    have hri := hi r (by simp)
    have d := dropPre_spec .closed hc hr
    have down : (dropPre .closed s r).ctx i = { s.ctx i with attached := (s.ctx i).attached - 1, dropped :=
        (s.ctx i).dropped + 1 } := by
      have := d.own; rw [hri] at this; exact this
    have e : dropSweep .closed true s r = applyClose i (dropPre .closed s r) := by rw [dropSweep_eq, hri]; rfl
    rw [List.foldl_cons, e]
    have hc' := d.quiet.clean hc
    cases l with
    | nil =>
      rcases applyClose_spec i hc' with ⟨a, b⟩ | ⟨a, b⟩
      · simp only [List.foldl_nil]
        refine ⟨fun h0 => ?_, fun h0 => ?_⟩
        · have := b.free (by rw [down]; exact h0)
          rw [down] at this
          exact ⟨this.1, by rw [this.2, d.emitter]⟩
        · have := b.emit (by rw [down]; exact h0)
          rw [down] at this
          refine ⟨?_, by rw [this.2, d.emitter]⟩
          rw [this.1]; simp [hat]
      · exfalso; apply a; rw [down]; exact ⟨by simp [hat], .inr hst⟩
    | cons x l =>
      have hno : applyClose i (dropPre .closed s r) = dropPre .closed s r := by
        apply applyClose_not_due
        rw [down]; rintro ⟨h, _⟩; simp [hat] at h
      rw [hno]
      have := ih (s := dropPre .closed s r) hc' hp'.2 (by
        intro y hy
        rw [d.listed, List.mem_filter]
        exact ⟨hm y (List.mem_cons_of_mem _ hy), by simpa using (hp'.1 y hy).symm⟩) (fun y hy => hi y (List.mem_cons_of_mem _ hy))
            (by rw [down]; exact hst) (by rw [down]; simp [hat]) (by simp)
      refine ⟨fun h0 => ?_, fun h0 => ?_⟩
      · have := this.free (by rw [down]; exact h0)
        rw [down] at this
        exact ⟨this.1, by rw [this.2, d.emitter]⟩
      · have := this.emit (by rw [down]; exact h0)
        rw [down] at this
        refine ⟨?_, by rw [this.2, d.emitter]⟩
        rw [this.1]; simp; omega

/-- An eviction notice: every sweep whose first block fell below the window is dropped (R17, R79). -/
theorem evict_spec {s : State} (hc : Clean s) (hlo : ListOrdered s) (o : Nat) :
   Quiet [.sweepDropped, .ringLate, .vpDone, .noticeHigh] s (evictionNotice o s) ∧ (evictionNotice o s).listed = s.listed.filter
       (fun r => decide (o ≤ r.first)) := by
  unfold evictionNotice
  rw [hc.2.1]
  simp only [markHit_false]
  unfold dropWhere
  obtain ⟨q, _, _⟩ := drops_quiet .late true (s.listed.filter fun r => decide (r.first < o)) hc
      (hlo.2.2.1.sublist List.filter_sublist) (fun r hr => List.mem_of_mem_filter hr)
  refine ⟨q.mono (by decide), ?_⟩
  rw [drops_listed, filter_ids hlo.2.2.1 rfl]
  apply List.filter_congr
  intro x _; by_cases hx : x.first < o <;> simp [hx]; omega

/-! ### STOP (R129, R158, R159) -/

/-- Every OPEN context of the list becomes CLOSE PENDING. -/
theorem pendFold (l : List (Fin 4)) {s : State} : Quiet [] s (l.foldl pendCtx s) ∧ (l.foldl pendCtx s).engine = s.engine ∧
    (l.foldl pendCtx s).sweeps = s.sweeps ∧ (l.foldl pendCtx s).emitter = s.emitter ∧
   ∀ i, (l.foldl pendCtx s).ctx i = if i ∈ l ∧ (s.ctx i).state = .opened then
       { s.ctx i with state := .closePending } else s.ctx i := by
  induction l generalizing s with
  | nil => exact ⟨.refl _ _, rfl, rfl, rfl, fun i => by simp⟩
  | cons k l ih =>
    have hk : Quiet [] s (pendCtx s k) ∧ (pendCtx s k).engine = s.engine ∧ (pendCtx s k).sweeps = s.sweeps ∧
        (pendCtx s k).emitter = s.emitter ∧ ∀ i, (pendCtx s k).ctx i = if i = k ∧ (s.ctx i).state = .opened then
            { s.ctx i with state := .closePending } else s.ctx i := by
      unfold pendCtx; split
      · next h =>
        refine ⟨quiet_ctx _ _ { s.ctx k with state := .closePending } rfl _, rfl, rfl, rfl, fun i => ?_⟩
        by_cases e : i = k
        · subst e; rw [ctx_with_same, if_pos ⟨rfl, h⟩]
        · rw [ctx_with_other _ _ e, if_neg (by simp [e])]
      · next h =>
        refine ⟨.refl _ _, rfl, rfl, rfl, fun i => ?_⟩
        by_cases e : i = k
        · subst e; simp [h]
        · simp [e]
    obtain ⟨a1, a2, a3, a4, a5⟩ := hk
    obtain ⟨b1, b2, b3, b4, b5⟩ := ih (s := pendCtx s k)
    refine ⟨a1.trans b1, b2.trans a2, b3.trans a3, b4.trans a4, fun i => ?_⟩
    rw [List.foldl_cons, b5, a5]
    by_cases e : i = k
    · subst e
      by_cases h : (s.ctx i).state = .opened <;> simp [h]
    · simp [e]

/-- The close condition applied to contexts in order. -/
theorem closeFold (l : List (Fin 4)) {s : State} (hc : Clean s) (hn : l.Nodup) : 
   Quiet [.vpDone, .noticeHigh] s (l.foldl (fun t i => applyClose i t) s) ∧ (l.foldl (fun t i => applyClose i t) s).engine =
       s.engine ∧ (l.foldl (fun t i => applyClose i t) s).sweeps = s.sweeps ∧
   ∀ i, (((l.foldl (fun t i => applyClose i t) s).ctx i) = s.ctx i ∧ (i ∈ l → ¬ CloseDue (s.ctx i))) ∨
       (CloseDue (s.ctx i) ∧ (((l.foldl (fun t i => applyClose i t) s).ctx i).state = .free ∨ ((l.foldl (fun t i =>
           applyClose i t) s).ctx i).state = .closing)) := by
  induction l generalizing s with
  | nil => exact ⟨.refl _ _, rfl, rfl, fun i => .inl ⟨rfl, by simp⟩⟩
  | cons k l ih =>
    have q := applyClose_quiet k hc
    have e := applyClose_engine (i := k) hc
    have hn' := List.nodup_cons.mp hn
    obtain ⟨b1, b2, b3, b4⟩ := ih (s := applyClose k s) (q.clean hc) hn'.2
    refine ⟨q.trans b1, b2.trans e.1, b3.trans e.2, fun i => ?_⟩
    simp only [List.foldl_cons]
    by_cases hik : i = k
    · subst hik
      rcases b4 i with ⟨c1, c2⟩ | ⟨c1, c2⟩
      · rcases applyClose_spec i hc with ⟨d, h⟩ | ⟨d, h⟩
        · right
          refine ⟨d, ?_⟩
          rw [c1]
          by_cases hf : (s.ctx i).folded = 0
          · left; rw [(h.free hf).1]; rfl
          · right; rw [(h.emit hf).1]
        · left; rw [c1, h]; exact ⟨rfl, fun _ => d⟩
      · exfalso
        rcases applyClose_spec i hc with ⟨d, h⟩ | ⟨d, h⟩
        · by_cases hf : (s.ctx i).folded = 0
          · rw [(h.free hf).1] at c1; rcases c1.2 with ⟨x, _⟩ | x <;> cases x
          · rw [(h.emit hf).1] at c1; rcases c1.2 with ⟨x, _⟩ | x <;> cases x
        · rw [h] at c1; exact d c1
    · have := b4 i
      rw [applyClose_other hc hik] at this
      simpa [hik] using this

/-- The close condition applied to contexts in order, by R125. -/
theorem closes_chain (l : List (Fin 4)) {s : State} (hc : Clean s) :
    Chain CloseTested l s (l.foldl (fun t i => applyClose i t) s) := by
  induction l generalizing s with
  | nil => rfl
  | cons i l ih => exact ⟨_, applyClose_tested i hc, ih ((applyClose_quiet i hc).clean hc)⟩

/-- Every collecting context of the list is freed without emission. -/
theorem discardFold (l : List (Fin 4)) {s : State} (hn : l.Nodup) : Quiet [] s (l.foldl discardCtx s) ∧
    (l.foldl discardCtx s).engine = s.engine ∧ (l.foldl discardCtx s).sweeps = s.sweeps ∧ (l.foldl discardCtx s).emitter =
        s.emitter ∧
   ∀ i, (l.foldl discardCtx s).ctx i = if i ∈ l ∧ collecting (s.ctx i) = true then Context.freed (s.ctx i).gen else s.ctx i := by
  induction l generalizing s with
  | nil => exact ⟨.refl _ _, rfl, rfl, rfl, fun i => by simp⟩
  | cons k l ih =>
    have hn' := List.nodup_cons.mp hn
    have hk : Quiet [] s (discardCtx s k) ∧ (discardCtx s k).engine = s.engine ∧ (discardCtx s k).sweeps = s.sweeps ∧
        (discardCtx s k).emitter = s.emitter ∧ ∀ i, (discardCtx s k).ctx i = if i = k ∧ collecting (s.ctx i) =
            true then Context.freed (s.ctx i).gen else s.ctx i := by
      unfold discardCtx; split
      · next h =>
        refine ⟨quiet_free _ _ _, rfl, rfl, rfl, fun i => ?_⟩
        by_cases e : i = k
        · subst e; rw [freeCtx_ctx, if_pos ⟨rfl, h⟩]
        · rw [freeCtx_other _ e, if_neg (by simp [e])]
      · next h =>
        refine ⟨.refl _ _, rfl, rfl, rfl, fun i => ?_⟩
        by_cases e : i = k
        · subst e; simp [h]
        · simp [e]
    obtain ⟨a1, a2, a3, a4, a5⟩ := hk
    obtain ⟨b1, b2, b3, b4, b5⟩ := ih (s := discardCtx s k) hn'.2
    refine ⟨a1.trans b1, b2.trans a2, b3.trans a3, b4.trans a4, fun i => ?_⟩
    rw [List.foldl_cons, b5, a5]
    by_cases e : i = k
    · subst e; simp [hn'.1]
    · simp [e]

/-- Every collecting context freed in order, by R129. -/
theorem discards_chain (l : List (Fin 4)) (s : State) :
    Chain (fun i a b => if (a.ctx i).state = .opened ∨ (a.ctx i).state = .closePending then Frees i a b else b = a) l s
      (l.foldl discardCtx s) := by
  induction l generalizing s with
  | nil => rfl
  | cons i l ih =>
    refine ⟨discardCtx s i, ?_, ih _⟩
    unfold discardCtx collecting
    simp only [Bool.or_eq_true, decide_eq_true_eq]
    split
    · exact freeCtx_frees i s
    · rfl

theorem allFree_iff (s : State) : s.allFree = true ↔ ∀ i, (s.ctx i).state = .free := by
  unfold State.allFree
  rw [List.all_eq_true]
  constructor
  · intro h i; simpa using h i (mem_ctxOrder i)
  · intro h i _; simpa using h i

/-- The drain test of a DRAINING part (R160). -/
theorem drain_spec {s : State} (hc : Clean s) (hop : s.mode.op = .draining) :
   ∀ t, t = drainTest s → OnlyLinkLines { s with mode := t.mode } t ∧ t.link.rxBuf = s.link.rxBuf ∧ t.link.accepted =
       s.link.accepted ∧ LinesFollow [.acquire, .noticeHigh] s t ∧
   (if s.listed = [] ∧ ∀ i, (s.ctx i).state = .free then t.mode = { s.mode with op := .setup, drain := none } else t.mode =
       s.mode) := by
  intro t ht
  unfold drainTest at ht
  rw [if_pos hop, hc.2.2] at ht
  simp only [markHit_false, allFree_iff] at ht
  split
  · next h =>
    rw [if_pos h] at ht
    set r : Report := .drained (s.mode.drain.getD .finish) s.time.n
    have h1 := setOp_only .setup none s
    have h2 := offerReport_only r (setOp .setup none s)
    have hm : t.mode = { s.mode with op := .setup, drain := none } := by rw [ht, h2.mode, h1.mode]; rfl
    have hk := offerReport_link_frame r (setOp .setup none s)
    refine ⟨?_, by rw [ht, hk]; simp, by rw [ht, hk]; simp, ?_, hm⟩
    · rw [hm]; rw [ht]
      exact OnlyLinkLines.trans h1 h2
    · rw [ht]; exact ((setOp_follow _ _ s).mono (by simp)).trans ((offerReport_follow r _).mono (by simp))
  · next h =>
    rw [if_neg h] at ht
    rw [ht]; exact ⟨rfl, rfl, rfl, .refl _ _, rfl⟩

/-- The drain test, by R160. -/
theorem drainTest_tested {s : State} (hc : Clean s) : DrainTested s (drainTest s) := by
  unfold drainTest DrainTested
  simp only [hc.2.2, markHit_false, allFree_iff]
  by_cases h1 : s.mode.op = .draining
  · simp only [h1, if_true, true_and]
    by_cases h2 : s.listed = [] ∧ ∀ i, (s.ctx i).state = .free
    · refine .inl ⟨h2, ?_⟩
      rw [if_pos h2]
      have : setOp .setup none s = s.withMode { s.mode with op := .setup, drain := none } := by simp [setOp, h1]
      rw [this]
      exact offerReport_offered _ _
    · exact .inr ⟨h2, by rw [if_neg h2]⟩
  · simp [h1]

/-- A drain test makes no check error, and leaves the tables. -/
theorem drainTest_quiet {s : State} (hc : Clean s) : Clean (drainTest s) ∧ (drainTest s).sweeps = s.sweeps ∧
    (drainTest s).engine = s.engine ∧ (drainTest s).stack = s.stack ∧ (drainTest s).emitter = s.emitter ∧
    (drainTest s).ring = s.ring ∧ (drainTest s).pilots = s.pilots ∧ (drainTest s).time = s.time ∧ (drainTest s).fleets = s.fleets ∧
    (drainTest s).router.inputs = s.router.inputs ∧ (drainTest s).router.pins = s.router.pins ∧
    (drainTest s).pending = s.pending ∧ (drainTest s).checkHit = s.checkHit ∧ LinesFollow [.noticeHigh] s (drainTest s) := by
  rcases drainTest_tested hc with ⟨-, h⟩ | ⟨-, h⟩
  · unfold drainTest
    simp only [hc.2.2, markHit_false]
    split
    · next h1 =>
      split
      · have : setOp .setup none s = s.withMode { s.mode with op := .setup, drain := none } := by simp [setOp, h1]
        rw [this]
        have o := offerReport_only (.drained (s.mode.drain.getD .finish) s.time.n) (s.withMode { s.mode with op := .setup, drain := none })
        have f := offerReport_follow (.drained (s.mode.drain.getD .finish) s.time.n) (s.withMode { s.mode with op := .setup, drain := none })
        exact ⟨clean_only o hc, o.sweeps, o.engine, o.stack, o.emitter, o.ring, o.pilots, o.time, o.fleets, o.inputs, o.pins, o.pending,
          o.checkHit, f⟩
      · exact ⟨hc, rfl, rfl, rfl, rfl, rfl, rfl, rfl, rfl, rfl, rfl, rfl, rfl, .refl _ _⟩
    · exact ⟨hc, rfl, rfl, rfl, rfl, rfl, rfl, rfl, rfl, rfl, rfl, rfl, rfl, .refl _ _⟩
  · rw [h]; exact ⟨hc, rfl, rfl, rfl, rfl, rfl, rfl, rfl, rfl, rfl, rfl, rfl, rfl, .refl _ _⟩

/-! ### Readiness and the arbiter (R75, R84) -/

/-- An arrival notice leaves everything but the states of sweeps. -/
theorem arrival_spec {s : State} (hc : Clean s) : Quiet [] s (arrivalNotice s) ∧ (arrivalNotice s).listed.map (·.id) = s.listed.map
    (·.id) := by
  unfold arrivalNotice
  rw [hc.2.1]
  simp only [markHit_false]
  refine ⟨⟨rfl, rfl, rfl, rfl, rfl, rfl, rfl, rfl, rfl, rfl, rfl, .of_outputs rfl, fun _ => Clean.of hc.1 ?_ hc.ctx⟩, ?_⟩
  · intro q hq
    simp only [State.withListed_listed, List.mem_map] at hq
    obtain ⟨x, hx, rfl⟩ := hq
    rw [readied_checkBad]; exact hc.listed hx
  · simp only [State.withListed_listed, List.map_map]
    apply List.map_congr_left
    intro q _; exact readied_id s q

/-- The arbiter leaves everything but the engine and the state of the sweep it begins. -/
theorem arbitrate_spec {s : State} (hc : Clean s) : Quiet [] s (arbitrate s) ∧
    (arbitrate s).listed.map (·.id) = s.listed.map (·.id) ∧ (arbitrate s).stack = s.stack ∧ (arbitrate s).emitter = s.emitter ∧
        (arbitrate s).link = s.link := by
  unfold arbitrate
  cases hj : s.engine.job with
  | some j => exact ⟨.refl _ _, rfl, rfl, rfl, rfl⟩
  | none =>
    cases hf : firstReady s with
    | none => exact ⟨.refl _ _, rfl, rfl, rfl, rfl⟩
    | some r =>
      have hr : r ∈ s.listed := List.mem_of_find?_eq_some hf
      simp only
      rw [hc.2.1, if_neg (by decide)]
      refine ⟨?_, ?_, rfl, rfl, rfl⟩
      · refine ⟨rfl, rfl, rfl, rfl, rfl, rfl, rfl, rfl, rfl, rfl, rfl, .of_outputs rfl, fun _ => Clean.of hc.1 ?_ hc.ctx⟩
        intro q hq
        simp only [beginJob, State.withEngine_listed, changeSweep, State.withListed_listed, List.mem_map] at hq
        obtain ⟨x, hx, rfl⟩ := hq
        have := hc.listed hx
        split <;> exact this
      · simp only [beginJob, State.withEngine_listed, changeSweep, State.withListed_listed, List.map_map]
        apply List.map_congr_left
        intro q _
        simp only [Function.comp]; split <;> rfl

/-- Two lists paired by a function. -/
theorem forall₂_map {α β : Type} {R : α → β → Prop} (g : α → β) (l : List α) (h : ∀ a ∈ l, R a (g a)) :
    List.Forall₂ R l (l.map g) := by
  induction l with
  | nil => exact .nil
  | cons a l ih => exact .cons (h a (by simp)) (ih fun x hx => h x (by simp [hx]))

/-- An arrival notice, by R18 and R75. -/
theorem arrivalNotice_tested {s : State} (hc : Clean s) : AllTested s (arrivalNotice s) := by
  unfold arrivalNotice
  rw [hc.2.1]
  exact ⟨forall₂_map _ _ fun r _ => readied_tested s r, rfl⟩

/-- The gap snapshot, block by block (R87). -/
theorem snapshot_spec {s : State} {r : SweepRecord} {g k : Nat} (hg : g < s.groups) (hk : r.first + k ≤ r.last) :
    ((gapSnapshot s r).getD g []).getD k false = ringValid s g (r.first + k) := by
  unfold gapSnapshot spanBlocks
  have h1 : ((List.range s.groups).map fun g => (List.range' r.first (r.last + 1 - r.first)).map fun b => ringValid s g b).getD g
      [] = (List.range' r.first (r.last + 1 - r.first)).map fun b => ringValid s g b := by
    rw [List.getD_eq_getElem _ _ (by simpa using hg)]; simp
  rw [h1, List.getD_eq_getElem _ _ (by simp; omega)]
  simp

theorem snapshot_length (s : State) (r : SweepRecord) : (gapSnapshot s r).length = s.groups ∧
    ∀ g < s.groups, ((gapSnapshot s r).getD g []).length = r.last + 1 - r.first := by
  refine ⟨by simp [gapSnapshot], fun g hg => ?_⟩
  rw [List.getD_eq_getElem _ _ (by simpa [gapSnapshot] using hg)]
  simp [gapSnapshot, spanBlocks]

/-- The engine's arbiter, by R84, R86 and R87. -/
theorem arbitrate_looks {s : State} (hc : Clean s) (hid : s.listed.Pairwise fun a b => a.id ≠ b.id) : EngineLooks s (arbitrate s) := by
  unfold arbitrate
  cases hj : s.engine.job with
  | some j => exact .inl ⟨.inl (by rw [hj]; rfl), rfl⟩
  | none =>
    cases hf : firstReady s with
    | none => exact .inl ⟨.inr (firstReady_none.mp hf), rfl⟩
    | some r =>
      obtain ⟨hr, a, b, hl, hn⟩ := List.find?_eq_some_iff_append.mp hf
      refine .inr ⟨hj, a, r, b, hl, by simpa using hr, fun q hq => by simpa using hn q hq, ?_⟩
      have e : changeSweep r.id (fun q => { q with state := .correlating }) s =
          s.withListed (a ++ { r with state := .correlating } :: b) := by
        unfold changeSweep
        rw [hl, map_id_split (by rw [← hl]; exact hid)]
      have hbj : beginJob r s = (s.withListed (a ++ { r with state := .correlating } :: b)).withEngine
          { job := some { sweep := { r with state := .correlating }, pass := .correlation, done := 0, elapsed := 0 }
            snapshot := gapSnapshot s r, scratch := [] } := by
        simp only [beginJob, e]
      simp only
      rw [hc.2.1, if_neg (by decide), hbj]
      refine ⟨rfl, (snapshot_length s r).1, fun g hg => ⟨(snapshot_length s r).2 g hg, fun k hk => ?_⟩⟩
      show ((gapSnapshot s r).getD g []).getD k false = true ↔ _
      rw [snapshot_spec hg hk]
      exact ringValid_iff _ _ _

end Sys2Proof.Machine
end

