-- ==== Sys2Proof/Laws/Entries.lean ====
section
/-! SUPPORT. Entering the list: context resolution, ids, the refused and the admitted entry (R66 to R69, R122 to R124). -/

namespace Sys2Proof.Machine

/-! ### Contexts found -/

theorem collects_iff (s : State) (vp : VpId) (i : Fin 4) : (collecting (s.ctx i) && decide ((s.ctx i).vp = vp)) = true ↔
    CollectsVp s vp i := by
  unfold collecting CollectsVp; simp

theorem findCtx_holds {s : State} {vp : VpId} {i : Fin 4} (h : HoldsVp s vp i) : findCtx
    (fun c => collecting c && decide (c.vp = vp)) s = some i := by
  rw [findCtx_some]
  refine ⟨(collects_iff s vp i).mpr h.1, fun j hj => ?_⟩
  cases hb : collecting (s.ctx j) && decide ((s.ctx j).vp = vp)
  · rfl
  · exact absurd ((collects_iff s vp j).mp hb) (h.2 j hj)

theorem findCtx_holds_none {s : State} {vp : VpId} (h : ∀ i, ¬ CollectsVp s vp i) : findCtx
    (fun c => collecting c && decide (c.vp = vp)) s = none := by
  rw [findCtx_none]
  intro j
  cases hb : collecting (s.ctx j) && decide ((s.ctx j).vp = vp)
  · rfl
  · exact absurd ((collects_iff s vp j).mp hb) (h j)

theorem findCtx_free {s : State} {i : Fin 4} (h : FirstFree s i) : findCtx (fun c => decide (c.state = .free)) s = some i := by
  rw [findCtx_some]
  exact ⟨by simp [h.1], fun j hj => by simp [h.2 j hj]⟩

theorem findCtx_free_none {s : State} (h : ∀ i, (s.ctx i).state ≠ .free) : findCtx (fun c => decide (c.state = .free)) s = none :=
    by
  rw [findCtx_none]; intro i; simp [h i]

theorem firstEvicted_iff (s : State) (t0 : SampleIndex) : firstEvicted s t0 = true ↔ BelowWindow s t0 := by
  unfold firstEvicted BelowWindow
  cases s.ring.head with
  | none => simp
  | some h => simp only [oldestBlock, Config.ringBlocks, Config.blockSamples]; simp; exact decide_eq_true_iff

theorem collecting_iff (s : State) (i : Fin 4) : collecting (s.ctx i) = true ↔
    (s.ctx i).state = .opened ∨ (s.ctx i).state = .closePending := by unfold collecting; simp

/-- The lowest-numbered context for which `p` holds, or none. -/
theorem findCtx_cases (p : Context → Bool) (s : State) :
    (∃ i, findCtx p s = some i ∧ p (s.ctx i) = true ∧ ∀ j : Fin 4, j.val < i.val → p (s.ctx j) = false) ∨
    (findCtx p s = none ∧ ∀ i, p (s.ctx i) = false) := by
  cases h : findCtx p s with
  | none => exact .inr ⟨rfl, findCtx_none.mp h⟩
  | some i => exact .inl ⟨i, rfl, findCtx_some.mp h⟩

/-- The context a force-close takes, by R124. -/
theorem forceCandidate_iff (s : State) (i : Fin 4) : forceCandidate s = some i ↔ ForceCandidate s i := by
  unfold forceCandidate ForceCandidate
  rw [List.find?_eq_some_iff_append]
  simp only [Bool.and_eq_true, collecting_iff, decide_eq_true_eq, Bool.not_eq_true', Bool.and_eq_false_iff, decide_eq_false_iff_not]
  constructor
  · rintro ⟨⟨h1, h2⟩, a, b, h3, h4⟩
    refine ⟨h1, h2, a, b, h3, fun j hj hc => ?_⟩
    rcases h4 j hj with h | h
    · rw [(collecting_iff s j).mpr hc] at h; cases h
    · exact h
  · rintro ⟨h1, h2, a, b, h3, h4⟩
    refine ⟨⟨h1, h2⟩, a, b, h3, fun j hj => ?_⟩
    by_cases hc : collecting (s.ctx j) = true
    · exact .inr (h4 j hj ((collecting_iff s j).mp hc))
    · exact .inl (by simpa using hc)

theorem forceCandidate_none {s : State} (h : forceCandidate s = none) :
    ∀ i ∈ s.stack.openOrder, ((s.ctx i).state = .opened ∨ (s.ctx i).state = .closePending) → (s.ctx i).attached ≠ 0 := by
  unfold forceCandidate at h
  rw [List.find?_eq_none] at h
  intro i hi hs ha
  exact h i hi (by rw [(collecting_iff s i).mpr hs, ha]; rfl)

/-- What context resolution can do: attach the sweep, or refuse it, with the force-close to CLOSING that stands (R122 to R124). -/
theorem resolve_cases (f : Fin 4) (vp : VpId) (t0 : SampleIndex) {s : State} (hc : Clean s) :
    (∃ i u, resolveCtx vp (s.fleet f).k (s.fleet f).target s = (u, .attached i) ∧ Resolvable s f vp ∧ Attaches f vp i s u) ∨
    (∃ why u, resolveCtx vp (s.fleet f).k (s.fleet f).target s = (u, .refused why) ∧ ¬ Resolvable s f vp ∧
      (ChecksPass s f t0 → EntryTurned s f vp t0 why u)) := by
  unfold resolveCtx
  rw [hc.2.2]
  simp only [Bool.false_eq_true, if_false]
  rcases findCtx_cases (fun c => collecting c && decide (c.vp = vp)) s with ⟨i, e, h1, h2⟩ | ⟨e, h1⟩
  · have hv : HoldsVp s vp i := ⟨(collects_iff s vp i).mp h1, fun j hj hx => by
      have := (collects_iff s vp j).mpr hx; rw [h2 j hj] at this; cases this⟩
    have huniq : ∀ j, HoldsVp s vp j → j = i := fun j hj => by
      have := findCtx_holds hj; rw [e] at this; exact (Option.some.inj this).symm
    have hno : ¬ ∀ j, ¬ CollectsVp s vp j := fun h => h i hv.1
    rw [e]
    simp only [attachCtx]
    split
    · next hp =>
      refine .inr ⟨_, _, rfl, ?_, fun hp' => .inl ⟨⟨hp', i, hv, .inl hp⟩, rfl⟩⟩
      rintro (⟨j, hj, hs, -⟩ | ⟨hx, -⟩)
      · rw [huniq j hj, hp] at hs; cases hs
      · exact hno hx
    · next hp =>
      have ho : (s.ctx i).state = .opened := hv.1.1.resolve_right hp
      split
      · next hk =>
        refine .inr ⟨_, _, rfl, ?_, fun hp' => .inl ⟨⟨hp', i, hv, ho, hk⟩, rfl⟩⟩
        rintro (⟨j, hj, -, hs, -⟩ | ⟨hx, -⟩)
        · rw [huniq j hj] at hs; exact hk hs
        · exact hno hx
      · next hk =>
        have hk' : (s.ctx i).k = (s.fleet f).k := by simpa using hk
        split
        · next ht =>
          refine .inr ⟨_, _, rfl, ?_, fun hp' => .inl ⟨⟨hp', i, hv, .inr ⟨hk', ht⟩⟩, rfl⟩⟩
          rintro (⟨j, hj, -, -, hs⟩ | ⟨hx, -⟩)
          · rw [huniq j hj] at hs; exact hs ht
          · exact hno hx
        · next ht => exact .inl ⟨i, _, rfl, .inl ⟨i, hv, ho, hk', ht⟩, .inl ⟨hv, rfl⟩⟩
  · have hno : ∀ i, ¬ CollectsVp s vp i := fun i hx => by
      have := (collects_iff s vp i).mpr hx; rw [h1 i] at this; cases this
    rw [e]
    simp only
    rcases findCtx_cases (fun c => decide (c.state = .free)) s with ⟨i, e2, h2, h3⟩ | ⟨e2, h2⟩
    · have hf : FirstFree s i := ⟨by simpa using h2, fun j hj => by simpa using h3 j hj⟩
      rw [e2]
      simp only [openFree, e2]
      exact .inl ⟨i, _, rfl, .inr ⟨hno, .inl ⟨i, hf.1⟩⟩, .inr (.inl ⟨hno, hf, rfl⟩)⟩
    · have hnf : ∀ i, (s.ctx i).state ≠ .free := fun i => by simpa using h2 i
      rw [e2]
      simp only
      cases hfc : forceCandidate s with
      | none =>
        simp only
        refine .inr ⟨_, _, rfl, ?_, fun hp => .inl ⟨⟨hp, hno, hnf, forceCandidate_none hfc⟩, rfl⟩⟩
        rintro (⟨j, hj, -⟩ | ⟨-, ⟨j, hj⟩ | ⟨j, hj, -⟩⟩)
        · exact hno j hj.1
        · exact hnf j hj
        · rw [(forceCandidate_iff s j).mpr hj] at hfc; cases hfc
      | some i =>
        have hf := (forceCandidate_iff s i).mp hfc
        have hcl := closeCtx_spec i hc
        simp only [openFree]
        by_cases h0 : (s.ctx i).folded = 0
        · have hi := (hcl.free h0).1
          have ef : findCtx (fun c => decide (c.state = .free)) (closeCtx i s) = some i := by
            rw [findCtx_some]
            refine ⟨by rw [hi]; rfl, fun j hj => ?_⟩
            rw [hcl.other j (fun k => by rw [k] at hj; omega)]; simp [hnf j]
          rw [ef]
          refine .inl ⟨i, _, rfl, .inr ⟨hno, .inr ⟨i, hf, h0⟩⟩, .inr (.inr ⟨hno, hnf, hf, h0, _, closeCtx_closes i hc, ?_⟩)⟩
          have e1 : s.fleet f = (closeCtx i s).fleet f := by simp only [State.fleet, hcl.quiet.fleets]
          rw [e1]; rfl
        · have hi := (hcl.emit h0).1
          have ef : findCtx (fun c => decide (c.state = .free)) (closeCtx i s) = none := by
            rw [findCtx_none]
            intro j
            by_cases hj : j = i
            · subst hj; rw [hi]; rfl
            · rw [hcl.other j hj]; simp [hnf j]
          rw [ef]
          refine .inr ⟨_, _, rfl, ?_, fun hp => .inr ⟨rfl, hp, hno, hnf, i, hf, h0, closeCtx_closes i hc⟩⟩
          rintro (⟨j, hj, -⟩ | ⟨-, ⟨j, hj⟩ | ⟨j, hj, hx⟩⟩)
          · exact hno j hj.1
          · exact hnf j hj
          · have := (forceCandidate_iff s j).mpr hj
            rw [hfc] at this; cases this; exact h0 hx

theorem openCtx_quiet (i : Fin 4) (vp : VpId) (k tg : Nat) (s : State) (srcs) : Quiet srcs s (openCtx i vp k tg s) := by
  refine ⟨rfl, rfl, rfl, rfl, rfl, rfl, rfl, rfl, rfl, rfl, rfl, .of_outputs rfl, fun c => Clean.of c.1 (fun r hr => c.listed hr) ?_⟩
  intro j
  unfold openCtx
  by_cases e : j = i
  · subst e; rw [ctx_with_same]
  · rw [ctx_with_other _ _ e]; exact c.ctx j

/-- All that a resolution leaves. -/
theorem resolve_kept (vp : VpId) (k tg : Nat) {s : State} (hc : Clean s) : let u := (resolveCtx vp k tg s).1
    Quiet [.vpDone, .noticeHigh] s u ∧ u.sweeps = s.sweeps ∧ u.engine = s.engine := by
  have hopen : ∀ t : State, Quiet [.vpDone, .noticeHigh] t (openFree vp k tg t).1 ∧ (openFree vp k tg t).1.sweeps = t.sweeps ∧
      (openFree vp k tg t).1.engine = t.engine := by
    intro t
    unfold openFree
    split
    · exact ⟨openCtx_quiet _ _ _ _ _ _, rfl, rfl⟩
    · exact ⟨.refl _ _, rfl, rfl⟩
  unfold resolveCtx
  rw [hc.2.2]
  simp only [Bool.false_eq_true, if_false]
  split
  · unfold attachCtx
    simp only
    split
    · exact ⟨.refl _ _, rfl, rfl⟩
    · split
      · exact ⟨.refl _ _, rfl, rfl⟩
      · split
        · exact ⟨.refl _ _, rfl, rfl⟩
        · refine ⟨?_, rfl, rfl⟩
          apply quiet_ctx; rfl
  · split
    · exact hopen s
    · split
      · next i _ =>
        have c := closeCtx_spec i hc
        obtain ⟨h1, h2, h3⟩ := hopen (closeCtx i s)
        exact ⟨c.quiet.trans h1, h2.trans c.sweeps, h3.trans c.engine⟩
      · exact ⟨.refl _ _, rfl, rfl⟩

/-! ### Ids (R67) -/

/-- The id `k` places after `n`, 65,535 followed by 1. -/
def idPlus (n k : Nat) : Nat := (n - 1 + k) % 65535 + 1

theorem idAfter_cand {n k : Nat} : idAfter (idPlus n k) = idPlus n (k + 1) := by
  unfold idAfter idPlus
  split <;> omega

theorem freeId_cand (ids : List Nat) {n : Nat} (fuel k : Nat) : freeId ids fuel (idPlus n k) ∉ ids ∨ ∀ j < fuel,
    idPlus n (k + j) ∈ ids := by
  induction fuel generalizing k with
  | zero => right; intro j hj; omega
  | succ f ih =>
    unfold freeId
    by_cases hm : idPlus n k ∈ ids
    · have : ids.contains (idPlus n k) = true := by simpa using hm
      rw [if_pos this, idAfter_cand]
      rcases ih (k + 1) with h1 | h1
      · exact .inl h1
      · right
        intro j hj
        rcases Nat.eq_zero_or_pos j with rfl | hp
        · simpa using hm
        · have := h1 (j - 1) (by omega)
          rw [show k + 1 + (j - 1) = k + j by omega] at this; exact this
    · have : ¬ ids.contains (idPlus n k) = true := by simpa using hm
      rw [if_neg this]; exact .inl hm

/-- An id stays within 1..65,535. -/
theorem freeId_range {ids : List Nat} {fuel n : Nat} (h : 1 ≤ n ∧ n ≤ 65535) : 1 ≤ freeId ids fuel n ∧ freeId ids fuel n ≤ 65535 :=
    by
  induction fuel generalizing n with
  | zero => exact h
  | succ f ih =>
    unfold freeId
    split
    · exact ih (by unfold idAfter; split <;> omega)
    · exact h

/-- With fewer than 16 listed ids the id found is not listed. -/
theorem freeId_new {ids : List Nat} {n : Nat} (h : 1 ≤ n ∧ n ≤ 65535) (hl : ids.length < 16) : freeId ids 16 n ∉ ids := by
  have h0 : idPlus n 0 = n := by unfold idPlus; omega
  rcases freeId_cand ids 16 0 with h1 | h1
  · rw [h0] at h1; exact h1
  · exfalso
    have hsub : (Finset.range 16).image (fun j => idPlus n (0 + j)) ⊆ ids.toFinset := by
      intro x hx
      obtain ⟨j, hj, rfl⟩ := Finset.mem_image.mp hx
      exact List.mem_toFinset.mpr (h1 j (Finset.mem_range.mp hj))
    have hc := Finset.card_le_card hsub
    rw [Finset.card_image_of_injOn] at hc
    · have := List.toFinset_card_le ids
      simp at hc; omega
    · intro a ha b hb e
      simp only [Finset.coe_range, Set.mem_Iio] at ha hb
      simp only [idPlus] at e
      omega

/-- The id found is the first from `n` on that is not listed, or the search ran out. -/
theorem freeId_first (ids : List Nat) {n : Nat} (fuel k : Nat) : ∃ j ≤ fuel, freeId ids fuel (idPlus n k) = idPlus n (k + j) ∧
    ∀ m < j, idPlus n (k + m) ∈ ids := by
  induction fuel generalizing k with
  | zero => exact ⟨0, by omega, rfl, fun m hm => by omega⟩
  | succ f ih =>
    unfold freeId
    by_cases hm : idPlus n k ∈ ids
    · rw [if_pos (by simpa using hm), idAfter_cand]
      obtain ⟨j, h1, h2, h3⟩ := ih (k + 1)
      refine ⟨j + 1, by omega, by rw [h2]; congr 1; omega, fun m hj => ?_⟩
      rcases Nat.eq_zero_or_pos m with rfl | hp
      · exact hm
      · have := h3 (m - 1) (by omega)
        rw [show k + 1 + (m - 1) = k + m by omega] at this; exact this
    · rw [if_neg (by simpa using hm)]
      exact ⟨0, by omega, rfl, fun m hj => by omega⟩

/-- The id of an entry, by R67. -/
theorem freeId_freshId {s : State} (hn : 1 ≤ s.sweeps.nextId ∧ s.sweeps.nextId ≤ 65535) (hl : s.listed.length < 16) :
    FreshId s (freeId (s.listed.map (·.id)) 16 s.sweeps.nextId) := by
  have h0 : idPlus s.sweeps.nextId 0 = s.sweeps.nextId := by unfold idPlus; omega
  obtain ⟨j, -, h2, h3⟩ := freeId_first (s.listed.map (·.id)) 16 0
  rw [h0] at h2
  have hnew := freeId_new hn (ids := s.listed.map (·.id)) (by simpa using hl)
  refine ⟨j, by rw [h2]; simp [idPlus], fun r hr e => hnew (List.mem_map.mpr ⟨r, hr, e⟩), fun m hm => ?_⟩
  obtain ⟨r, hr, e⟩ := List.mem_map.mp (h3 m hm)
  exact ⟨r, hr, by rw [e]; simp [idPlus]⟩

/-! ### Entries (R69) -/

theorem checksPass_or (s : State) (f : Fin 4) (t0 : SampleIndex) : ChecksPass s f t0 ∨ (¬ ChecksPass s f t0 ∧
    ((Config.sweepCapacity ≤ s.listed.length) ∨
     (¬ Config.sweepCapacity ≤ s.listed.length ∧ (s.slot (s.fleet f).slot).state ≠ .valid) ∨
     (¬ Config.sweepCapacity ≤ s.listed.length ∧ ¬ (s.slot (s.fleet f).slot).state ≠ .valid ∧ firstEvicted s t0 = true))) := by
  have hcap : Config.sweepCapacity = 16 := rfl
  rw [firstEvicted_iff, hcap]
  unfold ChecksPass
  by_cases h1 : 16 ≤ s.listed.length
  · exact .inr ⟨fun h => by omega, .inl h1⟩
  · by_cases h2 : (s.slot (s.fleet f).slot).state = .valid
    · by_cases h3 : BelowWindow s t0
      · exact .inr ⟨fun h => h.2.2 h3, .inr (.inr ⟨h1, by simpa using h2, h3⟩)⟩
      · exact .inl ⟨by omega, h2, h3⟩
    · exact .inr ⟨fun h => h2 h.2.1, .inr (.inl ⟨h1, h2⟩)⟩

/-- A refused entry, by R69, R122 and R124. -/
theorem enter_turned {s : State} (o : Origin) (f : Fin 4) (vp : VpId) (t0 : SampleIndex) (cmp : Option Nat) (hc : Clean s)
    (h : ¬ (ChecksPass s f t0 ∧ Resolvable s f vp)) :
    ∃ why u, enterSweep o f vp t0 cmp s = (u, .refused why) ∧ EntryTurned s f vp t0 why u ∧ Clean u := by
  unfold enterSweep
  simp only [hc.2.1, Bool.false_eq_true, if_false]
  rcases checksPass_or s f t0 with hp | ⟨-, h1 | ⟨h1, h2⟩ | ⟨h1, h2, h3⟩⟩
  · have hr : ¬ Resolvable s f vp := fun k => h ⟨hp, k⟩
    rw [if_neg (by have := hp.1; show ¬ 16 ≤ _; omega), if_neg (by simpa using hp.2.1),
      if_neg (by intro hx; exact hp.2.2 ((firstEvicted_iff s t0).mp hx))]
    rcases resolve_cases f vp t0 hc with ⟨i, u, e, k, -⟩ | ⟨why, u, e, -, k⟩
    · exact absurd k hr
    · have q := (resolve_kept vp (s.fleet f).k (s.fleet f).target hc).1.clean hc
      rw [e] at q ⊢
      exact ⟨why, u, rfl, k hp, q⟩
  · rw [if_pos h1]; exact ⟨_, _, rfl, .inl ⟨h1, rfl⟩, hc⟩
  · rw [if_neg h1, if_pos h2]; exact ⟨_, _, rfl, .inl ⟨⟨Nat.lt_of_not_le h1, h2⟩, rfl⟩, hc⟩
  · rw [if_neg h1, if_neg h2, if_pos h3]
    exact ⟨_, _, rfl, .inl ⟨⟨Nat.lt_of_not_le h1, by simpa using h2, (firstEvicted_iff s t0).mp h3⟩, rfl⟩, hc⟩

theorem test_inserted {r : SweepRecord} {l : List SweepRecord} (hid : ∀ q ∈ l, q.id ≠ r.id) (g : SweepRecord → SweepRecord) (hgt : (g r).t0 = r.t0) :
   ((insertSweep r l).map fun q => if q.id = r.id then g q else q) = insertSweep (g r) l := by
  induction l with
  | nil => simp [insertSweep]
  | cons q l ih =>
    have hq : q.id ≠ r.id := hid q (by simp)
    have hl : l.map (fun q => if q.id = r.id then g q else q) = l := by
      conv_rhs => rw [← List.map_id l]
      exact List.map_congr_left fun x hx => by simp [hid x (by simp [hx])]
    have ih := ih (fun x hx => hid x (by simp [hx]))
    unfold insertSweep
    rw [hgt]
    split
    · simp only [List.map_cons, if_pos, if_neg hq, hl]
    · simp only [List.map_cons, if_neg hq, ih]

/-- What an admitted entry comes to, before the compare point and the tests (R66, R67, R122 to R124). -/
structure Admission (o : Origin) (f : Fin 4) (vp : VpId) (t0 : SampleIndex) (id : Nat) (i : Fin 4) (s u : State) : Prop where
  fresh : FreshId s id
  attaches : Attaches f vp i s u
  quiet : Quiet [.vpDone, .noticeHigh] s u
  sweeps : u.sweeps = s.sweeps
  engine : u.engine = s.engine
  chosen : freeId (u.listed.map (·.id)) 16 u.sweeps.nextId = id
  record : { entryRecord u o f vp t0 i with id := id } = enteredRecord s id o f vp t0 i

/-- An admitted entry: resolution attaches it, and the search finds its id. -/
theorem enter_admission {s : State} (o : Origin) (f : Fin 4) (vp : VpId) (t0 : SampleIndex) (cmp : Option Nat) (hc : Clean s)
    (hn : 1 ≤ s.sweeps.nextId ∧ s.sweeps.nextId ≤ 65535) (hp : ChecksPass s f t0) (hr : Resolvable s f vp) :
    ∃ id i u, Admission o f vp t0 id i s u ∧ enterSweep o f vp t0 cmp s =
      match cmp with
      | some c =>
        let (v, q) := listSweep { entryRecord u o f vp t0 i with state := .scheduled, compare := some c } u
        (v, .admitted q)
      | none =>
        let (v, q) := listSweep (entryRecord u o f vp t0 i) u
        (testReadiness q.id (sweepEntered q v), .admitted (readied (sweepEntered q v) q)) := by
  rcases resolve_cases f vp t0 hc with ⟨i, u, e, -, ha⟩ | ⟨why, u, -, k, -⟩
  · obtain ⟨q, h1, h2⟩ := resolve_kept vp (s.fleet f).k (s.fleet f).target hc
    rw [e] at q h1 h2
    replace q : Quiet [.vpDone, .noticeHigh] s u := q
    replace h1 : u.sweeps = s.sweeps := h1
    refine ⟨freeId (s.listed.map (·.id)) 16 s.sweeps.nextId, i, u,
      ⟨freeId_freshId hn hp.1, ha, q, h1, h2, by simp only [State.listed, h1], ?_⟩, ?_⟩
    · simp only [entryRecord, enteredRecord, State.fleet, State.slot, q.fleets, q.pilots]; rfl
    · unfold enterSweep
      simp only [hc.2.1, Bool.false_eq_true, if_false]
      rw [if_neg (by have := hp.1; show ¬ 16 ≤ _; omega), if_neg (by simpa using hp.2.1),
        if_neg (by intro hx; exact hp.2.2 ((firstEvicted_iff s t0).mp hx))]
      cases cmp <;> rw [e]
  · exact absurd hr k

/-- Listing a record under the id found, by R67 and R68. -/
theorem listSweep_lists {u : State} (r : SweepRecord) {id : Nat} (h : freeId (u.listed.map (·.id)) 16 u.sweeps.nextId = id) :
    (listSweep r u).2 = { r with id := id } ∧ Lists id { r with id := id } u (listSweep r u).1 ∧
    (listSweep r u).1.listed = insertSweep { r with id := id } u.listed := by
  subst h
  exact ⟨rfl, ⟨insertSweep_insertedAt _ _, rfl⟩, rfl⟩

/-- An admitted SCHEDULE, by R66 to R68 and R71. -/
theorem enter_scheduled {s : State} (o : Origin) (f : Fin 4) (vp : VpId) (t0 : SampleIndex) (c : Nat) (hc : Clean s)
    (hn : 1 ≤ s.sweeps.nextId ∧ s.sweeps.nextId ≤ 65535) (hp : ChecksPass s f t0) (hr : Resolvable s f vp) :
    ∃ id i u v, let r := { enteredRecord s id o f vp t0 i with state := .scheduled, compare := some c }
      enterSweep o f vp t0 (some c) s = (v, .admitted r) ∧ FreshId s id ∧ Attaches f vp i s u ∧ Lists id r u v ∧ Clean v := by
  obtain ⟨id, i, u, a, e⟩ := enter_admission o f vp t0 (some c) hc hn hp hr
  obtain ⟨h1, h2, h3⟩ := listSweep_lists { entryRecord u o f vp t0 i with state := .scheduled, compare := some c } a.chosen
  have er : ({ entryRecord u o f vp t0 i with id := id, state := .scheduled, compare := some c } : SweepRecord) =
      { enteredRecord s id o f vp t0 i with state := .scheduled, compare := some c } := by rw [← a.record]
  have h1' := h1.trans er
  have h2' : Lists id { enteredRecord s id o f vp t0 i with state := .scheduled, compare := some c } u _ := er ▸ h2
  have h3' := h3.trans (congrArg (insertSweep · u.listed) er)
  refine ⟨id, i, u, _, ?_, a.fresh, a.attaches, h2', ?_⟩
  · rw [e]; simp only [h1']
  · have k := a.quiet.clean hc
    refine Clean.of k.1 (fun x hx => ?_) (fun j => k.ctx j)
    rw [h3', insertSweep_mem] at hx
    rcases hx with rfl | hx
    · rfl
    · exact k.listed hx

/-- An admitted entry without a compare point, by R66 to R69, R72 and R74. -/
theorem enter_waiting {s : State} (o : Origin) (f : Fin 4) (vp : VpId) (t0 : SampleIndex) (hc : Clean s)
    (hn : 1 ≤ s.sweeps.nextId ∧ s.sweeps.nextId ≤ 65535) (hid : s.listed.Pairwise fun a b => a.id ≠ b.id)
    (hp : ChecksPass s f t0) (hr : Resolvable s f vp) :
    ∃ t r', enterSweep o f vp t0 none s = (t, .admitted r') ∧ EntersWaiting o f vp t0 r' s t ∧
      (r'.state = .waiting ∨ r'.state = .ready) ∧ Clean t ∧ (t.listed.Pairwise fun a b => a.id ≠ b.id) := by
  obtain ⟨id, i, u, a, e⟩ := enter_admission o f vp t0 none hc hn hp hr
  obtain ⟨h1, h2, h3⟩ := listSweep_lists (entryRecord u o f vp t0 i) a.chosen
  rw [a.record] at h1 h2 h3
  generalize hv : (listSweep (entryRecord u o f vp t0 i) u).1 = v at h2 h3
  set r := enteredRecord s id o f vp t0 i with hrr
  set w := sweepEntered r v with hw
  have ho : OnlyLinkLines v w := offerReport_only _ _
  have hnew : ∀ q ∈ s.listed, q.id ≠ id := by obtain ⟨k, -, k2, -⟩ := a.fresh; exact k2
  have hul : u.listed = s.listed := by simp only [State.listed, a.sweeps]
  have htl : (testReadiness id w).listed = insertSweep (readied w r) s.listed := by
    show (w.listed.map fun q => if q.id = id then readied w q else q) = _
    rw [ho.listed, h3, hul]
    exact test_inserted (r := r) hnew (readied w) (readied_t0 _ _)
  have hpw : (insertSweep (readied w r) s.listed).Pairwise fun a b => a.id ≠ b.id := by
    have hri : (readied w r).id = id := readied_id _ _
    generalize readied w r = q at hri
    clear htl h3
    generalize s.listed = l at hnew hid
    induction l with
    | nil => simp [insertSweep]
    | cons x l ih =>
      have hx := List.pairwise_cons.mp hid
      unfold insertSweep
      split
      · refine List.pairwise_cons.mpr ⟨fun y hy => by rw [hri]; exact (hnew y hy).symm, hid⟩
      · refine List.pairwise_cons.mpr ⟨fun y hy => ?_, ih (fun y hy => hnew y (by simp [hy])) hx.2⟩
        rcases insertSweep_mem.mp hy with rfl | hy
        · rw [hri]; exact hnew x (by simp)
        · exact hx.1 y hy
  refine ⟨testReadiness id w, readied w r, ?_, ⟨id, i, u, v, w, a.fresh, a.attaches, h2, offerReport_offered _ _, readied_tested _ _, ?_, rfl⟩,
    ?_, ?_, ?_⟩
  · rw [e]; simp only [h1, hv]; rfl
  · rw [htl]; exact insertSweep_insertedAt _ _
  · rcases readied_tested w r with ⟨-, -, k⟩ | ⟨-, k⟩ <;> rw [k]
    · exact .inr rfl
    · exact .inl rfl
  · have k := a.quiet.clean hc
    have hvk : Clean v := by
      rw [h2.2]
      refine Clean.of k.1 (fun x hx => ?_) (fun j => k.ctx j)
      have hx' : x ∈ v.listed := hx
      rw [h3, insertSweep_mem] at hx'
      rcases hx' with rfl | hx'
      · rfl
      · exact k.listed hx'
    have hwk := clean_only ho hvk
    refine Clean.of hwk.1 (fun x hx => ?_) (fun j => hwk.ctx j)
    rw [htl, insertSweep_mem] at hx
    rcases hx with rfl | hx
    · rw [readied_checkBad]; rfl
    · exact hc.listed hx
  · rw [htl]; exact hpw

theorem ChecksPass.congr {s u : State} {f : Fin 4} {t0 : SampleIndex} (h1 : u.sweeps = s.sweeps) (h2 : u.pilots = s.pilots) 
   (h3 : (u.fleet f).slot = (s.fleet f).slot) (h4 : u.ring = s.ring) (h : ChecksPass s f t0) : ChecksPass u f t0 := by
  simp only [ChecksPass, BelowWindow, State.listed, State.slot, h1, h2, h3, h4] at h ⊢; exact h

theorem Resolvable.congr {s u : State} {f : Fin 4} {vp : VpId} (h1 : (u.fleet f).k = (s.fleet f).k) (h2 : u.stack = s.stack)
    (h : Resolvable s f vp) : Resolvable u f vp := by
  simp only [Resolvable, HoldsVp, CollectsVp, ForceCandidate, State.ctx, h1, h2] at h ⊢; exact h

end Sys2Proof.Machine
end

