-- ==== Sys2Proof/Laws/Sums.lean ====
section
/-! SUPPORT. The arithmetic of the passes and of the fold, and the place of a block frame (R10 to R16, R88, R102 to R111). -/

namespace Sys2Proof.Machine

/-- The product sum, as a sum (R88). -/
theorem productSum_sum (ps xs : List Int) (h : ps.length ≤ xs.length) : productSum ps xs = ∑ i ∈ Finset.range ps.length,
    ps.getD i 0 * xs.getD i 0 := by
  induction ps generalizing xs with
  | nil => simp [productSum]
  | cons p ps ih =>
    cases xs with
    | nil => simp at h
    | cons x xs =>
      simp only [productSum, List.length_cons, Finset.sum_range_succ']
      rw [ih xs (by simpa using h)]
      simp [add_comm]

theorem lagSums_length (p : List Int) (k : Nat) (xs : List Int) : (lagSums p k xs).length = k := by
  induction k generalizing xs with
  | zero => rfl
  | succ k ih => simp [lagSums, ih]

/-- The sum of a lag begins that many samples on (R88). -/
theorem lagSums_get (p : List Int) (k : Nat) (xs : List Int) (j : Nat) (h : j < k) : (lagSums p k xs)[j]? = some
    (productSum p (xs.drop j)) := by
  induction k generalizing xs j with
  | zero => omega
  | succ k ih =>
    cases j with
    | zero => simp [lagSums]
    | succ j => simp only [lagSums, List.getElem?_cons_succ]; rw [ih _ _ (by omega)]; simp

theorem accepted_mem {wn : Nat} {rej : List Nat} {w : Nat} : (acceptedWindows wn rej).contains w = true ↔ w < wn ∧ w ∉ rej := by
  simp [acceptedWindows]

/-- The lags of the windows not rejected (R109). -/
theorem lagIn_iff {wn : Nat} {rej : List Nat} {lag : Nat} : lagIn (acceptedWindows wn rej) lag = true ↔ lag / 64 < wn ∧
    lag / 64 ∉ rej := by
  unfold lagIn; exact accepted_mem

/-- The peak of a window is its largest magnitude (R103). -/
theorem peak_spec (xs : List Int) (m : Nat) : let p := xs.foldl (fun m x => max m x.natAbs) m
   m ≤ p ∧ (∀ x ∈ xs, x.natAbs ≤ p) ∧ (p = m ∨ ∃ x ∈ xs, x.natAbs = p) := by
  induction xs generalizing m with
  | nil => simp
  | cons a xs ih =>
    obtain ⟨h1, h2, h3⟩ := ih (max m a.natAbs)
    refine ⟨by clear h2 h3 ih; simp only [List.foldl_cons]; omega, ?_, ?_⟩
    · intro x hx
      rcases List.mem_cons.mp hx with hxa | hx
      · subst hxa; clear h2 h3 ih; simp only [List.foldl_cons]; omega
      · exact h2 x hx
    · simp only [List.foldl_cons]
      rcases h3 with h3 | ⟨x, hx, h3⟩
      · rw [h3]
        rcases Nat.le_total m a.natAbs with h | h
        · right; exact ⟨a, by simp, by omega⟩
        · left; omega
      · right; exact ⟨x, by simp [hx], h3⟩

theorem foldChannel_pw (c : Context) (recs : Sparse StackRecord) (ch : Nat) (q : ChannelRecord)
    (h : recs.Pairwise fun x y => x.1 < y.1) : (foldChannel c recs ch q).Pairwise fun x y => x.1 < y.1 := by
  unfold foldChannel; split
  · exact sparseSet_pairwise _ _ _ h
  · exact h

/-- The fold, channel by channel (R108, R109). -/
theorem foldChannels_get (c : Context) (qs : List ChannelRecord) (n : Nat) (recs : Sparse StackRecord)
    (h : recs.Pairwise fun x y => x.1 < y.1) :
   (∀ ch, ch < n → sparseGet (freshRecord c.k) (foldChannels c n qs recs) ch = sparseGet (freshRecord c.k) recs ch) ∧
   ∀ i q, qs[i]? = some q → sparseGet (freshRecord c.k) (foldChannels c n qs recs) (n + i) =
     if outcomeOf q = some .accepted then foldRecord c.folded (windowCount c.k) q (rejectedOf q)
         (sparseGet (freshRecord c.k) recs (n + i)) else sparseGet (freshRecord c.k) recs (n + i) := by
  induction qs generalizing n recs with
  | nil => exact ⟨fun _ _ => rfl, by simp⟩
  | cons q qs ih =>
    have hp := foldChannel_pw c recs n q h
    obtain ⟨i1, i2⟩ := ih (n + 1) (foldChannel c recs n q) hp
    have hoth : ∀ ch, ch ≠ n → sparseGet (freshRecord c.k) (foldChannel c recs n q) ch = sparseGet (freshRecord c.k) recs ch := by
      intro ch hne
      unfold foldChannel; split
      · exact sparseGet_set_other _ _ hne _
      · rfl
    refine ⟨fun ch hch => ?_, ?_⟩
    · unfold foldChannels
      rw [i1 ch (by omega), hoth ch (by omega)]
    · intro i x hx
      unfold foldChannels
      cases i with
      | zero =>
        simp at hx; subst hx
        rw [i1 (n + 0) (by omega)]
        unfold foldChannel
        rw [Nat.add_zero]
        split
        · exact sparseGet_set_same _ _ _ _ h
        · rfl
      | succ i =>
        simp at hx
        have := i2 i x hx
        rw [show n + 1 + i = n + (i + 1) by omega] at this
        rw [this, hoth (n + (i + 1)) (by omega)]

/-- Where a frame falls against a defined head (R12 to R16). -/
theorem placeBlock_some {s : State} {h g gr b : Nat} {xs : List RingSample} (hm : b ≤ 2 ^ 43 - 1) (hd : s.ring.head = some h)
    (h1 : b ≤ h + 2048) : placeBlock g gr b xs s =
      (if h < b then advanceFrame h g b xs s
      else if b < h - 2047 then s.withRing { s.ring with tooOld := s.ring.tooOld + 1 }
      else if sparseGet false s.ring.valid (g * 2048 + b % 2048) then s.withRing { s.ring with duplicates := s.ring.duplicates + 1 }
      else frameWritten (writeBlock g b xs s)) := by
  unfold placeBlock
  rw [if_neg (by show ¬ 2 ^ 43 - 1 < b; omega)]
  split
  · next hx => rw [hx] at hd; cases hd
  · next h' hx =>
    rw [hx] at hd; cases hd
    rw [if_neg (by show ¬ h + 2048 < b; omega)]
    rfl

theorem slotAdvanced_iff {old new key : Nat} : slotAdvanced old new key = true ↔
    (key % 2048 + 2048 - (old + 1) % 2048) % 2048 < new - old := by
  unfold slotAdvanced; simp only [Config.ringBlocks]; exact decide_eq_true_iff

/-- The slots cleared by an advance are those of the blocks above the old head (R12). -/
theorem slot_window {g' h b b' : Nat} (h1 : h < b) (h2 : b ≤ h + 2048) (h3 : b - 2047 ≤ b') (h4 : b' ≤ b) : slotAdvanced h b
    (g' * 2048 + b' % 2048) = true ↔ h < b' := by
  rw [slotAdvanced_iff]
  have e : (g' * 2048 + b' % 2048) % 2048 = b' % 2048 := by omega
  rw [e]
  constructor
  · intro hx
    by_contra hn
    obtain ⟨d, hd⟩ : ∃ d, h = b' + d := ⟨h - b', by omega⟩
    subst hd
    omega
  · intro hx
    obtain ⟨d, hd⟩ : ∃ d, b' = h + 1 + d := ⟨b' - (h + 1), by omega⟩
    subst hd
    omega

end Sys2Proof.Machine
end

