-- ==== Sys2Proof/Laws/Ticks.lean ====
section
/-! SUPPORT. The sample tick, up to its compares (R41, R46, R55; log entry 4). -/

namespace Sys2Proof.Machine

theorem outputTick_eq (e : OutputEntry) : outputTick e = tickedLine e := by
  unfold outputTick tickedLine
  cases e with
  | mk a b c d as n =>
    simp only
    split_ifs with h1 h2
    · subst h1; simp
    · subst h2; simp
    · simp [h2]

theorem tickJob_eq (s : State) : tickJob s = s.withEngine (tickJob s).engine := by
  unfold tickJob; split <;> rfl

/-- The tick before its compares. -/
def preTick (s : State) : State := tickJob (tickHoldover ((s.mapOutputs outputTick).withTime { s.time with n := s.time.n + 1 }))

theorem tick_eq (s : State) : tick s = arbitrate (tickCompares (preTick s)) := rfl

/-- The timebase through a tick (R41, R46). -/
theorem preTick_time (s : State) : (preTick s).time =
    { n := s.time.n + 1, a := s.time.a
      lock := if s.time.lock = .locked ∧ s.time.n + 1 = deadlineOf s then .holdover else s.time.lock } := by
  unfold preTick
  rw [tickJob_eq]
  show (tickHoldover _).time = _
  unfold tickHoldover
  split
  · next h =>
    have h' : s.time.lock = .locked ∧ s.time.n + 1 = deadlineOf s := h
    rw [if_pos h']
    unfold enterHoldover
    rw [(offerReport_only _ _).time, (setLock_only _ _).time]
    rfl
  · next h =>
    have h' : ¬ (s.time.lock = .locked ∧ s.time.n + 1 = deadlineOf s) := h
    rw [if_neg h']
    rfl

/-- What else a tick changes before its compares. -/
theorem preTick_only (s : State) : OnlyLinkLines { s with time := (preTick s).time, engine := (tickJob s).engine } (preTick s) := by
  have key : ∀ u, OnlyLinkLines { s with time := u.time } u → OnlyLinkLines { s with time := u.time, engine := (tickJob s).engine }
      (tickJob u) := by
    intro u hu
    have he : (tickJob u).engine = (tickJob s).engine := by
      unfold tickJob
      rw [hu.engine]
      cases s.engine.job with
      | none => simp [hu.engine]
      | some j =>
        have hch : u.channels = s.channels := by unfold State.channels; rw [hu.mode]
        have hsps : u.sps = s.sps := by unfold State.sps; rw [hu.mode]
        simp only [advanceJob, State.withEngine_engine, hch, hsps, hu.engine]
        have hcc : correlateChannel u j.sweep = correlateChannel s j.sweep := by
          funext c
          simp only [correlateChannel, scaledSums, jobSample, hu.engine, hu.ring, State.slot, hu.pilots]
        have hed : editChannel u j.sweep = editChannel s j.sweep := by
          funext c
          simp only [editChannel, hu.mode]
        rw [hcc, hed]
    rw [tickJob_eq u]
    exact .of_fields hu.ring hu.pilots rfl hu.inputs hu.pins hu.fleets hu.sweeps he hu.stack hu.emitter hu.mode hu.checkHit hu.pending
  have := key (tickHoldover ((s.mapOutputs outputTick).withTime { s.time with n := s.time.n + 1 })) (by
    unfold tickHoldover
    split
    · unfold enterHoldover
      have h1 := setLock_only .holdover ((s.mapOutputs outputTick).withTime { s.time with n := s.time.n + 1 })
      have h2 := h1.trans (offerReport_only (.timebase .holdover 0 ((s.mapOutputs outputTick).withTime { s.time with n :=
          s.time.n + 1 }).time.n .holdover) _)
      exact .of_fields h2.ring h2.pilots rfl h2.inputs h2.pins h2.fleets h2.sweeps h2.engine h2.stack h2.emitter h2.mode h2.checkHit h2.pending
    · exact .of_fields rfl rfl rfl rfl rfl rfl rfl rfl rfl rfl rfl rfl rfl)
  have ht : (preTick s).time = (tickHoldover ((s.mapOutputs outputTick).withTime { s.time with n := s.time.n + 1 })).time := by
    unfold preTick; rw [tickJob_eq]; rfl
  rw [ht]; exact this

/-- The lines through a tick before its compares. -/
theorem preTick_lines (s : State) : ∃ u : State, u.router.outputs = mapFour outputTick s.router.outputs ∧ LinesFollow
    [.holdover, .noticeHigh] u (preTick s) := by
  refine ⟨(s.mapOutputs outputTick).withTime { s.time with n := s.time.n + 1 }, rfl, ?_⟩
  unfold preTick
  rw [tickJob_eq]
  show LinesFollow _ _ (tickHoldover _)
  unfold tickHoldover
  split
  · exact ((setLock_follow _ _).mono (by simp)).trans ((offerReport_follow _ _).mono (by simp))
  · exact .refl _ _

end Sys2Proof.Machine
end

