-- ==== Sys2Proof/Laws/Jobs.lean ====
section
/-! SUPPORT. The job's passes, the schedule compares and the sample tick, each by the rules' own steps (R50, R51, R85, R88 to R95). -/

namespace Sys2Proof.Machine

/-! ### The job's passes -/

theorem jobSample_eq (s : State) (r : SweepRecord) (g lane n : Nat) : jobSample s r g lane n = readSample s r g lane n := by
  unfold jobSample readSample snapshotValid slotKey
  simp only [Config.blockSamples, Config.ringBlocks, Nat.mul_comm lane 32]

/-- The scaled sum at each lag (R88 to R91). -/
theorem scaledSums_eq {s : State} {r : SweepRecord} (c : Nat) (hl : (s.slot r.slot).samples.length = r.lp) (hp : 1 ≤ r.lp) :
    scaledSums s r c = (List.range r.k).map fun k =>
      let sum : Int := ∑ i ∈ Finset.range r.lp, ((s.slot r.slot).samples.map BitVec.toInt).getD i 0 *
        readSample s r (c / 64) (c % 64) (r.t0.toNat + k + i)
      if r.shift = 0 then sum else roundQuot sum (2 ^ r.shift) := by
  set p := (s.slot r.slot).samples.map BitVec.toInt with hpp
  have hpl : p.length = r.lp := by rw [hpp, List.length_map, hl]
  apply List.ext_getElem?
  intro n
  by_cases hn : n < r.k
  · unfold scaledSums
    simp only [List.getElem?_map]
    rw [lagSums_get _ _ _ _ hn, List.getElem?_range hn]
    simp only [Option.map_some, ← hpp]
    have : productSum p (((List.range (r.lp + r.k - 1)).map fun i =>
        jobSample s r (c / Config.lanes) (c % Config.lanes) (r.t0.toNat + i)).drop n) =
        ∑ i ∈ Finset.range r.lp, p.getD i 0 * readSample s r (c / 64) (c % 64) (r.t0.toNat + n + i) := by
      rw [productSum_sum _ _ (by simp; omega), hpl]
      apply Finset.sum_congr rfl
      intro i hi
      rw [Finset.mem_range] at hi
      congr 1
      rw [List.getD_eq_getElem _ _ (by simp; omega)]
      simp only [List.getElem_drop, List.getElem_map, List.getElem_range]
      rw [Nat.add_assoc, ← jobSample_eq]; rfl
    rw [this]; rfl
  · rw [List.getElem?_eq_none (by simp [scaledSums, lagSums_length]; omega), List.getElem?_eq_none (by simp; omega)]

/-- A channel's record from the correlation pass, by R88 to R95. -/
theorem correlateChannel_correlated {s : State} {r : SweepRecord} (c : Nat) (hl : (s.slot r.slot).samples.length = r.lp)
    (hp : 1 ≤ r.lp) : Correlated s r c (correlateChannel s r c) := by
  unfold Correlated
  refine ⟨rfl, ?_, ?_, ?_, ?_⟩
  · simp [correlateChannel, correlatedTrace, scaledSums, lagSums_length]
  · simp only [correlateChannel, List.contains_iff_mem]; rfl
  · simp only [correlateChannel]
    rw [scaledSums_eq c hl hp]
    unfold saturationCount
    rw [List.countP_map, List.countP_eq_length_filter]
    congr 1
    apply List.filter_congr
    intro x _
    simp only [Function.comp, outside32, min32, max32, Bool.decide_or]
    congr!
  · intro k hk'
    simp only [correlateChannel, correlatedTrace]
    rw [scaledSums_eq c hl hp, List.getElem?_map, List.getElem?_map, List.getElem?_range hk']
    simp only [Option.map_some]
    generalize (if r.shift = 0 then _ else roundQuot _ _) = z
    congr 1
    unfold saturate32 clampInt min32 max32
    split
    · omega
    · split <;> omega

/-- A pass that finishes its channels up to `n`, by R95. -/
theorem advanceJob_finished {s : State} {j : Job} (n : Nat) (hs : JobStored s j) :
    advanceJob n j s = s.withEngine { s.engine with
      job := some { j with done := max j.done n }, scratch := (advanceJob n j s).engine.scratch } ∧
    PassFinished s j (max j.done n) (advanceJob n j s).engine.scratch := by
  refine ⟨rfl, ?_⟩
  obtain ⟨h1, h2, h3, -, h5⟩ := hs
  unfold PassFinished advanceJob
  simp only [State.withEngine_engine]
  cases hp : j.pass with
  | correlation =>
    rw [hp] at h5
    simp only at h5 ⊢
    refine ⟨by simp [h5], fun c hc => ?_, fun c hc hm => ⟨correlateChannel s j.sweep c, ?_, correlateChannel_correlated c h3 h1⟩⟩
    · rw [List.getElem?_append_left (by omega)]
    · rw [List.getElem?_append_right (by omega), List.getElem?_map, List.getElem?_range' (by omega), h5, Option.map_some]
      congr 2; omega
  | editing =>
    simp only
    refine ⟨by simp, fun c q hq => ?_⟩
    rw [List.getElem?_mapIdx, hq]
    simp only [Option.map_some, Option.some.injEq, exists_eq_left']
    split
    · rfl
    · rfl

/-- A running job through a tick, by R85 and R95. -/
theorem tickJob_ticked (s : State) : JobTicked s (tickJob s) := by
  unfold JobTicked tickJob
  cases hj : s.engine.job with
  | none => rfl
  | some j =>
    have hf (hs : JobStored s j) := (advanceJob_finished (s := s) (j := { j with elapsed := j.elapsed + 1 })
      (min (s.channels - 1) (channelsByTime s.sps j (j.elapsed + 1))) hs).2
    obtain ⟨sw, p, d, el⟩ := j
    cases p <;> exact ⟨rfl, hf⟩

/-! ### Schedule compares -/

/-- Distinct ids stay distinct where the ids stay. -/
theorem ids_pairwise {s t : State} (h : s.listed.Pairwise fun a b => a.id ≠ b.id) (e : t.listed.map (·.id) = s.listed.map (·.id)) :
    t.listed.Pairwise fun a b => a.id ≠ b.id := by
  have h1 : (s.listed.map (·.id)).Pairwise (· ≠ ·) := List.pairwise_map.mpr h
  rw [← e] at h1
  exact List.pairwise_map.mp h1

/-- A compare taken, by R50. -/
theorem fireSweep_fired {s : State} (hc : Clean s) (hid : s.listed.Pairwise fun a b => a.id ≠ b.id) {r : SweepRecord}
    (hr : r ∈ s.listed) : Fired r s (fireSweep s r) := by
  obtain ⟨a, b, hl⟩ := List.append_of_mem hr
  set q : SweepRecord := { r with state := .waiting, compare := none } with hq
  set u := raiseEvent (.startPulse r.fleet) s with hu
  have hid' : (a ++ r :: b).Pairwise fun x y => x.id ≠ y.id := hl ▸ hid
  have e2 : changeSweep r.id (fun q => { q with state := .waiting, compare := none }) u = u.withListed (a ++ q :: b) := by
    unfold changeSweep
    have : u.listed = a ++ r :: b := hl
    rw [this, map_id_split hid']
  set v := offerReport (.sweepEntered q.id q.origin q.fleet q.vp q.t0 q.ctx ((u.withListed (a ++ q :: b)).ctx q.ctx).gen)
    (u.withListed (a ++ q :: b)) with hv
  have ho : OnlyLinkLines (u.withListed (a ++ q :: b)) v := offerReport_only _ _
  refine ⟨a, b, readied s q, u, v, hl, raiseEvent_raised _ _, offerReport_offered _ _, readied_tested _ _, ?_⟩
  have e : fireSweep s r = testReadiness r.id v := by
    unfold fireSweep
    rw [hc.listed hr, hc.ctx]
    simp only [Bool.or_self, markHit_false]
    rw [← hu, e2]
    rfl
  rw [e]
  unfold testReadiness changeSweep
  have hvl : v.listed = a ++ q :: b := ho.listed
  have hid'' : (a ++ q :: b).Pairwise fun x y => x.id ≠ y.id := by
    rw [List.pairwise_append, List.pairwise_cons] at hid' ⊢
    refine ⟨hid'.1, hid'.2.1, fun x hx y hy => ?_⟩
    rcases List.mem_cons.mp hy with rfl | hy
    · exact hid'.2.2 x hx r (by simp)
    · exact hid'.2.2 x hx y (by simp [hy])
  have hrd : readied v q = readied s q := readied_congr (by rw [ho.ring]; rfl) (by rw [ho.mode]; rfl) q
  have : r.id = q.id := rfl
  rw [hvl, this, map_id_split hid'', hrd]

/-- A compare taken changes one record, to WAITING or READY, the link and the lines of its start pulse or NOTICE HIGH. -/
theorem Fired.kept {r : SweepRecord} {s t : State} (h : Fired r s t) : t.listed.map (·.id) = s.listed.map (·.id) ∧
    OnlyLinkLines (s.withListed t.listed) t ∧ LinesFollow [.startPulse r.fleet, .noticeHigh] s t := by
  obtain ⟨a, b, r', u, v, hl, hu, hv, hr', ht⟩ := h
  obtain ⟨ou, -, fu⟩ := hu.only
  obtain ⟨ov, fv⟩ := Offered.only hv
  have hrid : r'.id = r.id := by rcases hr' with ⟨-, -, h⟩ | ⟨-, h⟩ <;> rw [h]
  have htl : t.listed = a ++ r' :: b := by rw [ht]; rfl
  refine ⟨by rw [htl, hl]; simp [hrid], ?_, ?_⟩
  · rw [htl, ht]
    have h1 : OnlyLinkLines (s.withListed (a ++ r' :: b)) (u.withListed (a ++ r' :: b)) := by rw [ou]; rfl
    have h2 : OnlyLinkLines (u.withListed (a ++ r' :: b)) (v.withListed (a ++ r' :: b)) := by rw [ov]; rfl
    exact h1.trans h2
  · have h2 : LinesFollow [.startPulse r.fleet, .noticeHigh] u v := fv.mono (by simp)
    rw [ht]
    exact (fu.mono (by simp)).trans h2

/-- Compares taken one after the other. -/
theorem fires_kept {l : List SweepRecord} {s t : State} (h : Chain Fired l s t) : t.listed.map (·.id) = s.listed.map (·.id) ∧
    OnlyLinkLines (s.withListed t.listed) t ∧
    LinesFollow (if l = [] then [] else l.map (.startPulse ·.fleet) ++ [.noticeHigh]) s t := by
  induction l generalizing s with
  | nil => cases h; exact ⟨rfl, rfl, .refl _ _⟩
  | cons r l ih =>
    obtain ⟨u, h1, h2⟩ := h
    obtain ⟨k1, k2, k3⟩ := h1.kept
    obtain ⟨i1, i2, i3⟩ := ih h2
    refine ⟨i1.trans k1, ?_, ?_⟩
    · have h3 : OnlyLinkLines (s.withListed t.listed) (u.withListed t.listed) := by rw [k2]; rfl
      exact h3.trans i2
    · rw [if_neg (by simp)]
      refine (k3.mono (by intro x; simp; rintro (h | h) <;> simp [h])).trans (i3.mono ?_)
      intro x hx
      split at hx
      · simp at hx
      · simp at hx ⊢; rcases hx with h | h <;> simp [h]

/-- A compare taken makes no check error, and leaves every other record. -/
theorem fireSweep_kept {s : State} (hc : Clean s) (hid : s.listed.Pairwise fun a b => a.id ≠ b.id) {r : SweepRecord}
    (hr : r ∈ s.listed) : Clean (fireSweep s r) ∧ ∀ q ∈ s.listed, q.id ≠ r.id → q ∈ (fireSweep s r).listed := by
  have hf := fireSweep_fired hc hid hr
  obtain ⟨-, ot, -⟩ := hf.kept
  obtain ⟨a, b, r', u, v, hl, hu, hv, hr', ht⟩ := hf
  have hrid : r'.checkBad = r.checkBad := by rcases hr' with ⟨-, -, h⟩ | ⟨-, h⟩ <;> rw [h]
  have htl : (fireSweep s r).listed = a ++ r' :: b := by rw [ht]; rfl
  refine ⟨Clean.of (ot.checkHit.trans hc.1) ?_ ?_, ?_⟩
  · intro q hq
    rw [htl, List.mem_append, List.mem_cons] at hq
    rcases hq with hq | rfl | hq
    · exact hc.listed (by rw [hl]; simp [hq])
    · rw [hrid]; exact hc.listed hr
    · exact hc.listed (by rw [hl]; simp [hq])
  · intro i; rw [ot.ctx]; exact hc.ctx i
  · intro q hq hne
    rw [hl, List.mem_append, List.mem_cons] at hq
    rw [htl, List.mem_append, List.mem_cons]
    rcases hq with hq | rfl | hq
    · exact .inl hq
    · exact absurd rfl hne
    · exact .inr (.inr hq)

/-- The compares that a tick reaches, one after the other in list order (R50). -/
theorem fires_chain (l : List SweepRecord) {s : State} (hc : Clean s) (hid : s.listed.Pairwise fun a b => a.id ≠ b.id)
    (hp : l.Pairwise fun a b => a.id ≠ b.id) (hm : ∀ r ∈ l, r ∈ s.listed) :
    Chain Fired l s (l.foldl fireSweep s) ∧ Clean (l.foldl fireSweep s) := by
  induction l generalizing s with
  | nil => exact ⟨rfl, hc⟩
  | cons r l ih =>
    have hp' := List.pairwise_cons.mp hp
    have hf := fireSweep_fired hc hid (hm r (by simp))
    obtain ⟨k1, k2⟩ := fireSweep_kept hc hid (hm r (by simp))
    obtain ⟨i1, i2⟩ := ih k1 (ids_pairwise hid hf.kept.1) hp'.2 fun x hx => k2 x (hm x (by simp [hx])) (hp'.1 x hx).symm
    exact ⟨⟨_, hf, i1⟩, i2⟩

/-- The sweeps whose compare point is the count reached. -/
theorem comparePoint_iff {n : Nat} (r : SweepRecord) : comparePoint (fun c => c == n) r = true ↔
    r.state = .scheduled ∧ r.compare = some n := by
  unfold comparePoint
  cases r.compare <;> simp

/-! ### The sample tick -/

/-- The sample tick, whole (R41, R46, R50, R55). -/
theorem tick_ticked {s : State} (hc : Clean s) (hid : s.listed.Pairwise fun a b => a.id ≠ b.id) : Ticked s (tick s) := by
  set s2 := (s.mapOutputs outputTick).withTime { s.time with n := s.time.n + 1 } with hs2
  have o3 : OnlyLinkLines { s2 with time := (tickHoldover s2).time } (tickHoldover s2) ∧ (tickHoldover s2).listed = s.listed := by
    unfold tickHoldover
    split
    · unfold enterHoldover
      have h1 := setLock_only .holdover s2
      have h2 := h1.trans (offerReport_only (.timebase .holdover 0 s2.time.n .holdover) _)
      exact ⟨.of_fields h2.ring h2.pilots rfl h2.inputs h2.pins h2.fleets h2.sweeps h2.engine h2.stack h2.emitter h2.mode h2.checkHit
        h2.pending, h2.listed⟩
    · exact ⟨.of_fields rfl rfl rfl rfl rfl rfl rfl rfl rfl rfl rfl rfl rfl, rfl⟩
  have hcl : ∀ u : State, u.checkHit = s.checkHit → u.listed = s.listed → u.stack = s.stack → Clean u := by
    intro u h1 h2 h3
    refine Clean.of (h1.trans hc.1) (fun r hr => hc.listed (h2 ▸ hr)) fun i => ?_
    have : u.ctx i = s.ctx i := by simp only [State.ctx, h3]
    rw [this]; exact hc.ctx i
  set w := tickJob (tickHoldover s2) with hw
  have hwe : w = (tickHoldover s2).withEngine w.engine := tickJob_eq _
  have hwl : w.listed = s.listed := by rw [hwe]; exact o3.2
  have hwc : Clean w := hcl w (by rw [hwe]; exact o3.1.checkHit) hwl (by rw [hwe]; exact o3.1.stack)
  have hwn : w.time.n = s.time.n + 1 := by
    rw [hwe]
    show (tickHoldover s2).time.n = _
    unfold tickHoldover
    split
    · unfold enterHoldover
      rw [(offerReport_only _ _).time, (setLock_only _ _).time]; rfl
    · rfl
  have hfl : w.listed.filter (comparePoint fun c => c == w.time.n.toNat) =
      s.listed.filter fun r => decide (r.state = .scheduled ∧ r.compare = some (s.time.n + 1).toNat) := by
    rw [hwl, hwn]
    apply List.filter_congr
    intro r _
    rw [Bool.eq_iff_iff, comparePoint_iff]; simp
  obtain ⟨c1, c2⟩ := fires_chain (w.listed.filter (comparePoint fun c => c == w.time.n.toNat)) hwc (hwl ▸ hid)
    (by rw [hwl]; exact hid.sublist List.filter_sublist) (fun r hr => List.mem_of_mem_filter hr)
  have htc : tickCompares w = (w.listed.filter (comparePoint fun c => c == w.time.n.toNat)).foldl fireSweep w := by
    unfold tickCompares; rw [hwc.2.1]; rfl
  rw [← htc] at c1 c2
  refine ⟨tickHoldover s2, w, tickCompares w, ⟨s2, ?_, rfl, ?_⟩, tickJob_ticked _, hfl ▸ c1, ?_⟩
  · intro i
    have : s2.router.outputs[i.val] = outputTick s.router.outputs[i.val] := by simp [hs2, State.mapOutputs]
    rw [this, outputTick_eq]
  · by_cases h : s.time.lock = .locked ∧ s.time.n + 1 = deadlineOf s
    · rw [if_pos h]
      have h' : s2.time.lock = .locked ∧ s2.time.n = s2.deadline := h
      unfold tickHoldover
      rw [if_pos h']
      unfold enterHoldover
      have hne : s2.time.lock ≠ .holdover := by rw [h'.1]; decide
      refine ⟨setLock .holdover s2, ?_, offerReport_offered _ _⟩
      rw [setLock_raise hne]
      exact raiseLevel_rose _ _
    · rw [if_neg h]
      have h' : ¬ (s2.time.lock = .locked ∧ s2.time.n = s2.deadline) := h
      unfold tickHoldover
      rw [if_neg h']
  · have : tick s = arbitrate (tickCompares w) := rfl
    rw [this]
    exact arbitrate_looks c2 (ids_pairwise (hwl.symm ▸ hid) (fires_kept c1).1)

end Sys2Proof.Machine
end

