-- ==== Sys2Proof/Laws/PerInstr.lean ====
section
/-! SUPPORT. A law of every command as syntax: the frame of a well-formed request can be received (R141), and its kind is one of the 22 but for
UNKNOWN_KIND (R147, R172). -/

namespace Sys2Proof.Laws

/-- The kind names a request exactly when the command is not UNKNOWN_KIND. -/
def isUnknownKind : Instr → Bool
  | .ident _ _ => false
  | .status _ _ => false
  | .paramSet _ _ => false
  | .paramGet _ _ => false
  | .start _ _ => false
  | .stopFinish _ _ => false
  | .stopDiscard _ _ => false
  | .restart _ _ => false
  | .sync _ _ => false
  | .timeSet _ _ => false
  | .routeSet _ _ => false
  | .routeGet _ _ => false
  | .pilotOpen _ _ => false
  | .pilotWords _ _ => false
  | .pilotClose _ _ => false
  | .fleetSet _ _ => false
  | .fleetGet _ _ => false
  | .arm _ _ => false
  | .post _ _ => false
  | .schedule _ _ => false
  | .cancel _ _ => false
  | .closeVpWait _ _ => false
  | .closeVpNow _ _ => false
  | .faultRead _ _ => false
  | .unknownKind _ _ _ => true
  | .hostFrame _ => false
  | .transmissionStart => false
  | .transmissionEnd => false
  | .transmitHold _ _ => false
  | .blockFrame _ => false
  | .sampleTick => false
  | .holdoverDeadline => false
  | .scheduleCompare => false
  | .pulseEnd _ => false
  | .ppsEdge _ _ => false
  | .timeBreak _ _ => false
  | .correlationPassEnd => false
  | .jobCompletion => false
  | .powerUp => false
  | .resetPin => false
  | .coldResetComplete _ _ => false

/-- The frame of a well-formed request has a body the receiver takes, and a kind of the table, or of none for UNKNOWN_KIND. -/
def FrameBody.Statement (i : Instr) : Prop :=
  ∀ f, Machine.requestFrame i = some f → i.wellFormed = true → f.body.length ≤ 1040 ∧ knownKind f.kind = !isUnknownKind i

theorem FrameBody.ident (tag : Byte) (body : List Byte) : FrameBody.Statement (.ident tag body) := by
  intro f hf hw
  cases hf
  exact ⟨of_decide_eq_true hw, rfl⟩

theorem FrameBody.status (tag : Byte) (body : List Byte) : FrameBody.Statement (.status tag body) := by
  intro f hf hw
  cases hf
  exact ⟨of_decide_eq_true hw, rfl⟩

theorem FrameBody.paramSet (tag : Byte) (body : List Byte) : FrameBody.Statement (.paramSet tag body) := by
  intro f hf hw
  cases hf
  exact ⟨of_decide_eq_true hw, rfl⟩

theorem FrameBody.paramGet (tag : Byte) (body : List Byte) : FrameBody.Statement (.paramGet tag body) := by
  intro f hf hw
  cases hf
  exact ⟨of_decide_eq_true hw, rfl⟩

theorem FrameBody.start (tag : Byte) (body : List Byte) : FrameBody.Statement (.start tag body) := by
  intro f hf hw
  cases hf
  exact ⟨of_decide_eq_true hw, rfl⟩

theorem FrameBody.stopFinish (tag : Byte) (body : List Byte) : FrameBody.Statement (.stopFinish tag body) := by
  intro f hf hw
  cases hf
  exact ⟨of_decide_eq_true (Bool.and_eq_true_iff.mp hw).1, rfl⟩

theorem FrameBody.stopDiscard (tag : Byte) (body : List Byte) : FrameBody.Statement (.stopDiscard tag body) := by
  intro f hf hw
  cases hf
  have h : body = [1] := of_decide_eq_true hw
  exact ⟨by rw [h]; exact Nat.le_of_ble_eq_true rfl, rfl⟩

theorem FrameBody.restart (tag : Byte) (body : List Byte) : FrameBody.Statement (.restart tag body) := by
  intro f hf hw
  cases hf
  exact ⟨of_decide_eq_true hw, rfl⟩

theorem FrameBody.sync (tag : Byte) (body : List Byte) : FrameBody.Statement (.sync tag body) := by
  intro f hf hw
  cases hf
  exact ⟨of_decide_eq_true hw, rfl⟩

theorem FrameBody.timeSet (tag : Byte) (body : List Byte) : FrameBody.Statement (.timeSet tag body) := by
  intro f hf hw
  cases hf
  exact ⟨of_decide_eq_true hw, rfl⟩

theorem FrameBody.routeSet (tag : Byte) (body : List Byte) : FrameBody.Statement (.routeSet tag body) := by
  intro f hf hw
  cases hf
  exact ⟨of_decide_eq_true hw, rfl⟩

theorem FrameBody.routeGet (tag : Byte) (body : List Byte) : FrameBody.Statement (.routeGet tag body) := by
  intro f hf hw
  cases hf
  exact ⟨of_decide_eq_true hw, rfl⟩

theorem FrameBody.pilotOpen (tag : Byte) (body : List Byte) : FrameBody.Statement (.pilotOpen tag body) := by
  intro f hf hw
  cases hf
  exact ⟨of_decide_eq_true hw, rfl⟩

theorem FrameBody.pilotWords (tag : Byte) (body : List Byte) : FrameBody.Statement (.pilotWords tag body) := by
  intro f hf hw
  cases hf
  exact ⟨of_decide_eq_true hw, rfl⟩

theorem FrameBody.pilotClose (tag : Byte) (body : List Byte) : FrameBody.Statement (.pilotClose tag body) := by
  intro f hf hw
  cases hf
  exact ⟨of_decide_eq_true hw, rfl⟩

theorem FrameBody.fleetSet (tag : Byte) (body : List Byte) : FrameBody.Statement (.fleetSet tag body) := by
  intro f hf hw
  cases hf
  exact ⟨of_decide_eq_true hw, rfl⟩

theorem FrameBody.fleetGet (tag : Byte) (body : List Byte) : FrameBody.Statement (.fleetGet tag body) := by
  intro f hf hw
  cases hf
  exact ⟨of_decide_eq_true hw, rfl⟩

theorem FrameBody.arm (tag : Byte) (body : List Byte) : FrameBody.Statement (.arm tag body) := by
  intro f hf hw
  cases hf
  exact ⟨of_decide_eq_true hw, rfl⟩

theorem FrameBody.post (tag : Byte) (body : List Byte) : FrameBody.Statement (.post tag body) := by
  intro f hf hw
  cases hf
  exact ⟨of_decide_eq_true hw, rfl⟩

theorem FrameBody.schedule (tag : Byte) (body : List Byte) : FrameBody.Statement (.schedule tag body) := by
  intro f hf hw
  cases hf
  exact ⟨of_decide_eq_true hw, rfl⟩

theorem FrameBody.cancel (tag : Byte) (body : List Byte) : FrameBody.Statement (.cancel tag body) := by
  intro f hf hw
  cases hf
  exact ⟨of_decide_eq_true hw, rfl⟩

theorem FrameBody.closeVpWait (tag : Byte) (body : List Byte) : FrameBody.Statement (.closeVpWait tag body) := by
  intro f hf hw
  cases hf
  exact ⟨of_decide_eq_true (Bool.and_eq_true_iff.mp hw).1, rfl⟩

theorem FrameBody.closeVpNow (tag : Byte) (body : List Byte) : FrameBody.Statement (.closeVpNow tag body) := by
  intro f hf hw
  cases hf
  have h : body.length = 5 := by simp [Instr.wellFormed, closeModeNow] at hw; exact hw.1
  exact ⟨by show body.length ≤ 1040; omega, rfl⟩

theorem FrameBody.faultRead (tag : Byte) (body : List Byte) : FrameBody.Statement (.faultRead tag body) := by
  intro f hf hw
  cases hf
  exact ⟨of_decide_eq_true hw, rfl⟩

theorem FrameBody.unknownKind (kind tag : Byte) (body : List Byte) : FrameBody.Statement (.unknownKind kind tag body) := by
  intro f hf hw
  cases hf
  have h := Bool.and_eq_true_iff.mp hw
  exact ⟨of_decide_eq_true h.1, by simpa [isUnknownKind] using h.2⟩

theorem FrameBody.hostFrame (bytes : List Byte) : FrameBody.Statement (.hostFrame bytes) := by
  intro f hf
  cases hf

theorem FrameBody.transmissionStart : FrameBody.Statement (.transmissionStart) := by
  intro f hf
  cases hf

theorem FrameBody.transmissionEnd : FrameBody.Statement (.transmissionEnd) := by
  intro f hf
  cases hf

theorem FrameBody.transmitHold (line : Fin 4) (level : Bool) : FrameBody.Statement (.transmitHold line level) := by
  intro f hf
  cases hf

theorem FrameBody.blockFrame (piece : FramePiece) : FrameBody.Statement (.blockFrame piece) := by
  intro f hf
  cases hf

theorem FrameBody.sampleTick : FrameBody.Statement (.sampleTick) := by
  intro f hf
  cases hf

theorem FrameBody.holdoverDeadline : FrameBody.Statement (.holdoverDeadline) := by
  intro f hf
  cases hf

theorem FrameBody.scheduleCompare : FrameBody.Statement (.scheduleCompare) := by
  intro f hf
  cases hf

theorem FrameBody.pulseEnd (line : Fin 4) : FrameBody.Statement (.pulseEnd line) := by
  intro f hf
  cases hf

theorem FrameBody.ppsEdge (line : Fin 4) (level : Bool) : FrameBody.Statement (.ppsEdge line level) := by
  intro f hf
  cases hf

theorem FrameBody.timeBreak (line : Fin 4) (level : Bool) : FrameBody.Statement (.timeBreak line level) := by
  intro f hf
  cases hf

theorem FrameBody.correlationPassEnd : FrameBody.Statement (.correlationPassEnd) := by
  intro f hf
  cases hf

theorem FrameBody.jobCompletion : FrameBody.Statement (.jobCompletion) := by
  intro f hf
  cases hf

theorem FrameBody.powerUp : FrameBody.Statement (.powerUp) := by
  intro f hf
  cases hf

theorem FrameBody.resetPin : FrameBody.Statement (.resetPin) := by
  intro f hf
  cases hf

theorem FrameBody.coldResetComplete (sizeCode : Fin 4) (position : Fin 8) : FrameBody.Statement (.coldResetComplete sizeCode position) := by
  intro f hf
  cases hf

end Sys2Proof.Laws
end

