-- ==== Sys2Proof/Laws/Receiver.lean ====
section
/-! SUPPORT. The receiver of the host line: what it makes of bytes passed over, of a frame, of a bad frame and of a run cut in two (R141 to
R144). -/

namespace Sys2Proof.Machine

/-! ### The judging of the bytes after a start word -/

/-- A frame's covered bytes and a check word, whatever follows them: the checked frame when the word is its check, else a bad one. -/
theorem parse_frame (k t : Byte) (body : List Byte) (w : Word) (rest : List Byte) (hb : body.length ≤ 1040) :
    parseAfterStart (frameCovered k t body ++ leBytes 2 w.toNat ++ rest) =
      if w = checkOf (frameCovered k t body) then .checked ⟨k, t, body⟩ rest else .badCheck := by
  have h0 : frameCovered k t body ++ leBytes 2 w.toNat ++ rest =
      leBytes 2 body.length ++ ([k, t] ++ (body ++ (leBytes 2 w.toNat ++ rest))) := by simp [frameCovered]
  have hlen : (frameCovered k t body ++ leBytes 2 w.toNat ++ rest).length = 6 + body.length + rest.length := by
    rw [h0]; simp; omega
  unfold parseAfterStart
  rw [if_neg (by omega)]
  have hf : fieldAt (frameCovered k t body ++ leBytes 2 w.toNat ++ rest) 0 2 = body.length := by
    rw [h0, fieldAt_zero_append _ _ (by simp), leNat_leBytes_of_lt (by omega)]
  have h2 : byteAt (frameCovered k t body ++ leBytes 2 w.toNat ++ rest) 2 = k := by
    rw [h0, byteAt_append_right _ _ 0 (by simp)]; rfl
  have h3 : byteAt (frameCovered k t body ++ leBytes 2 w.toNat ++ rest) 3 = t := by
    rw [h0, byteAt_append_right _ _ 1 (by simp)]; rfl
  have h4 : ((frameCovered k t body ++ leBytes 2 w.toNat ++ rest).drop 4).take body.length = body := by
    rw [h0]; simp [leBytes]
  have h5 : fieldAt (frameCovered k t body ++ leBytes 2 w.toNat ++ rest) (4 + body.length) 2 = w.toNat := by
    rw [h0, fieldAt_append_right _ _ (2 + body.length) 2 (by simp; try omega),
      fieldAt_append_right _ _ body.length 2 (by simp; try omega), fieldAt_append_right _ _ 0 2 (by simp),
      fieldAt_zero_append _ _ (by simp), leNat_two]
  have h6 : (frameCovered k t body ++ leBytes 2 w.toNat ++ rest).drop (6 + body.length) = rest :=
    List.drop_left' (by simp [frameCovered]; omega)
  simp only [hf, h2, h3, h4, h5, h6, Config.maxBody]
  rw [if_neg (by omega), if_neg (by omega)]
  simp only [BitVec.ofNat_toNat, BitVec.setWidth_eq]
  by_cases hw : w = checkOf (frameCovered k t body)
  · simp [← hw]
  · rw [if_neg hw, if_neg]
    exact fun h => hw (checkStep_eq_zero h).symm

/-- A length word above 1,040. -/
theorem parse_length (n : Word) (rest : List Byte) (h : 1040 < n.toNat) :
    parseAfterStart (leBytes 2 n.toNat ++ rest) = .badLength := by
  unfold parseAfterStart
  rw [if_neg (by simp; omega), fieldAt_zero_append _ _ (by simp), leNat_two]
  simp [Config.maxBody, h]

/-- A judgement stands whatever bytes follow. -/
theorem parse_append (bs more : List Byte) : parseAfterStart (bs ++ more) =
    match parseAfterStart bs with
    | .partialFrame => parseAfterStart (bs ++ more)
    | .badLength => .badLength
    | .badCheck => .badCheck
    | .checked f rest => .checked f (rest ++ more) := by
  by_cases h2 : bs.length < 2
  · have h : parseAfterStart bs = .partialFrame := by unfold parseAfterStart; rw [if_pos h2]
    rw [h]
  have field (k n : Nat) (h : k + n ≤ bs.length) : fieldAt (bs ++ more) k n = fieldAt bs k n := by
    unfold fieldAt
    rw [List.drop_append_of_le_length (by omega), List.take_append_of_le_length (by rw [List.length_drop]; omega)]
  have hl := field 0 2 (by omega)
  by_cases hm : Config.maxBody < fieldAt bs 0 2
  · have h (xs : List Byte) (hx : ¬ xs.length < 2) (hf : fieldAt xs 0 2 = fieldAt bs 0 2) : parseAfterStart xs = .badLength := by
      unfold parseAfterStart; simp only [hf]; rw [if_neg hx, if_pos hm]
    rw [h bs h2 rfl, h _ (by rw [List.length_append]; omega) hl]
  by_cases hp : bs.length < 6 + fieldAt bs 0 2
  · have h : parseAfterStart bs = .partialFrame := by unfold parseAfterStart; simp only []; rw [if_neg h2, if_neg hm, if_pos hp]
    rw [h]
  have hb (k : Nat) (h : k < bs.length) : byteAt (bs ++ more) k = byteAt bs k := by
    simp [byteAt, List.getD_eq_getElem?_getD, List.getElem?_append_left h]
  unfold parseAfterStart
  simp only [hl, hb 2 (by omega), hb 3 (by omega), field (4 + fieldAt bs 0 2) 2 (by omega)]
  rw [if_neg (by rw [List.length_append]; omega), if_neg hm, if_neg (by rw [List.length_append]; omega), if_neg h2, if_neg hm,
    if_neg hp, List.drop_append_of_le_length (by omega), List.take_append_of_le_length (by rw [List.length_drop]; omega),
    List.drop_append_of_le_length (by omega)]
  split <;> rfl

/-- What is left behind a checked frame is shorter than what was judged. -/
theorem parse_shorter {bs rest : List Byte} {f : RxFrame} (h : parseAfterStart bs = .checked f rest) : rest.length ≤ bs.length := by
  unfold parseAfterStart at h
  simp only at h
  split at h
  · cases h
  split at h
  · cases h
  split at h
  · cases h
  split at h
  · cases h; rw [List.length_drop]; omega
  · cases h

/-! ### What a judgement changes -/

theorem keepPartial_only (bs : List Byte) (s : State) : OnlyLinkLines s (keepPartial bs s) := withLink_only _ s

theorem keepPartial_self {s : State} (h : s.link.partialBytes = []) : keepPartial [] s = s := by
  simp [keepPartial, ← h, State.withLink]

theorem placeNotice_keep (n : Notice) (p : List Byte) (s : State) :
    placeNotice n (keepPartial p s) = keepPartial p (placeNotice n s) := by
  unfold placeNotice
  have hf : (keepPartial p s).lineFree = s.lineFree := rfl
  have hn : (keepPartial p s).link.notices = s.link.notices := rfl
  by_cases h : s.lineFree = true ∧ s.link.notices = []
  · rw [if_pos (by rw [hf, hn]; exact h), if_pos h]; rfl
  · rw [if_neg (by rw [hf, hn]; exact h), if_neg h]
    by_cases h1 : s.link.notices.length + 1 = Config.noticeHigh
    · simp only; rw [if_pos (by rw [hn]; exact h1), if_pos h1]; rfl
    · simp only; rw [if_neg (by rw [hn]; exact h1), if_neg h1]; rfl

theorem offerReport_keep (r : Report) (p : List Byte) (s : State) :
    offerReport r (keepPartial p s) = keepPartial p (offerReport r s) := by
  have same : ∀ u : State, admitReport r (keepPartial p u) = keepPartial p (admitReport r u) := fun u => by
    unfold admitReport
    have hn : (keepPartial p u).link.notices = u.link.notices := rfl
    by_cases h : u.link.notices.length < Config.reportLimit
    · rw [if_pos (by rw [hn]; exact h), if_pos h, placeNotice_keep]
    · rw [if_neg (by rw [hn]; exact h), if_neg h]; rfl
  unfold offerReport
  have he : (keepPartial p s).enabled (reportIndex r) = s.enabled (reportIndex r) := rfl
  have hn : (keepPartial p s).link.notices = s.link.notices := rfl
  have hl : (keepPartial p s).link.lost = s.link.lost := rfl
  by_cases h0 : s.enabled (reportIndex r) = false
  · rw [if_pos (by rw [he]; exact h0), if_pos h0]
  · rw [if_neg (by rw [he]; exact h0), if_neg h0]
    by_cases h1 : Config.reportLimit ≤ s.link.notices.length
    · rw [if_pos (by rw [hn]; exact h1), if_pos h1]; rfl
    · rw [if_neg (by rw [hn]; exact h1), if_neg h1]
      by_cases h2 : s.link.lost = 0
      · rw [if_pos (by rw [hl]; exact h2), if_pos h2, placeNotice_keep]
      · rw [if_neg (by rw [hl]; exact h2), if_neg h2]
        simp only [hl, placeNotice_keep]
        exact same ((placeNotice (.report 0 (.reportsLost s.link.lost)) s).withLink
          { (placeNotice (.report 0 (.reportsLost s.link.lost)) s).link with lost := 0 })

theorem checkedFrame_keep (f : RxFrame) (p : List Byte) (s : State) :
    checkedFrame f (keepPartial p s) = keepPartial p (checkedFrame f s) := by
  have offer : offerFrame f (keepPartial p s) = keepPartial p (offerFrame f s) := by
    unfold offerFrame
    have e : (keepPartial p s).link.rxBuf = s.link.rxBuf := rfl
    by_cases h : s.link.rxBuf.length < Config.rxCapacity
    · rw [if_pos (by rw [e]; exact h), if_pos h]; rfl
    · rw [if_neg (by rw [e]; exact h), if_neg h]
      exact offerReport_keep _ _ (s.withLink { s.link with receiver := .hunt })
  unfold checkedFrame
  have e : (keepPartial p s).link.receiver = s.link.receiver := rfl
  rw [e]
  cases s.link.receiver
  · exact offer
  · by_cases h : f.kind = syncKind
    · simp only; rw [if_pos h, if_pos h]; exact offer
    · simp only; rw [if_neg h, if_neg h]; rfl

theorem badFrame_keep (c : LinkCause) (p : List Byte) (s : State) :
    badFrame c (keepPartial p s) = keepPartial p (badFrame c s) := by
  unfold badFrame
  have e : (keepPartial p s).link.receiver = s.link.receiver := rfl
  rw [e]
  cases s.link.receiver
  · exact offerReport_keep _ _ (s.withLink { s.link with receiver := .hunt })
  · rfl

theorem checkedFrame_only (f : RxFrame) (s : State) : OnlyLinkLines s (checkedFrame f s) := by
  have offer : OnlyLinkLines s (offerFrame f s) := by
    unfold offerFrame
    split
    · rfl
    · exact (withLink_only _ _).trans (offerReport_only _ _)
  unfold checkedFrame
  split
  · exact offer
  · split
    · exact offer
    · rfl

theorem badFrame_only (c : LinkCause) (s : State) : OnlyLinkLines s (badFrame c s) := by
  unfold badFrame
  split
  · exact (withLink_only _ _).trans (offerReport_only _ _)
  · rfl

/-! ### A run of bytes -/

/-- One turn of the receiver behind a start word. -/
theorem receive_start (n : Nat) (rest : List Byte) (s : State) : receive (n + 1) (0xC3 :: 0x5A :: rest) s =
    match parseAfterStart rest with
    | .partialFrame => keepPartial (0xC3 :: 0x5A :: rest) s
    | .badLength => receive n rest (badFrame .length s)
    | .badCheck => receive n rest (badFrame .check s)
    | .checked f after => receive n after (checkedFrame f s) := rfl

/-- What the receiver does with the front of a run: nothing is left, a byte is passed over, a frame is still in reception, or the bytes
behind a start word are judged. -/
theorem receive_cases (n : Nat) (bs : List Byte) :
    (∀ s, receive (n + 1) bs s = keepPartial bs s) ∧ (bs = [] ∨ bs = [0xC3] ∨ ∃ rest, bs = 0xC3 :: 0x5A :: rest ∧
      parseAfterStart rest = .partialFrame) ∨
    (∃ a rest, bs = a :: rest ∧ (∀ m s, receive (m + 1) bs s = receive m rest s) ∧
      ∀ more m s, receive (m + 1) (bs ++ more) s = receive m (rest ++ more) s) ∨
    ∃ rest after, bs = 0xC3 :: 0x5A :: rest ∧ after.length ≤ rest.length ∧ ∃ g : State → State,
      (∀ p s, g (keepPartial p s) = keepPartial p (g s)) ∧ (∀ s, OnlyLinkLines s (g s)) ∧
      (∀ m s, receive (m + 1) bs s = receive m after (g s)) ∧
      ∀ more m s, receive (m + 1) (bs ++ more) s = receive m (after ++ more) (g s) := by
  match bs with
  | [] => exact .inl ⟨fun s => by rw [receive], .inl rfl⟩
  | a :: rest =>
    by_cases ha : a = 0xC3
    · subst ha
      match rest with
      | [] => exact .inl ⟨fun s => by rw [receive]; simp, .inr (.inl rfl)⟩
      | b :: rest =>
        by_cases hb : b = 0x5A
        · subst hb
          have app := parse_append rest
          cases hp : parseAfterStart rest with
          | partialFrame =>
            exact .inl ⟨fun s => by rw [receive_start, hp], .inr (.inr ⟨rest, rfl, hp⟩)⟩
          | badLength =>
            rw [hp] at app
            exact .inr (.inr ⟨rest, rest, rfl, Nat.le_refl _, badFrame .length, badFrame_keep _, badFrame_only _,
              fun m s => by rw [receive_start, hp], fun more m s => by
                rw [List.cons_append, List.cons_append, receive_start, app more]⟩)
          | badCheck =>
            rw [hp] at app
            exact .inr (.inr ⟨rest, rest, rfl, Nat.le_refl _, badFrame .check, badFrame_keep _, badFrame_only _,
              fun m s => by rw [receive_start, hp], fun more m s => by
                rw [List.cons_append, List.cons_append, receive_start, app more]⟩)
          | checked f after =>
            rw [hp] at app
            exact .inr (.inr ⟨rest, after, rfl, parse_shorter hp, checkedFrame f, checkedFrame_keep _, checkedFrame_only _,
              fun m s => by rw [receive_start, hp], fun more m s => by
                rw [List.cons_append, List.cons_append, receive_start, app more]⟩)
        · exact .inr (.inl ⟨_, _, rfl, fun m s => by
            rw [receive]; simp only [ne_eq, not_true_eq_false, if_false]; rw [if_pos hb], fun more m s => by
            rw [List.cons_append, List.cons_append, receive]; simp only [ne_eq, not_true_eq_false, if_false]; rw [if_pos hb]⟩)
    · exact .inr (.inl ⟨_, _, rfl, fun m s => by rw [receive.eq_def]; simp only; rw [if_pos ha], fun more m s => by
        rw [List.cons_append, receive.eq_def]; simp only; rw [if_pos ha]⟩)

/-- Turns enough for the run give the same result. -/
theorem receive_turns {n m : Nat} {bs : List Byte} (hn : bs.length < n) (hm : bs.length < m) (s : State) :
    receive n bs s = receive m bs s := by
  induction n generalizing m bs s with
  | zero => omega
  | succ n ih =>
    obtain ⟨m, rfl⟩ : ∃ k, m = k + 1 := ⟨m - 1, by omega⟩
    rcases receive_cases n bs with ⟨h, _⟩ | ⟨a, rest, rfl, h, -⟩ | ⟨rest, after, rfl, hl, g, -, -, h, -⟩
    · rcases receive_cases m bs with ⟨h', _⟩ | ⟨a, rest, rfl, h', -⟩ | ⟨rest, after, rfl, hl, g, -, -, h', -⟩
      · rw [h, h']
      · rw [h' n, h' m]; simp only [List.length_cons] at hn hm; exact ih (by omega) (by omega) s
      · rw [h' n, h' m]; simp only [List.length_cons] at hn hm; exact ih (by omega) (by omega) _
    · rw [h n, h m]; simp only [List.length_cons] at hn hm; exact ih (by omega) (by omega) s
    · rw [h n, h m]; simp only [List.length_cons] at hn hm; exact ih (by omega) (by omega) _

/-- What is kept of the frame in reception does not matter: the run that is received holds it. -/
theorem receive_keep (n : Nat) (bs p : List Byte) (s : State) : receive n bs (keepPartial p s) = receive n bs s := by
  induction n generalizing bs s with
  | zero => rfl
  | succ n ih =>
    rcases receive_cases n bs with ⟨h, _⟩ | ⟨a, rest, rfl, h, -⟩ | ⟨rest, after, rfl, -, g, hg, -, h, -⟩
    · rw [h, h]; rfl
    · rw [h, h]; exact ih _ _
    · rw [h, h, hg]; exact ih _ _

/-- Receiving changes the link and the lines alone. -/
theorem receive_only (n : Nat) (bs : List Byte) (s : State) : OnlyLinkLines s (receive n bs s) := by
  induction n generalizing bs s with
  | zero => exact keepPartial_only _ _
  | succ n ih =>
    rcases receive_cases n bs with ⟨h, _⟩ | ⟨a, rest, rfl, h, -⟩ | ⟨rest, after, rfl, -, g, -, ho, h, -⟩
    · rw [h]; exact keepPartial_only _ _
    · rw [h]; exact ih _ _
    · rw [h]; exact (ho s).trans (ih _ _)

/-- A run cut in two: what is kept of the first part goes before the second. -/
theorem receive_split {n m k : Nat} {bs more : List Byte} (hn : bs.length < n) (hm : (bs ++ more).length < m) (s : State)
    (hk : ((receive n bs s).link.partialBytes ++ more).length < k) :
    receive m (bs ++ more) s = receive k ((receive n bs s).link.partialBytes ++ more) (receive n bs s) := by
  induction n generalizing m bs s with
  | zero => omega
  | succ n ih =>
    obtain ⟨m, rfl⟩ : ∃ k, m = k + 1 := ⟨m - 1, by omega⟩
    rcases receive_cases n bs with ⟨h, _⟩ | ⟨a, rest, rfl, h, h'⟩ | ⟨rest, after, rfl, hl, g, -, -, h, h'⟩
    · rw [h] at hk ⊢
      rw [receive_keep]
      exact receive_turns hm hk s
    · rw [h] at hk ⊢
      rw [h']
      exact ih (by simp at hn; omega) (by simp at hm ⊢; omega) s hk
    · rw [h] at hk ⊢
      rw [h']
      exact ih (by simp at hn; omega) (by simp at hm ⊢; omega) _ hk

/-- Bytes without a start byte leave only that nothing is in reception. -/
theorem receive_idle {n : Nat} {bs : List Byte} (h : ∀ b ∈ bs, b ≠ 0xC3) (hn : bs.length < n) (s : State) :
    receive n bs s = keepPartial [] s := by
  induction n generalizing bs with
  | zero => omega
  | succ n ih =>
    match bs with
    | [] => rw [receive]
    | b :: bs =>
      rw [receive.eq_def]
      simp only
      rw [if_pos (h b (by simp))]
      exact ih (fun x hx => h x (by simp [hx])) (by simp at hn; omega)

/-- Bytes without a start word before a start byte are passed over. -/
theorem receive_skip {junk rest : List Byte} (h : ¬ [0xC3, 0x5A] <:+: junk) (n : Nat) (s : State) :
    receive (junk.length + n) (junk ++ 0xC3 :: rest) s = receive n (0xC3 :: rest) s := by
  induction junk with
  | nil => simp
  | cons a junk ih =>
    have h' : ¬ [0xC3, 0x5A] <:+: junk := fun hi => h (hi.trans (List.suffix_cons a junk).isInfix)
    rw [show (a :: junk).length + n = (junk.length + n) + 1 by simp; omega, List.cons_append, receive.eq_def]
    simp only
    by_cases ha : a = 0xC3
    · rw [if_neg (by simpa using ha)]
      subst ha
      match junk, ih h' with
      | [], _ => simp
      | b :: junk, ih =>
        have hb : b ≠ 0x5A := fun e => h ⟨[], junk, by rw [e]; rfl⟩
        simp only [List.cons_append]
        rw [if_pos hb]
        exact ih
    · rw [if_pos ha]; exact ih h'

/-- A frame behind bytes without a start word is checked, and the receiver goes on behind it. -/
theorem receive_frame {junk rest : List Byte} (f : RxFrame) (h : ¬ [0xC3, 0x5A] <:+: junk) (hb : f.body.length ≤ 1040) {n m : Nat}
    (hn : (junk ++ frameBytes f.kind f.tag f.body ++ rest).length < n) (hm : rest.length < m) (s : State) :
    receive n (junk ++ frameBytes f.kind f.tag f.body ++ rest) s = receive m rest (checkedFrame f s) := by
  have e : junk ++ frameBytes f.kind f.tag f.body ++ rest = junk ++ 0xC3 :: (0x5A :: (frameCovered f.kind f.tag f.body ++
      leBytes 2 (checkOf (frameCovered f.kind f.tag f.body)).toNat ++ rest)) := by simp [frameBytes]
  rw [e] at hn ⊢
  rw [receive_turns hn (m := junk.length + ((0xC3 :: 0x5A :: (frameCovered f.kind f.tag f.body ++
      leBytes 2 (checkOf (frameCovered f.kind f.tag f.body)).toNat ++ rest)).length + 1)) (by simp), receive_skip h,
    receive_start, parse_frame _ _ _ _ _ hb, if_pos rfl]
  exact receive_turns (by simp; omega) hm _

end Sys2Proof.Machine
end

