-- ==== Sys2Proof/Tests/Slice0.lean ====
section
/-! SUPPORT. Tests of the model against the spec's worked examples, the smoke test of WellFormed, and for every obligation with
hypotheses a witness: a concrete state and operands that meet them together. -/

namespace Sys2Proof.Tests

open Sys2Proof.Machine

/-! ### WellFormed: each check refuses an ill-formed command -/

theorem test_wf_body_too_long : (Instr.ident 0 (List.replicate 1041 0)).wellFormed = false := by
  simp only [Instr.wellFormed, bodyFits, List.length_replicate]; decide

theorem test_wf_longest_body : (Instr.ident 0 (List.replicate 1040 0)).wellFormed = true := by
  simp only [Instr.wellFormed, bodyFits, List.length_replicate]; decide

theorem test_wf_stop_finish_discard : (Instr.stopFinish 0 [1]).wellFormed = false := by decide
theorem test_wf_stop_discard_finish : (Instr.stopDiscard 0 [0]).wellFormed = false := by decide
theorem test_wf_close_wait_now : (Instr.closeVpWait 0 [1, 0, 0, 0, 1]).wellFormed = false := by decide
theorem test_wf_close_now_wait : (Instr.closeVpNow 0 [1, 0, 0, 0, 0]).wellFormed = false := by decide
theorem test_wf_known_kind : (Instr.unknownKind 0x16 0 []).wellFormed = false := by decide
theorem test_wf_empty_piece : (Instr.blockFrame ⟨[], false⟩).wellFormed = false := by decide
theorem test_wf_unknown_kind : (Instr.unknownKind 0x17 0 []).wellFormed = true := by decide

/-! ### Values of the spec's worked examples -/

/-- Chapter 0: the check over 0x0001 and 0x0002. -/
theorem test_check_closes : checkOf [0x01, 0x00] = 0x0002 ∧ checkOf [0x01, 0x00, 0x02, 0x00] = 0 := by decide

/-- Chapter 10: the bytes of START with tag 7. -/
theorem test_start_frame : frameBytes 0x05 0x07 [] = [0xC3, 0x5A, 0x00, 0x00, 0x05, 0x07, 0x0A, 0x0E] := by decide

/-- Chapter 10: the bytes of its reply. -/
theorem test_start_reply :
    txBytes (.notice (.reply 0x05 0x07 .ok [1])) = [0xC3, 0x5A, 0x03, 0x00, 0x05, 0x07, 0x00, 0x00, 0x01, 0x1A, 0x38] := by decide

/-- Section 2.9: the running check after four samples, at position 200 and at 256. -/
theorem test_pilot_check :
    checkOver 0 [0x0003, 0xFFFE, 0x0001, 0x0004] = 0xFFCB ∧ checkOver 0xFFCB (List.replicate 4 0) = 0xFCBF ∧
      checkOver 0xFCBF (List.replicate 8 0) = 0xBFFC := by decide

/-- Section 5.10: the five lags of the worked correlation, shift 1. -/
theorem test_correlation_sums :
    (lagSums [3, -2, 1, 4] 5 [10, 20, -5, 7, 1, 0, 0, 0]).map (scaleSum 1) = [7, 41, -14, 10, 2] := by decide

/-- Section 5.10: the same lags with the samples of the missing block read as 0. -/
theorem test_correlation_gap :
    (lagSums [3, -2, 1, 4] 5 [10, 20, -5, 0, 0, 0, 0, 0]).map (scaleSum 1) = [-8, 35, -8, 0, 0] := by decide

/-- Section 5.10: a sum of 2^33 saturates at shifts 1 and 2, not at 3; −2^32 at shift 1 is in range. -/
theorem test_saturation :
    (([1, 2, 3].map fun k => scaleSum k (2 ^ 33)).map outside32) = [true, true, false] ∧ scaleSum 1 (-2 ^ 32) = -2 ^ 31 ∧
      outside32 (-2 ^ 31) = false ∧ saturate32 (scaleSum 2 (2 ^ 33)) = 2147483647 := by decide

/-- Section 6.8: channels 5 and 6. -/
theorem test_editing :
    referencePeak [100, 120, 900, 110] = 110 ∧ rejectedWindows 64 110 [100, 120, 900, 110] = [2] ∧
      referencePeak [90, 2147483647, 100, 5000] = 100 ∧ rejectedWindows 64 100 [90, 2147483647, 100, 5000] = [1, 3] ∧
      traceOutcome 1 .discard false [1, 3] = .editDiscard ∧ traceOutcome 1 .discard true [] = .gapDiscard := by decide

/-- Section 6.8: the accumulator in error is brought within the bound of one fold. -/
theorem test_fold_bound : boundAcc (boundCount 1 1) 3000000000 = 2147483647 := by decide

/-- Sections 6.8 and 7.8: output samples in both modes. -/
theorem test_output_samples :
    [outputSample .mean 2 135, outputSample .mean 3 100, outputSample .mean 3 5000000000, outputSample .mean 0 0,
      outputSample .mean 2 (-301)] = [68, 33, 1666666667, 0, -151] ∧
      [outputSample .sum 3 5000000000, outputSample .sum 1 (-7)] = [2147483647, -7] := by decide

/-- Section 3.9: steps at 500 samples per second. -/
theorem test_pps_step : [19400, 19250, 19240].map (ppsStep 500) = [100, 250, -240] := by decide

/-- R60: K of 100 is stored as 256, of 9,000 as 8,192. -/
theorem test_clamp_k : clampK 100 = 256 ∧ clampK 9000 = 8192 := by decide

/-- Section 1.9: the windows and the slots of blocks 5,001 and 7,049. -/
theorem test_window : oldestBlock 5000 = 2953 ∧ oldestBlock 7049 = 5002 ∧ oldestBlock 2046 = 0 ∧ 5001 % Config.ringBlocks = 905 := by
  decide

/-- R67: 65,535 is followed by 1. -/
theorem test_id_wraps : idAfter 65535 = 1 ∧ freeId [65535, 1] 16 65535 = 2 := by decide

/-- R7: a slice of 256 channels at cascade position 1 keeps groups 4 to 7. -/
theorem test_slice :
    ({ State.reset with mode := { State.reset.mode with position := 1 } }).sliceGroup 4 = some 0 ∧
    ({ State.reset with mode := { State.reset.mode with position := 1 } }).sliceGroup 7 = some 3 ∧
    ({ State.reset with mode := { State.reset.mode with position := 1 } }).sliceGroup 8 = none := by decide

/-! ### States the tests start from -/

/-- The frame alone in the receive buffer. -/
def rx (f : RxFrame) (s : State) : State := s.withLink { s.link with rxBuf := [f] }

/-- The part in ACQUIRE. -/
def acquiring (s : State) : State := s.withMode { s.mode with op := .acquire }

/-- A sweep of fleet 0 for VP 100 in context 0, with a pilot of 256 samples and 256 lags. -/
def sweepAt (id t0 : Nat) (st : SweepState) (compare : Option Nat) : SweepRecord :=
  { id := id, origin := .schedule, fleet := 0, vp := 100, t0 := BitVec.ofNat 48 t0, slot := 0, lp := 256, shift := 1, k := 256
    edit := 64, reject := 1, ctx := 0, state := st, first := t0 / 32, last := (t0 + 510) / 32, compare := compare, checkBad := false }

/-- An OPEN context of VP 100, target 32. -/
def openContext (attached folded dropped : Nat) : Context :=
  { state := .opened, vp := 100, gen := 7, target := 32, k := 256, attached := attached, folded := folded, dropped := dropped
    records := [], checkBad := false }

/-- In ACQUIRE with the sweeps listed, all attached to context 0. -/
def withSweeps (rs : List SweepRecord) (s : State) : State :=
  (((acquiring s).withListed rs).withStack { ctxs := s.stack.ctxs, openOrder := [0] }).withCtx 0 (openContext rs.length 0 0)

/-- A job of the sweep in a pass. -/
def withJob (r : SweepRecord) (p : Pass) (s : State) : State :=
  s.withEngine { job := some { sweep := r, pass := p, done := 0, elapsed := 0 }, snapshot := [], scratch := [] }

/-- LOCKED at a count and an alignment. -/
def lockedAt (n a : Nat) (s : State) : State :=
  s.withTime { n := BitVec.ofNat 48 n, lock := .locked, a := BitVec.ofNat 48 a }

/-- Slot 0 VALID with 256 samples. -/
def withPilot (s : State) : State :=
  s.withSlot 0 { state := .valid, lp := 256, pos := 256, check := 0, shift := 1, failure := none, samples := List.replicate 256 0 }

/-- Fleet 0 set to 256 lags and armed for VP 100. -/
def armed (count : Nat) (s : State) : State :=
  s.withFleet 0 { s.fleet 0 with k := 256, target := 2, arm := some { vp := 100, count := count } }

/-- Input line 1 in a role. -/
def lineIn (r : Role) (s : State) : State :=
  s.withRouter { s.router with inputs := s.router.inputs.set 1 { role := r, polarity := .activeHigh } }

/-- Output line 0 following a source. -/
def lineOut (src : Source) (form : Form) (count : Nat) (s : State) : State :=
  let e : OutputEntry :=
    { source := src, form := form, width := 10, polarity := .activeHigh, asserted := decide (count ≠ 0), count := count }
  s.withRouter { s.router with outputs := s.router.outputs.set 0 e }

/-- The command answers a next state that the test accepts. -/
def answers (c : Instr) (s : State) (p : State → Bool) : Bool :=
  match exec c s with
  | .next t => p t
  | .fault _ => false
  | .refused _ => false

/-! ### One command each, expected values from the spec -/

/-- Chapter 10: the bytes of START arrive as the frame START, tag 7. -/
theorem test_host_frame : answers (.hostFrame [0x00, 0xC3, 0x5A, 0x00, 0x00, 0x05, 0x07, 0x0A, 0x0E]) State.reset
    (fun t => t.link.rxBuf == [⟨0x05, 0x07, []⟩]) = true := by decide

/-- R141: a frame cut short waits for its rest. -/
theorem test_host_frame_partial : answers (.hostFrame [0xC3, 0x5A, 0x00, 0x00, 0x05]) State.reset
    (fun t => t.link.rxBuf == [] && t.link.partialBytes == [0xC3, 0x5A, 0x00, 0x00, 0x05]) = true := by decide

/-- Chapter 10: START in SETUP enters ACQUIRE and answers OK, ACQUIRE. -/
theorem test_start : answers (.start 7 []) (rx ⟨0x05, 7, []⟩ State.reset)
    (fun t => t.mode.op == .acquire && t.link.notices.getLast? == some (.reply 0x05 7 .ok [1])) = true := by decide

/-- R62: an arm for 33 sweeps is clamped to 32. -/
theorem test_arm : answers (.arm 1 (armBody 2 100 33)) (rx ⟨0x11, 1, armBody 2 100 33⟩ State.reset)
    (fun t => (t.fleet 2).arm == some { vp := 100, count := 32 }) = true := by decide

/-- R60: K of 100 is stored as 256 and E of 5 as 16. -/
theorem test_fleet_set : answers (.fleetSet 1 (fleetSetBody 1 2 100 5 200 0 250 0xFFF6))
    (rx ⟨0x0F, 1, fleetSetBody 1 2 100 5 200 0 250 0xFFF6⟩ State.reset)
    (fun t => (t.fleet 1).k == 256 && (t.fleet 1).edit == 16 && (t.fleet 1).reject == 128 && (t.fleet 1).target == 1 &&
      (t.fleet 1).slot == 2) = true := by decide

/-- R155: RESTART leaves the notice queue with RESTARTED alone, under the request's tag. -/
theorem test_restart : answers (.restart 9 []) (rx ⟨0x07, 9, []⟩ (acquiring State.reset))
    (fun t => t.mode.op == .setup && t.link.notices == [.report 9 (.restarted .restart)]) = true := by decide

/-- Section 3.9, event 1: the tick to 12,750 is the holdover deadline of an alignment at 11,000 with limit 3. -/
theorem test_holdover : answers .holdoverDeadline (lockedAt 12749 11000 State.reset)
    (fun t => t.time.lock == .holdover && t.time.n == 12750 &&
      t.link.notices.getLast? == some (.report 0 (.timebase .holdover 0 12750 .holdover))) = true := by decide

/-- Section 3.9, event 3: the edge at 19,400 steps to 19,500, fires sweep 5 and drops sweep 6. -/
theorem test_pps_edge :
    answers (.ppsEdge 1 true)
      (lineIn .pps (lineOut (.startPulse 0) .pulse 0 (lockedAt 19400 11000
        (withSweeps [{ sweepAt 6 19480 .scheduled (some 19480) with fleet := 1 }, sweepAt 5 19700 .scheduled (some 19450)] State.reset))))
      (fun t => t.time.n == 19500 && t.time.lock == .locked && t.listed.map (·.id) == [5] && t.router.outputs[0].count == 10 &&
        t.router.outputs[0].asserted) = true := by decide

/-- Section 4.8, event 2: a break at 176,010 with offset −10 has T0 176,000, and the arm falls to 1. -/
theorem test_time_break :
    breakT0 176010 0xFFF6 = 176000 ∧ armAfter { vp := 100, count := 2 } = some { vp := 100, count := 1 } ∧
      armAfter { vp := 100, count := 1 } = none := by decide

/-- R55: the tick that brings a pulse's count to 0 deasserts the line. -/
theorem test_pulse_end : answers (.pulseEnd 0) (lineOut .sweepFolded .pulse 1 State.reset)
    (fun t => !t.router.outputs[0].asserted && t.router.outputs[0].count == 0) = true := by decide

/-- Section 8.7: in HUNT a CLOSE VP is discarded and counted, and a SYNC ends HUNT. -/
theorem test_hunt :
    let s := State.reset.withLink { State.reset.link with receiver := .hunt, huntDiscards := 1 }
    answers (.hostFrame (frameBytes 0x15 4 (closeVpBody 100 0))) s (fun t => t.link.huntDiscards == 2 && t.link.rxBuf == []) = true ∧
    answers (.hostFrame (frameBytes 0x08 6 (syncBody 46))) s
      (fun t => t.link.receiver == .receiving && t.link.rxBuf == [⟨0x08, 6, syncBody 46⟩]) = true := by decide

/-- Section 8.7: the SYNC reply carries 46, 43 and 2. -/
theorem test_sync :
    answers (.sync 6 (syncBody 46))
      (rx ⟨0x08, 6, syncBody 46⟩ (State.reset.withLink { State.reset.link with accepted := 42, huntDiscards := 2 }))
      (fun t => t.link.notices.getLast? == some (.reply 0x08 6 .ok [46, 0, 43, 0, 2, 0])) = true := by decide

/-- R20: a frame of no bytes is a LENGTH fault without group and block index. -/
theorem test_block_length : answers (.blockFrame ⟨[], true⟩) State.reset
    (fun t => t.ring.fault == some { kind := .length, loc := none, later := 0 }) = true := by decide

/-- R4, R20: two pieces are one frame, of 8 bytes, a LENGTH fault with its group and block index. -/
theorem test_block_pieces :
    answers (.blockFrame ⟨[3, 0, 9, 0, 0], false⟩) State.reset (fun t => t.ring.reception == .receiving [3, 0, 9, 0, 0]) = true ∧
    answers (.blockFrame ⟨[0, 0, 0], true⟩)
      (State.reset.withRing { State.reset.ring with reception := .receiving [3, 0, 9, 0, 0] })
      (fun t => t.ring.reception == .idle && t.ring.fault == some { kind := .length, loc := some (3, 9), later := 0 }) = true := by
  decide

/-- R23, R24: a reset discards the frame in reception, and its end then changes nothing. -/
theorem test_reset_discards :
    let s := State.reset.withRing { State.reset.ring with reception := .receiving [3, 0] }
    answers (.restart 9 []) (rx ⟨0x07, 9, []⟩ s) (fun t => t.ring.reception == .discarding) = true ∧
    answers .resetPin s (fun t => t.ring.reception == .discarding) = true ∧
    answers (.blockFrame ⟨[9], true⟩) (State.reset.withRing { State.reset.ring with reception := .discarding })
      (fun t => t.ring.reception == .idle && t.ring.fault == none) = true := by decide

/-- The line idle, with the notices waiting. -/
def waiting (ns : List Notice) (s : State) : State := s.withLink { s.link with tx := none, notices := ns }

/-- R153: the hold that is deasserted has the head of the queue started at once. -/
theorem test_hold_release :
    let s := lineIn .transmitHold (waiting [.report 0 (.restarted .power)] State.reset)
    answers (.transmitHold 1 false) (s.withRouter { s.router with pins := s.router.pins.set 1 true })
      (fun t => t.link.tx == some (.notice (.report 0 (.restarted .power))) && t.link.notices == []) = true := by decide

/-- R152: the end of a transmission starts the head of the queue. -/
theorem test_end_decides :
    answers .transmissionEnd (State.reset.withLink { State.reset.link with notices := [.reply 1 2 .ok []] })
      (fun t => t.link.tx == some (.notice (.reply 1 2 .ok [])) && t.link.notices == []) = true := by decide

/-- R120, R140, R169: a POST that finds a check error in the list opens no context, and every generation is kept. -/
theorem test_post_check_error :
    answers (.post 1 (sweepBody 0 101 500))
      (rx ⟨0x12, 1, sweepBody 0 101 500⟩
        (withPilot (withSweeps [{ sweepAt 3 4000 .waiting none with checkBad := true }] State.reset)))
      (fun t => t.mode.cause == .tableCheck && t.listed == [] && (t.ctx 0).gen == 7 && (t.ctx 1).gen == 0) = true := by decide

/-- R168: a reset pin leaves the part held; the completion latches the straps and the free line starts the report of the cause. -/
theorem test_reset_pin : answers .resetPin State.reset (fun t => t.mode.held && t.link.notices == [] && t.link.tx == none) = true ∧
    answers (.coldResetComplete 1 3) (coldReset .pin State.reset)
      (fun t => t.channels == 512 && t.firstGroup == 24 && t.link.notices == [] &&
        t.link.tx == some (.notice (.report 0 (.restarted .pin)))) = true := by decide

/-- R142, R144: behind a length word of 1,041 the SYNC frame is found, whole in one run and cut in two; it ends the HUNT that the bad frame
began. -/
theorem test_frame_in_a_bad_frame :
    answers (.hostFrame ([0xC3, 0x5A] ++ leBytes 2 1041 ++ frameBytes 0x08 6 (syncBody 46))) State.reset
      (fun t => t.link.receiver == .receiving && t.link.rxBuf == [⟨0x08, 6, syncBody 46⟩] && t.link.partialBytes == []) = true ∧
    answers (.hostFrame ([0xC3, 0x5A] ++ leBytes 2 1041 ++ (frameBytes 0x08 6 (syncBody 46)).take 3)) State.reset
      (fun t => t.link.receiver == .hunt && t.link.rxBuf == [] && t.link.partialBytes == [0xC3, 0x5A, 2]) = true := by decide

/-- R175: the bytes of each report's fields, in the order of the kinds. -/
theorem test_report_lengths :
    ([Report.restarted .pin, .linkError .check 5, .reportsLost 9, .sweepEntered 1 .post 0 100 500 0 7,
      .sweepFolded 1 0 100 500 0 7 1 0 ⟨256, 0, 0, 2, 0, 0⟩, .sweepDropped 0 0 100 500 .full none none, .vpDone 100 7 0 1 256 1 0 256,
      .timeBreakRefused 0 .state 500 .setup, .timebase .step (-3) 500 .locked, .pilotFailed 0 .overrun 256 200 0 none,
      .spreadFault .jump (some (1, 2)), .drained .finish 500].map fun r => (reportFields r).length) =
      [1, 3, 2, 16, 33, 16, 13, 9, 10, 11, 10, 7] := by decide

/-- R176: the offsets of a TRACE's body, with one dead window and two samples of its lags. -/
theorem test_trace_body :
    (traceFrame ⟨0x01020304, 7, 0x0506, 3, 2, .sum, true, false, true, [3], [-2, 258]⟩).body =
      [2, 4, 3, 2, 1, 7, 6, 5, 3, 2, 1, 5, 2, 0, 1, 3, 0xFE, 0xFF, 0xFF, 0xFF, 2, 1, 0, 0] := by decide

/-- R177: three bytes a sample, the least significant first, signed. -/
theorem test_samples : (samples24 [1, 2, 0, 0xFF, 0xFF, 0xFF, 0, 0, 0x80]).map BitVec.toInt = [513, -1, -8388608] := by decide

/-- R82, R168: a tick, and the end of an emission, read the records they work on. -/
theorem test_reads_check :
    let s := withSweeps [{ sweepAt 3 4000 .waiting none with checkBad := true }] State.reset
    let e := (waiting [] State.reset).withCtx 1 { openContext 0 1 0 with state := .closing, checkBad := true }
    let cu : Cursor := { ctx := 1, next := 256, waiting := none, sending := true, sent := 255 }
    let t := traceOf e (e.ctx 1) 255
    answers .sampleTick s (fun t => t.mode.cause == .tableCheck && t.listed == [] && t.time.n == 1) = true ∧
    answers .transmissionEnd ((e.withEmitter { closing := [1], cursor := some cu }).withLink { e.link with tx := some (.trace t) })
      (fun t => t.mode.cause == .tableCheck && (t.ctx 1).gen == 7 && t.link.tx == some (.notice (.report 0 (.restarted .tableCheck))))
      = true := ⟨rfl, rfl⟩

/-! ### Witnesses: states and operands that meet the hypotheses of each obligation -/

theorem rx_taken (f : RxFrame) (s : State) (h1 : s.mode.held = false) (h2 : s.link.notices.length < 64) : Taken f [] (rx f s) :=
  ⟨h1, rfl, h2⟩

theorem witness_StepRunsFront : (State.reset.pending = []) ∧
    ({ State.reset with pending := [.sampleTick, .start 7 []] }).pending = .sampleTick :: [.start 7 []] := by decide

theorem witness_ColdResets : State.reset.mode.held = false ∧ (coldReset .pin State.reset).mode.held = true ∧
    Instr.jobCompletion ∈ [Instr.sampleTick, .holdoverDeadline, .scheduleCompare, .transmissionStart, .transmissionEnd,
      .correlationPassEnd, .jobCompletion] := by decide

/-- An emission of context 0 in the line's hands, the contexts `more` closing behind it. -/
def emitting (next : Nat) (w : Option Trace) (sending : Bool) (more : List (Fin 4)) (s : State) : State :=
  let t := waiting [] (s.withCtx 0 { openContext 0 1 0 with state := .closing })
  t.withEmitter
    { closing := 0 :: more, cursor := some { ctx := 0, next := next, waiting := w, sending := sending, sent := next - 1 } }

/-- A TRACE as the tests need one. -/
def someTrace : Trace := traceOf State.reset (openContext 0 1 0) 0

/-- The last TRACE of context 0 in transmission, context 1 CLOSING behind it, its record marked or not. -/
def lastTrace (marked : Bool) : State :=
  let e := emitting 256 none true [1] (State.reset.withCtx 1 { openContext 0 1 0 with vp := 101, state := .closing, checkBad := marked })
  e.withLink { e.link with tx := some (.trace someTrace) }

theorem witness_WarmRestarts :
    let s := withSweeps [{ sweepAt 3 4000 .correlating none with checkBad := true }] State.reset
    let u := withJob (sweepAt 3 4000 .correlating none) .editing s
    let f : RxFrame := ⟨0x12, 1, sweepBody 0 101 500⟩
    let v := withJob (sweepAt 3 4000 .correlating none) .editing
      (withSweeps [sweepAt 3 4000 .correlating none, { sweepAt 5 4100 .ready none with checkBad := true }] State.reset)
    let e := lastTrace false
    let w := e.withCtx 0 { e.ctx 0 with checkBad := true }
    let c := lockedAt 19449 19000 (withSweeps [sweepAt 5 19700 .scheduled (some 19450)] State.reset)
    let d := c.withCtx 0 { c.ctx 0 with checkBad := true }
    let p := lineIn .pps (lockedAt 19400 19000 s)
    (Taken ⟨0x07, 9, []⟩ [] (rx ⟨0x07, 9, []⟩ (acquiring State.reset)) ∧ (rx ⟨0x07, 9, []⟩ (acquiring State.reset)).checkHit = false) ∧
    (Taken ⟨0x02, 9, []⟩ [] (rx ⟨0x02, 9, []⟩ s) ∧ ∃ r ∈ (rx ⟨0x02, 9, []⟩ s).listed, r.checkBad = true) ∧
    (u.mode.held = false ∧ u.engine.job = some { sweep := sweepAt 3 4000 .correlating none, pass := .editing, done := 0, elapsed := 0 } ∧
      (u.listed.find? fun q => decide (q.id = 3)) = some { sweepAt 3 4000 .correlating none with checkBad := true }) ∧
    ((lastTrace true).mode.held = false ∧ (lastTrace true).checkHit = false ∧ (lastTrace true).link.tx = some (.trace someTrace) ∧
      (lastTrace true).emitter.cursor = some { ctx := 0, next := 256, waiting := none, sending := true, sent := 255 } ∧
      256 = (lastTrace true).channels ∧ (lastTrace true).emitter.closing = 0 :: 1 :: [] ∧ (1 : Fin 4) ≠ 0 ∧
      ((lastTrace true).ctx 0).checkBad = false ∧ ((lastTrace true).ctx 1).checkBad = true) ∧
    (Taken f [] (rx f s) ∧ (rx f s).checkHit = false ∧ (0 : Byte).toNat = (0 : Fin 4).val ∧ (rx f s).mode.op = .acquire ∧
      ∃ r ∈ (rx f s).listed, r.checkBad = true) ∧
    (v.mode.held = false ∧ v.checkHit = false ∧
      v.engine.job = some { sweep := sweepAt 3 4000 .correlating none, pass := .editing, done := 0, elapsed := 0 } ∧
      (v.listed.find? fun q => decide (q.id = 3)) = some (sweepAt 3 4000 .correlating none) ∧
      (∃ q ∈ v.listed, q.id ≠ 3 ∧ q.checkBad = true) ∧ ∃ q ∈ v.listed, q.id ≠ 3 ∧ q.state = .ready) ∧
    (w.mode.held = false ∧ w.checkHit = false ∧ w.link.tx = some (.trace someTrace) ∧
      w.emitter.cursor = some { ctx := 0, next := 256, waiting := none, sending := true, sent := 255 } ∧ 256 = w.channels ∧
      (w.ctx 0).checkBad = true) ∧
    (s.mode.held = false ∧ s.checkHit = false ∧ (∃ r ∈ s.listed, r.checkBad = true) ∧ d.mode.held = false ∧ d.checkHit = false ∧
      d.listed.filter (fun r => decide (r.state = .scheduled ∧ r.compare = some (d.time.n + 1).toNat)) =
        [sweepAt 5 19700 .scheduled (some 19450)] ∧ (d.ctx 0).checkBad = true) ∧
    (p.mode.held = false ∧ p.checkHit = false ∧ p.router.inputs[(1 : Fin 4).val].role = .pps ∧
      true = decide (p.router.inputs[(1 : Fin 4).val].polarity = .activeHigh) ∧ alignStep p ≠ 0 ∧ ∃ r ∈ p.listed, r.checkBad = true) :=
  ⟨⟨rx_taken _ _ rfl (by decide), rfl⟩, ⟨rx_taken _ _ rfl (by decide), by decide⟩, by decide,
    ⟨rfl, rfl, rfl, rfl, by decide, rfl, by decide, by decide, by decide⟩,
    ⟨rx_taken _ _ rfl (by decide), rfl, by decide, by decide, by decide⟩, by decide, ⟨rfl, rfl, rfl, rfl, by decide, by decide⟩, by decide,
    by decide⟩

/-- Both ends of the unknown kinds; and wrong lengths at the edges of PILOT WORDS' own. -/
theorem witness_KindAndLengthJudged :
    (((0x00 : Byte).toNat = 0 ∨ 0x16 < (0x00 : Byte).toNat) ∧ ((0x17 : Byte).toNat = 0 ∨ 0x16 < (0x17 : Byte).toNat) ∧
      Taken ⟨0x17, 1, []⟩ [] (rx ⟨0x17, 1, []⟩ State.reset) ∧ (rx ⟨0x17, 1, []⟩ State.reset).checkHit = false) ∧
    (requestFrame (.pilotWords 1 [2]) = some ⟨0x0D, 1, [2]⟩ ∧ (Instr.pilotWords 1 [2]).wellFormed = true ∧
      Taken ⟨0x0D, 1, [2]⟩ [] (rx ⟨0x0D, 1, [2]⟩ State.reset) ∧ (rx ⟨0x0D, 1, [2]⟩ State.reset).checkHit = false ∧
      knownKind 0x0D = true ∧
      ((0x0D : Byte).toNat, ([2] : List Byte).length) ∉ [(1, 0), (2, 0), (3, 5), (4, 1), (5, 0), (6, 1), (7, 0), (8, 2), (9, 6), (10, 7),
        (11, 0), (12, 4), (14, 3), (15, 12), (16, 1), (17, 6), (18, 11), (19, 11), (20, 2), (21, 5), (22, 0)] ∧
      ¬ ((0x0D : Byte) = 0x0D ∧ 3 ≤ ([2] : List Byte).length ∧ ([2] : List Byte).length ≤ 513 ∧ ([2] : List Byte).length % 2 = 1)) :=
  ⟨⟨by decide, by decide, rx_taken _ _ rfl (by decide), rfl⟩, by decide, by decide, rx_taken _ _ rfl (by decide), rfl, by decide,
    by decide, by decide⟩

/-- Each of the three ways a request is not taken. -/
theorem witness_DecoderWaits :
    let f : RxFrame := ⟨0x05, 7, []⟩
    let full := State.reset.withLink { State.reset.link with rxBuf := [f], notices := List.replicate 64 (.report 0 (.restarted .pin)) }
    requestFrame (.start 7 []) = some f ∧ (64 ≤ full.link.notices.length ∧ full.checkHit = false) ∧
    (State.reset.link.rxBuf.head? ≠ some f ∧ State.reset.checkHit = false) ∧
    ((coldReset .pin State.reset).mode.held = true ∧ (coldReset .pin State.reset).checkHit = false) := by decide

/-- Six frames in the buffer and a run of two that fills it: the first, with the longest body, behind bytes that look like a start word and
are none; a tail. -/
theorem witness_FrameDelivered :
    let s := State.reset.withLink { State.reset.link with rxBuf := List.replicate 6 ⟨0x01, 0, []⟩ }
    let run : List (List Byte × RxFrame) := [([0x5A, 0xC3, 0xC3], ⟨0x01, 1, List.replicate 1040 0⟩), ([], ⟨0x05, 7, []⟩)]
    s.mode.held = false ∧ s.checkHit = false ∧ s.link.partialBytes = [] ∧
      (∀ p ∈ run, ¬ [0xC3, 0x5A] <:+: p.1 ∧ p.2.body.length ≤ 1040) ∧ (∀ b ∈ [(0x5A : Byte), 0], b ≠ 0xC3) ∧
      s.link.receiver = .receiving ∧ s.link.rxBuf.length + run.length ≤ 8 := by
  refine ⟨rfl, rfl, rfl, fun p hp => ?_, by decide, rfl, by decide⟩
  rcases List.mem_cons.mp hp with rfl | hp
  · exact ⟨by decide, le_of_eq List.length_replicate⟩
  · rcases List.mem_cons.mp hp with rfl | hp
    · exact ⟨by decide, Nat.zero_le _⟩
    · cases hp

/-- An overrun in each state; HUNT with a request and with SYNC; a length word of 1,041; a wrong check word, and one whose frame's body is
a whole frame. -/
theorem witness_BadFramesHunt :
    let full := State.reset.withLink { State.reset.link with rxBuf := List.replicate 8 ⟨0x01, 0, []⟩ }
    let hunt := State.reset.withLink { State.reset.link with receiver := .hunt }
    (full.mode.held = false ∧ full.checkHit = false ∧ full.link.partialBytes = [] ∧ 8 ≤ full.link.rxBuf.length ∧
      (full.link.receiver = .receiving ∨ (0x01 : Byte) = 0x08) ∧ (full.link.receiver = .receiving ∨ (0x08 : Byte) = 0x08)) ∧
    (hunt.mode.held = false ∧ hunt.checkHit = false ∧ hunt.link.partialBytes = [] ∧ hunt.link.receiver = .hunt ∧
      (0x01 : Byte) ≠ 0x08 ∧ hunt.link.rxBuf.length < 8) ∧
    ((∀ b ∈ leBytes 2 (1041#16).toNat ++ [], b ≠ 0xC3) ∧ 1040 < (1041#16).toNat) ∧
    ((∀ b ∈ frameCovered 0x05 0x07 [] ++ leBytes 2 (0x0E0B#16).toNat ++ [], b ≠ 0xC3) ∧
      (0x0E0B : Word) ≠ checkOf (frameCovered 0x05 0x07 [])) ∧
    (0x0000 : Word) ≠ checkOf (frameCovered 0x05 0x07 (frameBytes 0x05 0x07 [])) := by decide

theorem witness_SyncAnswers : Taken ⟨0x08, 6, syncBody 46⟩ [] (rx ⟨0x08, 6, syncBody 46⟩ State.reset) ∧
    (rx ⟨0x08, 6, syncBody 46⟩ State.reset).checkHit = false := ⟨rx_taken _ _ rfl (by decide), rfl⟩

theorem witness_ArbiterStarts :
    let q := waiting [.report 0 (.restarted .power)] State.reset
    let e := emitting 1 (some someTrace) false [] State.reset
    let i := waiting [] State.reset
    (q.mode.held = false ∧ q.checkHit = false ∧ q.link.tx = none ∧ q.transmitHold = false ∧
      q.link.notices = .report 0 (.restarted .power) :: []) ∧
    (e.mode.held = false ∧ e.checkHit = false ∧ e.link.tx = none ∧ e.transmitHold = false ∧ e.link.notices = [] ∧
      e.emitter.cursor = some { ctx := 0, next := 1, waiting := some someTrace, sending := false, sent := 0 }) ∧
    (i.checkHit = false ∧ i.link.notices = [] ∧ i.emitter.cursor = none) :=
  ⟨by decide, ⟨rfl, rfl, rfl, by decide, rfl, rfl⟩, by decide⟩

theorem witness_MessageEnds :
    let e := emitting 1 (some someTrace) true [] State.reset
    let m := e.withLink { e.link with tx := some (.trace someTrace) }
    let o := State.reset.withLink { State.reset.link with tx := some (.trace someTrace) }
    (e.mode.held = false ∧ e.checkHit = false ∧ e.link.tx = none) ∧
    (State.reset.mode.held = false ∧ State.reset.checkHit = false ∧
      State.reset.link.tx = some (.notice (.report 0 (.restarted .power)))) ∧
    (o.mode.held = false ∧ o.checkHit = false ∧ o.link.tx = some (.trace someTrace) ∧ o.emitter.cursor = none) ∧
    (m.mode.held = false ∧ m.checkHit = false ∧ m.link.tx = some (.trace someTrace) ∧
      m.emitter.cursor = some { ctx := 0, next := 1, waiting := some someTrace, sending := true, sent := 0 } ∧ 1 ≠ m.channels) :=
  ⟨⟨rfl, rfl, rfl⟩, ⟨rfl, rfl, rfl⟩, ⟨rfl, rfl, rfl, rfl⟩, rfl, rfl, rfl, rfl, by decide⟩

/-- The last TRACE of context 0 in transmission, nothing behind it and context 1 behind it, in DRAINING too. -/
theorem witness_EmissionEnds :
    let e := emitting 256 none true [] (State.reset.withMode { State.reset.mode with op := .draining, drain := some .finish })
    let s := e.withLink { e.link with tx := some (.trace someTrace) }
    let u := lastTrace false
    (s.mode.held = false ∧ Clean s ∧ s.link.tx = some (.trace someTrace) ∧
      s.emitter.cursor = some { ctx := 0, next := 256, waiting := none, sending := true, sent := 255 } ∧ 256 = s.channels ∧
      s.emitter.closing = 0 :: []) ∧
    (u.mode.held = false ∧ Clean u ∧ u.link.tx = some (.trace someTrace) ∧
      u.emitter.cursor = some { ctx := 0, next := 256, waiting := none, sending := true, sent := 255 } ∧ 256 = u.channels ∧
      u.emitter.closing = 0 :: 1 :: []) := by
  refine ⟨⟨rfl, ?_, rfl, rfl, rfl, rfl⟩, rfl, ?_, rfl, rfl, rfl, rfl⟩
  all_goals unfold Clean; decide

/-- A clean record, and one with an accumulator in error. -/
theorem witness_TraceFormed :
    let c := { openContext 0 1 0 with records := [(40, { freshRecord 256 with accErr := [20] })] }
    (false = true ↔ (stackRecord (openContext 0 1 0) 40).accErr ≠ [] ∨ (stackRecord (openContext 0 1 0) 40).cntErr ≠ []) ∧
    (true = true ↔ (stackRecord c 40).accErr ≠ [] ∨ (stackRecord c 40).cntErr ≠ []) := by decide

/-- A line that holds the role and one that does not. -/
theorem witness_HoldFollowsLine :
    let s := lineIn .transmitHold State.reset
    RolesUnique s ∧ s.router.inputs[(1 : Fin 4).val].role = .transmitHold ∧ s.router.inputs[(2 : Fin 4).val].role ≠ .transmitHold := by
  unfold RolesUnique; decide

theorem witness_TimeSetSets :
    let f : RxFrame := ⟨0x09, 5, timeSetBody 11000⟩
    let h := rx f (State.reset.withTime { n := 13000, lock := .holdover, a := 11000 })
    (Taken f [] (rx f State.reset) ∧ (rx f State.reset).checkHit = false ∧ (rx f State.reset).mode.op = .setup) ∧
    (Taken f [] h ∧ h.mode.op = .setup ∧ h.time.lock = .holdover) ∧
    (Taken f [] (rx f (acquiring State.reset)) ∧ (rx f (acquiring State.reset)).checkHit = false ∧
      (rx f (acquiring State.reset)).mode.op ≠ .setup) :=
  ⟨⟨rx_taken _ _ rfl (by decide), rfl, rfl⟩, ⟨rx_taken _ _ rfl (by decide), rfl, rfl⟩, rx_taken _ _ rfl (by decide), rfl, by decide⟩

/-- A start pulse on its last tick, on a tick that reaches the deadline and no compare. -/
theorem witness_TickAdvances :
    let s := lineOut (.startPulse 0) .pulse 1 (lockedAt 12749 11000 (withSweeps [sweepAt 5 19700 .scheduled (some 19450)] State.reset))
    s.mode.held = false ∧ Clean s ∧ ListOrdered s ∧ s.time.lock = .locked ∧ s.time.n + 1 = deadlineOf s ∧
      (∀ r ∈ s.listed, ¬ (r.state = .scheduled ∧ r.compare = some (s.time.n + 1).toNat)) ∧
      s.router.outputs[(0 : Fin 4).val].source ≠ .holdover ∧ s.router.outputs[(0 : Fin 4).val].source ≠ .noticeHigh := by
  unfold Clean ListOrdered; decide

/-- The tick that reaches the deadline; the one before a compare point, the engine IDLE; a count of 1. -/
theorem witness_TickPoints :
    let s := lockedAt 12749 11000 (withSweeps [sweepAt 5 19700 .scheduled (some 19450)] State.reset)
    let u := lineOut (.startPulse 0) .pulse 1 (lockedAt 19449 19000 (withSweeps [sweepAt 5 19700 .scheduled (some 19450)] State.reset))
    (s.mode.held = false ∧ Clean s ∧ ListOrdered s ∧ s.time.lock = .locked ∧ s.time.n + 1 = deadlineOf s ∧
      ∀ r ∈ s.listed, ¬ (r.state = .scheduled ∧ r.compare = some (s.time.n + 1).toNat)) ∧
    (u.mode.held = false ∧ Clean u ∧ ListOrdered u ∧ ¬ (u.time.lock = .locked ∧ u.time.n + 1 = deadlineOf u) ∧
      (∃ r ∈ u.listed, r.state = .scheduled ∧ r.compare = some (u.time.n + 1).toNat) ∧
      u.router.outputs[(0 : Fin 4).val].count = 1 ∧ u.router.outputs[(1 : Fin 4).val].count ≠ 1) := by
  unfold Clean ListOrdered; decide

theorem not_ready_of_no_head (s : State) (r : SweepRecord) (h : s.ring.head = none) : ¬ SpanReady s r := by
  rintro ⟨_, h', _⟩; rw [h] at h'; cases h'

theorem witness_CompareFires :
    let r := sweepAt 5 19700 .scheduled (some 19450)
    let q := sweepAt 6 20480 .scheduled (some 20480)
    let s := lockedAt 19449 19000 (withSweeps [r, q] State.reset)
    s.mode.held = false ∧ Clean s ∧ ArbiterServed s ∧ ListOrdered s ∧ (s.time.lock = .locked → s.time.n + 1 ≠ deadlineOf s) ∧
      s.listed = [] ++ r :: [q] ∧ r.state = .scheduled ∧ r.compare = some (s.time.n + 1).toNat ∧
      (∀ x ∈ [] ++ [q], x.state = .scheduled → x.compare ≠ some (s.time.n + 1).toNat) ∧
      (s.engine.job.isSome = true ∨ ¬ SpanReady s r) := by
  refine ⟨rfl, ?_, ?_, ?_, by decide, rfl, rfl, by decide, by decide, Or.inr (not_ready_of_no_head _ _ rfl)⟩
  · unfold Clean; decide
  · unfold ArbiterServed; decide
  · unfold ListOrdered; decide

/-- Section 3.9: an exact half forward; sweep 6 carried past its T0 and sweep 5 past its compare point. -/
theorem witness_PpsAligns :
    let s := lineIn .pps (lockedAt 19250 19000 (withSweeps [sweepAt 5 19700 .scheduled (some 19650)] State.reset))
    let u := lineIn .pps
      (lockedAt 19400 19000 (withSweeps [sweepAt 6 19480 .scheduled (some 19480), sweepAt 5 19700 .scheduled (some 19450)] State.reset))
    (s.mode.held = false ∧ Clean s ∧ ListOrdered s ∧ s.router.inputs[(1 : Fin 4).val].role = .pps ∧
      true = decide (s.router.inputs[(1 : Fin 4).val].polarity = .activeHigh) ∧ s.time.n.toNat % s.sps = s.sps / 2) ∧
    (u.mode.held = false ∧ Clean u ∧ ListOrdered u ∧ u.router.inputs[(1 : Fin 4).val].role = .pps ∧
      true = decide (u.router.inputs[(1 : Fin 4).val].polarity = .activeHigh)) := by
  unfold Clean ListOrdered; decide

/-- A line without the role, and the inactive edge of the line that holds it. -/
theorem witness_EdgeNotTaken :
    let s := lineIn .pps State.reset
    let u := lineIn (.timeBreak 2) State.reset
    s.checkHit = false ∧ s.router.inputs[(0 : Fin 4).val].role ≠ .pps ∧
      false ≠ decide (s.router.inputs[(1 : Fin 4).val].polarity = .activeHigh) ∧
      u.checkHit = false ∧ (∀ f, u.router.inputs[(0 : Fin 4).val].role ≠ .timeBreak f) ∧
      false ≠ decide (u.router.inputs[(1 : Fin 4).val].polarity = .activeHigh) := by decide

theorem witness_RouteSetInput :
    let f : RxFrame := ⟨0x0A, 5, [0, 3, 2, 2, 0, 0, 1]⟩
    Taken f [] (rx f (lineIn (.timeBreak 2) State.reset)) ∧ (rx f (lineIn (.timeBreak 2) State.reset)).checkHit = false ∧
      (3 : Byte).toNat = (3 : Fin 4).val := ⟨rx_taken _ _ rfl (by decide), rfl, by decide⟩

/-- The first direction and line outside their sets, and line 3 set to a LEVEL of NOTICE HIGH with 48 entries. -/
theorem witness_RouteSetOutput :
    let f : RxFrame := ⟨0x0A, 5, [2, 0, 5, 0, 1, 0, 0]⟩
    let g : RxFrame := ⟨0x0A, 5, [1, 4, 5, 0, 1, 0, 0]⟩
    let h : RxFrame := ⟨0x0A, 5, [1, 3, 7, 0, 1, 0, 0]⟩
    let k : RxFrame := ⟨0x0A, 5, [1, 0, 1, 4, 3, 0, 2]⟩
    let s := State.reset.withLink { State.reset.link with notices := List.replicate 47 (.report 0 (.restarted .pin)) }
    (Taken f [] (rx f State.reset) ∧ (2 ≤ (2 : Byte).toNat ∨ 4 ≤ (0 : Byte).toNat)) ∧
    (Taken g [] (rx g State.reset) ∧ (2 ≤ (1 : Byte).toNat ∨ 4 ≤ (4 : Byte).toNat)) ∧
    (Taken h [] (rx h s) ∧ (rx h s).checkHit = false ∧ (3 : Byte).toNat = (3 : Fin 4).val ∧ (rx h s).link.notices.length = 47) ∧
    (Taken k [] (rx k s) ∧ (0 : Byte).toNat = (0 : Fin 4).val) :=
  ⟨⟨rx_taken _ _ rfl (by decide), by decide⟩, ⟨rx_taken _ _ rfl (by decide), by decide⟩,
    ⟨rx_taken _ _ rfl (by decide), rfl, by decide, by decide⟩, rx_taken _ _ rfl (by decide), by decide⟩

/-- IDENT, ROUTE GET, a key that names a parameter and one that names none, fleets 3 and 4. -/
theorem witness_TablesRead :
    (State.reset.checkHit = false ∧ Taken ⟨0x01, 1, []⟩ [] (rx ⟨0x01, 1, []⟩ State.reset) ∧
      Taken ⟨0x0B, 1, []⟩ [] (rx ⟨0x0B, 1, []⟩ State.reset)) ∧
    (Taken ⟨0x04, 1, [6]⟩ [] (rx ⟨0x04, 1, [6]⟩ State.reset) ∧ Taken ⟨0x04, 1, [7]⟩ [] (rx ⟨0x04, 1, [7]⟩ State.reset)) ∧
    (Taken ⟨0x10, 1, [4]⟩ [] (rx ⟨0x10, 1, [4]⟩ State.reset) ∧ 4 ≤ (4 : Byte).toNat ∧
      Taken ⟨0x10, 1, [3]⟩ [] (rx ⟨0x10, 1, [3]⟩ State.reset) ∧ (3 : Byte).toNat = (3 : Fin 4).val) :=
  ⟨⟨rfl, rx_taken _ _ rfl (by decide), rx_taken _ _ rfl (by decide)⟩, ⟨rx_taken _ _ rfl (by decide), rx_taken _ _ rfl (by decide)⟩,
    rx_taken _ _ rfl (by decide), by decide, rx_taken _ _ rfl (by decide), by decide⟩

theorem witness_StatusReads :
    let s := rx ⟨0x02, 1, []⟩ (withSweeps [sweepAt 5 19700 .scheduled (some 19450)] State.reset)
    Taken ⟨0x02, 1, []⟩ [] s ∧ Clean s := ⟨rx_taken _ _ rfl (by decide), by unfold Clean; decide⟩

/-- A setup-class key in SETUP, the mask outside it, a setup-class key outside SETUP at both ends, keys 0 and 7. -/
theorem witness_ParamSetStores :
    let f (key : Byte) : RxFrame := ⟨0x03, 1, paramSetBody key 255⟩
    (Taken (f 2) [] (rx (f 2) State.reset) ∧ (rx (f 2) State.reset).checkHit = false ∧ (rx (f 2) State.reset).mode.op = .setup) ∧
    (Taken (f 6) [] (rx (f 6) (acquiring State.reset)) ∧ ¬ ((6 : Byte) = 2 ∨ (6 : Byte) = 3 ∨ (6 : Byte) = 4)) ∧
    (Taken (f 0) [] (rx (f 0) State.reset) ∧ Taken (f 7) [] (rx (f 7) State.reset) ∧ 7 ≤ (7 : Byte).toNat) ∧
    (Taken (f 1) [] (rx (f 1) (acquiring State.reset)) ∧ Taken (f 4) [] (rx (f 4) (acquiring State.reset)) ∧
      1 ≤ (1 : Byte).toNat ∧ (4 : Byte).toNat ≤ 4 ∧ (rx (f 4) (acquiring State.reset)).mode.op ≠ .setup) :=
  ⟨⟨rx_taken _ _ rfl (by decide), rfl, rfl⟩, ⟨rx_taken _ _ rfl (by decide), by decide⟩,
    ⟨rx_taken _ _ rfl (by decide), rx_taken _ _ rfl (by decide), by decide⟩, rx_taken _ _ rfl (by decide), rx_taken _ _ rfl (by decide),
    by decide, by decide, by decide⟩

/-- The interval in SETUP, in FREE and in HOLDOVER; a holdover limit of 1 at the first sample past the new deadline, and one sample before
it. -/
theorem witness_TimebaseParamsStored :
    let f : RxFrame := ⟨0x03, 1, paramSetBody 1 3⟩
    let g : RxFrame := ⟨0x03, 1, paramSetBody 5 1⟩
    let late := rx g (lockedAt 11750 11000 State.reset)
    let early := rx g (lockedAt 11749 11000 State.reset)
    let held := rx f (State.reset.withTime { n := 13000, lock := .holdover, a := 11000 })
    (Taken f [] (rx f State.reset) ∧ (rx f State.reset).checkHit = false ∧ (rx f State.reset).mode.op = .setup) ∧
    (Taken f [] held ∧ held.checkHit = false ∧ held.mode.op = .setup ∧ held.time.lock = .holdover) ∧
    (Taken g [] late ∧ late.checkHit = false ∧ 1 ≠ late.mode.params.holdover ∧ late.time.lock = .locked ∧
      late.sps * 1 + late.sps / 2 ≤ (late.time.n - late.time.a).toNat) ∧
    (Taken g [] early ∧ early.checkHit = false ∧ ¬ early.sps * 1 + early.sps / 2 ≤ (early.time.n - early.time.a).toNat) :=
  ⟨⟨rx_taken _ _ rfl (by decide), rfl, rfl⟩, ⟨rx_taken _ _ rfl (by decide), rfl, rfl, rfl⟩,
    ⟨rx_taken _ _ rfl (by decide), rfl, by decide, by decide, by decide⟩, rx_taken _ _ rfl (by decide), rfl, by decide⟩

theorem witness_StartAcquires :
    let f : RxFrame := ⟨0x05, 7, []⟩
    (Taken f [] (rx f State.reset) ∧ (rx f State.reset).checkHit = false ∧ (rx f State.reset).mode.op = .setup) ∧
    (Taken f [] (rx f (acquiring State.reset)) ∧ (rx f (acquiring State.reset)).mode.op ≠ .setup) :=
  ⟨⟨rx_taken _ _ rfl (by decide), rfl, rfl⟩, rx_taken _ _ rfl (by decide), by decide⟩

/-- Two sweeps attached to context 0, one SCHEDULED; the refused modes and states. -/
theorem witness_StopFinishDrains :
    let f (m : Byte) : RxFrame := ⟨0x06, 1, [m]⟩
    let s := rx (f 0) (withSweeps [sweepAt 3 4000 .waiting none, sweepAt 5 19700 .scheduled (some 19450)] State.reset)
    let d := State.reset.withMode { State.reset.mode with op := .draining, drain := some .finish }
    (Taken (f 0) [] s ∧ Clean s ∧ ListOrdered s ∧ Attached s ∧ s.mode.op = .acquire) ∧
    (Taken (f 2) [] (rx (f 2) State.reset) ∧ (2 : Byte) ≠ 1 ∧ (2 : Byte) ≠ 0) ∧
    (Taken (f 0) [] (rx (f 0) State.reset) ∧ (rx (f 0) State.reset).checkHit = false ∧ (rx (f 0) State.reset).mode.op = .setup) ∧
    (Taken (f 0) [] (rx (f 0) d) ∧ (rx (f 0) d).mode.op = .draining) := by
  refine ⟨⟨rx_taken _ _ rfl (by decide), ?_, ?_, ?_, rfl⟩, ⟨rx_taken _ _ rfl (by decide), by decide⟩,
    ⟨rx_taken _ _ rfl (by decide), rfl, rfl⟩, rx_taken _ _ rfl (by decide), rfl⟩
  · unfold Clean; decide
  · unfold ListOrdered; decide
  · unfold Attached; decide

theorem engineMatches_of_job (s : State) (j : Job) (hj : s.engine.job = some j)
    (h1 : ∃ r ∈ s.listed, r.id = j.sweep.id ∧ r.state = .correlating)
    (h2 : ∀ r ∈ s.listed, r.state = .correlating → j.sweep.id = r.id) : EngineMatches s := by
  refine ⟨fun i hi => ?_, fun r hr hc => ⟨j, hj, h2 r hr hc⟩⟩
  rw [hj] at hi
  cases hi
  exact h1

/-- A CORRELATING sweep with its job and a SCHEDULED one in ACQUIRE; SETUP. -/
theorem witness_StopDiscardClears :
    let f : RxFrame := ⟨0x06, 1, [1]⟩
    let r := sweepAt 3 4000 .correlating none
    let s := rx f (withJob r .correlation (withSweeps [r, sweepAt 5 19700 .scheduled (some 19450)] State.reset))
    let u := rx f State.reset
    (Taken f [] s ∧ Clean s ∧ ListOrdered s ∧ Attached s ∧ EngineMatches s ∧ s.mode.op ≠ .setup) ∧
    (Taken f [] u ∧ Clean u ∧ ListOrdered u ∧ Attached u ∧ EngineMatches u ∧ u.mode.op = .setup) := by
  refine ⟨⟨rx_taken _ _ rfl (by decide), ?_, ?_, ?_, ?_, by decide⟩, rx_taken _ _ rfl (by decide), ?_, ?_, ?_, ?_, rfl⟩
  · unfold Clean; decide
  · unfold ListOrdered; decide
  · unfold Attached; decide
  · exact engineMatches_of_job _ _ rfl (by decide) (by decide)
  · unfold Clean; decide
  · unfold ListOrdered; decide
  · unfold Attached; decide
  · exact ⟨fun _ h => (by cases h), fun r hr => (by cases hr)⟩

/-- Slots 7 and 8; a referenced slot; lengths 255, 256, 32,768 and 32,769. -/
theorem witness_PilotOpens :
    let f (b : Byte) (lp : Word) : RxFrame := ⟨0x0C, 1, pilotOpenBody b lp 41⟩
    let s := withSweeps [sweepAt 3 4000 .waiting none] State.reset
    (Taken (f 8 256) [] (rx (f 8 256) s) ∧ Clean (rx (f 8 256) s) ∧ 8 ≤ (8 : Byte).toNat) ∧
    (Taken (f 0 256) [] (rx (f 0 256) s) ∧ (0 : Byte).toNat = (0 : Fin 8).val ∧ ∃ r ∈ (rx (f 0 256) s).listed, r.slot = 0) ∧
    ((7 : Byte).toNat = (7 : Fin 8).val ∧ (∀ r ∈ (rx (f 7 255) s).listed, r.slot ≠ 7) ∧ Taken (f 7 255) [] (rx (f 7 255) s) ∧
      Taken (f 7 32769) [] (rx (f 7 32769) s) ∧ (255#16).toNat < 256 ∧ 32768 < (32769#16).toNat) ∧
    (Taken (f 7 256) [] (rx (f 7 256) s) ∧ Taken (f 7 32768) [] (rx (f 7 32768) s) ∧ 256 ≤ (256#16).toNat ∧
      (32768#16).toNat ≤ 32768) :=
  ⟨⟨rx_taken _ _ rfl (by decide), by unfold Clean; decide, by decide⟩, ⟨rx_taken _ _ rfl (by decide), by decide, by decide⟩,
    ⟨by decide, by decide, rx_taken _ _ rfl (by decide), rx_taken _ _ rfl (by decide), by decide, by decide⟩,
    rx_taken _ _ rfl (by decide), rx_taken _ _ rfl (by decide), by decide, by decide⟩

/-- Slot 2 LOADING at a position of a declared 256. -/
def loading (pos : Nat) (s : State) : State :=
  s.withSlot 2 { state := .loading, lp := 256, pos := pos, check := 0xBFFC, shift := 1, failure := none, samples := [] }

/-- Section 2.9: words that fit to the last and that overrun; a close that is short, wrong and right; words and a close that find the
slot EMPTY, and slot number 8. -/
theorem witness_PilotLoadJudged :
    let f (b : Byte) : RxFrame := ⟨0x0D, 1, pilotWordsBody b [3, 0xFFFE]⟩
    let g (b : Byte) (w : Word) : RxFrame := ⟨0x0E, 1, pilotCloseBody b w⟩
    let s := rx (f 2) (loading 254 State.reset)
    let u := rx (f 2) (loading 255 State.reset)
    (Taken (f 2) [] s ∧ s.checkHit = false ∧ (2 : Byte).toNat = (2 : Fin 8).val ∧ (s.slot 2).state = .loading ∧
      (s.slot 2).pos + 2 ≤ (s.slot 2).lp) ∧
    (Taken (f 2) [] u ∧ (u.slot 2).state = .loading ∧ (u.slot 2).lp < (u.slot 2).pos + 2) ∧
    (Taken (g 2 0) [] (rx (g 2 0) (loading 255 State.reset)) ∧ ((rx (g 2 0) (loading 255 State.reset)).slot 2).pos < 256) ∧
    (Taken (g 2 0) [] (rx (g 2 0) (loading 256 State.reset)) ∧ ((rx (g 2 0) (loading 256 State.reset)).slot 2).pos = 256 ∧
      (0 : Word) ≠ ((rx (g 2 0) (loading 256 State.reset)).slot 2).check) ∧
    (Taken (g 2 0xBFFC) [] (rx (g 2 0xBFFC) (loading 256 State.reset)) ∧
      (0xBFFC : Word) = ((rx (g 2 0xBFFC) (loading 256 State.reset)).slot 2).check) ∧
    (Taken (f 2) [] (rx (f 2) State.reset) ∧ Taken (g 2 0) [] (rx (g 2 0) State.reset) ∧ State.reset.checkHit = false ∧
      (∀ i : Fin 8, (2 : Byte).toNat = i.val → ((rx (f 2) State.reset).slot i).state ≠ .loading) ∧
      Taken (f 8) [] (rx (f 8) State.reset) ∧ Taken (g 8 0) [] (rx (g 8 0) State.reset) ∧ 8 ≤ (8 : Byte).toNat) :=
  ⟨⟨rx_taken _ _ rfl (by decide), rfl, by decide, by decide, by decide⟩, ⟨rx_taken _ _ rfl (by decide), by decide, by decide⟩,
    ⟨rx_taken _ _ rfl (by decide), by decide⟩, ⟨rx_taken _ _ rfl (by decide), by decide, by decide⟩,
    ⟨rx_taken _ _ rfl (by decide), by decide⟩, rx_taken _ _ rfl (by decide), rx_taken _ _ rfl (by decide), rfl, by decide,
    rx_taken _ _ rfl (by decide), rx_taken _ _ rfl (by decide), by decide⟩

/-- Fleets 3 and 4, slots 7 and 8, a fleet with a listed sweep. -/
theorem witness_FleetSetStores :
    let f (b sl : Byte) : RxFrame := ⟨0x0F, 1, fleetSetBody b sl 100 5 200 0 250 0xFFF6⟩
    let s := withSweeps [sweepAt 3 4000 .waiting none] State.reset
    (Taken (f 4 0) [] (rx (f 4 0) s) ∧ Clean (rx (f 4 0) s) ∧ 4 ≤ (4 : Byte).toNat) ∧
    (Taken (f 0 0) [] (rx (f 0 0) s) ∧ (0 : Byte).toNat = (0 : Fin 4).val ∧ ∃ r ∈ (rx (f 0 0) s).listed, r.fleet = 0) ∧
    (Taken (f 3 8) [] (rx (f 3 8) s) ∧ (∀ r ∈ (rx (f 3 8) s).listed, r.fleet ≠ 3) ∧ 8 ≤ (8 : Byte).toNat) ∧
    (Taken (f 3 7) [] (rx (f 3 7) s) ∧ (3 : Byte).toNat = (3 : Fin 4).val ∧ (7 : Byte).toNat = (7 : Fin 8).val) :=
  ⟨⟨rx_taken _ _ rfl (by decide), by unfold Clean; decide, by decide⟩, ⟨rx_taken _ _ rfl (by decide), by decide, by decide⟩,
    ⟨rx_taken _ _ rfl (by decide), by decide, by decide⟩, rx_taken _ _ rfl (by decide), by decide, by decide⟩

/-- Fleets 3 and 4, counts 0 and 1. -/
theorem witness_ArmSets :
    let f (b n : Byte) : RxFrame := ⟨0x11, 1, armBody b 100 n⟩
    (Taken (f 4 1) [] (rx (f 4 1) State.reset) ∧ (rx (f 4 1) State.reset).checkHit = false ∧ 4 ≤ (4 : Byte).toNat) ∧
    (Taken (f 3 0) [] (rx (f 3 0) State.reset) ∧ Taken (f 3 1) [] (rx (f 3 1) State.reset) ∧ (3 : Byte).toNat = (3 : Fin 4).val) :=
  ⟨⟨rx_taken _ _ rfl (by decide), rfl, by decide⟩, rx_taken _ _ rfl (by decide), rx_taken _ _ rfl (by decide), by decide⟩

/-- A break in SETUP, one in ACQUIRE without an arm; a break under an arm refused PILOT. -/
theorem witness_BreakTurnedAway :
    let s := lineIn (.timeBreak 0) State.reset
    let u := lineIn (.timeBreak 0) (acquiring State.reset)
    let a := lineIn (.timeBreak 0) (acquiring (armed 1 State.reset))
    (s.mode.held = false ∧ Clean s ∧ s.router.inputs[(1 : Fin 4).val].role = .timeBreak 0 ∧
      true = decide (s.router.inputs[(1 : Fin 4).val].polarity = .activeHigh) ∧ s.mode.op ≠ .acquire) ∧
    (u.mode.op = .acquire ∧ (u.fleet 0).arm = none) ∧
    (a.mode.held = false ∧ Clean a ∧ a.router.inputs[(1 : Fin 4).val].role = .timeBreak 0 ∧ a.mode.op = .acquire ∧
      (a.fleet 0).arm = some { vp := 100, count := 1 } ∧
      ¬ (ChecksPass a 0 (a.time.n + (a.fleet 0).offset.signExtend 48) ∧ Resolvable a 0 100)) := by
  refine ⟨?_, by decide, rfl, ?_, by decide, rfl, by decide, fun h => absurd h.1.2.1 (by decide)⟩
  all_goals unfold Clean; decide

theorem above_of_no_head (s : State) (t0 : SampleIndex) (h : s.ring.head = none) : ¬ BelowWindow s t0 := by
  rintro ⟨_, h', _⟩; rw [h] at h'; cases h'

/-- Context 0 is FREE and none collects the VP. -/
theorem resolvable_of_free (s : State) (hs : s.stack = State.reset.stack) : Resolvable s 0 100 := by
  refine Or.inr ⟨?_, Or.inl ⟨0, ?_⟩⟩
  · unfold CollectsVp State.ctx; rw [hs]; decide
  · unfold State.ctx; rw [hs]; rfl

theorem witness_BreakEnters :
    let s := lineIn (.timeBreak 0) (acquiring (armed 2 (withPilot (lockedAt 176010 176000 State.reset))))
    s.mode.held = false ∧ Clean s ∧ ListOrdered s ∧ s.router.inputs[(1 : Fin 4).val].role = .timeBreak 0 ∧
      true = decide (s.router.inputs[(1 : Fin 4).val].polarity = .activeHigh) ∧ s.mode.op = .acquire ∧
      (s.fleet 0).arm = some { vp := 100, count := 2 } ∧ ChecksPass s 0 (s.time.n + (s.fleet 0).offset.signExtend 48) ∧
      Resolvable s 0 100 := by
  refine ⟨rfl, ?_, ?_, by decide, by decide, rfl, by decide, ⟨by decide, by decide, above_of_no_head _ _ rfl⟩, resolvable_of_free _ rfl⟩
  · unfold Clean; decide
  · unfold ListOrdered; decide

/-- Fleet 4; SETUP; a full list; FREE; a compare point at N and one above it with the pilot missing. -/
theorem witness_EntryTurnedAway :
    let p (b : Byte) : RxFrame := ⟨0x12, 1, sweepBody b 100 500⟩
    let q (b : Byte) : RxFrame := ⟨0x13, 1, sweepBody b 100 500⟩
    let full := withSweeps ((List.range 16).map fun i => sweepAt (i + 1) 4000 .waiting none) State.reset
    let u := acquiring (lockedAt 500 0 State.reset)
    let v := acquiring (lockedAt 499 0 State.reset)
    (Taken (p 4) [] (rx (p 4) State.reset) ∧ Clean (rx (p 4) State.reset) ∧ Taken (q 4) [] (rx (q 4) State.reset) ∧
      4 ≤ (4 : Byte).toNat) ∧
    (Taken (p 3) [] (rx (p 3) State.reset) ∧ Taken (q 3) [] (rx (q 3) State.reset) ∧ (3 : Byte).toNat = (3 : Fin 4).val ∧
      (rx (q 3) State.reset).mode.op ≠ .acquire) ∧
    (Taken (p 0) [] (rx (p 0) full) ∧ Clean (rx (p 0) full) ∧ (rx (p 0) full).mode.op = .acquire ∧
      ¬ (ChecksPass (rx (p 0) full) 0 500 ∧ Resolvable (rx (p 0) full) 0 100)) ∧
    (Taken (q 0) [] (rx (q 0) full) ∧ (rx (q 0) full).time.lock = .free) ∧
    (Taken (q 0) [] (rx (q 0) u) ∧ Clean (rx (q 0) u) ∧ (rx (q 0) u).mode.op = .acquire ∧ (rx (q 0) u).time.lock ≠ .free ∧
      ((500#48).toNat : Int) - ((rx (q 0) u).fleet 0).lead.toNat ≤ (rx (q 0) u).time.n.toNat) ∧
    (Taken (q 0) [] (rx (q 0) v) ∧ Clean (rx (q 0) v) ∧ (rx (q 0) v).mode.op = .acquire ∧ (rx (q 0) v).time.lock ≠ .free ∧
      ¬ ((500#48).toNat : Int) - ((rx (q 0) v).fleet 0).lead.toNat ≤ (rx (q 0) v).time.n.toNat ∧
      ¬ (ChecksPass (rx (q 0) v) 0 500 ∧ Resolvable (rx (q 0) v) 0 100)) := by
  refine ⟨⟨rx_taken _ _ rfl (by decide), ?_, rx_taken _ _ rfl (by decide), by decide⟩,
    ⟨rx_taken _ _ rfl (by decide), rx_taken _ _ rfl (by decide), by decide, by decide⟩,
    ⟨rx_taken _ _ rfl (by decide), ?_, rfl, fun h => absurd h.1.1 (by decide)⟩, ⟨rx_taken _ _ rfl (by decide), rfl⟩,
    ⟨rx_taken _ _ rfl (by decide), ?_, rfl, by decide, by decide⟩, rx_taken _ _ rfl (by decide), ?_, rfl, by decide, by decide,
    fun h => absurd h.1.2.1 (by decide)⟩
  all_goals unfold Clean; decide

/-- The ring with its head at a block and no block valid. -/
def headAt (h : Nat) (s : State) : State := s.withRing { s.ring with head := some h }

theorem ready_of_passed (s : State) (r : SweepRecord) (h : Nat) (hh : s.ring.head = some h)
    (hm : r.last + s.mode.params.margin ≤ h) : SpanReady s r := ⟨h, hh, Or.inr hm⟩

/-- A sweep that waits; one whose span G has passed by the settle margin; and a next id that a listed sweep has. -/
theorem witness_PostAdmitted :
    let f : RxFrame := ⟨0x12, 1, sweepBody 0 100 0⟩
    let s := rx f (acquiring (armed 2 (withPilot State.reset)))
    let u := rx f (acquiring (armed 2 (withPilot (headAt 31 State.reset))))
    let v := rx f (withPilot (withSweeps [sweepAt 1 4000 .waiting none] (armed 2 State.reset)))
    (Taken f [] s ∧ Clean s ∧ ListOrdered s ∧ (0 : Byte).toNat = (0 : Fin 4).val ∧ s.mode.op = .acquire ∧ ChecksPass s 0 0 ∧
      Resolvable s 0 100) ∧
    (Taken f [] u ∧ Clean u ∧ ListOrdered u ∧ u.mode.op = .acquire ∧ ChecksPass u 0 0 ∧ Resolvable u 0 100) ∧
    (Taken f [] v ∧ Clean v ∧ ListOrdered v ∧ v.mode.op = .acquire ∧ ChecksPass v 0 0 ∧ Resolvable v 0 100 ∧
      ∃ r ∈ v.listed, r.id = v.sweeps.nextId) := by
  refine ⟨⟨rx_taken _ _ rfl (by decide), ?_, ?_, by decide, rfl, ⟨by decide, by decide, above_of_no_head _ _ rfl⟩,
    resolvable_of_free _ rfl⟩, ⟨rx_taken _ _ rfl (by decide), ?_, ?_, rfl, ⟨by decide, by decide, ?_⟩, resolvable_of_free _ rfl⟩,
    rx_taken _ _ rfl (by decide), ?_, ?_, rfl, ⟨by decide, by decide, above_of_no_head _ _ rfl⟩,
    Or.inl ⟨0, ⟨?_, fun j h => absurd h (Nat.not_lt_zero _)⟩, by decide, by decide, by decide⟩, by decide⟩
  · unfold Clean; decide
  · unfold ListOrdered; decide
  · unfold Clean; decide
  · unfold ListOrdered; decide
  · rintro ⟨h, hh, hb⟩
    cases hh
    exact absurd hb (by decide)
  · unfold Clean; decide
  · unfold ListOrdered; decide
  · unfold CollectsVp; decide

/-- A compare point one sample above N. -/
theorem witness_ScheduleAdmitted :
    let f : RxFrame := ⟨0x13, 1, sweepBody 0 100 500⟩
    let s := rx f (acquiring (armed 2 (withPilot (lockedAt 499 0 State.reset))))
    Taken f [] s ∧ Clean s ∧ ListOrdered s ∧ (0 : Byte).toNat = (0 : Fin 4).val ∧ s.mode.op = .acquire ∧ s.time.lock ≠ .free ∧
      s.time.n.toNat + (s.fleet 0).lead.toNat < (500#48).toNat ∧ ChecksPass s 0 500 ∧ Resolvable s 0 100 := by
  refine ⟨rx_taken _ _ rfl (by decide), ?_, ?_, by decide, rfl, by decide, by decide, ⟨by decide, by decide, above_of_no_head _ _ rfl⟩,
    resolvable_of_free _ rfl⟩
  · unfold Clean; decide
  · unfold ListOrdered; decide

/-- Every context OPEN for another VP, context 2 at the head of the open order busy, context 0 behind it with nothing attached. -/
def crowded (folded : Nat) (s : State) : State :=
  s.withStack
    { ctxs := #v[{ openContext 0 folded 0 with vp := 1 }, { openContext 1 0 0 with vp := 2 }, { openContext 1 0 0 with vp := 3 },
        { openContext 0 0 0 with vp := 4 }]
      openOrder := [2, 0, 3, 1] }

/-- Context 0 with nothing folded, and with one sweep folded. -/
theorem witness_PostForcesClose :
    let f : RxFrame := ⟨0x12, 1, sweepBody 0 100 0⟩
    let s (n : Nat) := rx f (acquiring (armed 2 (withPilot (crowded n State.reset))))
    (Taken f [] (s 0) ∧ Clean (s 0) ∧ ListOrdered (s 0) ∧ (0 : Byte).toNat = (0 : Fin 4).val ∧ (s 0).mode.op = .acquire ∧
      ChecksPass (s 0) 0 0 ∧ (∀ j, ¬ CollectsVp (s 0) 100 j) ∧ (∀ j, ((s 0).ctx j).state ≠ .free) ∧ ForceCandidate (s 0) 0 ∧
      ((s 0).ctx 0).folded = 0) ∧
    (Taken f [] (s 1) ∧ Clean (s 1) ∧ ListOrdered (s 1) ∧ (s 1).mode.op = .acquire ∧ ChecksPass (s 1) 0 0 ∧
      (∀ j, ¬ CollectsVp (s 1) 100 j) ∧ (∀ j, ((s 1).ctx j).state ≠ .free) ∧ ForceCandidate (s 1) 0 ∧ ((s 1).ctx 0).folded ≠ 0) := by
  refine ⟨⟨rx_taken _ _ rfl (by decide), ?_, ?_, by decide, rfl, ⟨by decide, by decide, above_of_no_head _ _ rfl⟩, ?_, by decide,
    ⟨by decide, by decide, [2], [3, 1], rfl, by decide⟩, by decide⟩, rx_taken _ _ rfl (by decide), ?_, ?_, rfl,
    ⟨by decide, by decide, above_of_no_head _ _ rfl⟩, ?_, by decide, ⟨by decide, by decide, [2], [3, 1], rfl, by decide⟩, by decide⟩
  · unfold Clean; decide
  · unfold ListOrdered; decide
  · unfold CollectsVp; decide
  · unfold Clean; decide
  · unfold ListOrdered; decide
  · unfold CollectsVp; decide

/-- The CORRELATING sweep cancelled; an id that is not listed, and 0. -/
theorem witness_CancelDrops :
    let f (id : Word) : RxFrame := ⟨0x14, 1, cancelBody id⟩
    let r := sweepAt 3 4000 .correlating none
    let s (id : Word) := rx (f id) (withJob r .correlation (withSweeps [r, sweepAt 5 19700 .waiting none] State.reset))
    (Taken (f 3) [] (s 3) ∧ Clean (s 3) ∧ ListOrdered (s 3) ∧ r ∈ (s 3).listed ∧ r.id = (3#16).toNat) ∧
    (Taken (f 4) [] (s 4) ∧ Clean (s 4) ∧ (∀ q ∈ (s 4).listed, q.id ≠ (4#16).toNat) ∧ Taken (f 0) [] (s 0) ∧ Clean (s 0)) := by
  refine ⟨⟨rx_taken _ _ rfl (by decide), ?_, ?_, .head _, rfl⟩, rx_taken _ _ rfl (by decide), ?_, by decide,
    rx_taken _ _ rfl (by decide), ?_⟩
  · unfold Clean; decide
  · unfold ListOrdered; decide
  · unfold Clean; decide
  · unfold Clean; decide

/-- Context 0 OPEN for VP 100 with given counts. -/
def opened0 (attached folded : Nat) (s : State) : State :=
  ((acquiring s).withStack { s.stack with openOrder := [0] }).withCtx 0 (openContext attached folded 0)

/-- A mode outside its set, no such VP, sweeps attached, nothing folded, something folded. -/
theorem witness_CloseVpWaits :
    let f (vp : VpId) (m : Byte) : RxFrame := ⟨0x15, 1, closeVpBody vp m⟩
    let s (a fo : Nat) (g : RxFrame) := rx g (opened0 a fo State.reset)
    (Taken (f 100 2) [] (s 1 0 (f 100 2)) ∧ Clean (s 1 0 (f 100 2)) ∧ (2 : Byte) ≠ 1 ∧ (2 : Byte) ≠ 0) ∧
    (Taken (f 101 0) [] (s 1 0 (f 101 0)) ∧
      ∀ i, ¬ (((s 1 0 (f 101 0)).ctx i).state = .opened ∧ ((s 1 0 (f 101 0)).ctx i).vp = 101)) ∧
    (Taken (f 100 0) [] (s 1 0 (f 100 0)) ∧ Clean (s 1 0 (f 100 0)) ∧ ((s 1 0 (f 100 0)).ctx 0).state = .opened ∧
      ((s 1 0 (f 100 0)).ctx 0).vp = 100 ∧ ((s 1 0 (f 100 0)).ctx 0).attached ≠ 0) ∧
    (Taken (f 100 0) [] (s 0 0 (f 100 0)) ∧ Clean (s 0 0 (f 100 0)) ∧ ((s 0 0 (f 100 0)).ctx 0).attached = 0 ∧
      ((s 0 0 (f 100 0)).ctx 0).folded = 0) ∧
    (Taken (f 100 0) [] (s 0 2 (f 100 0)) ∧ Clean (s 0 2 (f 100 0)) ∧ ((s 0 2 (f 100 0)).ctx 0).folded ≠ 0) := by
  refine ⟨⟨rx_taken _ _ rfl (by decide), ?_, by decide, by decide⟩, ⟨rx_taken _ _ rfl (by decide), by decide⟩,
    ⟨rx_taken _ _ rfl (by decide), ?_, by decide, by decide, by decide⟩, ⟨rx_taken _ _ rfl (by decide), ?_, by decide, by decide⟩,
    rx_taken _ _ rfl (by decide), ?_, by decide⟩
  all_goals unfold Clean; decide

/-- Two sweeps of the point, one CORRELATING; a point without a sweep; no such VP. -/
theorem witness_CloseVpDropsNow :
    let f (vp : VpId) : RxFrame := ⟨0x15, 1, closeVpBody vp 1⟩
    let r := sweepAt 3 4000 .correlating none
    let s (vp : VpId) := rx (f vp) (withJob r .correlation (withSweeps [r, sweepAt 5 19700 .waiting none] State.reset))
    let u := rx (f 100) (opened0 0 2 State.reset)
    (Taken (f 100) [] (s 100) ∧ Clean (s 100) ∧ ListOrdered (s 100) ∧ Attached (s 100) ∧ ((s 100).ctx 0).state = .opened ∧
      ((s 100).ctx 0).vp = 100) ∧
    (Taken (f 100) [] u ∧ Clean u ∧ ListOrdered u ∧ Attached u ∧ (u.ctx 0).state = .opened ∧ (u.ctx 0).vp = 100 ∧ u.listed = []) ∧
    (Taken (f 101) [] (s 101) ∧ ∀ i, ¬ (((s 101).ctx i).state = .opened ∧ ((s 101).ctx i).vp = 101)) := by
  refine ⟨⟨rx_taken _ _ rfl (by decide), ?_, ?_, ?_, by decide, by decide⟩, ⟨rx_taken _ _ rfl (by decide), ?_, ?_, ?_, by decide, by decide,
    rfl⟩, rx_taken _ _ rfl (by decide), by decide⟩
  · unfold Clean; decide
  · unfold ListOrdered; decide
  · unfold Attached; decide
  · unfold Clean; decide
  · unfold ListOrdered; decide
  · unfold Attached; decide

theorem witness_FaultReadClears :
    let s := State.reset.withRing { State.reset.ring with fault := some { kind := .jump, loc := some (7, 7100), later := 1 } }
    Taken ⟨0x16, 1, []⟩ [] (rx ⟨0x16, 1, []⟩ s) ∧ (rx ⟨0x16, 1, []⟩ s).checkHit = false := ⟨rx_taken _ _ rfl (by decide), rfl⟩

/-! Block frames with zero samples -/

/-- A block frame of a group and a block with every sample 0, closed by its check. -/
def zeroFrame (g b : Nat) : List Byte :=
  (leBytes 2 g ++ leBytes 6 b) ++
    (List.replicate 6144 0 ++ leBytes 2 (checkOver 0 (wordsOf (leBytes 2 g ++ leBytes 6 b))).toNat)

theorem checkOver_zeros_bit (c : Word) (n i : Nat) (hi : i < 16) :
    (checkOver c (List.replicate n 0)).getLsbD i = c.getLsbD ((i + 15 * n) % 16) := by
  induction n generalizing c with
  | zero => simp [checkOver, Nat.mod_eq_of_lt hi]
  | succ n ih =>
    have h1 : checkOver c (List.replicate (n + 1) 0) = checkOver (checkStep c 0) (List.replicate n 0) := rfl
    have h2 : checkStep c 0 = c.rotateLeft 1 := by simp [checkStep]
    rw [h1, ih, h2, BitVec.getLsbD_rotateLeft]
    have hm : (i + 15 * n) % 16 < 16 := Nat.mod_lt _ (by decide)
    by_cases h0 : (i + 15 * n) % 16 = 0
    · rw [h0, show (i + 15 * (n + 1)) % 16 = 15 by omega]; simp
    · rw [show (i + 15 * (n + 1)) % 16 = (i + 15 * n) % 16 - 1 by omega]
      simp [h0, hm]

theorem checkOver_zeros (c : Word) (n : Nat) : checkOver c (List.replicate (16 * n) 0) = c := by
  apply BitVec.eq_of_getLsbD_eq
  intro i hi
  rw [checkOver_zeros_bit c _ i hi, show (i + 15 * (16 * n)) % 16 = i by omega]

theorem wordsOf_zeros (n : Nat) (bs : List Byte) :
    wordsOf (List.replicate (2 * n) 0 ++ bs) = List.replicate n 0 ++ wordsOf bs := by
  induction n with
  | zero => rfl
  | succ n ih =>
    have h : List.replicate (2 * (n + 1)) (0 : Byte) = 0 :: 0 :: List.replicate (2 * n) 0 := rfl
    rw [h]
    change _ :: wordsOf (List.replicate (2 * n) 0 ++ bs) = _
    rw [ih]
    rfl

theorem wordsOf_head (g b : Nat) (bs : List Byte) :
    wordsOf ((leBytes 2 g ++ leBytes 6 b) ++ bs) = wordsOf (leBytes 2 g ++ leBytes 6 b) ++ wordsOf bs := rfl

theorem wordsOf_check (w : Word) : wordsOf (leBytes 2 w.toNat) = [w] := by
  have h := wordsOf_leBytes w []
  simpa [wordsOf] using h

theorem zeroFrame_length (g b : Nat) : (zeroFrame g b).length = 6154 := by
  simp only [zeroFrame, List.length_append, leBytes_length, List.length_replicate]

theorem zeroFrame_check (g b : Nat) : checkOf (zeroFrame g b) = 0 := by
  unfold checkOf zeroFrame
  rw [wordsOf_head, wordsOf_zeros 3072, wordsOf_check, checkOver_append, checkOver_append, checkOver_zeros _ 192]
  exact checkStep_self _

/-- A frame whole in one piece, and one whose first bytes came before. -/
theorem whole_alone (s : State) (bytes : List Byte) (h : s.ring.reception = .idle) : FrameWhole s bytes bytes := Or.inl ⟨h, rfl⟩

theorem whole_after (s : State) (before piece : List Byte) (h : s.ring.reception = .receiving before) :
    FrameWhole s piece (before ++ piece) := Or.inr ⟨before, h, rfl⟩

/-- A frame under discard, while held, begun and carried on; a frame of none and of eight bytes; one with its check wrong; block indexes
2^43 and G + 2,049; a group above the slice, a duplicate, a block just below the window. -/
theorem witness_BlockNotStored :
    let s := headAt 2048 State.reset
    let bad : List Byte := List.replicate (2 * 3076) 0 ++ leBytes 2 (1#16).toNat
    let u := s.withRing { s.ring with valid := [(5, true)] }
    let part (q : Reception) := s.withRing { s.ring with reception := q }
    ((part .discarding).ring.reception = .discarding ∧ (coldReset .pin s).mode.held = true ∧ s.ring.reception = .idle ∧
      (part (.receiving [3, 0])).ring.reception = .receiving [3, 0] ∧ s.mode.held = false ∧ s.checkHit = false) ∧
    (FrameWhole s [] [] ∧ ([] : List Byte).length ≠ 6154 ∧ FrameWhole (part (.receiving [3, 0])) (List.replicate 6 0) (3 :: 0 :: List.replicate 6 0) ∧
      (3 :: 0 :: List.replicate 6 (0 : Byte)).length ≠ 6154) ∧
    (FrameWhole s bad bad ∧ bad.length = 6154 ∧ checkOf bad ≠ 0) ∧
    ((zeroFrame 3 (2 ^ 43)).length = 6154 ∧ checkOf (zeroFrame 3 (2 ^ 43)) = 0 ∧ s.firstGroup ≤ leNat ((zeroFrame 3 (2 ^ 43)).take 2) ∧
      leNat ((zeroFrame 3 (2 ^ 43)).take 2) < s.firstGroup + s.groups ∧
      2 ^ 43 - 1 < leNat (((zeroFrame 3 (2 ^ 43)).drop 2).take 6)) ∧
    (checkOf (zeroFrame 3 4097) = 0 ∧ ∃ h, s.ring.head = some h ∧ h + 2048 < leNat (((zeroFrame 3 4097).drop 2).take 6)) ∧
    (checkOf (zeroFrame 4 0) = 0 ∧ ¬ leNat ((zeroFrame 4 0).take 2) < s.firstGroup + s.groups) ∧
    (checkOf (zeroFrame 0 5) = 0 ∧ BlockValid u (leNat ((zeroFrame 0 5).take 2) - u.firstGroup)
      (leNat (((zeroFrame 0 5).drop 2).take 6))) ∧
    (checkOf (zeroFrame 0 0) = 0 ∧ s.ring.head = some 2048 ∧ leNat (((zeroFrame 0 0).drop 2).take 6) < 2048 - 2047) := by
  refine ⟨⟨rfl, rfl, rfl, rfl, rfl, rfl⟩, ⟨whole_alone _ _ rfl, by decide, whole_after _ [3, 0] _ rfl, by decide⟩,
    ⟨whole_alone _ _ rfl, ?_, ?_⟩, ⟨zeroFrame_length _ _, zeroFrame_check _ _, by decide, by decide, by decide⟩,
    ⟨zeroFrame_check _ _, 2048, rfl, by decide⟩, ⟨zeroFrame_check _ _, by decide⟩,
    ⟨zeroFrame_check _ _, 2048, rfl, by decide, by decide, by decide⟩, zeroFrame_check _ _, rfl, by decide⟩
  · simp only [List.length_append, List.length_replicate, leBytes_length]
  · unfold checkOf
    rw [wordsOf_zeros, wordsOf_check, checkOver_append, show (3076 : Nat) = 16 * 192 + 4 from rfl,
      List.replicate_add, checkOver_append, checkOver_zeros]
    decide

/-- The oldest block of the window, missing, while a job runs. -/
theorem witness_BlockFillsLate :
    let r := sweepAt 3 160000 .correlating none
    let s := headAt 5000 (withJob r .correlation (withSweeps [r, sweepAt 5 196000 .waiting none] State.reset))
    s.mode.held = false ∧ Clean s ∧ ListOrdered s ∧ FrameWhole s (zeroFrame 3 2953) (zeroFrame 3 2953) ∧
      (zeroFrame 3 2953).length = 6154 ∧ checkOf (zeroFrame 3 2953) = 0 ∧
      s.firstGroup ≤ leNat ((zeroFrame 3 2953).take 2) ∧ leNat ((zeroFrame 3 2953).take 2) - s.firstGroup < s.groups ∧
      leNat (((zeroFrame 3 2953).drop 2).take 6) ≤ 2 ^ 43 - 1 ∧ s.ring.head = some 5000 ∧
      5000 - 2047 ≤ leNat (((zeroFrame 3 2953).drop 2).take 6) ∧ leNat (((zeroFrame 3 2953).drop 2).take 6) ≤ 5000 ∧
      ¬ BlockValid s (leNat ((zeroFrame 3 2953).take 2) - s.firstGroup) (leNat (((zeroFrame 3 2953).drop 2).take 6)) := by
  refine ⟨rfl, ?_, ?_, whole_alone _ _ rfl, zeroFrame_length _ _, zeroFrame_check _ _, by decide, by decide, by decide, rfl, by decide,
    by decide, ?_⟩
  · unfold Clean; decide
  · unfold ListOrdered; decide
  · rintro ⟨h, _, _, _, hv⟩
    exact absurd hv (by decide)

/-- The first frame after a reset, and an advance by exactly 2,048 that takes a sweep out of the window. -/
theorem witness_BlockAdvances :
    let s := State.reset
    let u := headAt 5001 (withSweeps [sweepAt 3 159680 .waiting none] State.reset)
    (s.mode.held = false ∧ Clean s ∧ ListOrdered s ∧ FrameWhole s (zeroFrame 0 5000) (zeroFrame 0 5000) ∧ InWindow s ∧
      (zeroFrame 0 5000).length = 6154 ∧ checkOf (zeroFrame 0 5000) = 0 ∧ s.firstGroup ≤ leNat ((zeroFrame 0 5000).take 2) ∧
      leNat ((zeroFrame 0 5000).take 2) - s.firstGroup < s.groups ∧ leNat (((zeroFrame 0 5000).drop 2).take 6) ≤ 2 ^ 43 - 1 ∧
      (s.ring.valid.Pairwise fun x y => x.1 < y.1) ∧ (s.ring.samples.Pairwise fun x y => x.1 < y.1) ∧ s.ring.head = none ∧
      s.ring.valid = []) ∧
    (u.mode.held = false ∧ Clean u ∧ ListOrdered u ∧ FrameWhole u (zeroFrame 1 7049) (zeroFrame 1 7049) ∧ InWindow u ∧
      checkOf (zeroFrame 1 7049) = 0 ∧ leNat ((zeroFrame 1 7049).take 2) - u.firstGroup < u.groups ∧ u.ring.head = some 5001 ∧
      5001 < leNat (((zeroFrame 1 7049).drop 2).take 6) ∧ leNat (((zeroFrame 1 7049).drop 2).take 6) ≤ 5001 + 2048) := by
  refine ⟨⟨rfl, ?_, ?_, whole_alone _ _ rfl, (fun h hh => by cases hh), zeroFrame_length _ _, zeroFrame_check _ _, by decide, by decide,
    by decide, .nil, .nil, rfl, rfl⟩,
    rfl, ?_, ?_, whole_alone _ _ rfl, (fun h hh => by cases hh; decide), zeroFrame_check _ _, by decide, rfl, by decide, by decide⟩
  · unfold Clean; decide
  · unfold ListOrdered; decide
  · unfold Clean; decide
  · unfold ListOrdered; decide

theorem witness_RoundsHalfAway : 0 < 2 := by decide

/-- A channel of 256 lags. -/
def quiet : ChannelRecord := { trace := List.replicate 256 0, saturated := 0, gap := false, findings := none }

theorem witness_EditingFinds : 1 ≤ 4 ∧ quiet.trace.length = 64 * 4 := ⟨by decide, List.length_replicate⟩

/-- Section 6.8: a clean record; an accumulator in error at lag 20; the count of window 3 in error. -/
theorem witness_FoldAdds :
    let r := freshRecord 256
    let e := { r with accErr := [20] }
    let n := { r with cntErr := [3] }
    r.acc.length = 64 * 4 ∧ r.counts.length = 4 ∧
    (false = true ↔ (∃ lag ∈ r.accErr, lag / 64 < 4 ∧ lag / 64 ∉ ([] : List Nat)) ∨ ∃ w ∈ r.cntErr, w < 4 ∧ w ∉ ([] : List Nat)) ∧
    (true = true ↔ (∃ lag ∈ e.accErr, lag / 64 < 4 ∧ lag / 64 ∉ ([] : List Nat)) ∨ ∃ w ∈ e.cntErr, w < 4 ∧ w ∉ ([] : List Nat)) ∧
    (true = true ↔ (∃ lag ∈ n.accErr, lag / 64 < 4 ∧ lag / 64 ∉ ([] : List Nat)) ∨ ∃ w ∈ n.cntErr, w < 4 ∧ w ∉ ([] : List Nat)) :=
  ⟨List.length_replicate, List.length_replicate, by decide, by decide, by decide⟩

/-- A pass that has finished no channel, and one that has finished every channel. -/
theorem witness_PassCorrelates :
    let r := sweepAt 3 4000 .correlating none
    let s := withJob r .correlation (withPilot (withSweeps [r] State.reset))
    let j : Job := { sweep := r, pass := .correlation, done := 256, elapsed := 0 }
    let u := s.withEngine { job := some j, snapshot := [], scratch := List.replicate 256 quiet }
    (s.mode.held = false ∧ s.checkHit = false ∧ s.engine.job = some { sweep := r, pass := .correlation, done := 0, elapsed := 0 } ∧
      JobStored s { sweep := r, pass := .correlation, done := 0, elapsed := 0 }) ∧
    (u.mode.held = false ∧ u.checkHit = false ∧ u.engine.job = some j ∧ JobStored u j) :=
  ⟨⟨rfl, rfl, rfl, by decide, by decide, List.length_replicate, by decide, rfl⟩,
    rfl, rfl, rfl, by decide, by decide, List.length_replicate, by decide, List.length_replicate⟩

theorem witness_JobFolds :
    let r := sweepAt 3 4000 .correlating none
    let j : Job := { sweep := r, pass := .editing, done := 0, elapsed := 0 }
    let s := (withSweeps [r] State.reset).withEngine { job := some j, snapshot := [], scratch := List.replicate 256 quiet }
    s.mode.held = false ∧ Clean s ∧ ListOrdered s ∧ s.engine.job = some j ∧ s.engine.scratch.length = s.channels ∧ r ∈ s.listed ∧
      r.id = j.sweep.id := by
  refine ⟨rfl, ?_, ?_, rfl, List.length_replicate, .head _, rfl⟩
  · unfold Clean; decide
  · unfold ListOrdered; decide

/-! The invariants, in a state with a job, a sweep waiting, a context emitted and a command in front -/

/-- In ACQUIRE with a CORRELATING and a SCHEDULED sweep in context 0, context 1 emitted behind the message in transmission, and a change
of the hold waiting. -/
def busy : State :=
  let r := sweepAt 3 4000 .correlating none
  let s := withJob r .correlation
    (withPilot (withSweeps [r, sweepAt 5 19700 .scheduled (some 19450)] (lineIn .transmitHold State.reset)))
  let t := s.withCtx 1 { openContext 0 1 0 with vp := 101, state := .closing }
  let cu : Cursor := { ctx := 1, next := 1, waiting := some someTrace, sending := false, sent := 0 }
  { t.withEmitter { closing := [1], cursor := some cu } with pending := [.transmitHold 1 true] }

/-- What the step makes of it. -/
def busyNext : State := setPin 1 true { busy with pending := [] }

theorem busy_step : step busy = .next busyNext := rfl

theorem witness_StepKeepsQueuesBounded : QueuesBounded busy ∧ step busy = .next busyNext :=
  ⟨by unfold QueuesBounded; decide, busy_step⟩

theorem busy_stores : StoresCanonical busy := by unfold StoresCanonical; decide

theorem witness_StepKeepsStoresCanonical : StoresCanonical busy ∧ step busy = .next busyNext := ⟨busy_stores, busy_step⟩

theorem busy_ordered : ListOrdered busy := by unfold ListOrdered; decide

theorem witness_StepKeepsListOrdered : ListOrdered busy ∧ step busy = .next busyNext := ⟨busy_ordered, busy_step⟩

theorem busy_fleets : FleetsInRange busy := by unfold FleetsInRange; decide

theorem witness_StepKeepsSmallInvariants :
    ParamsInRange busy ∧ FleetsInRange busy ∧ RolesUnique busy ∧ Clean busy ∧ step busy = .next busyNext :=
  ⟨by unfold ParamsInRange; decide, busy_fleets, by unfold RolesUnique; decide, by unfold Clean; decide, busy_step⟩

theorem witness_StepKeepsArbiterServed : ArbiterServed busy ∧ LineServed busy ∧ step busy = .next busyNext :=
  ⟨by unfold ArbiterServed; decide, ⟨rfl, fun _ h => by cases h⟩, busy_step⟩

theorem busy_budgeted : Budgeted busy := by
  refine ⟨by decide, fun vp i j hi hj => ?_⟩
  have only : ∀ k : Fin 4, ((busy.ctx k).state = .opened ∨ (busy.ctx k).state = .closePending) → k = 0 := by decide
  rw [only i hi.1, only j hj.1]

theorem witness_StepKeepsAccounts :
    ListOrdered busy ∧ EngineMatches busy ∧ Attached busy ∧ ClosingMatches busy ∧ FleetsInRange busy ∧ Budgeted busy ∧
      step busy = .next busyNext := by
  refine ⟨busy_ordered, engineMatches_of_job _ _ rfl (by decide) (by decide), ?_, ⟨by decide, by decide, ?_⟩, busy_fleets,
    busy_budgeted, busy_step⟩
  · unfold Attached; decide
  · intro cu h; cases h; rfl

theorem busy_folds : FoldBounds busy := by
  refine ⟨fun i ch => ?_, fun q hq => by cases hq⟩
  have h : (busy.ctx i).records = [] ∧ (busy.ctx i).k % 64 = 0 := by revert i; decide
  have hr : stackRecord (busy.ctx i) ch = freshRecord (busy.ctx i).k := by simp [stackRecord, sparseGet, h.1]
  refine ⟨h.2, ?_⟩
  rw [hr]
  have zero : ∀ n k : Nat, (List.replicate n (0 : Int)).getD k 0 = 0 := fun n k => by
    rw [List.getD_eq_getElem?_getD, List.getElem?_replicate]; split <;> rfl
  have none : ∀ n k : Nat, (List.replicate n 0).getD k 0 = 0 := fun n k => by
    rw [List.getD_eq_getElem?_getD, List.getElem?_replicate]; split <;> rfl
  refine ⟨List.length_replicate, List.length_replicate, fun w => ?_, fun lag => ?_⟩
  · simp only [freshRecord, none]; exact Nat.zero_le _
  · simp only [freshRecord, none, zero]; decide

theorem busy_jobs : JobsStored busy := by
  refine ⟨fun h => absurd h (by decide), by decide, fun j hj => ?_⟩
  cases hj
  exact ⟨.head _, rfl, by decide, by decide, List.length_replicate, Nat.zero_le _, rfl⟩

theorem witness_StepKeepsPromises :
    PilotsHeld busy ∧ InWindow busy ∧ SetupEmpty busy ∧ FleetsInRange busy ∧ StoresCanonical busy ∧ FoldBounds busy ∧ ListOrdered busy ∧
      JobsStored busy ∧ step busy = .next busyNext := by
  refine ⟨?_, (fun h hh => by cases hh), ?_, busy_fleets, busy_stores, busy_folds, busy_ordered, busy_jobs, busy_step⟩
  · refine ⟨fun i => ?_, by decide⟩
    match i with
    | 0 => exact ⟨le_of_eq List.length_replicate, fun _ => List.length_replicate, fun _ => rfl, by decide, fun _ => by decide⟩
    | 1 | 2 | 3 | 4 | 5 | 6 | 7 => decide
  · unfold SetupEmpty; decide

end Sys2Proof.Tests
end

section
/-! PROOFS. The queue of commands through the model: one equation per operation saying that it leaves the commands waiting as they are,
and from them that every command answers a next state with the same commands waiting (log entry 6). -/

namespace Sys2Proof.Machine

/-! ### Notices, levels and the table check -/

@[simp] theorem raiseEvent_pending (src : Source) (s : State) : (raiseEvent src s).pending = s.pending := rfl
@[simp] theorem raiseLevel_pending (src : Source) (s : State) : (raiseLevel src s).pending = s.pending := rfl
@[simp] theorem dropLevel_pending (src : Source) (s : State) : (dropLevel src s).pending = s.pending := rfl

@[simp] theorem placeNotice_pending (n : Notice) (s : State) : (placeNotice n s).pending = s.pending := (placeNotice_only n s).pending

@[simp] theorem placeReply_pending (f : RxFrame) (st : Status) (c : List Byte) (s : State) :
    (placeReply f st c s).pending = s.pending := (placeReply_only f st c s).pending

@[simp] theorem offerReport_pending (r : Report) (s : State) : (offerReport r s).pending = s.pending := (offerReport_only r s).pending

@[simp] theorem setLock_pending (l : LockState) (s : State) : (setLock l s).pending = s.pending := by
  simp [setLock, apply_ite State.pending]

@[simp] theorem setOp_pending (o : OpState) (d : Option DrainMode) (s : State) : (setOp o d s).pending = s.pending := by
  simp [setOp, apply_ite State.pending]

@[simp] theorem markHit_pending (bad : Bool) (s : State) : (markHit bad s).pending = s.pending := by cases bad <;> rfl

/-! ### Readiness and the engine -/

@[simp] theorem changeSweep_pending (id : Nat) (g : SweepRecord → SweepRecord) (s : State) :
    (changeSweep id g s).pending = s.pending := rfl

@[simp] theorem testReadiness_pending (id : Nat) (s : State) : (testReadiness id s).pending = s.pending := rfl

@[simp] theorem arrivalNotice_pending (s : State) : (arrivalNotice s).pending = s.pending := markHit_pending s.listBad s

@[simp] theorem beginJob_pending (r : SweepRecord) (s : State) : (beginJob r s).pending = s.pending := rfl

@[simp] theorem arbitrate_pending (s : State) : (arbitrate s).pending = s.pending := by
  unfold arbitrate
  split
  · rfl
  · split
    · rfl
    · simp [apply_ite State.pending]

@[simp] theorem advanceJob_pending (n : Nat) (j : Job) (s : State) : (advanceJob n j s).pending = s.pending := rfl

@[simp] theorem tickJob_pending (s : State) : (tickJob s).pending = s.pending := by rw [tickJob_eq]; rfl

@[simp] theorem abandonJob_pending (s : State) : (abandonJob s).pending = s.pending := rfl

/-! ### The line and the emitter -/

@[simp] theorem decideLine_pending (s : State) : (decideLine s).pending = s.pending := (decideLine_quiet s).pending

@[simp] theorem holdChanged_pending (s t : State) : (holdChanged s t).pending = t.pending := by
  simp [holdChanged, apply_ite State.pending]

@[simp] theorem setPin_pending (line : Fin 4) (level : Bool) (s : State) : (setPin line level s).pending = s.pending := by
  simp [setPin]

@[simp] theorem emitterBegin_pending (s : State) : (emitterBegin s).pending = s.pending := by rw [(emitterBegin_frame s).1]

/-! ### Contexts, drops and entries -/

@[simp] theorem freeCtx_pending (i : Fin 4) (s : State) : (freeCtx i s).pending = s.pending := rfl

@[simp] theorem vpDone_pending (i : Fin 4) (n : Nat) (s : State) : (vpDone i n s).pending = s.pending := (vpDone_only i n s).pending

@[simp] theorem closeCtx_pending (i : Fin 4) (s : State) : (closeCtx i s).pending = s.pending := by
  simp [closeCtx, apply_ite State.pending]

@[simp] theorem applyClose_pending (i : Fin 4) (s : State) : (applyClose i s).pending = s.pending := by
  simp [applyClose, apply_ite State.pending]

@[simp] theorem openCtx_pending (i : Fin 4) (vp : VpId) (k target : Nat) (s : State) :
    (openCtx i vp k target s).pending = s.pending := rfl

@[simp] theorem attachCtx_pending (i : Fin 4) (k : Nat) (s : State) : (attachCtx i k s).1.pending = s.pending := by
  simp [attachCtx, apply_ite Prod.fst, apply_ite State.pending]

@[simp] theorem openFree_pending (vp : VpId) (k target : Nat) (s : State) : (openFree vp k target s).1.pending = s.pending := by
  unfold openFree; split <;> rfl

@[simp] theorem resolveCtx_pending (vp : VpId) (k target : Nat) (s : State) : (resolveCtx vp k target s).1.pending = s.pending := by
  unfold resolveCtx
  split
  · rfl
  · split
    · simp
    · split
      · simp
      · split <;> simp

@[simp] theorem unlist_pending (id : Nat) (s : State) : (unlist id s).pending = s.pending := rfl

@[simp] theorem dropSweep_pending (cause : DropCause) (close : Bool) (s : State) (r : SweepRecord) :
    (dropSweep cause close s r).pending = s.pending := by
  simp [dropSweep, apply_ite State.pending]

/-- A fold keeps the commands waiting when each of its steps does. -/
theorem foldl_pending {α : Type} {g : State → α → State} (hg : ∀ s a, (g s a).pending = s.pending) (l : List α) (s : State) :
    (l.foldl g s).pending = s.pending := by
  induction l generalizing s with
  | nil => rfl
  | cons a l ih => exact (ih (g s a)).trans (hg s a)

@[simp] theorem dropWhere_pending (p : SweepRecord → Bool) (cause : DropCause) (close : Bool) (s : State) :
    (dropWhere p cause close s).pending = s.pending := foldl_pending (dropSweep_pending cause close) _ s

@[simp] theorem evictionNotice_pending (oldest : Nat) (s : State) : (evictionNotice oldest s).pending = s.pending := by
  simp [evictionNotice]

@[simp] theorem sweepEntered_pending (r : SweepRecord) (s : State) : (sweepEntered r s).pending = s.pending :=
  offerReport_pending _ s

@[simp] theorem listSweep_pending (r : SweepRecord) (s : State) : (listSweep r s).1.pending = s.pending := rfl

@[simp] theorem enterSweep_pending (origin : Origin) (f : Fin 4) (vp : VpId) (t0 : SampleIndex) (compare : Option Nat) (s : State) :
    (enterSweep origin f vp t0 compare s).1.pending = s.pending := by
  have resolved := resolveCtx_pending vp (s.fleet f).k (s.fleet f).target s
  unfold enterSweep
  simp only [apply_ite Prod.fst, apply_ite State.pending, markHit_pending]
  generalize resolveCtx vp (s.fleet f).k (s.fleet f).target s = q at resolved
  obtain ⟨u, attached | why | ended⟩ := q
  case attached =>
    cases compare with
    | none => simpa using fun _ _ _ _ => resolved
    | some c => simpa using fun _ _ _ _ => resolved
  case refused => simpa using fun _ _ _ _ => resolved
  case ended => simpa using fun _ _ _ _ => resolved

/-- What an entry answers stands in a state with the same commands waiting. -/
theorem entered_pending {origin : Origin} {f : Fin 4} {vp : VpId} {t0 : SampleIndex} {compare : Option Nat} {s u : State} {e : Entry}
    (h : enterSweep origin f vp t0 compare s = (u, e)) : u.pending = s.pending := by
  rw [← enterSweep_pending origin f vp t0 compare s, h]

/-! ### Compares, the drain test and the resets -/

@[simp] theorem fireSweep_pending (s : State) (r : SweepRecord) : (fireSweep s r).pending = s.pending := by simp [fireSweep]

@[simp] theorem tickCompares_pending (s : State) : (tickCompares s).pending = s.pending :=
  (foldl_pending fireSweep_pending _ _).trans (markHit_pending s.listBad s)

@[simp] theorem stepCompares_pending (old new : Nat) (s : State) : (stepCompares old new s).pending = s.pending :=
  (foldl_pending (fun u r => by simp [apply_ite State.pending]) _ _).trans (markHit_pending s.listBad s)

@[simp] theorem drainTest_pending (s : State) : (drainTest s).pending = s.pending := by
  simp [drainTest, apply_ite State.pending]

@[simp] theorem warmRestart_pending (cause : ResetCause) (tag : Byte) (s : State) : (warmRestart cause tag s).pending = s.pending := by
  simp [warmRestart]

@[simp] theorem settle_pending (s : State) : (settle s).pending = s.pending := by simp [settle, apply_ite State.pending]

/-! ### Answers -/

/-- An outcome is a next state with the commands waiting that stand in `s`. -/
def NextWithQueue (s : State) (o : Host.Outcome State Fault Refusal) : Prop := ∃ t, o = .next t ∧ t.pending = s.pending

theorem nextWithQueue_next {s t : State} (h : t.pending = s.pending) : NextWithQueue s (.next t) := ⟨t, rfl, h⟩

/-- A handled event answers a next state, and keeps the commands waiting when its handling does. -/
theorem handle_nextWithQueue {s u : State} {g : State → State} (hu : u.pending = s.pending) (hg : ∀ t, (g t).pending = t.pending) :
    NextWithQueue s (handle g u) := by
  unfold handle
  split
  · exact nextWithQueue_next hu
  · exact nextWithQueue_next (by rw [settle_pending, hg, hu])

/-- A request answers a next state, taken or not, and keeps the commands waiting when its block's handling does. -/
theorem takeRequest_nextWithQueue (f : RxFrame) {g : State → State} (hg : ∀ t, (g t).pending = t.pending) (s : State) :
    NextWithQueue s (takeRequest f g s) := by
  refine handle_nextWithQueue rfl fun t => ?_
  split
  · rfl
  · split
    · simp only
      split <;> simp [hg]
    · rfl

/-- A request whose block only places a reply. -/
theorem replyOnly_nextWithQueue (f : RxFrame) (st : Status) (c : State → List Byte) (s : State) :
    NextWithQueue s (takeRequest f (fun t => placeReply f st (c t) t) s) :=
  takeRequest_nextWithQueue f (fun t => placeReply_pending f st (c t) t) s

/-! ### The requests' handlings -/

@[simp] theorem withParams_pending (s : State) (p : Params) : (s.withParams p).pending = s.pending := rfl

@[simp] theorem enterHoldover_pending (s : State) : (enterHoldover s).pending = s.pending := by simp [enterHoldover]

@[simp] theorem storeInterval_pending (v : Nat) (s : State) : (storeInterval v s).pending = s.pending := by
  unfold storeInterval
  split
  · rfl
  · simp [apply_ite State.pending]

@[simp] theorem storeHoldover_pending (v : Nat) (s : State) : (storeHoldover v s).pending = s.pending := by
  simp [storeHoldover, apply_ite State.pending]

@[simp] theorem storeParam_pending (key v : Nat) (s : State) : (storeParam key v s).pending = s.pending := by
  unfold storeParam
  split
  · exact storeInterval_pending v s
  · rfl
  · split <;> rfl
  · split <;> rfl
  · exact storeHoldover_pending v s
  · rfl
  · rfl

theorem paramSet_pending (f : RxFrame) (s : State) : (paramSet f s).pending = s.pending := by
  simp [paramSet, apply_ite State.pending]

theorem startRequest_pending (f : RxFrame) (s : State) : (startRequest f s).pending = s.pending := by
  simp [startRequest, apply_ite State.pending]

theorem pendCtx_pending (s : State) (i : Fin 4) : (pendCtx s i).pending = s.pending := by
  simp [pendCtx, apply_ite State.pending]

theorem finishAcquire_pending (s : State) : (finishAcquire s).pending = s.pending := by
  simp [finishAcquire, foldl_pending pendCtx_pending, foldl_pending fun t i => applyClose_pending i t]

theorem stopFinish_pending (f : RxFrame) (s : State) : (stopFinish f s).pending = s.pending := by
  unfold stopFinish
  split
  · simp
  · split <;> simp [finishAcquire_pending]

theorem discardCtx_pending (s : State) (i : Fin 4) : (discardCtx s i).pending = s.pending := by
  simp [discardCtx, apply_ite State.pending]

theorem discardAll_pending (s : State) : (discardAll s).pending = s.pending := by
  simp [discardAll, foldl_pending discardCtx_pending]

theorem stopDiscard_pending (f : RxFrame) (s : State) : (stopDiscard f s).pending = s.pending := by
  simp [stopDiscard, discardAll_pending, apply_ite State.pending]

theorem syncRequest_pending (f : RxFrame) (s : State) : (syncRequest f s).pending = s.pending := by simp [syncRequest]

theorem timeSet_pending (f : RxFrame) (s : State) : (timeSet f s).pending = s.pending := by
  simp [timeSet, apply_ite State.pending]

theorem routeSet_pending (f : RxFrame) (s : State) : (routeSet f s).pending = s.pending := by
  unfold routeSet
  simp only
  split <;> simp [storeOutput]

theorem pilotOpen_pending (f : RxFrame) (s : State) : (pilotOpen f s).pending = s.pending := by
  unfold pilotOpen
  simp only
  split <;> simp [apply_ite State.pending]

theorem pilotFailed_pending (i : Fin 8) (cause : PilotFailure) (closing : Option Word) (s : State) :
    (pilotFailed i cause closing s).pending = s.pending := offerReport_pending _ s

theorem pilotWords_pending (f : RxFrame) (s : State) : (pilotWords f s).pending = s.pending := by
  unfold pilotWords
  simp only
  split <;> simp [pilotFailed_pending, apply_ite State.pending]

theorem pilotClose_pending (f : RxFrame) (s : State) : (pilotClose f s).pending = s.pending := by
  unfold pilotClose
  simp only
  split <;> simp [pilotFailed_pending, apply_ite State.pending]

theorem fleetSet_pending (f : RxFrame) (s : State) : (fleetSet f s).pending = s.pending := by
  unfold fleetSet
  simp only
  split
  · simp
  · split
    · rfl
    · split
      · simp
      · split <;> simp

theorem fleetGet_pending (f : RxFrame) (s : State) : (fleetGet f s).pending = s.pending := by
  unfold fleetGet
  simp only
  split <;> simp

theorem armRequest_pending (f : RxFrame) (s : State) : (armRequest f s).pending = s.pending := by
  unfold armRequest
  simp only
  split <;> simp

theorem postRequest_pending (f : RxFrame) (s : State) : (postRequest f s).pending = s.pending := by
  unfold postRequest
  split
  · simp
  · split
    · simp
    · split <;> next h => simp [entered_pending h]

theorem scheduleRequest_pending (f : RxFrame) (s : State) : (scheduleRequest f s).pending = s.pending := by
  unfold scheduleRequest
  split
  · simp
  · simp only
    split
    · simp
    · split
      · simp
      · split
        · simp
        · split <;> next h => simp [entered_pending h]

theorem cancelRequest_pending (f : RxFrame) (s : State) : (cancelRequest f s).pending = s.pending := by
  unfold cancelRequest
  simp only
  split <;> simp

theorem closeWait_pending (f : RxFrame) (s : State) : (closeWait f s).pending = s.pending := by
  unfold closeWait
  split
  · simp
  · simp only
    split <;> simp

theorem closeAttached_pending (i : Fin 4) (s : State) : (closeAttached i s).pending = s.pending := by
  simp [closeAttached, apply_ite State.pending]

theorem closeNow_pending (f : RxFrame) (s : State) : (closeNow f s).pending = s.pending := by
  unfold closeNow
  simp only
  split <;> simp [closeAttached_pending]

theorem faultRead_pending (f : RxFrame) (s : State) : (faultRead f s).pending = s.pending := by simp [faultRead]

/-! ### The events' handlings -/

theorem receiveBytes_pending (bytes : List Byte) (s : State) : (receiveBytes bytes s).pending = s.pending :=
  (receive_only _ _ s).pending

theorem endEmission_pending (cu : Cursor) (s : State) : (endEmission cu s).pending = s.pending := by simp [endEmission]

theorem traceSent_pending (cu : Cursor) (s : State) : (traceSent cu s).pending = s.pending := by
  simp [traceSent, endEmission_pending, apply_ite State.pending]

theorem endMessage_pending (m : TxMessage) (s : State) : (endMessage m s).pending = s.pending := by
  unfold endMessage
  simp only
  split
  · rfl
  · split
    · rfl
    · simp [traceSent_pending, apply_ite State.pending]

@[simp] theorem spreadFault_pending (kind : FaultKind) (loc : Option (Nat × Nat)) (s : State) :
    (spreadFault kind loc s).pending = s.pending := by
  unfold spreadFault; split <;> simp

@[simp] theorem writeBlock_pending (g b : Nat) (xs : List RingSample) (s : State) : (writeBlock g b xs s).pending = s.pending := rfl

@[simp] theorem frameWritten_pending (s : State) : (frameWritten s).pending = s.pending := by simp [frameWritten]

@[simp] theorem firstFrame_pending (g b : Nat) (xs : List RingSample) (s : State) : (firstFrame g b xs s).pending = s.pending := by
  simp [firstFrame, apply_ite State.pending]

@[simp] theorem advanceFrame_pending (old g b : Nat) (xs : List RingSample) (s : State) :
    (advanceFrame old g b xs s).pending = s.pending := by
  simp [advanceFrame, advanceHead, apply_ite State.pending]

theorem placeBlock_pending (g group b : Nat) (xs : List RingSample) (s : State) : (placeBlock g group b xs s).pending = s.pending := by
  unfold placeBlock
  split
  · simp
  · split <;> simp [apply_ite State.pending]

theorem judgeBlock_pending (bytes : List Byte) (s : State) : (judgeBlock bytes s).pending = s.pending := by
  unfold judgeBlock
  split
  · simp
  · split
    · simp
    · split
      · rfl
      · exact placeBlock_pending _ _ _ _ s

theorem receivePiece_pending (bytes : List Byte) (last : Bool) (s : State) : (receivePiece bytes last s).pending = s.pending := by
  unfold receivePiece
  split
  · rfl
  · cases last
    · rfl
    · exact judgeBlock_pending bytes s
  · cases last
    · rfl
    · exact judgeBlock_pending _ _

@[simp] theorem tickHoldover_pending (s : State) : (tickHoldover s).pending = s.pending := by
  simp [tickHoldover, apply_ite State.pending]

@[simp] theorem tick_pending (s : State) : (tick s).pending = s.pending := by simp [tick]

theorem ppsReport_pending (was : LockState) (step : Int) (s : State) : (ppsReport was step s).pending = s.pending := by
  cases was <;> simp [ppsReport, apply_ite State.pending]

theorem alignPps_pending (s : State) : (alignPps s).pending = s.pending := by
  simp [alignPps, ppsReport_pending, apply_ite State.pending]

theorem takeBreak_pending (f : Fin 4) (s : State) : (takeBreak f s).pending = s.pending := by
  unfold takeBreak
  split
  · simp
  · split
    · simp
    · simp only
      split <;> next h => simp [entered_pending h]

theorem endPass_pending (s : State) : (endPass s).pending = s.pending := by
  unfold endPass
  split
  · rfl
  · split <;> rfl

theorem completeSweep_pending (r : SweepRecord) (s : State) : (completeSweep r s).pending = s.pending := by simp [completeSweep]

theorem completeJob_pending (s : State) : (completeJob s).pending = s.pending := by
  unfold completeJob
  split
  · rfl
  · split
    · rfl
    · split
      · rfl
      · simp [completeSweep_pending, apply_ite State.pending]

/-! ### Every command -/

theorem execStatus_nextWithQueue (tag : Byte) (body : List Byte) (s : State) : NextWithQueue s (execStatus tag body s) :=
  takeRequest_nextWithQueue _ (fun t => (placeReply_pending _ _ _ _).trans (markHit_pending _ t)) s

theorem execStopFinish_nextWithQueue (tag : Byte) (body : List Byte) (s : State) : NextWithQueue s (execStopFinish tag body s) := by
  unfold execStopFinish
  split
  · exact nextWithQueue_next rfl
  · exact takeRequest_nextWithQueue _ (stopFinish_pending _) s

theorem execStopDiscard_nextWithQueue (tag : Byte) (body : List Byte) (s : State) : NextWithQueue s (execStopDiscard tag body s) := by
  unfold execStopDiscard
  split
  · exact takeRequest_nextWithQueue _ (stopDiscard_pending _) s
  · exact nextWithQueue_next rfl

theorem execCloseVpWait_nextWithQueue (tag : Byte) (body : List Byte) (s : State) : NextWithQueue s (execCloseVpWait tag body s) := by
  unfold execCloseVpWait
  split
  · exact nextWithQueue_next rfl
  · exact takeRequest_nextWithQueue _ (closeWait_pending _) s

theorem execCloseVpNow_nextWithQueue (tag : Byte) (body : List Byte) (s : State) : NextWithQueue s (execCloseVpNow tag body s) := by
  unfold execCloseVpNow
  split
  · exact takeRequest_nextWithQueue _ (closeNow_pending _) s
  · exact nextWithQueue_next rfl

theorem execUnknownKind_nextWithQueue (kind tag : Byte) (body : List Byte) (s : State) :
    NextWithQueue s (execUnknownKind kind tag body s) := by
  unfold execUnknownKind
  split
  · exact takeRequest_nextWithQueue _ (fun _ => rfl) s
  · exact nextWithQueue_next rfl

theorem execTransmissionEnd_nextWithQueue (s : State) : NextWithQueue s (execTransmissionEnd s) := by
  refine handle_nextWithQueue rfl fun t => ?_
  split
  · rfl
  · rw [decideLine_pending, endMessage_pending]

theorem execBlockFrame_nextWithQueue (piece : FramePiece) (s : State) : NextWithQueue s (execBlockFrame piece s) := by
  unfold execBlockFrame
  split
  · exact nextWithQueue_next rfl
  · exact handle_nextWithQueue rfl (receivePiece_pending _ _)

/-- A tick taken only in the states for which `p` holds keeps the commands waiting. -/
theorem tickWhen_nextWithQueue (p : State → Prop) [DecidablePred p] (s : State) :
    NextWithQueue s (handle (fun t => if p t then tick t else t) s) :=
  handle_nextWithQueue rfl fun t => by simp [apply_ite State.pending]

theorem execPpsEdge_nextWithQueue (line : Fin 4) (level : Bool) (s : State) : NextWithQueue s (execPpsEdge line level s) :=
  handle_nextWithQueue (setPin_pending line level s) fun t => by simp [alignPps_pending, apply_ite State.pending]

theorem execTimeBreak_nextWithQueue (line : Fin 4) (level : Bool) (s : State) : NextWithQueue s (execTimeBreak line level s) := by
  refine handle_nextWithQueue (setPin_pending line level s) fun t => ?_
  split
  · exact takeBreak_pending _ t
  · rfl

theorem execResetPin_nextWithQueue (s : State) : NextWithQueue s (execResetPin s) := by
  unfold execResetPin
  split <;> exact nextWithQueue_next rfl

theorem execColdResetComplete_nextWithQueue (sizeCode : Fin 4) (position : Fin 8) (s : State) :
    NextWithQueue s (execColdResetComplete sizeCode position s) := by
  unfold execColdResetComplete
  split
  · exact nextWithQueue_next (placeNotice_pending _ _)
  · exact nextWithQueue_next rfl

/-- Settles O2, command by command: each handling keeps the commands waiting, and its command answers a next state. -/
theorem everyCommandRuns : Obligations.EveryCommandRuns := by
  intro c s
  change NextWithQueue s (exec c s)
  cases c with
  | ident => exact replyOnly_nextWithQueue _ _ identContents s
  | status => exact execStatus_nextWithQueue _ _ s
  | paramSet => exact takeRequest_nextWithQueue _ (paramSet_pending _) s
  | paramGet => exact replyOnly_nextWithQueue _ _ (paramContents _) s
  | start => exact takeRequest_nextWithQueue _ (startRequest_pending _) s
  | stopFinish => exact execStopFinish_nextWithQueue _ _ s
  | stopDiscard => exact execStopDiscard_nextWithQueue _ _ s
  | restart => exact takeRequest_nextWithQueue _ (warmRestart_pending _ _) s
  | sync => exact takeRequest_nextWithQueue _ (syncRequest_pending _) s
  | timeSet => exact takeRequest_nextWithQueue _ (timeSet_pending _) s
  | routeSet => exact takeRequest_nextWithQueue _ (routeSet_pending _) s
  | routeGet => exact replyOnly_nextWithQueue _ _ (fun t => routeBytes t.router) s
  | pilotOpen => exact takeRequest_nextWithQueue _ (pilotOpen_pending _) s
  | pilotWords => exact takeRequest_nextWithQueue _ (pilotWords_pending _) s
  | pilotClose => exact takeRequest_nextWithQueue _ (pilotClose_pending _) s
  | fleetSet => exact takeRequest_nextWithQueue _ (fleetSet_pending _) s
  | fleetGet => exact takeRequest_nextWithQueue _ (fleetGet_pending _) s
  | arm => exact takeRequest_nextWithQueue _ (armRequest_pending _) s
  | post => exact takeRequest_nextWithQueue _ (postRequest_pending _) s
  | schedule => exact takeRequest_nextWithQueue _ (scheduleRequest_pending _) s
  | cancel => exact takeRequest_nextWithQueue _ (cancelRequest_pending _) s
  | closeVpWait => exact execCloseVpWait_nextWithQueue _ _ s
  | closeVpNow => exact execCloseVpNow_nextWithQueue _ _ s
  | faultRead => exact takeRequest_nextWithQueue _ (faultRead_pending _) s
  | unknownKind => exact execUnknownKind_nextWithQueue _ _ _ s
  | hostFrame => exact handle_nextWithQueue rfl (receiveBytes_pending _)
  | transmissionStart => exact handle_nextWithQueue rfl decideLine_pending
  | transmissionEnd => exact execTransmissionEnd_nextWithQueue s
  | transmitHold => exact nextWithQueue_next (setPin_pending _ _ s)
  | blockFrame => exact execBlockFrame_nextWithQueue _ s
  | sampleTick => exact handle_nextWithQueue rfl tick_pending
  | holdoverDeadline => exact tickWhen_nextWithQueue (deadlineNext · = true) s
  | scheduleCompare => exact tickWhen_nextWithQueue (compareNext · = true) s
  | pulseEnd line => exact tickWhen_nextWithQueue (·.router.outputs[line.val].count = 1) s
  | ppsEdge => exact execPpsEdge_nextWithQueue _ _ s
  | timeBreak => exact execTimeBreak_nextWithQueue _ _ s
  | correlationPassEnd => exact handle_nextWithQueue rfl endPass_pending
  | jobCompletion => exact handle_nextWithQueue rfl completeJob_pending
  | powerUp => exact nextWithQueue_next rfl
  | resetPin => exact execResetPin_nextWithQueue s
  | coldResetComplete => exact execColdResetComplete_nextWithQueue _ _ s

end Sys2Proof.Machine
end

section
/-! PROOFS. What the invariants of the stores, the pilots, the window, the states and the job read of the state (`Tables`), the changes a
handling is made of (`Change`), and that each change keeps each invariant. -/

namespace Sys2Proof.Machine

/-! ### What the invariants read -/

/-- The parts of the state that the invariants of the stores, the pilots, the window, the states and the job read. -/
structure Tables where
  head : Option Nat
  valid : Sparse Bool
  samples : Sparse (List RingSample)
  pilots : Vector PilotSlot 8
  fleets : Vector FleetRecord 4
  listed : List SweepRecord
  engine : Engine
  ctxs : Vector Context 4
  op : OpState
  drain : Option DrainMode
  held : Bool
  sizeCode : Fin 4

/-- The tables of a state. -/
def State.tables (s : State) : Tables :=
  { head := s.ring.head, valid := s.ring.valid, samples := s.ring.samples, pilots := s.pilots, fleets := s.fleets
    listed := s.sweeps.recs, engine := s.engine, ctxs := s.stack.ctxs, op := s.mode.op, drain := s.mode.drain
    held := s.mode.held, sizeCode := s.mode.sizeCode }

section reading

variable {s t : State} (h : t.tables = s.tables)
include h

theorem head_of_tables : t.ring.head = s.ring.head := congrArg Tables.head h
theorem valid_of_tables : t.ring.valid = s.ring.valid := congrArg Tables.valid h
theorem samples_of_tables : t.ring.samples = s.ring.samples := congrArg Tables.samples h
theorem fleet_of_tables (f : Fin 4) : t.fleet f = s.fleet f := congrArg (fun v => v.fleets[f.val]) h
theorem slot_of_tables (i : Fin 8) : t.slot i = s.slot i := congrArg (fun v => v.pilots[i.val]) h
theorem listed_of_tables : t.listed = s.listed := congrArg Tables.listed h
theorem engine_of_tables : t.engine = s.engine := congrArg Tables.engine h
theorem ctx_of_tables (i : Fin 4) : t.ctx i = s.ctx i := congrArg (fun v => v.ctxs[i.val]) h
theorem op_of_tables : t.mode.op = s.mode.op := congrArg Tables.op h
theorem drain_of_tables : t.mode.drain = s.mode.drain := congrArg Tables.drain h
theorem held_of_tables : t.mode.held = s.mode.held := congrArg Tables.held h
theorem channels_of_tables : t.channels = s.channels := congrArg (fun v : Tables => channelsOf v.sizeCode) h

end reading

theorem OnlyLinkLines.tables {s t : State} (h : OnlyLinkLines s t) : t.tables = s.tables := by rw [h]; rfl

/-! ### What fits a record -/

/-- A fleet record within the ranges of R60. -/
def FleetFits (r : FleetRecord) : Prop :=
  256 ≤ r.k ∧ r.k ≤ 8192 ∧ r.k % 64 = 0 ∧ r.reject ≤ 128 ∧ 1 ≤ r.target ∧ r.target ≤ 32 ∧
    (r.edit = 0 ∨ (16 ≤ r.edit ∧ r.edit ≤ 4095))

theorem fleetsInRange_iff (s : State) : FleetsInRange s ↔ ∀ f, FleetFits (s.fleet f) := Iff.rfl

/-- A pilot slot whose declared length is in range and whose samples match its place (R26, R29, R37). -/
def SlotFits (p : PilotSlot) : Prop :=
  p.samples.length ≤ p.pos ∧ (p.state = .loading ∨ p.state = .valid → p.samples.length = p.pos) ∧
    (p.state = .valid → p.pos = p.lp) ∧ p.pos ≤ p.lp ∧ (p.state ≠ .empty → 256 ≤ p.lp ∧ p.lp ≤ 32768)

/-- The pilot of a sweep stands in its slot: VALID, of the sweep's length and shift (R27, R37). -/
def PilotHeld (s : State) (r : SweepRecord) : Prop :=
  (s.slot r.slot).state = .valid ∧ (s.slot r.slot).lp = r.lp ∧ (s.slot r.slot).shift = r.shift

theorem pilotsHeld_iff (s : State) : PilotsHeld s ↔ (∀ i, SlotFits (s.slot i)) ∧ ∀ r ∈ s.listed, PilotHeld s r := Iff.rfl

/-- A stack record of a context of `k` lags within the bounds of R110, the folded count being `folded`. -/
def RecordBounded (k folded : Nat) (r : StackRecord) : Prop :=
  r.acc.length = k ∧ r.counts.length = k / 64 ∧ (∀ w, r.counts.getD w 0 ≤ folded) ∧
    ∀ lag, -((r.counts.getD (lag / 64) 0 : Int) * 2 ^ 31) ≤ r.acc.getD lag 0 ∧
      r.acc.getD lag 0 ≤ (r.counts.getD (lag / 64) 0 : Int) * (2 ^ 31 - 1)

/-- A context whose records are all within the bounds of R110. -/
def CtxBounded (c : Context) : Prop := ∀ ch, c.k % 64 = 0 ∧ RecordBounded c.k c.folded (stackRecord c ch)

/-- A channel's trace within 32 bits (R92). -/
def TraceBounded (q : ChannelRecord) : Prop := ∀ x ∈ q.trace, -2147483648 ≤ x ∧ x ≤ 2147483647

theorem foldBounds_iff (s : State) : FoldBounds s ↔ (∀ i, CtxBounded (s.ctx i)) ∧ ∀ q ∈ s.engine.scratch, TraceBounded q := Iff.rfl

/-- A context whose stack records are in canonical form. -/
def CtxCanonical (c : Context) : Prop := sparseWf (freshRecord c.k) c.records = true

theorem storesCanonical_iff (s : State) : StoresCanonical s ↔
    sparseWf false s.ring.valid = true ∧ sparseWf [] s.ring.samples = true ∧ ∀ i, CtxCanonical (s.ctx i) := Iff.rfl

/-- The same sweep: nothing differs but its state and its compare point. -/
def SameSweep (r q : SweepRecord) : Prop := q = { r with state := q.state, compare := q.compare }

theorem SameSweep.fields {r q : SweepRecord} (h : SameSweep r q) :
    q.id = r.id ∧ q.slot = r.slot ∧ q.lp = r.lp ∧ q.shift = r.shift ∧ q.k = r.k ∧ q.first = r.first := by
  rw [h]; exact ⟨rfl, rfl, rfl, rfl, rfl, rfl⟩

/-- A table that holds `P` everywhere still does after one entry is replaced by one that holds `P`. -/
theorem forall_ctx_withCtx {P : Context → Prop} {s : State} {i : Fin 4} {c : Context} (h : ∀ j, P (s.ctx j)) (hc : P c) (j : Fin 4) :
    P ((s.withCtx i c).ctx j) := by
  rw [State.ctx_withCtx_cases]
  split
  · exact hc
  · exact h j

/-! ### The changes a handling is made of -/

/-- One change of the tables. Where `ids` holds, which stands for the listed ids being distinct, a change of listed records by an id
reaches no CORRELATING record but the job's, whose job is abandoned with it. -/
inductive Change (ids : Prop) (s : State) : State → Prop
  /-- A change of something else. -/
  | other {t : State} (h : t.tables = s.tables) : Change ids s t
  | fleet (f : Fin 4) (r : FleetRecord) (fits : FleetFits (s.fleet f) → FleetFits r) : Change ids s (s.withFleet f r)
  | slot (i : Fin 8) (p : PilotSlot) (unused : s.referenced i = false ∨ (s.slot i).state = .loading)
      (fits : SlotFits (s.slot i) → SlotFits p) : Change ids s (s.withSlot i p)
  /-- The validity table or the sample slots change, the head standing. -/
  | stores (r : Ring) (head : r.head = s.ring.head) (valid : sparseWf false s.ring.valid = true → sparseWf false r.valid = true)
      (samples : sparseWf [] s.ring.samples = true → sparseWf [] r.samples = true) : Change ids s (s.withRing r)
  /-- The states and compare points of listed sweeps change. -/
  | relist (g : SweepRecord → SweepRecord) (same : ∀ r, SameSweep r (g r))
      (busy : ids → ∀ r ∈ s.listed, r.state = .correlating → g r = r) : Change ids s (s.withListed (s.listed.map g))
  | unlist (id : Nat) (busy : ids → s.engine.job = none ∨ ∀ r ∈ s.listed, r.id = id → r.state ≠ .correlating) :
      Change ids s (unlist id s)
  | list (r : SweepRecord) (next : Nat) (op : s.mode.op ≠ .setup) (held : PilotHeld s r) (k : r.k = (s.fleet r.fleet).k)
      (window : ∀ h, s.ring.head = some h → h - 2047 ≤ r.first) :
      Change ids s (s.withSweeps { recs := insertSweep r s.listed, nextId := next })
  /-- The state or the counts of attached and dropped sweeps of a context change. -/
  | count (i : Fin 4) (c : Context) (kept : c.k = (s.ctx i).k ∧ c.folded = (s.ctx i).folded ∧ c.records = (s.ctx i).records)
      (free : (s.ctx i).state = .free → c.state = .free) : Change ids s (s.withCtx i c)
  | free (i : Fin 4) (gen : BitVec 8) : Change ids s (s.withCtx i (Context.freed gen))
  | openFor (f i : Fin 4) (vp : VpId) (target : Nat) (op : s.mode.op ≠ .setup) :
      Change ids s (openCtx i vp (s.fleet f).k target s)
  | fold (i : Fin 4) : Change ids s (s.withCtx i (foldedCtx (s.ctx i) s.engine.scratch))
  | op (o : OpState) (d : Option DrainMode) (empty : o = .setup → s.listed = [] ∧ ∀ i, (s.ctx i).state = .free)
      (drain : d.isSome = true ↔ o = .draining) : Change ids s (s.withMode { s.mode with op := o, drain := d })
  | abandon : Change ids s (abandonJob s)
  | begin (r : SweepRecord) (idle : s.engine.job = none) (ready : firstReady s = some r) : Change ids s (beginJob r s)
  | advance (j : Job) (elapsed n : Nat) (job : s.engine.job = some j) (bound : n ≤ s.channels) :
      Change ids s (advanceJob n { j with elapsed := elapsed } s)
  /-- The editing pass begins behind a correlation pass whose channels are all finished. -/
  | turn (j : Job) (job : s.engine.job = some j) (pass : j.pass = .correlation) (done : s.channels ≤ j.done) :
      Change ids s (s.withEngine { s.engine with job := some { j with pass := .editing, done := 0, elapsed := 0 } })
  | restart (cause : ResetCause) (tag : Byte) : Change ids s (warmRestart cause tag s)

/-- One change after another. -/
abbrev Changes (ids : Prop) : State → State → Prop := Relation.ReflTransGen (Change ids)

/-- What every change keeps, a chain of changes keeps. -/
theorem Changes.keeps {ids : Prop} {P : State → Prop} (hP : ∀ s t, Change ids s t → P s → P t) {s t : State}
    (h : Changes ids s t) (hs : P s) : P t := by
  induction h with
  | refl => exact hs
  | tail _ hc ih => exact hP _ _ hc ih

/-- A message placed on the state changes none of the tables. -/
theorem warmRestart_tables (cause : ResetCause) (tag : Byte) (s : State) : (warmRestart cause tag s).tables =
    { head := none, valid := [], samples := [], pilots := s.pilots
      fleets := mapFour (fun r => { r with arm := none }) s.fleets, listed := [], engine := Engine.idle
      ctxs := mapFour (fun c => Context.freed c.gen) s.stack.ctxs, op := .setup, drain := none
      held := s.mode.held, sizeCode := s.mode.sizeCode } := (placeNotice_only _ _).tables

/-! ### Canonical stores -/

theorem foldChannel_wf (c : Context) {recs : Sparse StackRecord} (h : sparseWf (freshRecord c.k) recs = true) (ch : Nat)
    (q : ChannelRecord) : sparseWf (freshRecord c.k) (foldChannel c recs ch q) = true := by
  unfold foldChannel
  split
  · exact sparseSet_wf _ _ _ h
  · exact h

theorem foldChannels_wf (c : Context) (qs : List ChannelRecord) (ch : Nat) {recs : Sparse StackRecord}
    (h : sparseWf (freshRecord c.k) recs = true) : sparseWf (freshRecord c.k) (foldChannels c ch qs recs) = true := by
  induction qs generalizing ch recs with
  | nil => exact h
  | cons q qs ih => exact ih (ch + 1) (foldChannel_wf c h ch q)

theorem ctxCanonical_freed (gen : BitVec 8) : CtxCanonical (Context.freed gen) := sparseWf_nil _

theorem warmRestart_ctx (cause : ResetCause) (tag : Byte) (s : State) (i : Fin 4) :
    (warmRestart cause tag s).ctx i = Context.freed (s.ctx i).gen :=
  (congrArg (fun v => v.ctxs[i.val]) (warmRestart_tables cause tag s)).trans (mapFour_getElem _ _ _ _)

theorem Change.storesCanonical {ids : Prop} {s t : State} (h : Change ids s t) (hs : StoresCanonical s) : StoresCanonical t := by
  obtain ⟨hv, hx, hc⟩ := hs
  rw [storesCanonical_iff]
  cases h with
  | other h => exact ⟨valid_of_tables h ▸ hv, samples_of_tables h ▸ hx, fun i => ctx_of_tables h i ▸ hc i⟩
  | stores r _ valid samples => exact ⟨valid hv, samples hx, hc⟩
  | count i c kept _ =>
    refine ⟨hv, hx, forall_ctx_withCtx hc ?_⟩
    rw [CtxCanonical, kept.1, kept.2.2]
    exact hc i
  | free i gen => exact ⟨hv, hx, forall_ctx_withCtx hc (ctxCanonical_freed gen)⟩
  | openFor f i vp target _ => exact ⟨hv, hx, forall_ctx_withCtx (s := s.withStack _) hc (sparseWf_nil _)⟩
  | fold i => exact ⟨hv, hx, forall_ctx_withCtx hc (foldChannels_wf _ _ 0 (hc i))⟩
  | restart cause tag =>
    have e := warmRestart_tables cause tag s
    refine ⟨?_, ?_, fun i => ?_⟩
    · rw [show (warmRestart cause tag s).ring.valid = [] from congrArg Tables.valid e]; exact sparseWf_nil _
    · rw [show (warmRestart cause tag s).ring.samples = [] from congrArg Tables.samples e]; exact sparseWf_nil _
    · rw [warmRestart_ctx]; exact ctxCanonical_freed _
  | fleet | slot | relist | unlist | list | op | abandon | begin | advance | turn => exact ⟨hv, hx, hc⟩

/-! ### Fleets in range -/

theorem Change.fleetsInRange {ids : Prop} {s t : State} (h : Change ids s t) (hs : FleetsInRange s) : FleetsInRange t := by
  rw [fleetsInRange_iff] at hs ⊢
  cases h with
  | other h => exact fun f => fleet_of_tables h f ▸ hs f
  | fleet f r fits =>
    intro g
    by_cases e : g = f
    · rw [e, State.fleet_withFleet]; exact fits (hs f)
    · rw [s.fleet_withFleet_ne e]; exact hs g
  | restart cause tag =>
    intro f
    have e : (warmRestart cause tag s).fleet f = { s.fleet f with arm := none } :=
      (congrArg (fun v => v.fleets[f.val]) (warmRestart_tables cause tag s)).trans (mapFour_getElem _ _ _ _)
    rw [e]
    exact hs f
  | slot | stores | relist | unlist | list | count | free | openFor | fold | op | abandon | begin | advance | turn => exact hs

/-! ### Pilots -/

theorem Change.pilotsHeld {ids : Prop} {s t : State} (h : Change ids s t) (hs : PilotsHeld s) : PilotsHeld t := by
  rw [pilotsHeld_iff] at hs ⊢
  obtain ⟨hf, hp⟩ := hs
  have same {r q : SweepRecord} (e : SameSweep r q) (hr : PilotHeld s r) : PilotHeld s q := by
    obtain ⟨-, hslot, hlp, hshift, -⟩ := e.fields
    rwa [PilotHeld, hslot, hlp, hshift]
  cases h with
  | other h =>
    refine ⟨fun i => slot_of_tables h i ▸ hf i, fun r hr => ?_⟩
    rw [PilotHeld, slot_of_tables h]
    exact hp r (listed_of_tables h ▸ hr)
  | slot i p unused fits =>
    refine ⟨fun j => ?_, fun r hr => ?_⟩
    · by_cases e : j = i
      · rw [e, State.slot_withSlot]; exact fits (hf i)
      · rw [s.slot_withSlot_ne e]; exact hf j
    · have held := hp r hr
      have ne : r.slot ≠ i := by
        rintro rfl
        rcases unused with h | h
        · rw [(referenced_iff s _).mpr ⟨r, hr, rfl⟩] at h; cases h
        · rw [held.1] at h; cases h
      rwa [PilotHeld, s.slot_withSlot_ne ne]
  | relist g hg _ =>
    refine ⟨hf, fun r hr => ?_⟩
    obtain ⟨q, hq, rfl⟩ := List.mem_map.mp hr
    exact same (hg q) (hp q hq)
  | unlist id _ => exact ⟨hf, fun r hr => hp r (List.mem_of_mem_filter hr)⟩
  | list r next _ held _ _ =>
    refine ⟨hf, fun q hq => ?_⟩
    rcases insertSweep_mem.mp hq with rfl | hq
    · exact held
    · exact hp q hq
  | begin r _ _ =>
    refine ⟨hf, fun q hq => ?_⟩
    obtain ⟨x, hx, rfl⟩ := List.mem_map.mp hq
    have hx' := hp x hx
    split <;> exact hx'
  | restart cause tag =>
    have e := warmRestart_tables cause tag s
    refine ⟨fun i => ?_, fun r hr => ?_⟩
    · rw [show (warmRestart cause tag s).slot i = s.slot i from congrArg (fun v => v.pilots[i.val]) e]; exact hf i
    · rw [show (warmRestart cause tag s).listed = [] from congrArg Tables.listed e] at hr; cases hr
  | fleet | stores | count | free | openFor | fold | op | abandon | advance | turn => exact ⟨hf, hp⟩

/-! ### The window -/

theorem Change.inWindow {ids : Prop} {s t : State} (h : Change ids s t) (hs : InWindow s) : InWindow t := by
  intro b hb
  cases h with
  | other h =>
    intro r hr
    exact hs b (head_of_tables h ▸ hb) r (listed_of_tables h ▸ hr)
  | stores r head _ _ => exact hs b (head ▸ hb)
  | relist g hg _ =>
    intro r hr
    obtain ⟨q, hq, rfl⟩ := List.mem_map.mp hr
    obtain ⟨-, -, -, -, -, hfirst⟩ := (hg q).fields
    rw [hfirst]
    exact hs b hb q hq
  | unlist id _ => exact fun r hr => hs b hb r (List.mem_of_mem_filter hr)
  | list r next _ _ _ window =>
    intro q hq
    rcases insertSweep_mem.mp hq with rfl | hq
    · exact window b hb
    · exact hs b hb q hq
  | begin r _ _ =>
    intro q hq
    obtain ⟨x, hx, rfl⟩ := List.mem_map.mp hq
    have hx' := hs b hb x hx
    split <;> exact hx'
  | restart cause tag =>
    rw [show (warmRestart cause tag s).ring.head = none from congrArg Tables.head (warmRestart_tables cause tag s)] at hb
    cases hb
  | fleet | slot | count | free | openFor | fold | op | abandon | advance | turn => exact hs b hb

/-! ### An empty SETUP -/

theorem Change.setupEmpty {ids : Prop} {s t : State} (h : Change ids s t) (hs : SetupEmpty s) : SetupEmpty t := by
  obtain ⟨he, hd⟩ := hs
  cases h with
  | other h =>
    refine ⟨fun ho => ?_, by rw [drain_of_tables h, op_of_tables h]; exact hd⟩
    obtain ⟨hl, hc⟩ := he (op_of_tables h ▸ ho)
    exact ⟨(listed_of_tables h).trans hl, fun i => ctx_of_tables h i ▸ hc i⟩
  | relist g _ _ =>
    refine ⟨fun ho => ⟨?_, (he ho).2⟩, hd⟩
    rw [State.withListed_listed, (he ho).1, List.map_nil]
  | unlist id _ =>
    refine ⟨fun ho => ⟨?_, (he ho).2⟩, hd⟩
    show s.listed.filter _ = []
    rw [(he ho).1, List.filter_nil]
  | list r next op _ _ _ => exact ⟨fun ho => absurd ho op, hd⟩
  | count i c _ free =>
    exact ⟨fun ho => ⟨(he ho).1, forall_ctx_withCtx (P := fun c => c.state = .free) (he ho).2 (free ((he ho).2 i))⟩, hd⟩
  | free i gen => exact ⟨fun ho => ⟨(he ho).1, forall_ctx_withCtx (P := fun c => c.state = .free) (he ho).2 rfl⟩, hd⟩
  | openFor f i vp target op => exact ⟨fun ho => absurd ho op, hd⟩
  | fold i => exact ⟨fun ho => ⟨(he ho).1, forall_ctx_withCtx (P := fun c => c.state = .free) (he ho).2 ((he ho).2 i)⟩, hd⟩
  | op o d empty drain => exact ⟨empty, drain⟩
  | begin r _ ready =>
    refine ⟨fun ho => ?_, hd⟩
    have hr : r ∈ s.listed := List.mem_of_find?_eq_some ready
    rw [(he ho).1] at hr
    cases hr
  | restart cause tag =>
    have e := warmRestart_tables cause tag s
    refine ⟨fun _ => ⟨congrArg Tables.listed e, fun i => by rw [warmRestart_ctx]; rfl⟩, ?_⟩
    rw [show (warmRestart cause tag s).mode.drain = none from congrArg Tables.drain e,
      show (warmRestart cause tag s).mode.op = .setup from congrArg Tables.op e]
    decide
  | fleet | slot | stores | abandon | advance | turn => exact ⟨he, hd⟩

end Sys2Proof.Machine
end

section
/-! PROOFS. The fold keeps the bounds of R110, and the job's stores keep the lengths of its place (R37, R83, R86, R94, R95, R110). -/

namespace Sys2Proof.Machine

/-! ### The bounds of the fold (R110) -/

theorem recordBounded_fresh (k folded : Nat) : RecordBounded k folded (freshRecord k) := by
  have counts (w : Nat) : (freshRecord k).counts.getD w 0 = 0 := by simp [freshRecord]
  have acc (lag : Nat) : (freshRecord k).acc.getD lag 0 = 0 := by simp [freshRecord]
  refine ⟨List.length_replicate, List.length_replicate, fun w => ?_, fun lag => ?_⟩
  · rw [counts]; exact Nat.zero_le _
  · rw [counts, acc]; exact ⟨le_refl _, le_refl _⟩

theorem RecordBounded.mono {k m n : Nat} {r : StackRecord} (h : RecordBounded k m r) (le : m ≤ n) : RecordBounded k n r :=
  ⟨h.1, h.2.1, fun w => (h.2.2.1 w).trans le, h.2.2.2⟩

theorem getD_mapIdx {α : Type} (g : Nat → α → α) (l : List α) (i : Nat) (d : α) :
    (l.mapIdx g).getD i d = if i < l.length then g i (l.getD i d) else d := by
  split
  · next h => simp [List.getD_eq_getElem?_getD, h]
  · next h => simp [List.getD_eq_getElem?_getD, List.getElem?_eq_none (Nat.le_of_not_lt h)]

theorem mapIdx_of_eq {α : Type} (g : Nat → α → α) (l : List α) (d : α) (h : ∀ i < l.length, g i (l.getD i d) = l.getD i d) :
    l.mapIdx g = l := by
  refine List.ext_getElem (by simp) fun i hi hi' => ?_
  have := h i hi'
  rw [List.getD_eq_getElem _ _ hi'] at this
  simpa using this

/-- Within the bounds a fold takes the window counts as they stand (R112). -/
theorem foldCounts_bounded {k folded : Nat} {r : StackRecord} (h : RecordBounded k folded r) (err : Bool) (ws : List Nat) :
    foldCounts err folded ws r.counts = r.counts := by
  refine mapIdx_of_eq _ _ 0 fun w _ => ?_
  have le := h.2.2.1 w
  split
  · exact if_neg (Nat.not_lt.mpr le)
  · rfl

/-- Within the bounds a fold takes the accumulators as they stand (R112). -/
theorem foldAccs_bounded {k folded : Nat} {r : StackRecord} (h : RecordBounded k folded r) (err : Bool) (ws : List Nat) :
    foldAccs err ws r.counts r.acc = r.acc := by
  refine mapIdx_of_eq _ _ 0 fun lag _ => ?_
  obtain ⟨low, high⟩ := h.2.2.2 lag
  split
  · unfold boundAcc clampInt
    rw [if_neg (by simpa [Config.windowLags] using low), if_neg (by simpa [Config.windowLags] using high)]
  · rfl

theorem TraceBounded.getD {q : ChannelRecord} (h : TraceBounded q) (lag : Nat) :
    -2147483648 ≤ q.trace.getD lag 0 ∧ q.trace.getD lag 0 ≤ 2147483647 := by
  by_cases hl : lag < q.trace.length
  · rw [List.getD_eq_getElem _ _ hl]; exact h _ (List.getElem_mem hl)
  · rw [List.getD_eq_default _ _ (Nat.le_of_not_lt hl)]; decide

/-- A fold of a trace within 32 bits keeps the bounds for a folded count one higher: an accepted window's count rises by 1 and its
accumulators by one sample, a rejected window stays (R109, R110). -/
theorem foldRecord_bounded {k folded : Nat} {r : StackRecord} (h : RecordBounded k folded r) {q : ChannelRecord} (hq : TraceBounded q)
    (rejected : List Nat) : RecordBounded k (folded + 1) (foldRecord folded (windowCount k) q rejected r) := by
  obtain ⟨hacc, hcounts, hle, hbound⟩ := id h
  set ws := acceptedWindows (windowCount k) rejected with hws
  have counts (w : Nat) : (foldRecord folded (windowCount k) q rejected r).counts.getD w 0 =
      if ws.contains w = true ∧ w < k / 64 then r.counts.getD w 0 + 1 else r.counts.getD w 0 := by
    simp only [foldRecord, ← hws]
    rw [foldCounts_bounded h, getD_mapIdx, hcounts]
    by_cases hw : w < k / 64
    · simp [hw]
    · rw [if_neg hw, if_neg (fun e => hw e.2), List.getD_eq_default _ _ (by omega)]
  have acc (lag : Nat) : (foldRecord folded (windowCount k) q rejected r).acc.getD lag 0 =
      if ws.contains (lag / 64) = true ∧ lag < k then r.acc.getD lag 0 + q.trace.getD lag 0 else r.acc.getD lag 0 := by
    simp only [foldRecord, ← hws]
    rw [foldCounts_bounded h, foldAccs_bounded h, getD_mapIdx, hacc]
    by_cases hl : lag < k
    · simp [hl, lagIn, Config.windowLags]
    · rw [if_neg hl, if_neg (fun e => hl e.2), List.getD_eq_default _ _ (by omega)]
  have within {w : Nat} (hw : ws.contains w = true) : w < k / 64 := (accepted_mem.mp hw).1
  refine ⟨?_, ?_, fun w => ?_, fun lag => ?_⟩
  · simp only [foldRecord, foldAccs, List.length_mapIdx, hacc]
  · simp only [foldRecord, foldCounts, List.length_mapIdx, hcounts]
  · have := hle w
    rw [counts]
    split <;> omega
  · obtain ⟨low, high⟩ := hbound lag
    obtain ⟨qlow, qhigh⟩ := hq.getD lag
    rw [counts, acc]
    by_cases hw : ws.contains (lag / 64) = true
    · have hlt := within hw
      rw [if_pos ⟨hw, hlt⟩, if_pos ⟨hw, by omega⟩]
      push_cast
      omega
    · rw [if_neg (fun e => hw e.1), if_neg (fun e => hw e.1)]
      exact ⟨low, high⟩

/-- The channels behind those of the scratch store are not folded. -/
theorem foldChannels_get_beyond (c : Context) (qs : List ChannelRecord) (n : Nat) (recs : Sparse StackRecord) (ch : Nat)
    (h : n + qs.length ≤ ch) :
    sparseGet (freshRecord c.k) (foldChannels c n qs recs) ch = sparseGet (freshRecord c.k) recs ch := by
  induction qs generalizing n recs with
  | nil => rfl
  | cons q qs ih =>
    rw [List.length_cons] at h
    rw [foldChannels, ih (n + 1) _ (by omega)]
    unfold foldChannel
    split
    · exact sparseGet_set_other _ _ (by omega) _
    · rfl

/-- The fold of the scratch store keeps a context's bounds (R108 to R110). -/
theorem foldedCtx_bounded {c : Context} (hw : CtxCanonical c) (hc : CtxBounded c) {qs : List ChannelRecord}
    (hq : ∀ q ∈ qs, TraceBounded q) : CtxBounded (foldedCtx c qs) := by
  intro ch
  refine ⟨(hc ch).1, ?_⟩
  have bound := (hc ch).2
  show RecordBounded c.k (c.folded + 1) (sparseGet (freshRecord c.k) (foldChannels c 0 qs c.records) ch)
  by_cases hl : ch < qs.length
  · have get := (foldChannels_get c qs 0 c.records ((sparseWf_iff _ _).mp hw).1).2 ch qs[ch] (List.getElem?_eq_getElem hl)
    rw [Nat.zero_add] at get
    rw [get]
    split
    · exact foldRecord_bounded bound (hq _ (List.getElem_mem hl)) _
    · exact bound.mono (Nat.le_succ _)
  · rw [foldChannels_get_beyond c qs 0 c.records ch (by omega)]
    exact bound.mono (Nat.le_succ _)

theorem ctxBounded_empty {c : Context} (hr : c.records = []) (hk : c.k % 64 = 0) : CtxBounded c := by
  intro ch
  refine ⟨hk, ?_⟩
  rw [stackRecord, hr]
  exact recordBounded_fresh c.k c.folded

theorem CtxBounded.congr {c c' : Context} (h : CtxBounded c) (hk : c'.k = c.k) (hf : c'.folded = c.folded)
    (hr : c'.records = c.records) : CtxBounded c' := by
  intro ch
  rw [stackRecord, hk, hf, hr]
  exact h ch

theorem saturate32_bounded (v : Int) : -2147483648 ≤ saturate32 v ∧ saturate32 v ≤ 2147483647 := by
  unfold saturate32 clampInt min32 max32
  split
  · omega
  · split <;> omega

theorem correlateChannel_bounded (s : State) (r : SweepRecord) (c : Nat) : TraceBounded (correlateChannel s r c) := by
  intro x hx
  obtain ⟨v, -, rfl⟩ := List.mem_map.mp hx
  exact saturate32_bounded v

theorem editChannel_bounded {s : State} {r : SweepRecord} {q : ChannelRecord} (h : TraceBounded q) :
    TraceBounded (editChannel s r q) := h

/-- Finishing channels keeps the traces of the scratch store within 32 bits (R92). -/
theorem advanceJob_bounded {s : State} (n : Nat) (j : Job) (h : ∀ q ∈ s.engine.scratch, TraceBounded q) :
    ∀ q ∈ (advanceJob n j s).engine.scratch, TraceBounded q := by
  intro q hq
  simp only [advanceJob, State.withEngine_engine] at hq
  cases hp : j.pass with
  | correlation =>
    rw [hp] at hq
    rcases List.mem_append.mp hq with hq | hq
    · exact h q hq
    · obtain ⟨c, -, rfl⟩ := List.mem_map.mp hq
      exact correlateChannel_bounded s j.sweep c
  | editing =>
    rw [hp] at hq
    obtain ⟨c, hc, rfl⟩ := List.mem_mapIdx.mp hq
    split
    · exact editChannel_bounded (h _ (List.getElem_mem hc))
    · exact h _ (List.getElem_mem hc)

theorem Change.foldBounds {ids : Prop} {s t : State} (h : Change ids s t) (hf : FleetsInRange s) (hw : StoresCanonical s)
    (hs : FoldBounds s) : FoldBounds t := by
  rw [foldBounds_iff] at hs ⊢
  obtain ⟨hc, hq⟩ := hs
  cases h with
  | other h => exact ⟨fun i => ctx_of_tables h i ▸ hc i, engine_of_tables h ▸ hq⟩
  | count i c kept _ => exact ⟨forall_ctx_withCtx hc ((hc i).congr kept.1 kept.2.1 kept.2.2), hq⟩
  | free i gen => exact ⟨forall_ctx_withCtx hc (ctxBounded_empty rfl rfl), hq⟩
  | openFor f i vp target _ =>
    obtain ⟨-, -, hk, -⟩ := hf f
    exact ⟨forall_ctx_withCtx (s := s.withStack _) hc (ctxBounded_empty rfl hk), hq⟩
  | fold i => exact ⟨forall_ctx_withCtx hc (foldedCtx_bounded (hw.2.2 i) (hc i) hq), hq⟩
  | abandon => exact ⟨hc, fun q hq => nomatch hq⟩
  | begin r _ _ => exact ⟨hc, fun q hq => nomatch hq⟩
  | advance j e n _ _ => exact ⟨hc, advanceJob_bounded n _ hq⟩
  | restart cause tag =>
    refine ⟨fun i => by rw [warmRestart_ctx]; exact ctxBounded_empty rfl rfl, fun q hq => ?_⟩
    rw [show (warmRestart cause tag s).engine = Engine.idle from congrArg Tables.engine (warmRestart_tables cause tag s)] at hq
    cases hq
  | fleet | slot | stores | relist | unlist | list | op | turn => exact ⟨hc, hq⟩

/-! ### The job (R37, R83, R86, R94, R95) -/

/-- The job works on a listed CORRELATING record, with its stores of the lengths of its place. -/
def JobHeld (s : State) (j : Job) : Prop := j.sweep ∈ s.listed ∧ j.sweep.state = .correlating ∧ JobStored s j

/-- Every listed sweep has a listen length of R60's range, and the job is held. -/
def WorkStored (s : State) : Prop := (∀ r ∈ s.listed, 256 ≤ r.k ∧ r.k ≤ 8192) ∧ ∀ j, s.engine.job = some j → JobHeld s j

theorem jobsStored_iff (s : State) : JobsStored s ↔ (s.mode.held = true → s.engine.job = none) ∧ WorkStored s := Iff.rfl

/-- What a job's stores hold depends on its pilot slot, the slice and the engine's scratch store. -/
theorem JobStored.congr {s t : State} {j : Job} (h : JobStored s j) (hs : (t.slot j.sweep.slot).samples = (s.slot j.sweep.slot).samples)
    (hc : t.channels = s.channels) (he : t.engine.scratch = s.engine.scratch) : JobStored t j := by
  unfold JobStored
  rw [hs, hc, he]
  exact h

/-- A job that is held stays so where its record stays listed, and its pilot, the slice and the engine stay. -/
theorem workStored_of {s t : State} (hs : WorkStored s) (he : t.engine = s.engine) (hch : t.channels = s.channels)
    (hk : ∀ r ∈ t.listed, 256 ≤ r.k ∧ r.k ≤ 8192)
    (hl : ∀ j, s.engine.job = some j → JobHeld s j → j.sweep ∈ t.listed)
    (hp : ∀ j, s.engine.job = some j → JobHeld s j → (t.slot j.sweep.slot).samples = (s.slot j.sweep.slot).samples) :
    WorkStored t := by
  refine ⟨hk, fun j hj => ?_⟩
  rw [he] at hj
  have held := hs.2 j hj
  exact ⟨hl j hj held, held.2.1, held.2.2.congr (hp j hj held) hch (by rw [he])⟩

/-- The lengths of the scratch store once a pass has finished channels up to `n` (R94, R95). -/
theorem advanceJob_stored {s : State} {j : Job} {n : Nat} (h : JobStored s j) (hn : n ≤ s.channels) :
    JobStored (advanceJob n j s) { j with done := max j.done n } := by
  obtain ⟨hlp, hk, hsam, hdone, hlen⟩ := h
  refine ⟨hlp, hk, hsam, Nat.max_le.mpr ⟨hdone, hn⟩, ?_⟩
  simp only [advanceJob, State.withEngine_engine]
  cases hp : j.pass with
  | correlation =>
    rw [hp] at hlen
    simp only [List.length_append, List.length_map, List.length_range', hlen]
    omega
  | editing =>
    rw [hp] at hlen
    simpa using hlen

theorem Change.workStored {s t : State} (h : Change True s t) (hf : FleetsInRange s) (hp : PilotsHeld s) (hs : WorkStored s) :
    WorkStored t := by
  obtain ⟨hk, hj⟩ := id hs
  cases h with
  | other h =>
    have e := listed_of_tables h
    exact workStored_of hs (engine_of_tables h) (channels_of_tables h) (e ▸ hk) (fun j _ held => e ▸ held.1)
      fun j _ _ => by rw [slot_of_tables h]
  | slot i p unused _ =>
    refine workStored_of hs rfl rfl hk (fun j _ held => held.1) fun j _ held => ?_
    have ne : j.sweep.slot ≠ i := by
      rintro rfl
      rcases unused with h | h
      · rw [(referenced_iff s _).mpr ⟨_, held.1, rfl⟩] at h; cases h
      · rw [(hp.2 _ held.1).1] at h; cases h
    rw [s.slot_withSlot_ne ne]
  | relist g same busy =>
    refine workStored_of hs rfl rfl (fun r hr => ?_) (fun j _ held => ?_) fun _ _ _ => rfl
    · obtain ⟨q, hq, rfl⟩ := List.mem_map.mp hr
      obtain ⟨-, -, -, -, hgk, -⟩ := (same q).fields
      rw [hgk]
      exact hk q hq
    · exact List.mem_map.mpr ⟨j.sweep, held.1, busy trivial _ held.1 held.2.1⟩
  | unlist id busy =>
    refine workStored_of hs rfl rfl (fun r hr => hk r (List.mem_of_mem_filter hr)) (fun j hjob held => ?_) fun _ _ _ => rfl
    rcases busy trivial with hn | hn
    · rw [hn] at hjob; cases hjob
    · exact List.mem_filter.mpr ⟨held.1, decide_eq_true fun e => hn _ held.1 e held.2.1⟩
  | list r next _ _ hrk _ =>
    refine workStored_of hs rfl rfl (fun q hq => ?_) (fun j _ held => insertSweep_mem.mpr (.inr held.1)) fun _ _ _ => rfl
    rcases insertSweep_mem.mp hq with rfl | hq
    · obtain ⟨hlow, hhigh, -⟩ := hf q.fleet
      rw [hrk]
      exact ⟨hlow, hhigh⟩
    · exact hk q hq
  | abandon => exact ⟨hk, fun j hjob => nomatch hjob⟩
  | begin r idle ready =>
    have hr : r ∈ s.listed := List.mem_of_find?_eq_some ready
    obtain ⟨hvalid, hlp, -⟩ := hp.2 r hr
    obtain ⟨-, hpos, hfull, -, hrange⟩ := hp.1 r.slot
    have hsam := (hpos (.inr hvalid)).trans (hfull hvalid)
    have hlow := (hrange (by rw [hvalid]; decide)).1
    refine ⟨fun q hq => ?_, fun j hjob => ?_⟩
    · obtain ⟨x, hx, rfl⟩ := List.mem_map.mp hq
      have hxk := hk x hx
      split <;> exact hxk
    · cases hjob
      refine ⟨List.mem_map.mpr ⟨r, hr, if_pos rfl⟩, rfl, ?_, ?_, hsam.trans hlp, Nat.zero_le _, rfl⟩
      · show 1 ≤ r.lp
        omega
      · exact le_trans (by decide) (hk r hr).1
  | advance j e n job bound =>
    refine ⟨hk, fun j' hjob => ?_⟩
    cases hjob
    obtain ⟨hmem, hstate, hstored⟩ := hj j job
    exact ⟨hmem, hstate, advanceJob_stored (j := { j with elapsed := e }) hstored bound⟩
  | turn j job pass done =>
    refine ⟨hk, fun j' hjob => ?_⟩
    cases hjob
    obtain ⟨hmem, hstate, hlp, hjk, hsam, hdone, hlen⟩ := hj j job
    rw [pass] at hlen
    exact ⟨hmem, hstate, hlp, hjk, hsam, Nat.zero_le _, hlen.trans (Nat.le_antisymm hdone done)⟩
  | restart cause tag =>
    have e := warmRestart_tables cause tag s
    refine ⟨fun r hr => ?_, fun j hjob => ?_⟩
    · rw [show (warmRestart cause tag s).listed = [] from congrArg Tables.listed e] at hr; cases hr
    · rw [show (warmRestart cause tag s).engine = Engine.idle from congrArg Tables.engine e] at hjob; cases hjob
  | fleet | stores | count | free | openFor | fold | op => exact hs

theorem Change.held {ids : Prop} {s t : State} (h : Change ids s t) : t.mode.held = s.mode.held := by
  cases h with
  | other h => exact held_of_tables h
  | restart cause tag => exact congrArg Tables.held (warmRestart_tables cause tag s)
  | _ => rfl

end Sys2Proof.Machine
end

section
/-! PROOFS. Each shared operation and each handling as a chain of changes of the tables. -/

namespace Sys2Proof.Machine

/-! ### Operations that leave the tables -/

@[simp] theorem tables_withLink (s : State) (l : HostLink) : (s.withLink l).tables = s.tables := rfl
@[simp] theorem tables_withTime (s : State) (r : Timebase) : (s.withTime r).tables = s.tables := rfl
@[simp] theorem tables_withRouter (s : State) (r : Router) : (s.withRouter r).tables = s.tables := rfl
@[simp] theorem tables_withEmitter (s : State) (e : Emitter) : (s.withEmitter e).tables = s.tables := rfl
@[simp] theorem tables_withParams (s : State) (p : Params) : (s.withParams p).tables = s.tables := rfl

@[simp] theorem tables_mapOutputs (g : OutputEntry → OutputEntry) (s : State) : (s.mapOutputs g).tables = s.tables := rfl
@[simp] theorem tables_raiseEvent (src : Source) (s : State) : (raiseEvent src s).tables = s.tables := rfl

@[simp] theorem tables_markHit (bad : Bool) (s : State) : (markHit bad s).tables = s.tables := by cases bad <;> rfl

@[simp] theorem tables_placeReply (f : RxFrame) (st : Status) (c : List Byte) (s : State) : (placeReply f st c s).tables = s.tables :=
  (placeReply_only f st c s).tables

@[simp] theorem tables_offerReport (r : Report) (s : State) : (offerReport r s).tables = s.tables := (offerReport_only r s).tables

@[simp] theorem tables_vpDone (i : Fin 4) (n : Nat) (s : State) : (vpDone i n s).tables = s.tables := (vpDone_only i n s).tables

@[simp] theorem tables_setLock (l : LockState) (s : State) : (setLock l s).tables = s.tables := (setLock_only l s).tables

@[simp] theorem tables_decideLine (s : State) : (decideLine s).tables = s.tables := by rw [(decideLine_decided s).frame.1]; rfl

@[simp] theorem tables_emitterBegin (s : State) : (emitterBegin s).tables = s.tables := by rw [(emitterBegin_frame s).1]; rfl

@[simp] theorem tables_holdChanged (s t : State) : (holdChanged s t).tables = t.tables := by
  simp [holdChanged, apply_ite State.tables]

@[simp] theorem tables_setPin (line : Fin 4) (level : Bool) (s : State) : (setPin line level s).tables = s.tables := by simp [setPin]

@[simp] theorem tables_enterHoldover (s : State) : (enterHoldover s).tables = s.tables := by simp [enterHoldover]

@[simp] theorem tables_tickHoldover (s : State) : (tickHoldover s).tables = s.tables := by
  simp [tickHoldover, apply_ite State.tables]

@[simp] theorem tables_storeParam (key v : Nat) (s : State) : (storeParam key v s).tables = s.tables := by
  unfold storeParam
  split
  · unfold storeInterval
    split
    · rfl
    · simp [apply_ite State.tables]
  · rfl
  · split <;> rfl
  · split <;> rfl
  · simp [storeHoldover, apply_ite State.tables]
  · rfl
  · rfl

theorem tables_paramSet (f : RxFrame) (s : State) : (paramSet f s).tables = s.tables := by
  simp [paramSet, apply_ite State.tables]

theorem tables_syncRequest (f : RxFrame) (s : State) : (syncRequest f s).tables = s.tables := by simp [syncRequest]

theorem tables_timeSet (f : RxFrame) (s : State) : (timeSet f s).tables = s.tables := by
  simp [timeSet, apply_ite State.tables]

theorem tables_routeSet (f : RxFrame) (s : State) : (routeSet f s).tables = s.tables := by
  unfold routeSet
  simp only
  split <;> simp [storeOutput]

theorem tables_fleetGet (f : RxFrame) (s : State) : (fleetGet f s).tables = s.tables := by
  unfold fleetGet
  simp only
  split <;> simp

theorem tables_faultRead (f : RxFrame) (s : State) : (faultRead f s).tables = s.tables := by simp [faultRead]; rfl

theorem tables_spreadFault (kind : FaultKind) (loc : Option (Nat × Nat)) (s : State) :
    (spreadFault kind loc s).tables = s.tables := by
  unfold spreadFault
  split
  · exact tables_offerReport _ _
  · rfl

@[simp] theorem tables_ppsReport (was : LockState) (step : Int) (s : State) : (ppsReport was step s).tables = s.tables := by
  cases was <;> simp [ppsReport, apply_ite State.tables]

/-! ### Chains -/

variable {ids : Prop}

theorem Changes.of_tables {s t : State} (h : t.tables = s.tables) : Changes ids s t := .single (.other h)

/-- The listed sweeps have distinct ids (R67). -/
def IdsDistinct (s : State) : Prop := s.listed.Pairwise fun a b => a.id ≠ b.id

theorem IdsDistinct.eq_of_id {s : State} (h : IdsDistinct s) {r q : SweepRecord} (hr : r ∈ s.listed) (hq : q ∈ s.listed)
    (e : q.id = r.id) : q = r := by
  have nodup : (s.listed.map (·.id)).Nodup := List.pairwise_map.mpr h
  exact List.inj_on_of_nodup_map nodup hq hr e

theorem IdsDistinct.of_tables {s t : State} (h : t.tables = s.tables) (hs : IdsDistinct s) : IdsDistinct t := by
  rw [IdsDistinct, listed_of_tables h]
  exact hs

/-- No listed CORRELATING sweep has the id. -/
def NotBusy (id : Nat) (s : State) : Prop := ∀ q ∈ s.listed, q.id = id → q.state ≠ .correlating

/-- A drop of the record leaves no CORRELATING sweep of another job: it is CORRELATING itself, and its job is abandoned, or none of its id
is. -/
def DropSound (r : SweepRecord) (s : State) : Prop := r.state = .correlating ∨ NotBusy r.id s

theorem IdsDistinct.dropSound {s : State} (h : IdsDistinct s) {r : SweepRecord} (hr : r ∈ s.listed) : DropSound r s := by
  by_cases hs : r.state = .correlating
  · exact .inl hs
  · exact .inr fun q hq e => h.eq_of_id hr hq e ▸ hs

/-- Every record of `t` stands in `s` under its id, CORRELATING there where it is so in `t`. -/
def BusyFrom (s t : State) : Prop := ∀ q ∈ t.listed, ∃ r ∈ s.listed, r.id = q.id ∧ (q.state = .correlating → r.state = .correlating)

theorem BusyFrom.of_listed {s t : State} (h : t.listed = s.listed) : BusyFrom s t := fun q hq => ⟨q, h ▸ hq, rfl, id⟩

theorem BusyFrom.trans {s t u : State} (h : BusyFrom s t) (k : BusyFrom t u) : BusyFrom s u := by
  intro q hq
  obtain ⟨x, hx, hid, hs⟩ := k q hq
  obtain ⟨r, hr, hid', hs'⟩ := h x hx
  exact ⟨r, hr, hid'.trans hid, hs' ∘ hs⟩

theorem changeSweep_from {id : Nat} {g : SweepRecord → SweepRecord} (s : State)
    (h : ∀ r, (g r).id = r.id ∧ ((g r).state = .correlating → r.state = .correlating)) : BusyFrom s (changeSweep id g s) := by
  intro q hq
  obtain ⟨r, hr, rfl⟩ := List.mem_map.mp hq
  refine ⟨r, hr, ?_⟩
  split
  · exact ⟨(h r).1.symm, (h r).2⟩
  · exact ⟨rfl, fun hs => hs⟩

theorem NotBusy.of_from {id : Nat} {s t : State} (h : NotBusy id s) (b : BusyFrom s t) : NotBusy id t := by
  intro q hq e hc
  obtain ⟨r, hr, hid, hs⟩ := b q hq
  exact h r hr (hid.trans e) (hs hc)

theorem DropSound.of_from {r : SweepRecord} {s t : State} (h : DropSound r s) (b : BusyFrom s t) : DropSound r t :=
  h.imp id fun hn => hn.of_from b

/-- A fold over a list is a chain of changes when each of its turns is one; what a turn needs of its element is kept by the turns
before it. -/
theorem foldl_changes {α : Type} {g : State → α → State} {Q : α → State → Prop}
    (turn : ∀ s a, (ids → Q a s) → Changes ids s (g s a)) (keep : ∀ s a b, Q b s → Q b (g s a)) (l : List α) (s : State)
    (h : ids → ∀ a ∈ l, Q a s) : Changes ids s (l.foldl g s) := by
  induction l generalizing s with
  | nil => exact .refl
  | cons a l ih =>
    exact (turn s a fun e => h e a (.head l)).trans (ih (g s a) fun e b hb => keep s a b (h e b (.tail a hb)))

/-! ### Readiness and the engine -/

theorem readied_same (s : State) (r : SweepRecord) : SameSweep r (readied s r) := by unfold readied SameSweep; split <;> rfl

theorem readied_correlating {s : State} {r : SweepRecord} (h : r.state = .correlating) : readied s r = r := by simp [readied, h]

theorem readied_not_correlating {s : State} {r : SweepRecord} (h : (readied s r).state = .correlating) : r.state = .correlating := by
  unfold readied at h
  split at h
  · cases h
  · exact h

theorem testReadiness_changes (id : Nat) (s : State) : Changes ids s (testReadiness id s) := by
  refine .single (.relist _ (fun r => ?_) fun _ r _ hr => ?_)
  · split
    · exact readied_same s r
    · rfl
  · split
    · exact readied_correlating hr
    · rfl

theorem arrivalNotice_changes (s : State) : Changes ids s (arrivalNotice s) :=
  (Changes.of_tables (tables_markHit s.listBad s)).tail
    (.relist _ (readied_same _) fun _ _ _ hr => readied_correlating hr)

theorem arbitrate_changes (s : State) : Changes ids s (arbitrate s) := by
  unfold arbitrate
  split
  · exact .refl
  · next idle =>
    split
    · exact .refl
    · next r ready =>
      split
      · exact .of_tables (tables_markHit true s)
      · exact .single (.begin r idle ready)

theorem tickJob_changes (s : State) : Changes ids s (tickJob s) := by
  unfold tickJob
  split
  · exact .refl
  · next j job => exact .single (.advance j (j.elapsed + 1) _ job (le_trans (Nat.min_le_left _ _) (Nat.sub_le _ _)))

theorem endPass_changes (s : State) : Changes ids s (endPass s) := by
  unfold endPass
  split
  · exact .refl
  · next j job =>
    split
    · exact .refl
    · next pass =>
      have advanced : Change ids s (advanceJob s.channels j s) := .advance j j.elapsed s.channels job (le_refl _)
      exact (Relation.ReflTransGen.single advanced).tail
        (.turn { j with done := max j.done s.channels } rfl pass (le_max_right j.done s.channels))

/-! ### The operating state -/

theorem setOp_changes (o : OpState) (d : Option DrainMode) (s : State)
    (empty : o = .setup → s.listed = [] ∧ ∀ i, (s.ctx i).state = .free) (drain : d.isSome = true ↔ o = .draining) :
    Changes ids s (setOp o d s) :=
  (Relation.ReflTransGen.single (.op o d empty drain)).tail (.other (setOp_only o d s).tables)

theorem drainTest_changes (s : State) : Changes ids s (drainTest s) := by
  unfold drainTest
  split
  · have marked : Changes ids s (markHit s.ctxsBad s) := .of_tables (tables_markHit s.ctxsBad s)
    simp only
    split
    · next due =>
      have ended := setOp_changes (ids := ids) .setup none (markHit s.ctxsBad s)
        (fun _ => ⟨due.1, (allFree_iff _).mp due.2⟩) (by decide)
      exact (marked.trans ended).tail (.other (tables_offerReport _ _))
    · exact marked
  · exact .refl

/-! ### Contexts -/

theorem freeCtx_changes (i : Fin 4) (s : State) : Changes ids s (freeCtx i s) :=
  (Relation.ReflTransGen.single (.other (t := s.withStack { s.stack with openOrder := s.stack.openOrder.filter fun j => j ≠ i }) rfl)).tail
    (.free i (s.ctx i).gen)

theorem closeCtx_changes {i : Fin 4} {s : State} (h : (s.ctx i).state ≠ .free) : Changes ids s (closeCtx i s) := by
  unfold closeCtx
  split
  · have closing : Changes ids s (s.withCtx i { s.ctx i with state := .closing }) :=
      .single (.count i _ ⟨rfl, rfl, rfl⟩ fun hf => absurd hf h)
    refine closing.tail (.other ?_)
    simp [apply_ite State.tables]
  · exact (Changes.of_tables (tables_vpDone i 0 s)).trans (freeCtx_changes i _)

theorem closeHolds_not_free {c : Context} (h : closeHolds c = true) : c.state ≠ .free := by
  intro hf
  rw [closeHolds, hf] at h
  cases h

theorem applyClose_changes (i : Fin 4) (s : State) : Changes ids s (applyClose i s) := by
  unfold applyClose
  split
  · next h => exact closeCtx_changes (closeHolds_not_free h)
  · exact .refl

/-- A close changes none of the tables but the contexts. -/
theorem closeCtx_tables (i : Fin 4) (s : State) :
    (closeCtx i s).tables = { s.tables with ctxs := (closeCtx i s).tables.ctxs } := by
  unfold closeCtx
  split
  · simp only
    split
    · rw [tables_emitterBegin]; rfl
    · rfl
  · show ({ (vpDone i 0 s).tables with ctxs := (freeCtx i (vpDone i 0 s)).stack.ctxs } : Tables) = _
    rw [tables_vpDone]
    rfl

theorem collecting_not_free {c : Context} (h : collecting c = true) : c.state ≠ .free := by
  intro hf
  rw [collecting, hf] at h
  cases h

theorem attachCtx_changes (i : Fin 4) (k : Nat) (s : State) : Changes ids s (attachCtx i k s).1 := by
  unfold attachCtx
  simp only
  split
  · exact .refl
  · split
    · exact .refl
    · split
      · exact .refl
      · exact .single (.count i _ ⟨rfl, rfl, rfl⟩ id)

theorem openFree_changes (f : Fin 4) (vp : VpId) (target : Nat) {s : State} (op : s.mode.op ≠ .setup) :
    Changes ids s (openFree vp (s.fleet f).k target s).1 := by
  unfold openFree
  split
  · next i _ => exact .single (.openFor f i vp target op)
  · exact .refl

theorem openFree_tables (vp : VpId) (k target : Nat) (s : State) :
    (openFree vp k target s).1.tables = { s.tables with ctxs := (openFree vp k target s).1.tables.ctxs } := by
  unfold openFree
  split <;> rfl

theorem forceCandidate_not_free {s : State} {i : Fin 4} (h : forceCandidate s = some i) : (s.ctx i).state ≠ .free := by
  have found := List.find?_some h
  simp only [Bool.and_eq_true] at found
  exact collecting_not_free found.1

theorem resolveCtx_changes (f : Fin 4) (vp : VpId) (target : Nat) {s : State} (op : s.mode.op ≠ .setup) :
    Changes ids s (resolveCtx vp (s.fleet f).k target s).1 := by
  unfold resolveCtx
  split
  · exact .of_tables (tables_markHit true s)
  · split
    · exact attachCtx_changes _ _ s
    · split
      · exact openFree_changes f vp target op
      · split
        · next i found =>
          have kept := closeCtx_tables i s
          have hf : (closeCtx i s).fleet f = s.fleet f := congrArg (fun v : Tables => v.fleets[f.val]) kept
          have ho : (closeCtx i s).mode.op = s.mode.op := congrArg Tables.op kept
          have opened := openFree_changes (ids := ids) f vp target (s := closeCtx i s) (ho ▸ op)
          rw [hf] at opened
          exact (closeCtx_changes (forceCandidate_not_free found)).trans opened
        · exact .refl

/-- Context resolution changes none of the tables but the contexts. -/
theorem resolveCtx_tables (vp : VpId) (k target : Nat) (s : State) :
    (resolveCtx vp k target s).1.tables = { s.tables with ctxs := (resolveCtx vp k target s).1.tables.ctxs } := by
  unfold resolveCtx
  split
  · rfl
  · split
    · unfold attachCtx
      simp only
      split
      · rfl
      · split
        · rfl
        · split <;> rfl
    · split
      · exact openFree_tables _ _ _ s
      · split
        · rw [openFree_tables, closeCtx_tables]
        · rfl

/-! ### Drops -/

theorem dropSweep_changes (cause : DropCause) (close : Bool) (s : State) (r : SweepRecord) (h : ids → DropSound r s) :
    Changes ids s (dropSweep cause close s r) := by
  set s0 := markHit (r.checkBad || (s.ctx r.ctx).checkBad) s with hs0
  have e0 : s0.tables = s.tables := tables_markHit _ s
  set s2 := unlist r.id (if r.state = .correlating then abandonJob s0 else s0) with hs2
  have left : Changes ids s0 s2 := by
    rw [hs2]
    split
    · exact (Relation.ReflTransGen.single .abandon).tail (.unlist r.id fun _ => .inl rfl)
    · next hn =>
      refine .single (.unlist r.id fun he => .inr ?_)
      exact ((h he).resolve_left hn).of_from (.of_listed (listed_of_tables e0))
  set c := { s2.ctx r.ctx with attached := (s2.ctx r.ctx).attached - 1, dropped := (s2.ctx r.ctx).dropped + 1 } with hc
  have counted : Change ids s2 (s2.withCtx r.ctx c) := .count r.ctx c ⟨rfl, rfl, rfl⟩ id
  have pre : Changes ids s (dropPre cause s r) := by
    refine (((Changes.of_tables e0).trans left).tail counted).tail (.other ?_)
    simp [dropPre, apply_ite State.tables, ← hs0, ← hs2, ← hc]
  rw [dropSweep_eq]
  split
  · exact pre.trans (applyClose_changes r.ctx _)
  · exact pre

theorem dropSweep_from (cause : DropCause) (close : Bool) (s : State) (r : SweepRecord) : BusyFrom s (dropSweep cause close s r) := by
  intro q hq
  rw [dropSweep_listed] at hq
  exact ⟨q, List.mem_of_mem_filter hq, rfl, id⟩

theorem dropWhere_changes (p : SweepRecord → Bool) (cause : DropCause) (close : Bool) (s : State) (h : ids → IdsDistinct s) :
    Changes ids s (dropWhere p cause close s) :=
  foldl_changes (Q := DropSound) (fun s r => dropSweep_changes cause close s r)
    (fun s r _ hq => hq.of_from (dropSweep_from cause close s r)) _ s
    fun e _ hr => (h e).dropSound (List.mem_of_mem_filter hr)

theorem evictionNotice_changes (oldest : Nat) (s : State) (h : ids → IdsDistinct s) :
    Changes ids s (evictionNotice oldest s) :=
  (Changes.of_tables (tables_markHit _ s)).trans
    (dropWhere_changes _ _ _ _ fun e => (h e).of_tables (tables_markHit _ s))

/-- No sweep whose first block lies below the new oldest block stays listed (R17). -/
theorem evictionNotice_listed {oldest : Nat} {s : State} {r : SweepRecord} (hr : r ∈ (evictionNotice oldest s).listed) :
    oldest ≤ r.first := by
  unfold evictionNotice dropWhere at hr
  rw [drops_listed] at hr
  obtain ⟨hmem, hid⟩ := List.mem_filter.mp hr
  by_contra below
  refine of_decide_eq_true hid (List.mem_map_of_mem (List.mem_filter.mpr ⟨hmem, decide_eq_true ?_⟩))
  omega

/-! ### Entries -/

theorem listSweep_changes {s : State} {r : SweepRecord} (op : s.mode.op ≠ .setup) (held : PilotHeld s r)
    (k : r.k = (s.fleet r.fleet).k) (window : ∀ h, s.ring.head = some h → h - 2047 ≤ r.first) :
    Changes ids s (listSweep r s).1 := .single (.list _ _ op held k window)

theorem firstEvicted_false {s : State} {t0 : SampleIndex} (h : ¬ firstEvicted s t0 = true) {b : Nat} (hb : s.ring.head = some b) :
    b - 2047 ≤ t0.toNat / 32 := by
  rw [firstEvicted_iff] at h
  exact Nat.le_of_not_lt fun below => h ⟨b, hb, below⟩

theorem enterSweep_changes (origin : Origin) (f : Fin 4) (vp : VpId) (t0 : SampleIndex) (compare : Option Nat) {s : State}
    (op : s.mode.op ≠ .setup) : Changes ids s (enterSweep origin f vp t0 compare s).1 := by
  unfold enterSweep
  simp only
  split
  · exact .of_tables (tables_markHit true s)
  split
  · exact .refl
  split
  · exact .refl
  next valid =>
  split
  · exact .refl
  next window =>
  have resolved := resolveCtx_changes (ids := ids) f vp (s.fleet f).target op
  have kept := resolveCtx_tables vp (s.fleet f).k (s.fleet f).target s
  generalize resolveCtx vp (s.fleet f).k (s.fleet f).target s = answer at resolved kept
  obtain ⟨u, i | why | ended⟩ := answer
  case refused => exact resolved
  case ended => exact resolved
  case attached =>
    have hop : u.mode.op ≠ .setup := ne_of_eq_of_ne (congrArg Tables.op kept) op
    have hfleet : u.fleet f = s.fleet f := congrArg (fun v : Tables => v.fleets[f.val]) kept
    have hslot (j : Fin 8) : u.slot j = s.slot j := congrArg (fun v : Tables => v.pilots[j.val]) kept
    have hhead : u.ring.head = s.ring.head := congrArg Tables.head kept
    have hvalid : (u.slot (u.fleet f).slot).state = .valid := by rw [hfleet, hslot]; exact not_not.mp valid
    have hwindow (h : Nat) (hh : u.ring.head = some h) : h - 2047 ≤ t0.toNat / 32 := firstEvicted_false window (hhead ▸ hh)
    cases compare with
    | some c => exact resolved.trans (listSweep_changes hop ⟨hvalid, rfl, rfl⟩ rfl hwindow)
    | none =>
      have listed : Changes ids u (listSweep (entryRecord u origin f vp t0 i) u).1 :=
        listSweep_changes hop ⟨hvalid, rfl, rfl⟩ rfl hwindow
      exact ((resolved.trans listed).tail (.other (tables_offerReport _ _))).trans (testReadiness_changes _ _)

theorem entered_changes {origin : Origin} {f : Fin 4} {vp : VpId} {t0 : SampleIndex} {compare : Option Nat} {s u : State} {e : Entry}
    (op : s.mode.op ≠ .setup) (h : enterSweep origin f vp t0 compare s = (u, e)) : Changes ids s u := by
  have changes := enterSweep_changes (ids := ids) origin f vp t0 compare op
  rwa [h] at changes

/-! ### Compares -/

theorem fireSweep_changes (s : State) (r : SweepRecord) (h : ids → NotBusy r.id s) : Changes ids s (fireSweep s r) := by
  set s1 := raiseEvent (.startPulse r.fleet) (markHit (r.checkBad || (s.ctx r.ctx).checkBad) s) with hs1
  have e1 : s1.tables = s.tables := by rw [hs1, tables_raiseEvent, tables_markHit]
  have waiting : Change ids s1 (changeSweep r.id (fun q => { q with state := .waiting, compare := none }) s1) := by
    refine .relist _ (fun q => ?_) fun he q hq hc => ?_
    · split <;> rfl
    · rw [if_neg fun e => h he q (listed_of_tables e1 ▸ hq) e hc]
  exact (((Changes.of_tables e1).tail waiting).tail (.other (tables_offerReport _ _))).trans (testReadiness_changes _ _)

theorem fireSweep_from (s : State) (r : SweepRecord) : BusyFrom s (fireSweep s r) := by
  set s1 := raiseEvent (.startPulse r.fleet) (markHit (r.checkBad || (s.ctx r.ctx).checkBad) s) with hs1
  have e1 : s1.tables = s.tables := by rw [hs1, tables_raiseEvent, tables_markHit]
  set s2 := changeSweep r.id (fun q => { q with state := .waiting, compare := none }) s1 with hs2
  have waiting : BusyFrom s1 s2 := changeSweep_from s1 fun _ => ⟨rfl, fun hc => nomatch hc⟩
  have entered : BusyFrom s2 (sweepEntered r s2) := .of_listed (offerReport_only _ s2).listed
  have tested : BusyFrom (sweepEntered r s2) (fireSweep s r) :=
    changeSweep_from _ fun q => ⟨readied_id _ q, readied_not_correlating⟩
  exact (((BusyFrom.of_listed (listed_of_tables e1)).trans waiting).trans entered).trans tested

theorem comparePoint_scheduled {p : Nat → Bool} {r : SweepRecord} (h : comparePoint p r = true) : r.state = .scheduled := by
  simp only [comparePoint, Bool.and_eq_true, decide_eq_true_eq] at h
  exact h.1

/-- With distinct ids the sweeps whose compare is due share their ids with no CORRELATING sweep. -/
theorem IdsDistinct.due_notBusy {s : State} (h : IdsDistinct s) {p : Nat → Bool} {r : SweepRecord}
    (hr : r ∈ s.listed.filter (comparePoint p)) : NotBusy r.id s := by
  obtain ⟨hmem, hp⟩ := List.mem_filter.mp hr
  refine (h.dropSound hmem).resolve_left ?_
  rw [comparePoint_scheduled hp]
  decide

theorem tickCompares_changes (s : State) (h : ids → IdsDistinct s) : Changes ids s (tickCompares s) :=
  (Changes.of_tables (tables_markHit s.listBad s)).trans
    (foldl_changes (Q := fun r => NotBusy r.id) fireSweep_changes (fun s r _ hq => hq.of_from (fireSweep_from s r)) _ _
      fun e _ hr => ((h e).of_tables (tables_markHit s.listBad s)).due_notBusy hr)

theorem stepCompares_changes (old new : Nat) (s : State) (h : ids → IdsDistinct s) : Changes ids s (stepCompares old new s) := by
  refine (Changes.of_tables (tables_markHit s.listBad s)).trans (foldl_changes (Q := fun r => NotBusy r.id) (fun s r hq => ?_)
    (fun s r _ hq => ?_) _ _ fun e _ hr => ((h e).of_tables (tables_markHit s.listBad s)).due_notBusy hr)
  · split
    · exact fireSweep_changes s r hq
    · exact dropSweep_changes .missed true s r fun e => .inr (hq e)
  · split
    · exact hq.of_from (fireSweep_from s r)
    · exact hq.of_from (dropSweep_from .missed true s r)

/-! ### The tick, the edge and the break -/

theorem preTick_changes (s : State) : Changes ids s (preTick s) :=
  (Changes.of_tables (by simp)).trans (tickJob_changes _)

theorem tick_changes (s : State) (h : ids → IdsDistinct s) : Changes ids s (tick s) := by
  rw [tick_eq]
  have listed : (preTick s).listed = s.listed := (preTick_only s).listed
  have distinct (e : ids) : IdsDistinct (preTick s) := by rw [IdsDistinct, listed]; exact h e
  exact ((preTick_changes s).trans (tickCompares_changes _ distinct)).trans (arbitrate_changes _)

theorem alignPps_changes (s : State) (h : ids → IdsDistinct s) : Changes ids s (alignPps s) := by
  set s2 := ppsReport s.time.lock (ppsStep s.sps s.time.n.toNat) (setLock .locked (s.withTime { s.time with
    n := BitVec.ofInt 48 ((s.time.n.toNat : Int) + ppsStep s.sps s.time.n.toNat)
    a := BitVec.ofInt 48 ((s.time.n.toNat : Int) + ppsStep s.sps s.time.n.toNat) })) with hs2
  have e2 : s2.tables = s.tables := by simp [hs2]
  have stepped (old new : Nat) : Changes ids s (if ppsStep s.sps s.time.n.toNat = 0 then s2 else stepCompares old new s2) := by
    split
    · exact .of_tables e2
    · exact (Changes.of_tables e2).trans (stepCompares_changes old new s2 fun e => (h e).of_tables e2)
  exact ((stepped _ _).trans (drainTest_changes _)).trans (arbitrate_changes _)

theorem takeBreak_changes (f : Fin 4) (s : State) : Changes ids s (takeBreak f s) := by
  unfold takeBreak
  split
  · exact .of_tables (tables_offerReport _ s)
  next op =>
  split
  · exact .of_tables (tables_offerReport _ s)
  next a _ =>
  have armed : Changes ids s (s.withFleet f { s.fleet f with arm := armAfter a }) := .single (.fleet f _ id)
  have acquires : (s.withFleet f { s.fleet f with arm := armAfter a }).mode.op ≠ .setup := by
    rw [State.withFleet_mode, not_not.mp op]
    decide
  simp only
  split
  · next h => exact (armed.trans (entered_changes acquires h)).trans (arbitrate_changes _)
  · next h => exact (armed.trans (entered_changes acquires h)).tail (.other (tables_offerReport _ _))
  · next h => exact armed.trans (entered_changes acquires h)

end Sys2Proof.Machine
end

section
/-! PROOFS. Every command as a chain of changes of the tables, and from it the invariants of the stores, the pilots, the window, the states,
the fold and the job. -/

namespace Sys2Proof.Machine

variable {ids : Prop}

/-! ### The requests' handlings -/

theorem finishAcquire_changes (s : State) (h : ids → IdsDistinct s) : Changes ids s (finishAcquire s) := by
  set s1 := setOp .draining (some .finish) (markHit (s.listBad || s.ctxsBad) s) with hs1
  have drained : Changes ids s s1 :=
    (Changes.of_tables (tables_markHit _ s)).trans (setOp_changes _ _ _ (nomatch ·) (by decide))
  have listed : s1.listed = s.listed := by rw [hs1, (setOp_only _ _ _).listed]; exact mark_listed _ s
  have distinct (e : ids) : IdsDistinct s1 := by rw [IdsDistinct, listed]; exact h e
  have dropped := drained.trans (dropWhere_changes (fun r => decide (r.state = .scheduled)) .stopped true s1 distinct)
  have pend (t : State) (i : Fin 4) : Changes ids t (pendCtx t i) := by
    unfold pendCtx
    split
    · next ho => exact .single (.count i _ ⟨rfl, rfl, rfl⟩ fun hf => absurd (ho.symm.trans hf) (by decide))
    · exact .refl
  have pended := dropped.trans (foldl_changes (Q := fun _ _ => True) (fun t i _ => pend t i) (fun _ _ _ h => h) ctxOrder _
    fun _ _ _ => trivial)
  have closed := pended.trans (foldl_changes (Q := fun _ _ => True) (fun t i _ => applyClose_changes i t) (fun _ _ _ h => h) ctxOrder _
    fun _ _ _ => trivial)
  exact closed.trans (drainTest_changes _)

theorem stopFinish_changes (f : RxFrame) (s : State) (h : ids → IdsDistinct s) : Changes ids s (stopFinish f s) := by
  unfold stopFinish
  split
  · exact .of_tables (tables_placeReply _ _ _ s)
  · split
    · exact .of_tables (tables_placeReply _ _ _ s)
    · exact .of_tables (tables_placeReply _ _ _ s)
    · exact (finishAcquire_changes s h).tail (.other (tables_placeReply _ _ _ _))

theorem discardAll_changes (s : State) (h : ids → IdsDistinct s) : Changes ids s (discardAll s) := by
  set s1 := setOp .draining (some .discard) (markHit (s.listBad || s.ctxsBad) s) with hs1
  have drained : Changes ids s s1 :=
    (Changes.of_tables (tables_markHit _ s)).trans (setOp_changes _ _ _ (nomatch ·) (by decide))
  have listed : s1.listed = s.listed := by rw [hs1, (setOp_only _ _ _).listed]; exact mark_listed _ s
  have distinct (e : ids) : IdsDistinct s1 := by rw [IdsDistinct, listed]; exact h e
  have dropped := drained.trans (dropWhere_changes (fun _ => true) .stopped false s1 distinct)
  have discard (t : State) (i : Fin 4) : Changes ids t (discardCtx t i) := by
    unfold discardCtx
    split
    · exact freeCtx_changes i t
    · exact .refl
  have discarded := dropped.trans (foldl_changes (Q := fun _ _ => True) (fun t i _ => discard t i) (fun _ _ _ h => h) ctxOrder _
    fun _ _ _ => trivial)
  exact discarded.trans (drainTest_changes _)

theorem stopDiscard_changes (f : RxFrame) (s : State) (h : ids → IdsDistinct s) : Changes ids s (stopDiscard f s) := by
  unfold stopDiscard
  split
  · exact .of_tables (tables_placeReply _ _ _ s)
  · exact (discardAll_changes s h).tail (.other (tables_placeReply _ _ _ _))

theorem startRequest_changes (f : RxFrame) (s : State) : Changes ids s (startRequest f s) := by
  unfold startRequest
  split
  · exact (setOp_changes .acquire none s (nomatch ·) (by decide)).tail (.other (tables_placeReply _ _ _ _))
  · exact .of_tables (tables_placeReply _ _ _ s)

theorem storedFleet_fits (slot : Fin 8) (b : List Byte) (r : FleetRecord) : FleetFits (storedFleet slot b r) := by
  unfold FleetFits storedFleet clampK clampE clampJ clampF
  simp only
  refine ⟨by omega, by omega, by omega, by omega, by omega, by omega, ?_⟩
  split
  · exact .inl rfl
  · exact .inr ⟨by omega, by omega⟩

theorem fleetSet_changes (f : RxFrame) (s : State) : Changes ids s (fleetSet f s) := by
  unfold fleetSet
  simp only
  split
  · exact .of_tables (tables_placeReply _ _ _ s)
  next i _ =>
  split
  · exact .of_tables (tables_markHit true s)
  split
  · exact .of_tables (tables_placeReply _ _ _ s)
  split
  · exact .of_tables (tables_placeReply _ _ _ s)
  next slot _ =>
  have stored : Change ids s (s.withFleet i (storedFleet slot f.body (s.fleet i))) :=
    .fleet i _ fun _ => storedFleet_fits slot f.body (s.fleet i)
  exact (Relation.ReflTransGen.single stored).tail (.other (tables_placeReply _ _ _ _))

theorem armRequest_changes (f : RxFrame) (s : State) : Changes ids s (armRequest f s) := by
  unfold armRequest
  simp only
  split
  · exact .of_tables (tables_placeReply _ _ _ s)
  next i _ =>
  have armed (a : Option Arm) : Change ids s (s.withFleet i { s.fleet i with arm := a }) := .fleet i _ id
  exact (Relation.ReflTransGen.single (armed _)).tail (.other (tables_placeReply _ _ _ _))

/-! ### The pilot table -/

theorem openSlot_fits {lp : Nat} (shift : Nat) (low : 256 ≤ lp) (high : lp ≤ 32768) : SlotFits (openSlot lp shift) :=
  ⟨le_refl _, fun _ => rfl, (nomatch ·), Nat.zero_le _, fun _ => ⟨low, high⟩⟩

theorem failSlot_fits (cause : PilotFailure) {p : PilotSlot} (loading : p.state = .loading) (h : SlotFits p) :
    SlotFits (failSlot cause p) := by
  obtain ⟨-, -, -, hpos, hrange⟩ := h
  exact ⟨Nat.zero_le _, fun h => h.elim (nomatch ·) (nomatch ·), (nomatch ·), hpos,
    fun _ => hrange (by rw [loading]; decide)⟩

theorem takeWords_fits {ws : List PilotSample} {p : PilotSlot} (loading : p.state = .loading) (room : p.pos + ws.length ≤ p.lp)
    (h : SlotFits p) : SlotFits (takeWords ws p) := by
  obtain ⟨-, hsam, -, -, hrange⟩ := h
  have length : (takeWords ws p).samples.length = (takeWords ws p).pos := by
    show (p.samples ++ ws).length = p.pos + ws.length
    rw [List.length_append, hsam (.inl loading)]
  have state : (takeWords ws p).state = .loading := loading
  exact ⟨length.le, fun _ => length, fun h => absurd (state.symm.trans h) (by decide), room,
    fun _ => hrange (by rw [loading]; decide)⟩

theorem validSlot_fits {p : PilotSlot} (loading : p.state = .loading) (full : p.lp ≤ p.pos) (h : SlotFits p) :
    SlotFits (validSlot p) := by
  obtain ⟨hle, hsam, -, hpos, hrange⟩ := h
  exact ⟨hle, fun _ => hsam (.inl loading), fun _ => Nat.le_antisymm hpos full, hpos, fun _ => hrange (by rw [loading]; decide)⟩

/-- A change of a slot that is loading, before reports and the reply. -/
theorem loading_changes {s t : State} {i : Fin 8} {p : PilotSlot} (loading : (s.slot i).state = .loading)
    (fits : SlotFits (s.slot i) → SlotFits p) (h : t.tables = (s.withSlot i p).tables) : Changes ids s t :=
  (Relation.ReflTransGen.single (.slot i p (.inr loading) fits)).tail (.other h)

theorem pilotOpen_changes (f : RxFrame) (s : State) : Changes ids s (pilotOpen f s) := by
  unfold pilotOpen
  simp only
  split
  · exact .of_tables (tables_placeReply _ _ _ s)
  next i _ =>
  split
  · exact .of_tables (tables_markHit true s)
  split
  · exact .of_tables (tables_placeReply _ _ _ s)
  next unused =>
  split
  · exact .of_tables (tables_placeReply _ _ _ s)
  next range =>
  rw [not_or, Nat.not_lt, Nat.not_lt] at range
  have opened : Change ids s (s.withSlot i (openSlot (fieldAt f.body 1 2) (byteAt f.body 3).toNat)) :=
    .slot i _ (.inl (Bool.eq_false_of_not_eq_true unused)) fun _ => openSlot_fits _ range.1 range.2
  exact (Relation.ReflTransGen.single opened).tail (.other (tables_placeReply _ _ _ _))

theorem tables_pilotFailed (i : Fin 8) (cause : PilotFailure) (closing : Option Word) (s : State) :
    (pilotFailed i cause closing s).tables = s.tables := tables_offerReport _ s

theorem pilotWords_changes (f : RxFrame) (s : State) : Changes ids s (pilotWords f s) := by
  unfold pilotWords
  simp only
  split
  · exact .of_tables (tables_placeReply _ _ _ s)
  next i _ =>
  split
  · exact .of_tables (tables_placeReply _ _ _ s)
  next loading =>
  replace loading := not_not.mp loading
  split
  · exact loading_changes loading (failSlot_fits .overrun loading) ((tables_placeReply _ _ _ _).trans (tables_pilotFailed _ _ _ _))
  · next room => exact loading_changes loading (takeWords_fits loading (Nat.le_of_not_lt room)) (tables_placeReply _ _ _ _)

theorem pilotClose_changes (f : RxFrame) (s : State) : Changes ids s (pilotClose f s) := by
  unfold pilotClose
  simp only
  split
  · exact .of_tables (tables_placeReply _ _ _ s)
  next i _ =>
  split
  · exact .of_tables (tables_placeReply _ _ _ s)
  next loading =>
  replace loading := not_not.mp loading
  split
  · exact loading_changes loading (failSlot_fits .short loading) ((tables_placeReply _ _ _ _).trans (tables_pilotFailed _ _ _ _))
  next full =>
  split
  · exact loading_changes loading (failSlot_fits .check loading) ((tables_placeReply _ _ _ _).trans (tables_pilotFailed _ _ _ _))
  · exact loading_changes loading (validSlot_fits loading (Nat.le_of_not_lt full)) (tables_placeReply _ _ _ _)

/-! ### The sweep list and the contexts -/

theorem postRequest_changes (f : RxFrame) (s : State) : Changes ids s (postRequest f s) := by
  unfold postRequest
  split
  · exact .of_tables (tables_placeReply _ _ _ s)
  split
  · exact .of_tables (tables_placeReply _ _ _ s)
  next op =>
  have acquires : s.mode.op ≠ .setup := by rw [not_not.mp op]; decide
  split
  · next h => exact ((entered_changes acquires h).tail (.other (tables_placeReply _ _ _ _))).trans (arbitrate_changes _)
  · next h => exact (entered_changes acquires h).tail (.other (tables_placeReply _ _ _ _))
  · next h => exact entered_changes acquires h

theorem scheduleRequest_changes (f : RxFrame) (s : State) : Changes ids s (scheduleRequest f s) := by
  unfold scheduleRequest
  split
  · exact .of_tables (tables_placeReply _ _ _ s)
  simp only
  split
  · exact .of_tables (tables_placeReply _ _ _ s)
  next op =>
  have acquires : s.mode.op ≠ .setup := by rw [not_not.mp op]; decide
  split
  · exact .of_tables (tables_placeReply _ _ _ s)
  split
  · exact .of_tables (tables_placeReply _ _ _ s)
  split
  · next h => exact (entered_changes acquires h).tail (.other (tables_placeReply _ _ _ _))
  · next h => exact (entered_changes acquires h).tail (.other (tables_placeReply _ _ _ _))
  · next h => exact entered_changes acquires h

theorem cancelRequest_changes (f : RxFrame) (s : State) (h : ids → IdsDistinct s) : Changes ids s (cancelRequest f s) := by
  have marked : Changes ids s (markHit s.listBad s) := .of_tables (tables_markHit _ s)
  unfold cancelRequest
  simp only
  split
  · exact marked.tail (.other (tables_placeReply _ _ _ _))
  next r found =>
  have hr := List.mem_of_find?_eq_some found
  have dropped := marked.trans (dropSweep_changes .cancelled true _ r fun e =>
    ((h e).of_tables (tables_markHit s.listBad s)).dropSound hr)
  exact ((dropped.trans (drainTest_changes _)).tail (.other (tables_placeReply _ _ _ _))).trans (arbitrate_changes _)

/-- An OPEN context becomes CLOSE PENDING. -/
theorem closePending_change {vp : VpId} {s : State} {i : Fin 4} (h : openHolding vp s = some i) :
    Change ids s (s.withCtx i { s.ctx i with state := .closePending }) := by
  have holds := (findCtx_some.mp h).1
  simp only [Bool.and_eq_true, decide_eq_true_eq] at holds
  exact .count i _ ⟨rfl, rfl, rfl⟩ fun free => absurd (holds.1.symm.trans free) (by decide)

theorem closeWait_changes (f : RxFrame) (s : State) : Changes ids s (closeWait f s) := by
  unfold closeWait
  split
  · exact .of_tables (tables_placeReply _ _ _ s)
  have marked : Changes ids s (markHit s.ctxsBad s) := .of_tables (tables_markHit _ s)
  simp only
  split
  · exact marked.tail (.other (tables_placeReply _ _ _ _))
  next i found =>
  have closed := (marked.tail (closePending_change found)).trans (applyClose_changes i _)
  exact (closed.trans (drainTest_changes _)).tail (.other (tables_placeReply _ _ _ _))

theorem closeAttached_changes (i : Fin 4) (s : State) (h : ids → IdsDistinct s) : Changes ids s (closeAttached i s) := by
  unfold closeAttached
  split
  · exact applyClose_changes i s
  · exact dropWhere_changes _ _ _ s h

theorem closeNow_changes (f : RxFrame) (s : State) (h : ids → IdsDistinct s) : Changes ids s (closeNow f s) := by
  have marked : Changes ids s (markHit (s.listBad || s.ctxsBad) s) := .of_tables (tables_markHit _ s)
  have distinct (e : ids) : IdsDistinct (markHit (s.listBad || s.ctxsBad) s) := (h e).of_tables (tables_markHit _ s)
  unfold closeNow
  simp only
  split
  · exact marked.tail (.other (tables_placeReply _ _ _ _))
  next i found =>
  have closed := (marked.tail (closePending_change found)).trans (closeAttached_changes i _ distinct)
  exact ((closed.trans (drainTest_changes _)).tail (.other (tables_placeReply _ _ _ _))).trans (arbitrate_changes _)

/-! ### The job's end and the emitter -/

theorem completeSweep_changes (r : SweepRecord) (s : State) : Changes ids s (completeSweep r s) := by
  set s1 := s.withCtx r.ctx (foldedCtx (s.ctx r.ctx) s.engine.scratch) with hs1
  set s3 := raiseEvent .sweepFolded (offerReport (.sweepFolded r.id r.fleet r.vp r.t0 r.ctx
    (foldedCtx (s.ctx r.ctx) s.engine.scratch).gen (foldedCtx (s.ctx r.ctx) s.engine.scratch).folded
    (foldedCtx (s.ctx r.ctx) s.engine.scratch).dropped (foldTotals (s.ctx r.ctx) s.engine.scratch)) s1) with hs3
  have folded : Changes ids s s3 := (Relation.ReflTransGen.single (.fold r.ctx)).tail (.other (by simp [hs3, hs1]))
  have left : Changes ids s (unlist r.id (abandonJob s3)) := (folded.tail .abandon).tail (.unlist r.id fun _ => .inl rfl)
  exact ((left.trans (applyClose_changes r.ctx _)).trans (drainTest_changes _)).trans (arbitrate_changes _)

theorem completeJob_changes (s : State) : Changes ids s (completeJob s) := by
  unfold completeJob
  split
  · exact .refl
  next j job =>
  split
  · exact .refl
  split
  · exact .refl
  split
  · exact .of_tables (tables_markHit true s)
  have advanced : Change ids s (advanceJob s.channels j s) := .advance j j.elapsed s.channels job (le_refl _)
  exact (Relation.ReflTransGen.single advanced).trans (completeSweep_changes _ _)

theorem endEmission_changes (cu : Cursor) (s : State) : Changes ids s (endEmission cu s) := by
  have offered : Changes ids s (vpDone cu.ctx cu.sent (markHit (s.ctx cu.ctx).checkBad s)) := .of_tables (by simp)
  exact ((offered.trans (freeCtx_changes cu.ctx _)).tail (.other (by simp))).trans (drainTest_changes _)

theorem endMessage_changes (m : TxMessage) (s : State) : Changes ids s (endMessage m s) := by
  have ended : Changes ids s (s.withLink { s.link with tx := none }) := .of_tables rfl
  unfold endMessage
  simp only
  split
  · exact ended
  split
  · exact ended
  next cu _ =>
  split
  · have sent (e : Emitter) : Changes ids s ((s.withLink { s.link with tx := none }).withEmitter e) := ended.tail (.other rfl)
    unfold traceSent
    simp only
    split
    · exact (sent _).trans (endEmission_changes _ _)
    · exact sent _
  · exact ended

/-! ### The spread port -/

/-- What a handling can do to the tables: a chain of changes, or, where a block frame moves the head, changes up to the head's move, the
evictions behind it, which bring the list back into the window, and changes after them. -/
inductive Handled (ids : Prop) (s t : State) : Prop
  | changed (h : Changes ids s t)
  | advanced (u w : State) (r : Ring) (before : Changes ids s u)
      (valid : sparseWf false u.ring.valid = true → sparseWf false r.valid = true)
      (samples : sparseWf [] u.ring.samples = true → sparseWf [] r.samples = true)
      (evicted : Changes ids (u.withRing r) w) (window : InWindow u → InWindow w) (after : Changes ids w t)

theorem Handled.trans_changes {s t u : State} (h : Handled ids s t) (k : Changes ids t u) : Handled ids s u := by
  cases h with
  | changed h => exact .changed (h.trans k)
  | advanced u w r before valid samples evicted window after =>
    exact .advanced u w r before valid samples evicted window (after.trans k)

theorem Handled.after_changes {s t u : State} (k : Changes ids s t) (h : Handled ids t u) : Handled ids s u := by
  cases h with
  | changed h => exact .changed (k.trans h)
  | advanced u w r before valid samples evicted window after =>
    exact .advanced u w r (k.trans before) valid samples evicted window after

theorem frameWritten_changes (s : State) : Changes ids s (frameWritten s) :=
  ((arrivalNotice_changes s).trans (drainTest_changes _)).trans (arbitrate_changes _)

theorem writeBlock_changes (g b : Nat) (xs : List RingSample) (s : State) : Changes ids s (writeBlock g b xs s) :=
  .single (.stores _ rfl (sparseSet_wf _ _ _) (sparseSet_wf _ _ _))

/-- A change moves the head only by clearing it. -/
theorem Change.head {s t : State} (h : Change ids s t) : t.ring.head = s.ring.head ∨ t.ring.head = none := by
  cases h with
  | other h => exact .inl (head_of_tables h)
  | stores r head _ _ => exact .inl head
  | restart cause tag => exact .inr (congrArg Tables.head (warmRestart_tables cause tag s))
  | _ => exact .inl rfl

theorem Changes.head {s t : State} (h : Changes ids s t) : t.ring.head = s.ring.head ∨ t.ring.head = none :=
  h.keeps (P := fun t => t.ring.head = s.ring.head ∨ t.ring.head = none)
    (fun _ _ hc hs => hc.head.elim (fun e => hs.elim (fun k => .inl (e.trans k)) fun k => .inr (e.trans k)) .inr) (.inl rfl)

/-- Behind an eviction notice for its head, the list is in the window (R17). -/
theorem evictionNotice_inWindow {b : Nat} {s : State} (hb : s.ring.head = some b) (h : ids → IdsDistinct s) :
    InWindow (evictionNotice (oldestBlock b) s) := by
  intro c hc r hr
  have oldest := evictionNotice_listed hr
  rcases (evictionNotice_changes (oldestBlock b) s h).head with e | e
  · rw [e, hb] at hc
    cases hc
    exact oldest
  · rw [e] at hc; cases hc

theorem firstFrame_handled (g b : Nat) (xs : List RingSample) (s : State) (h : ids → IdsDistinct s) :
    Handled ids s (firstFrame g b xs s) := by
  set t := writeBlock g b xs (s.withRing { s.ring with head := some b }) with ht
  have head : t.ring.head = some b := rfl
  have step (w : State) (hw : firstFrame g b xs s = frameWritten w) (evicted : Changes ids t w) (window : InWindow w) :
      Handled ids s (firstFrame g b xs s) := by
    rw [hw]
    exact .advanced s w t.ring .refl (sparseSet_wf _ _ _) (sparseSet_wf _ _ _) evicted (fun _ => window) (frameWritten_changes w)
  by_cases hb : Config.ringBlocks ≤ b
  · exact step (evictionNotice (oldestBlock b) t) (by simp only [firstFrame, if_pos hb, ← ht]) (evictionNotice_changes _ t h)
      (evictionNotice_inWindow head h)
  · refine step t (by simp only [firstFrame, if_neg hb, ← ht]) .refl fun c hc r hr => ?_
    rw [head] at hc
    cases hc
    have : b < 2048 := Nat.lt_of_not_le hb
    omega

theorem advanceFrame_handled {old : Nat} (g b : Nat) (xs : List RingSample) {s : State} (hold : s.ring.head = some old)
    (h : ids → IdsDistinct s) : Handled ids s (advanceFrame old g b xs s) := by
  set t := advanceHead old b s with ht
  have head : t.ring.head = some b := rfl
  have step (w : State) (hw : advanceFrame old g b xs s = frameWritten (writeBlock g b xs w)) (evicted : Changes ids t w)
      (window : InWindow s → InWindow w) : Handled ids s (advanceFrame old g b xs s) := by
    rw [hw]
    exact .advanced s w t.ring .refl (sparseClear_wf _ _) id evicted window
      ((writeBlock_changes g b xs w).trans (frameWritten_changes _))
  by_cases hb : oldestBlock old ≠ oldestBlock b
  · exact step (evictionNotice (oldestBlock b) t) (by simp only [advanceFrame, if_pos hb, ← ht]) (evictionNotice_changes _ t h)
      fun _ => evictionNotice_inWindow head h
  · refine step t (by simp only [advanceFrame, if_neg hb, ← ht]) .refl fun window c hc r hr => ?_
    rw [head] at hc
    cases hc
    have below : oldestBlock old ≤ r.first := window old hold r hr
    rwa [not_not.mp hb] at below

theorem placeBlock_handled (g group b : Nat) (xs : List RingSample) (s : State) (h : ids → IdsDistinct s) :
    Handled ids s (placeBlock g group b xs s) := by
  unfold placeBlock
  split
  · exact .changed (.of_tables (tables_spreadFault _ _ s))
  split
  · exact firstFrame_handled g b xs s h
  next old hold =>
  split
  · exact .changed (.of_tables (tables_spreadFault _ _ s))
  split
  · exact advanceFrame_handled g b xs hold h
  split
  · exact .changed (.of_tables rfl)
  split
  · exact .changed (.of_tables rfl)
  · exact .changed ((writeBlock_changes g b xs s).trans (frameWritten_changes _))

theorem judgeBlock_handled (bytes : List Byte) (s : State) (h : ids → IdsDistinct s) : Handled ids s (judgeBlock bytes s) := by
  unfold judgeBlock
  split
  · exact .changed (.of_tables (tables_spreadFault _ _ s))
  split
  · exact .changed (.of_tables (tables_spreadFault _ _ s))
  split
  · exact .changed .refl
  · exact placeBlock_handled _ _ _ _ s h

theorem receivePiece_handled (bytes : List Byte) (last : Bool) (s : State) (h : ids → IdsDistinct s) :
    Handled ids s (receivePiece bytes last s) := by
  have kept (q : Reception) : Changes ids s (s.withReception q) := .of_tables rfl
  unfold receivePiece
  split
  · exact .changed (kept _)
  · cases last
    · exact .changed (kept _)
    · exact judgeBlock_handled bytes s h
  · cases last
    · exact .changed (kept _)
    · exact (judgeBlock_handled _ (s.withReception .idle) h).after_changes (kept .idle)

/-! ### Every command -/

/-- What one step can do to the tables: nothing; on a part that is not held, what a handling can do; a cold reset; or the completion of one,
which latches the straps. -/
inductive Stepped (ids : Prop) (s t : State) : Prop
  | idle (h : t.tables = s.tables)
  | handled (free : s.mode.held = false) (h : Handled ids s t)
  | cold (cause : ResetCause) (h : t.tables = (coldReset cause s).tables)
  | completed (held : s.mode.held = true) (code : Fin 4)
      (h : t.tables = (s.withMode { s.mode with sizeCode := code, held := false }).tables)

theorem settle_changes (s : State) : Changes ids s (settle s) := by
  unfold settle
  split
  · exact .single (.restart .tableCheck 0)
  · exact .refl

theorem handle_stepped {s u t : State} {g : State → State} (hu : u.tables = s.tables) (hg : Handled ids u (g u))
    (h : handle g u = .next t) : Stepped ids s t := by
  unfold handle at h
  split at h
  · cases h; exact .idle hu
  · next free =>
    cases h
    refine .handled ?_ ((hg.trans_changes (settle_changes _)).after_changes (.of_tables hu))
    rw [← held_of_tables hu]
    exact Bool.eq_false_of_not_eq_true free

theorem handle_changed {s t : State} {g : State → State} (hg : Changes ids s (g s)) (h : handle g s = .next t) : Stepped ids s t :=
  handle_stepped rfl (.changed hg) h

theorem takeRequest_stepped {f : RxFrame} {g : State → State} {s t : State} (hids : ids → IdsDistinct s)
    (h : takeRequest f g s = .next t) (hg : ∀ u, (ids → IdsDistinct u) → Changes ids u (g u)) : Stepped ids s t := by
  refine handle_changed ?_ h
  split
  · exact .refl
  split
  · have taken (l : HostLink) : Changes ids s (s.withLink l) := .of_tables rfl
    simp only
    split
    · exact (taken _).tail (.other (tables_placeReply _ _ _ _))
    · exact (taken _).tail (.other (tables_placeReply _ _ _ _))
    · exact (taken _).trans (hg _ hids)
  · exact .refl

/-- A request whose handling leaves the tables. -/
theorem takeRequest_other {f : RxFrame} {g : State → State} {s t : State} (hids : ids → IdsDistinct s)
    (h : takeRequest f g s = .next t) (hg : ∀ u, (g u).tables = u.tables) : Stepped ids s t :=
  takeRequest_stepped hids h fun u _ => .of_tables (hg u)

/-- A request whose block only places a reply. -/
theorem replyOnly_stepped (f : RxFrame) (st : Status) (c : State → List Byte) {s t : State} (hids : ids → IdsDistinct s)
    (h : takeRequest f (fun u => placeReply f st (c u) u) s = .next t) : Stepped ids s t :=
  takeRequest_other hids h fun u => tables_placeReply f st (c u) u

theorem execStatus_stepped {tag : Byte} {body : List Byte} {s t : State} (hids : ids → IdsDistinct s)
    (h : execStatus tag body s = .next t) : Stepped ids s t := by
  unfold execStatus at h
  exact takeRequest_other hids h fun u => (tables_placeReply _ _ _ _).trans (tables_markHit _ u)

/-- A tick taken only in the states for which `p` holds. -/
theorem tickWhen_stepped {p : State → Prop} [DecidablePred p] {s t : State} (hids : ids → IdsDistinct s)
    (h : handle (fun t => if p t then tick t else t) s = .next t) : Stepped ids s t := by
  refine handle_changed ?_ h
  split
  · exact tick_changes s hids
  · exact .refl

theorem next_idle {s u t : State} (hu : u.tables = s.tables)
    (h : (Host.Outcome.next u : Host.Outcome State Fault Refusal) = .next t) : Stepped ids s t := by
  cases h; exact .idle hu

theorem execTransmissionEnd_stepped {s t : State} (h : execTransmissionEnd s = .next t) : Stepped ids s t := by
  refine handle_changed ?_ h
  split
  · exact .refl
  · exact (endMessage_changes _ s).tail (.other (tables_decideLine _))

theorem execBlockFrame_stepped {piece : FramePiece} {s t : State} (hids : ids → IdsDistinct s)
    (h : execBlockFrame piece s = .next t) : Stepped ids s t := by
  unfold execBlockFrame at h
  split at h
  · cases h; exact .idle rfl
  · exact handle_stepped rfl (receivePiece_handled _ _ s hids) h

theorem execPpsEdge_stepped {line : Fin 4} {level : Bool} {s t : State} (hids : ids → IdsDistinct s)
    (h : execPpsEdge line level s = .next t) : Stepped ids s t := by
  have moved := tables_setPin line level s
  refine handle_stepped moved (.changed ?_) h
  split
  · exact alignPps_changes _ fun e => (hids e).of_tables moved
  · exact .refl

theorem execTimeBreak_stepped {line : Fin 4} {level : Bool} {s t : State} (h : execTimeBreak line level s = .next t) :
    Stepped ids s t := by
  refine handle_stepped (tables_setPin line level s) (.changed ?_) h
  split
  · exact takeBreak_changes _ _
  · exact .refl

theorem execColdResetComplete_stepped {code : Fin 4} {position : Fin 8} {s t : State}
    (h : execColdResetComplete code position s = .next t) : Stepped ids s t := by
  unfold execColdResetComplete at h
  split at h
  · next held =>
    cases h
    exact .completed held code (placeNotice_only _ _).tables
  · exact next_idle rfl h

/-- Every command does one of the things of `Stepped` to the tables. -/
theorem exec_stepped {c : Instr} {s t : State} (hids : ids → IdsDistinct s) (h : exec c s = .next t) : Stepped ids s t := by
  cases c with
  | ident => exact replyOnly_stepped _ _ identContents hids h
  | status => exact execStatus_stepped hids h
  | paramSet => exact takeRequest_other hids h (tables_paramSet _)
  | paramGet => exact replyOnly_stepped _ _ (paramContents _) hids h
  | start => exact takeRequest_stepped hids h (fun u _ => startRequest_changes _ u)
  | stopFinish tag body =>
    simp only [exec, execStopFinish] at h
    split at h
    · exact next_idle rfl h
    · exact takeRequest_stepped hids h (stopFinish_changes _)
  | stopDiscard tag body =>
    simp only [exec, execStopDiscard] at h
    split at h
    · exact takeRequest_stepped hids h (stopDiscard_changes _)
    · exact next_idle rfl h
  | restart tag => exact takeRequest_stepped hids h (fun _ _ => .single (.restart .restart tag))
  | sync => exact takeRequest_other hids h (tables_syncRequest _)
  | timeSet => exact takeRequest_other hids h (tables_timeSet _)
  | routeSet => exact takeRequest_other hids h (tables_routeSet _)
  | routeGet => exact replyOnly_stepped _ _ (fun u => routeBytes u.router) hids h
  | pilotOpen => exact takeRequest_stepped hids h (fun u _ => pilotOpen_changes _ u)
  | pilotWords => exact takeRequest_stepped hids h (fun u _ => pilotWords_changes _ u)
  | pilotClose => exact takeRequest_stepped hids h (fun u _ => pilotClose_changes _ u)
  | fleetSet => exact takeRequest_stepped hids h (fun u _ => fleetSet_changes _ u)
  | fleetGet => exact takeRequest_other hids h (tables_fleetGet _)
  | arm => exact takeRequest_stepped hids h (fun u _ => armRequest_changes _ u)
  | post => exact takeRequest_stepped hids h (fun u _ => postRequest_changes _ u)
  | schedule => exact takeRequest_stepped hids h (fun u _ => scheduleRequest_changes _ u)
  | cancel => exact takeRequest_stepped hids h (cancelRequest_changes _)
  | closeVpWait tag body =>
    simp only [exec, execCloseVpWait] at h
    split at h
    · exact next_idle rfl h
    · exact takeRequest_stepped hids h (fun u _ => closeWait_changes _ u)
  | closeVpNow tag body =>
    simp only [exec, execCloseVpNow] at h
    split at h
    · exact takeRequest_stepped hids h (closeNow_changes _)
    · exact next_idle rfl h
  | faultRead => exact takeRequest_other hids h (tables_faultRead _)
  | unknownKind kind tag body =>
    simp only [exec, execUnknownKind] at h
    split at h
    · exact takeRequest_other hids h (fun _ => rfl)
    · exact next_idle rfl h
  | hostFrame => exact handle_changed (.of_tables (receive_only _ _ s).tables) h
  | transmissionStart => exact handle_changed (.of_tables (tables_decideLine s)) h
  | transmissionEnd => exact execTransmissionEnd_stepped h
  | transmitHold line level => exact next_idle (tables_setPin line level s) h
  | blockFrame => exact execBlockFrame_stepped hids h
  | sampleTick => exact handle_changed (tick_changes s hids) h
  | holdoverDeadline => exact tickWhen_stepped (p := (deadlineNext · = true)) hids h
  | scheduleCompare => exact tickWhen_stepped (p := (compareNext · = true)) hids h
  | pulseEnd line => exact tickWhen_stepped (p := (·.router.outputs[line.val].count = 1)) hids h
  | ppsEdge => exact execPpsEdge_stepped hids h
  | timeBreak => exact execTimeBreak_stepped h
  | correlationPassEnd => exact handle_changed (endPass_changes s) h
  | jobCompletion => exact handle_changed (completeJob_changes s) h
  | powerUp => cases h; exact .cold .power rfl
  | resetPin =>
    simp only [exec, execResetPin] at h
    split at h
    · exact next_idle rfl h
    · cases h; exact .cold .pin rfl
  | coldResetComplete => exact execColdResetComplete_stepped h

/-- Every step does one of the things of `Stepped` to the tables. -/
theorem step_stepped {s t : State} (hids : ids → IdsDistinct s) (h : step s = .next t) : Stepped ids s t := by
  unfold step at h
  split at h
  · exact next_idle rfl h
  · next c rest _ =>
    have taken : Changes ids s { s with pending := rest } := .of_tables rfl
    have moved (k : Stepped ids { s with pending := rest } t) : Stepped ids s t := by
      cases k with
      | idle h => exact .idle h
      | handled free h => exact .handled free (h.after_changes taken)
      | cold cause h => exact .cold cause h
      | completed held code h => exact .completed held code h
    exact moved (exec_stepped hids h)

/-! ### The invariants -/

/-- What every change keeps, and a move of the head too, a handling keeps. -/
theorem Handled.keeps {P : State → Prop} (hP : ∀ s t, Change ids s t → P s → P t)
    (hr : ∀ (s : State) (r : Ring), (sparseWf false s.ring.valid = true → sparseWf false r.valid = true) →
      (sparseWf [] s.ring.samples = true → sparseWf [] r.samples = true) → P s → P (s.withRing r))
    {s t : State} (h : Handled ids s t) (hs : P s) : P t := by
  cases h with
  | changed h => exact h.keeps hP hs
  | advanced u w r before valid samples evicted _ after =>
    exact after.keeps hP (evicted.keeps hP (hr u r valid samples (before.keeps hP hs)))

theorem Handled.inWindow {s t : State} (h : Handled ids s t) (hs : InWindow s) : InWindow t := by
  have keeps {s t : State} (h : Changes ids s t) : InWindow s → InWindow t := h.keeps (P := InWindow) fun _ _ => Change.inWindow
  cases h with
  | changed h => exact keeps h hs
  | advanced u w r before _ _ _ window after => exact keeps after (window (keeps before hs))

theorem Handled.held {s t : State} (h : Handled ids s t) : t.mode.held = s.mode.held :=
  h.keeps (P := fun t => t.mode.held = s.mode.held) (fun _ _ hc hs => hc.held.trans hs) (fun _ _ _ _ hs => hs) rfl

theorem coldReset_ctx (cause : ResetCause) (s : State) (i : Fin 4) : (coldReset cause s).ctx i = Context.freed 0 := by
  simp [State.ctx, coldReset, StackStore.cold]

theorem coldReset_slot (cause : ResetCause) (s : State) (i : Fin 8) : (coldReset cause s).slot i = PilotSlot.cold := by
  simp [State.slot, coldReset]

theorem coldReset_fleet (cause : ResetCause) (s : State) (f : Fin 4) : (coldReset cause s).fleet f = FleetRecord.cold f := by
  simp only [State.fleet, coldReset, coldFleets]
  fin_cases f <;> rfl

/-- What every change keeps, a move of the head, a cold reset and its completion too, a step keeps. -/
theorem Stepped.keeps {P : State → Prop} (hP : ∀ s t, Change ids s t → P s → P t)
    (hr : ∀ (s : State) (r : Ring), (sparseWf false s.ring.valid = true → sparseWf false r.valid = true) →
      (sparseWf [] s.ring.samples = true → sparseWf [] r.samples = true) → P s → P (s.withRing r))
    (hcold : ∀ cause s, P (coldReset cause s))
    (hstraps : ∀ (s : State) (code : Fin 4), P s → P (s.withMode { s.mode with sizeCode := code, held := false }))
    {s t : State} (h : Stepped ids s t) (hs : P s) : P t := by
  cases h with
  | idle h => exact hP s t (.other h) hs
  | handled _ h => exact h.keeps hP hr hs
  | cold cause h => exact hP _ t (.other h) (hcold cause s)
  | completed _ code h => exact hP _ t (.other h) (hstraps s code hs)

/-- A step taken without a look at the listed ids. -/
theorem step_stepped_loose {s t : State} (h : step s = .next t) : Stepped False s t := step_stepped (False.elim ·) h

theorem coldReset_storesCanonical (cause : ResetCause) (s : State) : StoresCanonical (coldReset cause s) :=
  ⟨sparseWf_nil _, sparseWf_nil _, fun i => (coldReset_ctx cause s i).symm ▸ ctxCanonical_freed 0⟩

/-- Settles O55: every change keeps the stores canonical, a move of the head too, and a cold reset empties them. -/
theorem stepKeepsStoresCanonical : Obligations.StepKeepsStoresCanonical := fun _ _ hs h =>
  (step_stepped_loose h).keeps (fun _ _ => Change.storesCanonical) (fun _ _ hv hx hs => ⟨hv hs.1, hx hs.2.1, hs.2.2⟩)
    coldReset_storesCanonical (fun _ _ hs => hs) hs

theorem coldReset_pilotsHeld (cause : ResetCause) (s : State) : PilotsHeld (coldReset cause s) := by
  refine ⟨fun i => ?_, fun r hr => nomatch hr⟩
  rw [coldReset_slot]
  decide

theorem step_keeps_pilotsHeld (s t : State) (hs : PilotsHeld s) (h : step s = .next t) : PilotsHeld t :=
  (step_stepped_loose h).keeps (fun _ _ => Change.pilotsHeld) (fun _ _ _ _ hs => hs) coldReset_pilotsHeld (fun _ _ hs => hs) hs

theorem step_keeps_inWindow (s t : State) (hs : InWindow s) (h : step s = .next t) : InWindow t := by
  have other {u : State} (e : t.tables = u.tables) (hu : InWindow u) : InWindow t := Change.inWindow (ids := False) (.other e) hu
  cases step_stepped_loose h with
  | idle h => exact other h hs
  | handled _ h => exact h.inWindow hs
  | cold cause h => exact other h fun b hb => nomatch hb
  | completed _ code h => exact other h hs

theorem coldReset_setupEmpty (cause : ResetCause) (s : State) : SetupEmpty (coldReset cause s) :=
  ⟨fun _ => ⟨rfl, fun i => (coldReset_ctx cause s i).symm ▸ rfl⟩, (nomatch ·), (nomatch ·)⟩

theorem step_keeps_setupEmpty (s t : State) (hs : SetupEmpty s) (h : step s = .next t) : SetupEmpty t :=
  (step_stepped_loose h).keeps (fun _ _ => Change.setupEmpty) (fun _ _ _ _ hs => hs) coldReset_setupEmpty (fun _ _ hs => hs) hs

theorem coldReset_fleetsInRange (cause : ResetCause) (s : State) : FleetsInRange (coldReset cause s) := by
  rw [fleetsInRange_iff]
  intro f
  rw [coldReset_fleet]
  show FleetFits (FleetRecord.cold 0)
  unfold FleetFits
  decide

theorem step_keeps_fleetsInRange (s t : State) (hs : FleetsInRange s) (h : step s = .next t) : FleetsInRange t :=
  (step_stepped_loose h).keeps (fun _ _ => Change.fleetsInRange) (fun _ _ _ _ hs => hs) coldReset_fleetsInRange (fun _ _ hs => hs) hs

theorem coldReset_foldBounds (cause : ResetCause) (s : State) : FoldBounds (coldReset cause s) :=
  ⟨fun i => (coldReset_ctx cause s i).symm ▸ ctxBounded_empty rfl rfl, fun _ hq => nomatch hq⟩

theorem step_keeps_foldBounds (s t : State) (hf : FleetsInRange s) (hw : StoresCanonical s) (hs : FoldBounds s)
    (h : step s = .next t) : FoldBounds t :=
  ((step_stepped_loose h).keeps (P := fun s => FleetsInRange s ∧ StoresCanonical s ∧ FoldBounds s)
    (fun _ _ hc ⟨hf, hw, hs⟩ => ⟨hc.fleetsInRange hf, hc.storesCanonical hw, hc.foldBounds hf hw hs⟩)
    (fun _ _ hv hx ⟨hf, hw, hs⟩ => ⟨hf, ⟨hv hw.1, hx hw.2.1, hw.2.2⟩, hs⟩)
    (fun cause s => ⟨coldReset_fleetsInRange cause s, coldReset_storesCanonical cause s, coldReset_foldBounds cause s⟩)
    (fun _ _ hs => hs) ⟨hf, hw, hs⟩).2.2

/-- While a cold reset holds the part no job runs, and its completion, which latches the straps, finds none. -/
theorem step_keeps_jobsStored (s t : State) (hl : ListOrdered s) (hf : FleetsInRange s) (hp : PilotsHeld s) (hs : JobsStored s)
    (h : step s = .next t) : JobsStored t := by
  obtain ⟨-, -, hids, -⟩ := hl
  obtain ⟨hheld, hw⟩ := (jobsStored_iff s).mp hs
  have other {u : State} (e : t.tables = u.tables) (hf : FleetsInRange u) (hp : PilotsHeld u) (hu : JobsStored u) : JobsStored t := by
    refine ⟨fun h => ?_, Change.workStored (.other e) hf hp hu.2⟩
    rw [engine_of_tables e]
    exact hu.1 (held_of_tables e ▸ h)
  cases step_stepped (ids := True) (fun _ => hids) h with
  | idle h => exact other h hf hp hs
  | handled free h =>
    refine ⟨fun held => ?_, ?_⟩
    · rw [h.held, free] at held
      cases held
    · exact (h.keeps (P := fun s => FleetsInRange s ∧ PilotsHeld s ∧ WorkStored s)
        (fun _ _ hc ⟨hf, hp, hw⟩ => ⟨hc.fleetsInRange hf, hc.pilotsHeld hp, hc.workStored hf hp hw⟩)
        (fun _ _ _ _ hs => hs) ⟨hf, hp, hw⟩).2.2
  | cold cause h =>
    exact other h (coldReset_fleetsInRange cause s) (coldReset_pilotsHeld cause s)
      ⟨fun _ => rfl, fun _ hr => (nomatch hr), fun _ hj => (nomatch hj)⟩
  | completed held code h =>
    have none := hheld held
    refine other h hf hp ⟨(nomatch ·), hw.1, fun j hj => ?_⟩
    rw [State.withMode_engine, none] at hj
    cases hj

/-- Settles O60, invariant by invariant: every change keeps each of them, and so does every step. -/
theorem stepKeepsPromises : Obligations.StepKeepsPromises :=
  ⟨step_keeps_pilotsHeld, step_keeps_inWindow, step_keeps_setupEmpty, step_keeps_foldBounds, step_keeps_jobsStored⟩

end Sys2Proof.Machine
end

section
/-! PROOFS. The resets: the reset state, what a cold reset sets and how it completes, what a held part does with its commands, and the
FAULT READ request. -/

namespace Sys2Proof.Machine

/-! ### The reset state -/

/-- The entries of the output routes after a cold reset, by R58's values. -/
theorem coldOutput_eq : OutputEntry.cold =
    { source := .none, form := .pulse, width := 10, polarity := .activeHigh, asserted := false, count := 0 } := rfl

theorem cold_inputs (pins : Vector Bool 4) (i : Fin 4) : (Router.cold pins).inputs[i.val] = InputEntry.cold := by simp [Router.cold]

theorem cold_outputs (pins : Vector Bool 4) (i : Fin 4) : (Router.cold pins).outputs[i.val] = OutputEntry.cold := by simp [Router.cold]

theorem coldFleets_get (f : Fin 4) : coldFleets[f.val] = FleetRecord.cold f := by
  fin_cases f <;> rfl

theorem coldCtx_get (i : Fin 4) : StackStore.cold.ctxs[i.val] = Context.freed 0 := by simp [StackStore.cold]

/-- A fleet record after a cold reset, by R81's values. -/
theorem coldFleet_values {r : FleetRecord} {f : Fin 4} (h : r = FleetRecord.cold f) : r.slot.val = f.val ∧ r.k = 4096 ∧ r.edit = 0 ∧
    r.reject = 128 ∧ r.target = 1 ∧ r.lead = 0 ∧ r.offset = 0 ∧ r.arm = none := by
  subst h
  exact ⟨rfl, rfl, rfl, rfl, rfl, rfl, rfl, rfl⟩

/-- Settles O3, block by block. -/
theorem resetValues : Obligations.ResetValues := by
  have slots (i : Fin 8) : State.reset.slot i = PilotSlot.cold := by simp [State.slot, State.reset]
  have ctxs (i : Fin 4) : State.reset.ctx i = Context.freed 0 := coldCtx_get i
  refine ⟨rfl, fun i => ?_, rfl, cold_inputs _, cold_outputs _, fun f => coldFleet_values (coldFleets_get f), rfl, rfl, fun i => ?_,
    rfl, rfl, rfl, rfl, rfl, rfl, rfl, rfl, rfl, rfl, rfl, rfl⟩
  · rw [slots]
    exact ⟨rfl, rfl, rfl, rfl, rfl⟩
  · rw [ctxs]
    exact ⟨rfl, rfl⟩

/-! ### Cold resets -/

theorem throughReset_eq (q : Reception) : q.throughReset = if q = .idle then .idle else .discarding := by
  cases q <;> simp [Reception.throughReset]

/-- A cold reset holds the part at the values of R23, R39, R57, R58, R81, R82, R101, R139, R154 and R164. -/
theorem coldReset_coldHeld (cause : ResetCause) (s : State) : ColdHeld cause s (coldReset cause s) := by
  refine ⟨?_, coldReset_slot cause s, rfl, cold_inputs _, cold_outputs _, rfl, fun f => coldFleet_values (coldReset_fleet cause s f),
    rfl, rfl, fun i => ?_, rfl, rfl, rfl, rfl, rfl⟩
  · show Ring.cleared _ = _
    rw [throughReset_eq]
    rfl
  · rw [coldReset_ctx]
    exact ⟨rfl, rfl⟩

/-- A placement that does not bring the queue to 48 entries changes the link alone. -/
theorem placeNotice_eq (n : Notice) {s : State} (h : s.link.notices.length ≠ 47) :
    placeNotice n s = s.withLink (joined s n s.link) := by
  have only := placeNotice_only n s
  rw [OnlyLinkLines, placeNotice_link, placeNotice_outputs n s h] at only
  exact only

/-- The completion of a cold reset: the straps latched, and RESTARTED placed as the only entry. -/
theorem completeReset_eq (code : Fin 4) (position : Fin 8) (s : State) :
    completeReset code position s =
      { s with mode := { s.mode with sizeCode := code, position := position, held := false }
               link := joined (completeReset code position s) (.report 0 (.restarted s.mode.cause)) { s.link with notices := [] } } := by
  set latched := (s.withMode { s.mode with sizeCode := code, position := position, held := false }).withLink
    { s.link with notices := [] } with hl
  have placed : completeReset code position s = placeNotice (.report 0 (.restarted s.mode.cause)) latched := rfl
  have only : OnlyLinkLines latched (completeReset code position s) := placed ▸ placeNotice_only _ latched
  have eq : completeReset code position s =
      latched.withLink (joined latched (.report 0 (.restarted s.mode.cause)) { s.link with notices := [] }) := by
    have empty : latched.link.notices.length ≠ 47 := show (0 : Nat) ≠ 47 by decide
    rw [placed, placeNotice_eq _ empty]
    rfl
  rw [only.joined]
  exact eq

theorem cold_transmitHold {s : State} (h : ∀ i : Fin 4, s.router.inputs[i.val].role ≠ .transmitHold) : s.transmitHold = false := by
  simp [State.transmitHold, holdsTransmit, h]

/-- A cold reset with cause POWER and its completion. -/
theorem powerUp_completed (code : Fin 4) (position : Fin 8) (s : State) : let u := completeReset code position (coldReset .power s)
    u.link = { HostLink.cold with tx := some (.notice (.report 0 (.restarted .power))) } ∧
    u.mode = { op := .setup, drain := none, params := Params.cold, sizeCode := code, position := position, cause := .power
               held := false } := by
  intro u
  have eq := completeReset_eq code position (coldReset .power s)
  have link : u.link = joined u (.report 0 (.restarted .power)) HostLink.cold := congrArg State.link eq
  have inputs : u.router.inputs = (Router.cold s.router.pins).inputs := congrArg (fun t => t.router.inputs) eq
  have deasserted : u.transmitHold = false := cold_transmitHold fun i => by
    rw [inputs, cold_inputs]
    decide
  refine ⟨link.trans (if_pos ⟨?_, ?_, deasserted, rfl, rfl⟩), congrArg State.mode eq⟩
  · exact congrArg (fun t => t.mode.held) eq
  · exact congrArg State.checkHit eq

theorem exec_coldResetComplete_held (code : Fin 4) (position : Fin 8) {s : State} (h : s.mode.held = true) :
    exec (.coldResetComplete code position) s = .next (completeReset code position s) := if_pos h

/-- While a cold reset holds the part, an edge moves the line and nothing else. -/
theorem setPin_held (line : Fin 4) (level : Bool) {s : State} (h : s.mode.held = true) :
    setPin line level s = s.withRouter { s.router with pins := s.router.pins.set line.val level } := by
  have busy : ¬ LineFree (s.withRouter { s.router with pins := s.router.pins.set line.val level }) := fun k =>
    absurd (h.symm.trans k.1) (by decide)
  unfold setPin holdChanged
  rw [decideLine_busy busy, ite_self]

/-- A held part takes no handled event. -/
theorem handle_held (g : State → State) {s : State} (h : s.mode.held = true) : handle g s = .next s := if_pos h

/-- Settles O4: the cold reset itself, its completion, and a held part's commands. -/
theorem coldResets : Obligations.ColdResets := by
  refine ⟨⟨fun s => ⟨_, rfl, coldReset_coldHeld .power s⟩, fun s h => ⟨coldReset .pin s, ?_, coldReset_coldHeld .pin s⟩,
    fun s h => if_pos h⟩, fun code position s => ⟨fun h => ?_, ?_⟩, fun s h => ⟨fun _ => handle_held _ h, fun _ => handle_held _ h,
    fun c hc => ?_, fun line level => ?_⟩⟩
  · exact if_neg (by rw [h]; decide)
  · exact ⟨_, exec_coldResetComplete_held code position h, completeReset_eq code position s⟩
  · obtain ⟨link, mode⟩ := powerUp_completed code position s
    refine ⟨_, _, rfl, exec_coldResetComplete_held code position rfl, link, mode, ?_⟩
    rw [State.channels, mode]
    fin_cases code <;> rfl
  · simp only [List.mem_cons, List.not_mem_nil, or_false] at hc
    rcases hc with rfl | rfl | rfl | rfl | rfl | rfl | rfl <;>
      simp only [exec, execSampleTick, execHoldoverDeadline, execScheduleCompare, execTransmissionStart, execTransmissionEnd,
        execCorrelationPassEnd, execJobCompletion, handle_held _ h]
  · have moved := setPin_held line level h
    have held : (setPin line level s).mode.held = true := by rw [moved]; exact h
    rw [moved] at held
    simp only [exec, execPpsEdge, execTimeBreak, execTransmitHold, moved, handle_held _ held, and_self]

/-! ### FAULT READ -/

theorem locBytes_eq (loc : Option (Nat × Nat)) : locBytes loc = match loc with
    | none => List.replicate 9 0
    | some (g, b) => 1 :: (leBytes 2 g ++ leBytes 6 b) := by
  cases loc <;> rfl

/-- Settles O44: the reply is placed over the record cleared. -/
theorem faultReadClears : Obligations.FaultReadClears := by
  intro tag rest s taken clear
  obtain ⟨t, next, only, lines, answered⟩ := reply_change (v := s.withRing { s.ring with fault := none })
    (g := faultRead ⟨0x16, tag, []⟩) .ok (faultBytes s.ring.fault) taken rfl clear rfl rfl rfl
  refine ⟨t, next, only, lines, ?_⟩
  cases hf : s.ring.fault with
  | none => rw [hf] at answered; exact answered
  | some f =>
    rw [hf] at answered
    simp only [faultBytes, locBytes_eq, ← List.cons_append] at answered
    exact answered

end Sys2Proof.Machine
end

section
/-! PROOFS. The spread port: what a frame's bytes come to, what changes no data, and what a written frame does (R4 to R22). -/

namespace Sys2Proof.Machine

/-! ### Pieces and whole frames (R4, R23, R24; log entry 22) -/

theorem exec_blockFrame_held (piece : List Byte) (last : Bool) {s : State} (h : s.mode.held = true) :
    exec (.blockFrame ⟨piece, last⟩) s = .next (dropPiece last s) := if_pos h

/-- A block frame's piece on a part that is not held, by what its handling gives. -/
theorem exec_blockFrame_free {piece : List Byte} {last : Bool} {s t : State} (h : s.mode.held = false)
    (e : receivePiece piece last s = t) (hc : t.checkHit = false) : exec (.blockFrame ⟨piece, last⟩) s = .next t := by
  simp only [exec, execBlockFrame, h, Bool.false_eq_true, if_false]
  exact handle_eq h e hc

theorem receivePiece_discarding (piece : List Byte) (last : Bool) {s : State} (h : s.ring.reception = .discarding) :
    receivePiece piece last s = dropPiece last s := by simp [receivePiece, h]

/-- The last piece has the whole frame judged, the port ready for the next one. -/
theorem receivePiece_whole {piece bytes : List Byte} {s : State} (h : FrameWhole s piece bytes) :
    receivePiece piece true s = judgeBlock bytes (s.withReception .idle) := by
  rcases h with ⟨idle, rfl⟩ | ⟨before, receiving, rfl⟩
  · have same : s.withReception .idle = s := by rw [State.withReception, ← idle]; rfl
    simp [receivePiece, idle, same]
  · simp [receivePiece, receiving]

/-- A whole frame on a part that is not held, by what the port's judgement gives. -/
theorem exec_blockFrame_whole {piece bytes : List Byte} {s t : State} (h : s.mode.held = false) (hw : FrameWhole s piece bytes)
    (e : judgeBlock bytes (s.withReception .idle) = t) (hc : t.checkHit = false) : exec (.blockFrame ⟨piece, true⟩) s = .next t :=
  exec_blockFrame_free h ((receivePiece_whole hw).trans e) hc

theorem blockPieces_kept (piece : List Byte) (last : Bool) (s : State) (hc : s.checkHit = false) :
    (s.mode.held = true ∨ s.ring.reception = .discarding →
      exec (.blockFrame ⟨piece, last⟩) s = .next (s.withReception (if last then .idle else .discarding))) ∧
    (s.mode.held = false → s.ring.reception = .idle →
      exec (.blockFrame ⟨piece, false⟩) s = .next (s.withReception (.receiving piece))) ∧
    (∀ before, s.mode.held = false → s.ring.reception = .receiving before →
      exec (.blockFrame ⟨piece, false⟩) s = .next (s.withReception (.receiving (before ++ piece)))) := by
  refine ⟨fun h => ?_, fun free idle => ?_, fun before free receiving => ?_⟩
  · cases held : s.mode.held
    · have discarding := h.resolve_left (by rw [held]; decide)
      exact exec_blockFrame_free held (receivePiece_discarding piece last discarding) hc
    · exact exec_blockFrame_held piece last held
  · exact exec_blockFrame_free free (by simp [receivePiece, idle]) hc
  · exact exec_blockFrame_free free (by simp [receivePiece, receiving]) hc

/-! ### Faults (R4 to R6, R16, R20) -/

/-- A checked frame of a group outside the slice comes to nothing (R7). -/
theorem judgeBlock_foreign {bytes : List Byte} (hl : bytes.length = 6154) (hc : checkOf bytes = 0) {s : State}
    (h : ¬ (s.firstGroup ≤ leNat (bytes.take 2) ∧ leNat (bytes.take 2) < s.firstGroup + s.groups)) : judgeBlock bytes s = s := by
  have outside : s.sliceGroup (frameLoc bytes).1 = none := if_neg h
  unfold judgeBlock
  rw [if_neg (show ¬ bytes.length ≠ Config.blockFrameBytes from not_not.mpr hl), if_neg (not_not.mpr hc), outside]

/-- A checked frame of the slice is placed against the head. -/
theorem judgeBlock_placed {bytes : List Byte} (hl : bytes.length = 6154) (hc : checkOf bytes = 0) {s : State}
    (h1 : s.firstGroup ≤ leNat (bytes.take 2)) (h2 : leNat (bytes.take 2) < s.firstGroup + s.groups) :
    judgeBlock bytes s = placeBlock (leNat (bytes.take 2) - s.firstGroup) (leNat (bytes.take 2)) (leNat ((bytes.drop 2).take 6))
      (samples24 ((bytes.drop 8).take 6144)) s := by
  have inside : s.sliceGroup (frameLoc bytes).1 = some (leNat (bytes.take 2) - s.firstGroup) := if_pos ⟨h1, h2⟩
  unfold judgeBlock
  rw [if_neg (show ¬ bytes.length ≠ Config.blockFrameBytes from not_not.mpr hl), if_neg (not_not.mpr hc), inside]
  rfl

theorem judgeBlock_length {bytes : List Byte} (h : bytes.length ≠ 6154) (s : State) :
    judgeBlock bytes s = spreadFault .length
      (if 8 ≤ bytes.length then some (leNat (bytes.take 2), leNat ((bytes.drop 2).take 6)) else none) s := if_pos h

theorem judgeBlock_check {bytes : List Byte} (hl : bytes.length = 6154) (hc : checkOf bytes ≠ 0) (s : State) :
    judgeBlock bytes s = spreadFault .check (some (leNat (bytes.take 2), leNat ((bytes.drop 2).take 6))) s := by
  unfold judgeBlock
  rw [if_neg (show ¬ bytes.length ≠ Config.blockFrameBytes from not_not.mpr hl), if_pos hc]
  rfl

theorem placeBlock_jump {b : Nat} {s : State} (h : 2 ^ 43 - 1 < b ∨ ∃ h, s.ring.head = some h ∧ h + 2048 < b) (g group : Nat)
    (xs : List RingSample) : placeBlock g group b xs s = spreadFault .jump (some (group, b)) s := by
  unfold placeBlock
  by_cases hb : Config.maxBlock < b
  · exact if_pos hb
  · obtain ⟨h, head, ahead⟩ := h.resolve_left hb
    rw [if_neg hb, head]
    exact if_pos ahead

theorem judgeBlock_jump {bytes : List Byte} (hl : bytes.length = 6154) (hc : checkOf bytes = 0) {s : State}
    (h1 : s.firstGroup ≤ leNat (bytes.take 2)) (h2 : leNat (bytes.take 2) < s.firstGroup + s.groups)
    (jump : 2 ^ 43 - 1 < leNat ((bytes.drop 2).take 6) ∨ ∃ h, s.ring.head = some h ∧ h + 2048 < leNat ((bytes.drop 2).take 6)) :
    judgeBlock bytes s = spreadFault .jump (some (leNat (bytes.take 2), leNat ((bytes.drop 2).take 6))) s := by
  rw [judgeBlock_placed hl hc h1 h2, placeBlock_jump jump]

/-- A first fault is captured and reported (R20). -/
theorem spreadFault_first {s : State} (h : s.ring.fault = none) (kind : FaultKind) (loc : Option (Nat × Nat)) :
    spreadFault kind loc s = offerReport (.spreadFault kind loc)
      (s.withRing { s.ring with fault := some { kind := kind, loc := loc, later := 0 } }) := by simp [spreadFault, h]

/-- A later fault is counted (R20). -/
theorem spreadFault_later {s : State} {fr : FaultRecord} (h : s.ring.fault = some fr) (kind : FaultKind) (loc : Option (Nat × Nat)) :
    spreadFault kind loc s = s.withRing { s.ring with fault := some { fr with later := min 65535 (fr.later + 1) } } := by
  simp [spreadFault, h]

theorem spreadFault_checkHit (kind : FaultKind) (loc : Option (Nat × Nat)) (s : State) :
    (spreadFault kind loc s).checkHit = s.checkHit := by
  unfold spreadFault
  split
  · exact (offerReport_only _ _).checkHit
  · rfl

theorem blockFault_recorded (piece bytes : List Byte) (kind : FaultKind) (loc : Option (Nat × Nat)) (s : State)
    (free : s.mode.held = false) (clear : s.checkHit = false) (whole : FrameWhole s piece bytes)
    (fault : judgeBlock bytes (s.withReception .idle) = spreadFault kind loc (s.withReception .idle)) :
    let became (f : FaultRecord) : State := s.withRing { s.ring with fault := some f, reception := .idle }
    ∃ t, exec (.blockFrame ⟨piece, true⟩) s = .next t ∧
      (s.ring.fault = none → Offered (.spreadFault kind loc) (became { kind := kind, loc := loc, later := 0 }) t) ∧
      (∀ fr, s.ring.fault = some fr → t = became { fr with later := min 65535 (fr.later + 1) }) := by
  refine ⟨_, exec_blockFrame_whole free whole fault ?_, fun first => ?_, fun fr later => ?_⟩
  · rw [spreadFault_checkHit]; exact clear
  · rw [spreadFault_first (s := s.withReception .idle) first]
    exact offerReport_offered _ _
  · exact spreadFault_later (s := s.withReception .idle) later kind loc

/-! ### Frames that change no data (R7, R13, R15, R22) -/

section unchanged

variable {piece bytes : List Byte} {s : State} (free : s.mode.held = false) (clear : s.checkHit = false)
  (whole : FrameWhole s piece bytes) (hl : bytes.length = 6154) (hc : checkOf bytes = 0)
include free clear whole hl hc

theorem exec_blockFrame_foreign
    (foreign : ¬ (s.firstGroup ≤ leNat (bytes.take 2) ∧ leNat (bytes.take 2) < s.firstGroup + s.groups)) :
    exec (.blockFrame ⟨piece, true⟩) s = .next (s.withReception .idle) :=
  exec_blockFrame_whole free whole (judgeBlock_foreign (s := s.withReception .idle) hl hc foreign) clear

variable (h1 : s.firstGroup ≤ leNat (bytes.take 2)) (h2 : leNat (bytes.take 2) < s.firstGroup + s.groups)
  (hb : leNat ((bytes.drop 2).take 6) ≤ 2 ^ 43 - 1)
include h1 h2 hb

theorem exec_blockFrame_duplicate
    (valid : BlockValid s (leNat (bytes.take 2) - s.firstGroup) (leNat ((bytes.drop 2).take 6))) :
    exec (.blockFrame ⟨piece, true⟩) s =
      .next (s.withRing { s.ring with duplicates := s.ring.duplicates + 1, reception := .idle }) := by
  obtain ⟨h, head, low, high, flag⟩ := valid
  refine exec_blockFrame_whole free whole ?_ clear
  rw [judgeBlock_placed (s := s.withReception .idle) hl hc h1 h2, placeBlock_some (s := s.withReception .idle) hb head (by omega),
    if_neg (by omega), if_neg (by omega)]
  exact if_pos flag

theorem exec_blockFrame_tooOld {h : Nat} (head : s.ring.head = some h) (old : leNat ((bytes.drop 2).take 6) < h - 2047) :
    exec (.blockFrame ⟨piece, true⟩) s =
      .next (s.withRing { s.ring with tooOld := s.ring.tooOld + 1, reception := .idle }) := by
  refine exec_blockFrame_whole free whole ?_ clear
  rw [judgeBlock_placed (s := s.withReception .idle) hl hc h1 h2,
    placeBlock_some (s := s.withReception .idle) hb head (by omega), if_neg (by omega)]
  exact if_pos old

end unchanged

/-- Settles O45: the pieces, the three kinds of fault, and the frames that change no data. -/
theorem blockNotStored : Obligations.BlockNotStored := by
  refine ⟨blockPieces_kept, ?_, ?_⟩
  · intro piece bytes kind loc s free clear whole g b became cases
    refine blockFault_recorded piece bytes kind loc s free clear whole ?_
    rcases cases with ⟨rfl, hl, rfl⟩ | ⟨rfl, hl, hc, rfl⟩ | ⟨rfl, hl, hc, rfl, h1, h2, jump⟩
    · exact judgeBlock_length hl _
    · exact judgeBlock_check hl hc _
    · exact judgeBlock_jump (s := s.withReception .idle) hl hc h1 h2 jump
  · intro piece bytes s free clear whole hl hc g b
    refine ⟨fun foreign => ?_, fun h1 h2 hb valid => ?_, fun h h1 h2 hb head old => ?_⟩
    · exact exec_blockFrame_foreign free clear whole hl hc foreign
    · exact exec_blockFrame_duplicate free clear whole hl hc h1 h2 hb valid
    · exact exec_blockFrame_tooOld free clear whole hl hc h1 h2 hb head old

/-! ### The samples of a frame (R8, R177) -/

theorem samples24_length (n : Nat) : ∀ bs : List Byte, bs.length = 3 * n → (samples24 bs).length = n := by
  induction n with
  | zero => intro bs h; rw [List.eq_nil_of_length_eq_zero h]; rfl
  | succ n ih =>
    intro bs h
    match bs, h with
    | a :: b :: c :: bs, h => exact congrArg (· + 1) (ih bs (by simp only [List.length_cons] at h; omega))

theorem samples24_getD (bs : List Byte) (k : Nat) (h : 3 * k + 2 < bs.length) : (samples24 bs).getD k 0 =
    BitVec.ofNat 24 ((bs.getD (3 * k) 0).toNat + 256 * (bs.getD (3 * k + 1) 0).toNat + 65536 * (bs.getD (3 * k + 2) 0).toNat) := by
  induction k generalizing bs with
  | zero =>
    match bs, h with
    | a :: b :: c :: bs, _ => rfl
  | succ k ih =>
    match bs, h with
    | a :: b :: c :: bs, h => exact ih bs (by simp only [List.length_cons] at h; omega)

theorem toInt_ofNat24 {n : Nat} (h : n < 2 ^ 24) :
    (BitVec.ofNat 24 n).toInt = if n < 2 ^ 23 then (n : Int) else (n : Int) - 2 ^ 24 := by
  rw [BitVec.toInt_eq_toNat_cond, BitVec.toNat_ofNat, Nat.mod_eq_of_lt h]
  split <;> split <;> omega

/-- The samples of a frame stand lane by lane (R8, R177). -/
theorem samples24_read {bytes : List Byte} (hl : bytes.length = 6154) : SamplesRead bytes (samples24 ((bytes.drop 8).take 6144)) := by
  have length : ((bytes.drop 8).take 6144).length = 6144 := by simp [hl]
  refine ⟨samples24_length 2048 _ length, fun l hlane i hi => ?_⟩
  have byte (k : Nat) (hk : k < 3) : ((bytes.drop 8).take 6144).getD (96 * l + 3 * i + k) 0 =
      bytes.getD (8 + 96 * l + 3 * i + k) 0 := by
    have inside : 96 * l + 3 * i + k < 6144 := by omega
    have shift : 8 + (96 * l + 3 * i + k) = 8 + 96 * l + 3 * i + k := by omega
    simp [List.getD_eq_getElem?_getD, inside, shift]
  have first := byte 0 (by omega)
  rw [Nat.add_zero] at first
  have place : 3 * (32 * l + i) = 96 * l + 3 * i := by ring
  have below (k : Nat) : (bytes.getD (8 + 96 * l + 3 * i + k) 0).toNat < 256 := BitVec.isLt _
  rw [samples24_getD _ _ (by omega), place, first, byte 1 (by omega), byte 2 (by omega), toInt_ofNat24]
  have h0 := below 0
  have h1 := below 1
  have h2 := below 2
  omega

/-! ### A written frame (R18, R84, R160) -/

/-- What follows a written frame: the arrival notice, the drain test and the look of the engine's arbiter, which leave the ring. -/
theorem frameWritten_links {s : State} (hc : Clean s) (hid : IdsDistinct s) : ∃ v w, AllTested s v ∧ DrainTested v w ∧
    EngineLooks w (frameWritten s) ∧ (frameWritten s).ring = s.ring ∧ (frameWritten s).checkHit = false := by
  obtain ⟨notified, ids⟩ := arrival_spec hc
  have cleanV := notified.clean hc
  obtain ⟨cleanW, sweeps, -, -, -, ring, -⟩ := drainTest_quiet cleanV
  have looked := (arbitrate_spec cleanW).1
  have hidV : IdsDistinct (arrivalNotice s) := ids_pairwise hid ids
  have hidW : IdsDistinct (drainTest (arrivalNotice s)) := by rw [IdsDistinct, State.listed, sweeps]; exact hidV
  exact ⟨_, _, arrivalNotice_tested hc, drainTest_tested cleanV, arbitrate_looks cleanW hidW,
    (looked.ring.trans ring).trans notified.ring, (looked.clean cleanW).1⟩

/-- Settles O46: a late fill is written, and what follows a written frame is done. -/
theorem blockFillsLate : Obligations.BlockFillsLate := by
  intro piece bytes h s free clean ordered whole hl hc g b key h1 h2 hb head low high invalid stored
  set xs := samples24 ((bytes.drop 8).take 6144)
  have flag : ¬ sparseGet false s.ring.valid key = true := fun k => invalid ⟨h, head, low, high, k⟩
  have judged : judgeBlock bytes (s.withReception .idle) = frameWritten (stored xs) := by
    rw [judgeBlock_placed (s := s.withReception .idle) hl hc h1 (show _ < s.firstGroup + s.groups by omega),
      placeBlock_some (s := s.withReception .idle) hb head (by omega), if_neg (by omega), if_neg (by omega)]
    exact if_neg flag
  obtain ⟨v, w, tested, drained, looks, -, unmarked⟩ := frameWritten_links (s := stored xs) clean ordered.2.2.1
  exact ⟨_, xs, v, w, exec_blockFrame_whole free whole judged unmarked, samples24_read hl, tested, drained, looks⟩

end Sys2Proof.Machine
end

section
/-! PROOFS. A frame that advances the head: the drops leave the ring, so its write can be read before them (R11, R12, R17, R79). -/

namespace Sys2Proof.Machine

/-! ### What neither reads nor writes the ring -/

/-- An operation that neither reads nor writes the ring: it gives the same on every ring. -/
def RingFree (f : State → State) : Prop := ∀ s q, f (s.withRing q) = (f s).withRing q

theorem mapOutputs_ringFree (g : OutputEntry → OutputEntry) : RingFree (State.mapOutputs g) := fun _ _ => rfl

theorem RingFree.comp {f g : State → State} (hf : RingFree f) (hg : RingFree g) : RingFree fun s => f (g s) :=
  fun s q => (congrArg f (hg s q)).trans (hf (g s) q)

theorem RingFree.ite {f g : State → State} (hf : RingFree f) (hg : RingFree g) {p : State → Prop} [DecidablePred p]
    (hp : ∀ s q, p (s.withRing q) ↔ p s) : RingFree fun s => if p s then f s else g s := fun s q => by
  by_cases h : p s
  · simp only [if_pos h, if_pos ((hp s q).mpr h), hf s q]
  · simp only [if_neg h, if_neg (mt (hp s q).mp h), hg s q]

theorem placeNotice_ringFree (n : Notice) : RingFree (placeNotice n) := by
  refine RingFree.ite (p := fun s => s.lineFree = true ∧ s.link.notices = []) (fun _ _ => rfl) ?_ fun _ _ => Iff.rfl
  exact RingFree.ite (p := fun s => s.link.notices.length + 1 = Config.noticeHigh) (fun _ _ => rfl) (fun _ _ => rfl) fun _ _ => Iff.rfl

theorem departNotice_ringFree : RingFree departNotice :=
  RingFree.ite (p := fun s => s.link.notices.length = Config.noticeHigh) (fun _ _ => rfl) (fun _ _ => rfl) fun _ _ => Iff.rfl

theorem admitReport_ringFree (r : Report) : RingFree (admitReport r) :=
  (placeNotice_ringFree _).ite (p := fun s => s.link.notices.length < Config.reportLimit) (g := loseReport) (fun _ _ => rfl)
    fun _ _ => Iff.rfl

theorem offerReport_ringFree (r : Report) : RingFree (offerReport r) := by
  refine RingFree.ite (p := fun s => s.enabled (reportIndex r) = false) (fun _ _ => rfl) ?_ fun _ _ => Iff.rfl
  refine RingFree.ite (p := fun s => Config.reportLimit ≤ s.link.notices.length) (f := loseReport) (fun _ _ => rfl) ?_
    fun _ _ => Iff.rfl
  refine RingFree.ite (p := fun s => s.link.lost = 0) (placeNotice_ringFree _) ?_ fun _ _ => Iff.rfl
  refine RingFree.comp (f := fun t => admitReport r (t.withLink { t.link with lost := 0 })) ?_ fun s q => placeNotice_ringFree _ s q
  exact fun t q => admitReport_ringFree r (t.withLink _) q

theorem prepareTrace_ringFree (cu : Cursor) : RingFree (prepareTrace cu) :=
  RingFree.ite (p := fun s => cu.next < s.channels) (fun _ _ => rfl) (fun _ _ => rfl) fun _ _ => Iff.rfl

theorem startMessage_ringFree : RingFree startMessage := by
  intro s q
  unfold startMessage
  rw [State.withRing_link, State.withRing_emitter]
  cases s.link.notices with
  | cons n l => simp only [departNotice_ringFree s q]; rfl
  | nil =>
    cases s.emitter.cursor with
    | none => rfl
    | some cu =>
      cases hw : cu.waiting with
      | none => simp only [hw]
      | some t => simp only [hw]; exact prepareTrace_ringFree _ (s.withLink _) q

theorem decideLine_ringFree : RingFree decideLine :=
  startMessage_ringFree.ite (p := fun s => s.lineFree = true) (fun _ _ => rfl) fun _ _ => Iff.rfl

theorem emitterBegin_ringFree : RingFree emitterBegin := by
  intro s q
  unfold emitterBegin
  rw [State.withRing_emitter]
  cases s.emitter.closing with
  | nil => rfl
  | cons i l =>
    exact RingFree.ite (p := fun s => (s.ctx i).checkBad = true) (f := markHit true) (fun _ _ => rfl)
      (decideLine_ringFree.comp (prepareTrace_ringFree _)) (fun _ _ => Iff.rfl) s q

theorem closeCtx_ringFree (i : Fin 4) : RingFree (closeCtx i) := by
  refine RingFree.ite (p := fun s => 0 < (s.ctx i).folded) ?_ ?_ fun _ _ => Iff.rfl
  · refine RingFree.ite (p := fun s => s.emitter.closing = [] ∧ s.emitter.cursor = none) ?_ (fun _ _ => rfl) fun _ _ => Iff.rfl
    exact fun s q => emitterBegin_ringFree (State.withEmitter (s.withCtx i _) _) q
  · refine RingFree.comp (f := freeCtx i) (fun _ _ => rfl) ?_
    exact RingFree.comp (f := raiseEvent .vpDone) (mapOutputs_ringFree _) fun s q => offerReport_ringFree _ s q

theorem applyClose_ringFree (i : Fin 4) : RingFree (applyClose i) :=
  (closeCtx_ringFree i).ite (p := fun s => closeHolds (s.ctx i) = true) (fun _ _ => rfl) fun _ _ => Iff.rfl

theorem dropPre_ringFree (cause : DropCause) (r : SweepRecord) : RingFree fun s => dropPre cause s r := by
  have marked : RingFree fun s => markHit (r.checkBad || (s.ctx r.ctx).checkBad) s :=
    RingFree.ite (p := fun s => (r.checkBad || (s.ctx r.ctx).checkBad) = true) (fun _ _ => rfl) (fun _ _ => rfl) fun _ _ => Iff.rfl
  have abandoned : RingFree fun s => if r.state = .correlating then abandonJob s else s :=
    RingFree.ite (p := fun _ => r.state = .correlating) (fun _ _ => rfl) (fun _ _ => rfl) fun _ _ => Iff.rfl
  have counted : RingFree fun s => s.withCtx r.ctx
      { s.ctx r.ctx with attached := (s.ctx r.ctx).attached - 1, dropped := (s.ctx r.ctx).dropped + 1 } := fun _ _ => rfl
  have unlisted : RingFree (unlist r.id) := fun _ _ => rfl
  have noted : RingFree fun s => if cause = .late then raiseEvent .ringLate s else s :=
    RingFree.ite (p := fun _ => cause = .late) (mapOutputs_ringFree _) (fun _ _ => rfl) fun _ _ => Iff.rfl
  have raised : RingFree (raiseEvent .sweepDropped) := mapOutputs_ringFree _
  exact noted.comp (raised.comp ((offerReport_ringFree _).comp (counted.comp (unlisted.comp (abandoned.comp marked)))))

theorem dropSweep_ringFree (cause : DropCause) (close : Bool) (r : SweepRecord) : RingFree fun s => dropSweep cause close s r :=
  RingFree.ite (p := fun _ => close = true) ((applyClose_ringFree r.ctx).comp (dropPre_ringFree cause r)) (dropPre_ringFree cause r)
    fun _ _ => Iff.rfl

theorem evictionNotice_ringFree (oldest : Nat) : RingFree (evictionNotice oldest) := by
  have drops (l : List SweepRecord) : RingFree fun s => l.foldl (dropSweep .late true) s := by
    induction l with
    | nil => exact fun _ _ => rfl
    | cons r l ih => exact ih.comp (dropSweep_ringFree .late true r)
  have marked : RingFree fun s => markHit s.listBad s :=
    RingFree.ite (p := fun s => s.listBad = true) (fun _ _ => rfl) (fun _ _ => rfl) fun _ _ => Iff.rfl
  refine RingFree.comp (f := dropWhere (fun r => decide (r.first < oldest)) .late true) (fun s q => ?_) marked
  exact drops (s.listed.filter _) s q

/-! ### The drops of an eviction notice (R17, R79) -/

theorem evictionNotice_clean (oldest : Nat) {s : State} (hc : Clean s) : evictionNotice oldest s =
    (s.listed.filter fun r => decide (r.first < oldest)).foldl (dropSweep .late true) s := by
  unfold evictionNotice
  rw [hc.2.1]
  rfl

/-- With no sweep below the window, an eviction notice does nothing. -/
theorem evictionNotice_none {oldest : Nat} {s : State} (hc : Clean s) (window : ∀ r ∈ s.listed, oldest ≤ r.first) :
    evictionNotice oldest s = s := by
  have nothing : (s.listed.filter fun r => decide (r.first < oldest)) = [] :=
    List.filter_eq_nil_iff.mpr fun r hr below => Nat.not_lt.mpr (window r hr) (of_decide_eq_true below)
  rw [evictionNotice_clean oldest hc, nothing]
  rfl

/-- What an advance of the head does with its frame written: the drops LATE, and what follows a written frame. -/
theorem evicted_links (oldest : Nat) {s : State} (hc : Clean s) (ordered : ListOrdered s) : ∃ u v w,
    Chain (Dropped .late true) (s.listed.filter fun r => r.first < oldest) s u ∧ AllTested u v ∧ DrainTested v w ∧
    EngineLooks w (frameWritten (evictionNotice oldest s)) ∧ (frameWritten (evictionNotice oldest s)).ring = s.ring ∧
    (frameWritten (evictionNotice oldest s)).checkHit = false := by
  obtain ⟨quiet, listed⟩ := evict_spec hc ordered oldest
  have ids : IdsDistinct (evictionNotice oldest s) := by
    rw [IdsDistinct, listed]
    exact ordered.2.2.1.sublist List.filter_sublist
  have chain := drops_chain .late true (s.listed.filter fun r => decide (r.first < oldest)) hc
    (ordered.2.2.1.sublist List.filter_sublist) fun r hr => List.mem_of_mem_filter hr
  rw [← evictionNotice_clean oldest hc] at chain
  obtain ⟨v, w, tested, drained, looks, ring, unmarked⟩ := frameWritten_links (quiet.clean hc) ids
  exact ⟨_, v, w, chain, tested, drained, looks, ring.trans quiet.ring, unmarked⟩

/-! ### The ring with the head moved and the frame written (R8, R11, R12) -/

/-- The ring with its head on block `b` and the frame of group `g` written behind the flags `flags`; the port is ready. -/
def Ring.headed (g b : Nat) (xs : List RingSample) (flags : Sparse Bool) (r : Ring) : Ring :=
  { r with
    head := some b
    valid := sparseSet false (g * 2048 + b % 2048) true flags
    samples := sparseSet [] (g * 2048 + b % 2048) xs r.samples
    accepted := r.accepted + 1
    reception := .idle }

/-- The flags left by the move of the head to block `b` are those of the old window's blocks in the new one. -/
def FlagsKept (s : State) (b : Nat) (flags : Sparse Bool) : Prop :=
  (flags.Pairwise fun x y => x.1 < y.1) ∧
    ∀ g < s.groups, ∀ b', b - 2047 ≤ b' → b' ≤ b → (sparseGet false flags (g * 2048 + b' % 2048) = true ↔ BlockValid s g b')

/-- Without a head no block is valid, and no flag is set (R9, R11). -/
theorem flagsKept_first {s : State} (head : s.ring.head = none) (b : Nat) : FlagsKept s b [] := by
  refine ⟨.nil, fun g _ b' _ _ => ⟨(nomatch ·), fun valid => ?_⟩⟩
  obtain ⟨h, defined, -⟩ := valid
  rw [head] at defined
  cases defined

/-- An advance clears the flags of the blocks above the old head, and no other (R12). -/
theorem flagsKept_advance {s : State} {h b : Nat} (head : s.ring.head = some h) (h1 : h < b) (h2 : b ≤ h + 2048)
    (ordered : s.ring.valid.Pairwise fun x y => x.1 < y.1) : FlagsKept s b (sparseClear (slotAdvanced h b) s.ring.valid) := by
  refine ⟨ordered.filter _, fun g _ b' low high => ?_⟩
  rw [sparseGet_clear]
  by_cases new : h < b'
  · rw [if_pos ((slot_window h1 h2 low high).mpr new)]
    refine ⟨(nomatch ·), fun valid => ?_⟩
    obtain ⟨h', head', -, below, -⟩ := valid
    rw [head] at head'
    cases head'
    omega
  · rw [if_neg (mt (slot_window h1 h2 low high).mp new)]
    have inOld : h - 2047 ≤ b' ∧ b' ≤ h := by omega
    refine ⟨fun set => ⟨h, head, inOld.1, inOld.2, set⟩, fun valid => ?_⟩
    obtain ⟨-, -, -, -, set⟩ := valid
    exact set

/-- Within a window the keys of two slots are the same where group and block are. -/
theorem slotKey_window {g g' b b' : Nat} (low : b - 2047 ≤ b') (high : b' ≤ b) :
    g' * 2048 + b' % 2048 = g * 2048 + b % 2048 ↔ g' = g ∧ b' = b := by
  obtain ⟨d, rfl⟩ : ∃ d, b = b' + d := ⟨b - b', by omega⟩
  omega

/-- The flags behind the write: the frame's own, and those kept (R8, R12). -/
theorem headed_valid {s t : State} {g b : Nat} {xs : List RingSample} {flags : Sparse Bool} (kept : FlagsKept s b flags)
    (ring : t.ring = s.ring.headed g b xs flags) {g' b' : Nat} (hg : g' < s.groups) (low : b - 2047 ≤ b') (high : b' ≤ b) :
    BlockValid t g' b' ↔ (g' = g ∧ b' = b) ∨ BlockValid s g' b' := by
  have flag : BlockValid t g' b' ↔
      sparseGet false (sparseSet false (g * 2048 + b % 2048) true flags) (g' * 2048 + b' % 2048) = true := by
    unfold BlockValid
    rw [ring]
    exact ⟨fun ⟨_, _, _, _, set⟩ => set, fun set => ⟨b, rfl, low, high, set⟩⟩
  rw [flag]
  by_cases own : g' = g ∧ b' = b
  · rw [own.1, own.2, sparseGet_set_same _ _ _ _ kept.1]
    simp
  · rw [sparseGet_set_other _ _ (mt (slotKey_window low high).mp own), kept.2 g' hg b' low high]
    simp [own]

/-! ### Where the head moves (R10 to R12) -/

/-- A first frame: the eviction notice is given for blocks from 2,048 upward, and below there is nothing to evict (R11). -/
theorem placeBlock_first {s : State} (hc : Clean s) (head : s.ring.head = none) (empty : s.ring.valid = []) {b : Nat}
    (hb : b ≤ 2 ^ 43 - 1) (g group : Nat) (xs : List RingSample) : placeBlock g group b xs (s.withReception .idle) =
      frameWritten (evictionNotice (b - 2047) (s.withRing (s.ring.headed g b xs []))) := by
  have placed : placeBlock g group b xs (s.withReception .idle) = firstFrame g b xs (s.withReception .idle) := by
    unfold placeBlock
    rw [if_neg (show ¬ Config.maxBlock < b from Nat.not_lt.mpr hb)]
    split
    · rfl
    · next h defined => exact absurd (head.symm.trans defined) (by simp)
  have written : writeBlock g b xs ((s.withReception .idle).withRing { (s.withReception .idle).ring with head := some b }) =
      s.withRing (s.ring.headed g b xs []) := by
    rw [← empty]
    rfl
  rw [placed, firstFrame, written]
  refine congrArg frameWritten ?_
  by_cases old : Config.ringBlocks ≤ b
  · exact if_pos old
  · have below : b < 2048 := Nat.lt_of_not_le old
    rw [evictionNotice_none (oldest := b - 2047) (s := s.withRing (s.ring.headed g b xs [])) hc fun r _ => by omega]
    exact if_neg old

/-- An advance: the eviction notice is given where the oldest block moves, and otherwise there is nothing to evict; the frame's write,
which comes behind the drops, can be read before them (R12, R17). -/
theorem placeBlock_advance {s : State} (hc : Clean s) {h : Nat} (head : s.ring.head = some h) {b : Nat} (hb : b ≤ 2 ^ 43 - 1)
    (h1 : h < b) (h2 : b ≤ h + 2048) (g group : Nat) (xs : List RingSample) :
    placeBlock g group b xs (s.withReception .idle) = frameWritten (evictionNotice (b - 2047)
      (s.withRing (s.ring.headed g b xs (sparseClear (slotAdvanced h b) s.ring.valid)))) := by
  have placed : placeBlock g group b xs (s.withReception .idle) = advanceFrame h g b xs (s.withReception .idle) := by
    rw [placeBlock_some (s := s.withReception .idle) hb head h2]
    exact if_pos h1
  rw [placed, advanceFrame]
  refine congrArg frameWritten ?_
  set moved := advanceHead h b (s.withReception .idle)
  set q := s.ring.headed g b xs (sparseClear (slotAdvanced h b) s.ring.valid)
  have onRing : s.withRing q = moved.withRing q := rfl
  have evicted : evictionNotice (b - 2047) (s.withRing q) = writeBlock g b xs (evictionNotice (b - 2047) moved) := by
    have ring : (evictionNotice (b - 2047) moved).ring = moved.ring := by
      have back := congrArg State.ring (evictionNotice_ringFree (b - 2047) moved moved.ring)
      exact back
    rw [onRing, evictionNotice_ringFree, writeBlock, ring]
    rfl
  by_cases moves : oldestBlock h ≠ oldestBlock b
  · rw [evicted]
    simp only [if_pos moves]
    rfl
  · have same : h - 2047 = b - 2047 := not_not.mp moves
    rw [evictionNotice_none (oldest := b - 2047) (s := s.withRing q) hc fun r _ => by omega]
    simp only [if_neg moves]
    rfl

/-- Settles O47: the first frame and the advance leave the same ring but for the flags kept, and the rest follows the written frame. -/
theorem blockAdvances : Obligations.BlockAdvances := by
  intro piece bytes s free clean ordered whole hl hc g b h1 h2 hb validKeys sampleKeys heads window
  set xs := samples24 ((bytes.drop 8).take 6144)
  have judged : ∃ flags, FlagsKept s b flags ∧ judgeBlock bytes (s.withReception .idle) =
      frameWritten (evictionNotice (b - 2047) (s.withRing (s.ring.headed g b xs flags))) := by
    have inside : leNat (bytes.take 2) < s.firstGroup + s.groups := by omega
    rw [judgeBlock_placed (s := s.withReception .idle) hl hc h1 inside]
    rcases heads with ⟨head, empty⟩ | ⟨h, head, above, near⟩
    · exact ⟨[], flagsKept_first head b, placeBlock_first clean head empty hb g _ xs⟩
    · exact ⟨_, flagsKept_advance head above near validKeys, placeBlock_advance clean head hb above near g _ xs⟩
  obtain ⟨flags, kept, judged⟩ := judged
  obtain ⟨u, v, w, drops, tested, drained, looks, ring, unmarked⟩ :=
    evicted_links (b - 2047) (s := s.withRing (s.ring.headed g b xs flags)) clean ordered
  refine ⟨_, u, v, w, exec_blockFrame_whole free whole judged unmarked, ?_⟩
  rw [ring]
  have samples : sparseGet [] (sparseSet [] (g * 2048 + b % 2048) xs s.ring.samples) (g * 2048 + b % 2048) = xs :=
    sparseGet_set_same _ _ _ _ sampleKeys
  refine ⟨rfl, rfl, rfl, rfl, rfl, rfl, fun g' hg b' low high => headed_valid kept ring hg low high, ?_, fun key other => ?_,
    drops, tested, drained, looks⟩
  · exact (congrArg (SamplesRead bytes) samples).mpr (samples24_read hl)
  · exact sparseGet_set_other _ _ other _

end Sys2Proof.Machine
end

section
/-! PROOFS. Warm restarts: what one leaves, what it reads of the state before it, and that behind a found check error the rest of a
handling changes none of that (R155, R169). -/

namespace Sys2Proof.Machine

/-! ### What a warm restart reads (R169) -/

/-- What a warm restart leaves of the state, but for the message in transmission, RESTARTED, and the outputs that follow HOLDOVER. -/
def State.carried (s : State) : State :=
  { s with
    ring := Ring.cleared s.ring.reception.throughReset
    router := { s.router with outputs := mapFour (fun e => { e with asserted := false, count := 0 }) s.router.outputs }
    fleets := mapFour (fun r => { r with arm := none }) s.fleets
    sweeps := SweepList.cleared
    engine := Engine.idle
    stack := { ctxs := mapFour (fun c => Context.freed c.gen) s.stack.ctxs, openOrder := [] }
    emitter := Emitter.idle
    link := HostLink.cold
    mode := { s.mode with op := .setup, drain := none, cause := .power }
    checkHit := false }

/-- The part restarted from what is carried, with the message that was in transmission, before RESTARTED is placed. -/
def restartBase (cause : ResetCause) (tx : Option TxMessage) (u : State) : State :=
  let t := { u with link := { HostLink.cold with tx := tx }, mode := { u.mode with cause := cause } }
  t.mapOutputs (outputRestart t)

theorem warmRestart_eq (cause : ResetCause) (tag : Byte) (s : State) :
    warmRestart cause tag s = placeNotice (.report tag (.restarted cause)) (restartBase cause s.link.tx s.carried) := rfl

/-- A warm restart reads no more than what is carried and the message in transmission. -/
theorem warmRestart_congr (cause : ResetCause) (tag : Byte) {s t : State} (carried : t.carried = s.carried)
    (tx : t.link.tx = s.link.tx) : warmRestart cause tag t = warmRestart cause tag s := by
  rw [warmRestart_eq, warmRestart_eq, carried, tx]

/-! ### What a warm restart leaves (R155, R169) -/

/-- A level source on the restarted part: only HOLDOVER can be true there (R58). -/
theorem restarted_sourceLevel {s : State} (op : s.mode.op = .setup) (empty : s.link.notices = []) (src : Source) :
    (isLevelSource src && s.sourceLevel src) = decide (src = .holdover ∧ s.time.lock = .holdover) := by
  cases src with
  | holdover => simp [isLevelSource, State.sourceLevel, State.holdoverLevel]
  | noticeHigh => simp [State.sourceLevel, State.noticeHighLevel, empty, Config.noticeHigh]
  | acquire => simp [State.sourceLevel, State.acquireLevel, op]
  | none | ringLate | startPulse | sweepFolded | sweepDropped | vpDone => simp [isLevelSource]

theorem outputRestart_eq {s : State} (op : s.mode.op = .setup) (empty : s.link.notices = []) (e : OutputEntry) :
    outputRestart s e = { e with
      asserted := decide (e.form = .level ∧ e.source = .holdover ∧ s.time.lock = .holdover), count := 0 } := by
  unfold outputRestart
  rw [Bool.and_assoc, restarted_sourceLevel op empty, ← Bool.decide_and]

theorem carried_output (s : State) (i : Fin 4) :
    s.carried.router.outputs[i.val] = { s.router.outputs[i.val] with asserted := false, count := 0 } := mapFour_getElem _ _ _ _

theorem restartBase_output (cause : ResetCause) (tx : Option TxMessage) {u : State} (op : u.mode.op = .setup) (i : Fin 4) :
    (restartBase cause tx u).router.outputs[i.val] = { u.router.outputs[i.val] with
      asserted := decide (u.router.outputs[i.val].form = .level ∧ u.router.outputs[i.val].source = .holdover ∧
        u.time.lock = .holdover), count := 0 } :=
  (mapFour_getElem _ _ _ _).trans (outputRestart_eq (by exact op) rfl _)

/-- A warm restart is the one of R155 and R169. -/
theorem warmRestart_warmRestarted (cause : ResetCause) (tag : Byte) (s : State) : WarmRestarted cause tag s (warmRestart cause tag s) := by
  set n : Notice := .report tag (.restarted cause)
  obtain ⟨u, restarted⟩ : ∃ u, u = restartBase cause s.link.tx s.carried := ⟨_, rfl⟩
  have placed : warmRestart cause tag s = u.withLink (joined u n u.link) := by
    have empty : u.link.notices.length ≠ 47 := by rw [restarted]; exact show (0 : Nat) ≠ 47 by decide
    rw [← placeNotice_eq n empty, restarted, warmRestart_eq]
  have joins : joined (warmRestart cause tag s) n u.link = joined u n u.link := by
    rw [placed]
    exact joined_congr rfl rfl rfl n u.link
  have outputs (i : Fin 4) : (warmRestart cause tag s).router.outputs[i.val] = { s.router.outputs[i.val] with
      asserted := decide (s.router.outputs[i.val].form = .level ∧ s.router.outputs[i.val].source = .holdover ∧
        s.time.lock = .holdover), count := 0 } := by
    have base := restartBase_output cause s.link.tx (u := s.carried) rfl i
    rw [carried_output] at base
    rw [placed, restarted]
    exact base
  have fleets (f : Fin 4) : (warmRestart cause tag s).fleet f = { s.fleet f with arm := none } := by
    rw [placed, restarted]
    exact mapFour_getElem _ _ _ _
  have link : (warmRestart cause tag s).link = joined (warmRestart cause tag s) n { HostLink.cold with tx := s.link.tx } := by
    rw [restarted] at placed joins
    exact (congrArg State.link placed).trans joins.symm
  have contexts (i : Fin 4) : ((warmRestart cause tag s).ctx i).state = .free ∧
      ((warmRestart cause tag s).ctx i).gen = (s.ctx i).gen := by
    rw [warmRestart_ctx]
    exact ⟨rfl, rfl⟩
  rw [WarmRestarted, ← throughReset_eq]
  refine ⟨?_, ?_, ?_, ?_, ?_, outputs, fleets, ?_, ?_, contexts, ?_, ?_, link, ?_, ?_, ?_⟩ <;> rw [placed, restarted] <;> rfl

end Sys2Proof.Machine
end

section
/-! PROOFS. Behind a found check error the rest of a handling starts no message and changes nothing a warm restart reads (R154, R169). -/

namespace Sys2Proof.Machine

/-- From `s` to `t` nothing changes that a warm restart carries over, and once a check error is found the mark and the message in
transmission stand. -/
structure Spared (s t : State) : Prop where
  carried : t.carried = s.carried
  found : s.checkHit = true → t.checkHit = true ∧ t.link.tx = s.link.tx

theorem Spared.refl (s : State) : Spared s s := ⟨rfl, fun h => ⟨h, rfl⟩⟩

theorem Spared.trans {s t u : State} (h : Spared s t) (k : Spared t u) : Spared s u := by
  refine ⟨k.carried.trans h.carried, fun hit => ?_⟩
  obtain ⟨hit, tx⟩ := h.found hit
  obtain ⟨hit, tx'⟩ := k.found hit
  exact ⟨hit, tx'.trans tx⟩

/-- A handling that finds a check error and ends in a state spared from there is the warm restart of that state (R169). -/
theorem Spared.settled {s t : State} (h : Spared s t) (hit : s.checkHit = true) : settle t = warmRestart .tableCheck 0 s := by
  obtain ⟨hit, tx⟩ := h.found hit
  rw [settle, if_pos hit]
  exact warmRestart_congr _ _ h.carried tx

theorem foldl_spared {α : Type} {f : State → α → State} (h : ∀ s a, Spared s (f s a)) (l : List α) (s : State) :
    Spared s (l.foldl f s) := by
  induction l generalizing s with
  | nil => exact .refl s
  | cons a l ih => exact (h s a).trans (ih (f s a))

theorem carried_of_only {s t : State} (only : OnlyLinkLines s t) (routes : RoutesKept s t) : t.carried = s.carried := by
  have outputs : mapFour (fun e : OutputEntry => { e with asserted := false, count := 0 }) t.router.outputs =
      mapFour (fun e : OutputEntry => { e with asserted := false, count := 0 }) s.router.outputs := by
    refine Vector.ext fun i hi => ?_
    obtain ⟨source, form, width, polarity⟩ := routes ⟨i, hi⟩
    simp only [mapFour_getElem]
    simp only at source form width polarity
    rw [source, form, width, polarity]
  rw [State.carried, outputs, only]
  rfl

theorem Spared.of_lines {s t : State} (only : OnlyLinkLines s t) (routes : RoutesKept s t)
    (tx : s.checkHit = true → t.link.tx = s.link.tx) : Spared s t :=
  ⟨carried_of_only only routes, fun hit => ⟨only.checkHit.trans hit, tx hit⟩⟩

/-! ### Marks, events and reports -/

theorem markHit_spared (bad : Bool) (s : State) : Spared s (markHit bad s) := by
  cases bad
  · exact .refl s
  · exact ⟨rfl, fun _ => ⟨rfl, rfl⟩⟩

theorem raiseEvent_spared (src : Source) (s : State) : Spared s (raiseEvent src s) :=
  .of_lines (raiseEvent_only src s) (raiseEvent_follow src s).2 fun _ => rfl

/-- Once a check error is found, a joined entry starts nothing (R154). -/
theorem joined_tx {s : State} (hit : s.checkHit = true) (n : Notice) (l : HostLink) : (joined s n l).tx = l.tx := by
  rw [joined, if_neg fun free => absurd (hit.symm.trans free.2.1) (by decide)]

theorem placeNotice_spared (n : Notice) (s : State) : Spared s (placeNotice n s) :=
  .of_lines (placeNotice_only n s) (placeNotice_follow n s).2 fun hit => by rw [placeNotice_link, joined_tx hit]

theorem placeReply_spared (f : RxFrame) (st : Status) (contents : List Byte) (s : State) : Spared s (placeReply f st contents s) :=
  placeNotice_spared _ s

/-- A change of the link that leaves the message in transmission. -/
theorem withLink_spared {s : State} {l : HostLink} (tx : l.tx = s.link.tx) : Spared s (s.withLink l) := ⟨rfl, fun hit => ⟨hit, tx⟩⟩

theorem loseReport_spared (s : State) : Spared s (loseReport s) := withLink_spared rfl

theorem admitReport_spared (r : Report) (s : State) : Spared s (admitReport r s) := by
  unfold admitReport
  split
  · exact placeNotice_spared _ s
  · exact loseReport_spared s

theorem offerReport_spared (r : Report) (s : State) : Spared s (offerReport r s) := by
  unfold offerReport
  split
  · exact .refl s
  split
  · exact loseReport_spared s
  split
  · exact placeNotice_spared _ s
  · refine Spared.trans ?_ (admitReport_spared r _)
    exact (placeNotice_spared _ s).trans (withLink_spared rfl)

/-! ### The list, the engine and the contexts -/

theorem withListed_spared (s : State) (l : List SweepRecord) : Spared s (s.withListed l) := ⟨rfl, fun hit => ⟨hit, rfl⟩⟩
theorem withEngine_spared (s : State) (e : Engine) : Spared s (s.withEngine e) := ⟨rfl, fun hit => ⟨hit, rfl⟩⟩
theorem withEmitter_spared (s : State) (e : Emitter) : Spared s (s.withEmitter e) := ⟨rfl, fun hit => ⟨hit, rfl⟩⟩

/-- A context changed in its generation's keeping (R121). -/
theorem withCtx_spared {s : State} {i : Fin 4} {c : Context} (gen : c.gen = (s.ctx i).gen) : Spared s (s.withCtx i c) := by
  have freed : mapFour (fun c => Context.freed c.gen) (s.stack.ctxs.set i.val c) = mapFour (fun c => Context.freed c.gen) s.stack.ctxs := by
    refine Vector.ext fun j hj => ?_
    simp only [mapFour_getElem]
    by_cases e : i.val = j
    · subst e
      rw [Vector.getElem_set_self, gen]
      rfl
    · rw [Vector.getElem_set_ne _ _ e]
  refine ⟨?_, fun hit => ⟨hit, rfl⟩⟩
  rw [State.carried, State.carried, ← freed]
  rfl

theorem freeCtx_spared (i : Fin 4) (s : State) : Spared s (freeCtx i s) :=
  Spared.trans (t := s.withStack { s.stack with openOrder := s.stack.openOrder.filter fun j => j ≠ i })
    ⟨rfl, fun hit => ⟨hit, rfl⟩⟩ (withCtx_spared (i := i) (c := Context.freed (s.ctx i).gen) rfl)

theorem vpDone_spared (i : Fin 4) (traces : Nat) (s : State) : Spared s (vpDone i traces s) :=
  (offerReport_spared _ s).trans (raiseEvent_spared _ _)

theorem prepareTrace_spared (cu : Cursor) (s : State) : Spared s (prepareTrace cu s) := by
  unfold prepareTrace
  split <;> exact withEmitter_spared s _

/-- A decision of the arbiter: once a check error is found it starts nothing (R154). -/
theorem decideLine_spared (s : State) : Spared s (decideLine s) := by
  have quiet := decideLine_quiet s
  obtain ⟨sweeps, engine, stack, -⟩ := decideLine_tables s
  have unmarked : (decideLine s).checkHit = s.checkHit := (congrArg State.checkHit (decideLine_decided s).frame.1 :)
  have only : OnlyLinkLines (s.withEmitter (decideLine s).emitter) (decideLine s) :=
    .of_fields quiet.ring quiet.pilots quiet.time quiet.inputs quiet.pins quiet.fleets sweeps engine stack rfl quiet.mode unmarked
      quiet.pending
  refine ⟨(carried_of_only only quiet.follow.2 :), fun hit => ?_⟩
  rw [decideLine_busy fun free => absurd (hit.symm.trans free.2.1) (by decide)]
  exact ⟨hit, rfl⟩

theorem emitterBegin_spared (s : State) : Spared s (emitterBegin s) := by
  unfold emitterBegin
  split
  · exact withEmitter_spared s _
  split
  · exact markHit_spared true s
  · exact (prepareTrace_spared _ s).trans (decideLine_spared _)

theorem closeCtx_spared (i : Fin 4) (s : State) : Spared s (closeCtx i s) := by
  unfold closeCtx
  split
  · have closing : Spared s (s.withCtx i { s.ctx i with state := .closing }) := withCtx_spared rfl
    have pending := closing.trans (withEmitter_spared _ { s.emitter with closing := s.emitter.closing ++ [i] })
    dsimp only
    split
    · exact pending.trans (emitterBegin_spared _)
    · exact pending
  · exact (vpDone_spared i 0 s).trans (freeCtx_spared i _)

theorem applyClose_spared (i : Fin 4) (s : State) : Spared s (applyClose i s) := by
  unfold applyClose
  split
  · exact closeCtx_spared i s
  · exact .refl s

theorem changeSweep_spared (id : Nat) (g : SweepRecord → SweepRecord) (s : State) : Spared s (changeSweep id g s) :=
  withListed_spared s _

theorem dropSweep_spared (cause : DropCause) (close : Bool) (s : State) (r : SweepRecord) : Spared s (dropSweep cause close s r) := by
  have abandoned (t : State) : Spared t (if r.state = .correlating then abandonJob t else t) := by
    split
    · exact withEngine_spared t _
    · exact .refl t
  have counted (t : State) : Spared t (t.withCtx r.ctx
      { t.ctx r.ctx with attached := (t.ctx r.ctx).attached - 1, dropped := (t.ctx r.ctx).dropped + 1 }) := withCtx_spared rfl
  have late (t : State) : Spared t (if cause = .late then raiseEvent .ringLate t else t) := by
    split
    · exact raiseEvent_spared _ t
    · exact .refl t
  have pre : Spared s (dropPre cause s r) :=
    (markHit_spared _ s).trans ((abandoned _).trans ((withListed_spared _ _).trans ((counted _).trans
      ((offerReport_spared _ _).trans ((raiseEvent_spared _ _).trans (late _))))))
  rw [dropSweep_eq]
  split
  · exact pre.trans (applyClose_spared _ _)
  · exact pre

theorem setOp_spared (o : OpState) (d : Option DrainMode) (s : State) : Spared s (setOp o d s) :=
  Spared.trans (t := s.withMode { s.mode with op := o, drain := d }) ⟨rfl, fun hit => ⟨hit, rfl⟩⟩
    (.of_lines (setOp_only o d s) (setOp_follow o d s).2 fun _ => by rw [setOp_link]; rfl)

theorem drainTest_spared (s : State) : Spared s (drainTest s) := by
  unfold drainTest
  split
  · dsimp only
    split
    · exact (markHit_spared _ s).trans ((setOp_spared _ _ _).trans (offerReport_spared _ _))
    · exact markHit_spared _ s
  · exact .refl s

theorem arbitrate_spared (s : State) : Spared s (arbitrate s) := by
  unfold arbitrate
  split
  · exact .refl s
  split
  · exact .refl s
  split
  · exact markHit_spared true s
  · exact (changeSweep_spared _ _ s).trans (withEngine_spared _ _)

/-! ### Compares -/

/-- A compare taken, behind the reads of its sweep's record and its context's (R50). -/
theorem fireSweep_marked_spared (s : State) (r : SweepRecord) :
    Spared (markHit (r.checkBad || (s.ctx r.ctx).checkBad) s) (fireSweep s r) :=
  (raiseEvent_spared _ _).trans ((changeSweep_spared _ _ _).trans ((offerReport_spared _ _).trans (changeSweep_spared _ _ _)))

theorem fireSweep_spared (s : State) (r : SweepRecord) : Spared s (fireSweep s r) := (markHit_spared _ s).trans (fireSweep_marked_spared s r)

theorem stepCompares_spared (old new : Nat) (s : State) : Spared (markHit s.listBad s) (stepCompares old new s) := by
  refine foldl_spared (fun t r => ?_) _ _
  split
  · exact fireSweep_spared t r
  · exact dropSweep_spared _ _ t r

end Sys2Proof.Machine
end

section
/-! PROOFS. The warm restarts: RESTART, and a check error found by each handling that reads the tables (R155, R169; log entries 13, 24). -/

namespace Sys2Proof.Machine

/-! ### A handling that finds a check error -/

theorem handle_free (g : State → State) {s : State} (free : s.mode.held = false) : handle g s = .next (settle (g s)) := by
  rw [handle, free]
  rfl

/-- A handling that finds a check error at `a`, and ends in `t`, leaves the warm restart of any state that agrees with `a` on what a warm
restart reads. -/
theorem Spared.warmRestarted {a t u : State} (h : Spared a t) (hit : a.checkHit = true) (carried : a.carried = u.carried)
    (tx : a.link.tx = u.link.tx) : WarmRestarted .tableCheck 0 u (settle t) := by
  rw [h.settled hit, warmRestart_congr _ _ carried tx]
  exact warmRestart_warmRestarted _ _ u

theorem listBad_of {s : State} (h : ∃ r ∈ s.listed, r.checkBad = true) : s.listBad = true := (listBad_iff s).mpr h

/-! ### Requests -/

theorem exec_restart_restarted {tag : Byte} {rest : List RxFrame} {s : State} (taken : Taken ⟨0x07, tag, []⟩ rest s) :
    ∃ t, exec (.restart tag []) s = .next t ∧ WarmRestarted .restart tag s t := by
  have restarted := warmRestart_warmRestarted .restart tag s
  have same : warmRestart .restart tag (s.withLink (takenLink rest s)) = warmRestart .restart tag s := warmRestart_congr _ _ rfl rfl
  obtain ⟨-, -, -, -, -, -, -, -, -, -, -, -, -, -, unmarked, -⟩ := restarted
  refine ⟨_, ?_, warmRestart_warmRestarted .restart tag s⟩
  rw [← settle_clean unmarked, ← same]
  exact takeRequest_taken taken (warmRestart .restart tag) rfl

/-- STATUS reads the list and the context table (log entry 24). -/
theorem exec_status_restarted {tag : Byte} {rest : List RxFrame} {s : State} (taken : Taken ⟨0x02, tag, []⟩ rest s)
    (bad : (s.listBad || s.ctxsBad) = true) : ∃ t, exec (.status tag []) s = .next t ∧ WarmRestarted .tableCheck 0 s t := by
  set u := s.withLink (takenLink rest s)
  have run : exec (.status tag []) s = .next (settle
      (placeReply ⟨0x02, tag, []⟩ .ok (statusContents u) (markHit (u.listBad || u.ctxsBad) u))) := by
    simp only [exec, execStatus]
    exact takeRequest_taken taken _ rfl
  have marked : markHit (u.listBad || u.ctxsBad) u = u.withCheckHit true := by
    rw [show (u.listBad || u.ctxsBad) = true from bad]
    rfl
  rw [marked] at run
  exact ⟨_, run, (placeReply_spared _ _ _ _).warmRestarted rfl rfl rfl⟩

/-- An entry reads the list, and past checks 2 to 4 the context table, before any context is opened (log entry 13). -/
theorem enterSweep_ended (origin : Origin) (f : Fin 4) (vp : VpId) (t0 : SampleIndex) (compare : Option Nat) {s : State}
    (bad : s.listBad = true ∨ (ChecksPass s f t0 ∧ s.ctxsBad = true)) :
    enterSweep origin f vp t0 compare s = (markHit true s, .ended) := by
  unfold enterSweep
  by_cases list : s.listBad = true
  · exact if_pos list
  · obtain ⟨⟨room, valid, inside⟩, ctxs⟩ := bad.resolve_left list
    have resolved : resolveCtx vp (s.fleet f).k (s.fleet f).target s = (markHit true s, .ended) := if_pos ctxs
    simp only [if_neg list]
    rw [if_neg (show ¬ Config.sweepCapacity ≤ s.listed.length from Nat.not_le.mpr room), if_neg (not_not.mpr valid),
      if_neg (mt (firstEvicted_iff s t0).mp inside), resolved]

theorem exec_post_restarted {tag b : Byte} {vp : VpId} {t0 : SampleIndex} {fl : Fin 4} {rest : List RxFrame} {s : State}
    (taken : Taken ⟨0x12, tag, sweepBody b vp t0⟩ rest s) (fleet : b.toNat = fl.val) (op : s.mode.op = .acquire)
    (bad : s.listBad = true ∨ (ChecksPass s fl t0 ∧ s.ctxsBad = true)) :
    ∃ t, exec (.post tag (sweepBody b vp t0)) s = .next t ∧ WarmRestarted .tableCheck 0 s t := by
  refine ⟨_, takeRequest_taken taken _ rfl, ?_⟩
  set u := s.withLink (takenLink rest s)
  have ended := enterSweep_ended .post fl vp t0 none (s := u) bad
  have found : postRequest ⟨0x12, tag, sweepBody b vp t0⟩ u = markHit true u := by
    unfold postRequest
    simp only [sweepBody_fleet, sweepBody_vp, sweepBody_t0, indexOf_val fl fleet, BitVec.ofNat_toNat, BitVec.setWidth_eq]
    rw [if_neg (not_not.mpr (show u.mode.op = .acquire from op)), ended]
  rw [found]
  exact (Spared.refl _).warmRestarted (a := u.withCheckHit true) rfl rfl rfl

/-! ### The job's completion (R96) -/

theorem completeJob_own {s : State} {j : Job} {r : SweepRecord} (job : s.engine.job = some j) (pass : j.pass = .editing)
    (listed : (s.listed.find? fun q => decide (q.id = j.sweep.id)) = some r) : completeJob s =
      if (r.checkBad || (s.ctx r.ctx).checkBad) = true then markHit true s else completeSweep r (advanceJob s.channels j s) := by
  unfold completeJob
  simp only [job, pass, listed]

/-- A completion whose own records are bad. -/
theorem exec_jobCompletion_restarted {s : State} {j : Job} {r : SweepRecord} (free : s.mode.held = false) (job : s.engine.job = some j)
    (pass : j.pass = .editing) (listed : (s.listed.find? fun q => decide (q.id = j.sweep.id)) = some r)
    (bad : (r.checkBad || (s.ctx r.ctx).checkBad) = true) :
    ∃ t, exec .jobCompletion s = .next t ∧ WarmRestarted .tableCheck 0 s t := by
  refine ⟨_, handle_free completeJob free, ?_⟩
  rw [completeJob_own job pass listed, if_pos bad]
  exact (Spared.refl _).warmRestarted (a := s.withCheckHit true) rfl rfl rfl

/-- With the engine IDLE, a bad record listed and a READY one, the look of the arbiter finds the check error (log entry 13). -/
theorem arbitrate_found {s : State} (idle : s.engine.job = none) (bad : ∃ q ∈ s.listed, q.checkBad = true)
    (ready : ∃ q ∈ s.listed, q.state = .ready) : (arbitrate s).checkHit = true := by
  obtain ⟨q, first⟩ : ∃ q, firstReady s = some q :=
    Option.isSome_iff_exists.mp (List.find?_isSome.mpr (by simpa using ready))
  have found : arbitrate s = markHit true s := by
    simp only [arbitrate, idle, first, listBad_of bad, if_true]
  rw [found]
  rfl

theorem completeSweep_spared (r : SweepRecord) (s : State) : Spared s (completeSweep r s) := by
  have folded : Spared s (s.withCtx r.ctx (foldedCtx (s.ctx r.ctx) s.engine.scratch)) := withCtx_spared rfl
  exact folded.trans ((offerReport_spared _ _).trans ((raiseEvent_spared _ _).trans ((withListed_spared _ _).trans
    ((withEngine_spared _ _).trans ((applyClose_spared _ _).trans ((drainTest_spared _).trans (arbitrate_spared _)))))))

theorem applyClose_keepsEngine (i : Fin 4) (s : State) : (applyClose i s).engine = s.engine := by
  rcases applyClose_cases i s with e | ⟨-, e⟩ <;> rw [e]
  exact congrArg Tables.engine (closeCtx_tables i s)

theorem drainTest_lists (s : State) : (drainTest s).listed = s.listed ∧ (drainTest s).engine = s.engine := by
  have listed : (markHit s.ctxsBad s).listed = s.listed := mark_listed _ s
  have engine : (markHit s.ctxsBad s).engine = s.engine := engine_of_tables (tables_markHit _ s)
  unfold drainTest
  split
  · dsimp only
    split
    · have reported := offerReport_only (.drained (s.mode.drain.getD .finish) s.time.n) (setOp .setup none (markHit s.ctxsBad s))
      have ended := setOp_only .setup none (markHit s.ctxsBad s)
      exact ⟨(reported.listed.trans ended.listed).trans listed, (reported.engine.trans ended.engine).trans engine⟩
    · exact ⟨listed, engine⟩
  · exact ⟨rfl, rfl⟩

/-- Behind the completion's own steps the other records stand and the engine is IDLE, and its arbiter looks (R84, R96). -/
theorem completeSweep_found {r : SweepRecord} {s : State} (bad : ∃ q ∈ s.listed, q.id ≠ r.id ∧ q.checkBad = true)
    (ready : ∃ q ∈ s.listed, q.id ≠ r.id ∧ q.state = .ready) : (completeSweep r s).checkHit = true := by
  obtain ⟨u, listed, looked⟩ : ∃ u : State, u.listed = s.listed ∧
      completeSweep r s = arbitrate (drainTest (applyClose r.ctx (abandonJob (unlist r.id u)))) := by
    refine ⟨_, ?_, rfl⟩
    exact (offerReport_only _ _).listed
  obtain ⟨drained, engine⟩ := drainTest_lists (applyClose r.ctx (abandonJob (unlist r.id u)))
  have left {q : SweepRecord} (hq : q ∈ s.listed) (other : q.id ≠ r.id) :
      q ∈ (drainTest (applyClose r.ctx (abandonJob (unlist r.id u)))).listed := by
    rw [drained, applyClose_listed]
    exact List.mem_filter.mpr ⟨listed ▸ hq, decide_eq_true other⟩
  have idle : (drainTest (applyClose r.ctx (abandonJob (unlist r.id u)))).engine.job = none := by
    rw [engine, applyClose_keepsEngine]
    rfl
  obtain ⟨q, hq, other, bad⟩ := bad
  obtain ⟨p, hp, other', ready⟩ := ready
  rw [looked]
  exact arbitrate_found idle ⟨q, left hq other, bad⟩ ⟨p, left hp other', ready⟩

theorem carried_gen (s : State) (i : Fin 4) : (s.carried.ctx i).gen = (s.ctx i).gen := by
  have freed : s.carried.ctx i = Context.freed (s.ctx i).gen := mapFour_getElem _ _ _ _
  rw [freed]
  rfl

theorem completeJob_spared (s : State) : Spared s (completeJob s) := by
  unfold completeJob
  split
  · exact .refl s
  split
  · exact .refl s
  split
  · exact .refl s
  split
  · exact markHit_spared true s
  · exact Spared.trans (withEngine_spared s _) (completeSweep_spared _ (advanceJob s.channels _ s))

theorem exec_jobCompletion_looks {s : State} {j : Job} {r : SweepRecord} (free : s.mode.held = false) (job : s.engine.job = some j)
    (pass : j.pass = .editing) (listed : (s.listed.find? fun q => decide (q.id = j.sweep.id)) = some r)
    (bad : ∃ q ∈ s.listed, q.id ≠ r.id ∧ q.checkBad = true) (ready : ∃ q ∈ s.listed, q.id ≠ r.id ∧ q.state = .ready) :
    ∃ t, exec .jobCompletion s = .next t ∧ t.mode = { s.mode with op := .setup, drain := none, cause := .tableCheck } ∧
      t.sweeps = { recs := [], nextId := 1 } ∧ t.engine.job = none ∧
      ∀ i : Fin 4, (t.ctx i).state = .free ∧ (t.ctx i).gen = (s.ctx i).gen := by
  have hit : (completeJob s).checkHit = true := by
    rw [completeJob_own job pass listed]
    split
    · rfl
    · exact completeSweep_found (s := advanceJob s.channels j s) bad ready
  refine ⟨_, handle_free completeJob free, ?_⟩
  have carried := (completeJob_spared s).carried
  have restarted := (Spared.refl (completeJob s)).warmRestarted hit rfl rfl
  obtain ⟨-, -, -, -, -, -, -, sweeps, engine, contexts, -, -, -, mode, -⟩ := restarted
  refine ⟨?_, sweeps, congrArg Engine.job engine, fun i => ?_⟩
  · exact mode.trans (congrArg (fun u : State => { u.mode with cause := .tableCheck }) carried)
  · have gen : ((completeJob s).ctx i).gen = (s.ctx i).gen := by
      rw [← carried_gen (completeJob s), ← carried_gen s, carried]
    exact ⟨(contexts i).1, (contexts i).2.trans gen⟩

/-! ### The end of an emission (R136) -/

/-- The state behind the end of the transmission of the last TRACE of the emitted context, its message gone and counted. -/
def lastTraceSent (cu : Cursor) (s : State) : State :=
  (s.withLink { s.link with tx := none }).withEmitter
    { s.emitter with cursor := some { cu with sending := false, sent := cu.sent + 1 } }

theorem exec_transmissionEnd_emission {tr : Trace} {cu : Cursor} {s : State} (free : s.mode.held = false)
    (tx : s.link.tx = some (.trace tr)) (cursor : s.emitter.cursor = some cu) (sending : cu.sending = true)
    (last : cu.next = s.channels) (waiting : cu.waiting = none) : exec .transmissionEnd s =
      .next (settle (decideLine (endEmission { cu with sending := false, sent := cu.sent + 1 } (lastTraceSent cu s)))) := by
  have ended : endMessage (.trace tr) s = endEmission { cu with sending := false, sent := cu.sent + 1 } (lastTraceSent cu s) := by
    unfold endMessage traceSent
    simp only [State.withLink_emitter, cursor, sending, if_true]
    exact if_pos ⟨last, waiting⟩
  rw [← ended]
  simp only [exec, execTransmissionEnd]
  rw [handle_free _ free]
  simp only [tx]

/-- Behind the read of its context, the end of an emission (R136, R168). -/
theorem endEmission_spared (cu : Cursor) (s : State) :
    Spared (markHit (s.ctx cu.ctx).checkBad s) (endEmission cu s) :=
  (vpDone_spared _ _ _).trans ((freeCtx_spared _ _).trans ((withEmitter_spared _ _).trans
    ((emitterBegin_spared _).trans (drainTest_spared _))))

theorem exec_transmissionEnd_restarted {tr : Trace} {cu : Cursor} {s : State} (free : s.mode.held = false)
    (tx : s.link.tx = some (.trace tr)) (cursor : s.emitter.cursor = some cu) (sending : cu.sending = true)
    (last : cu.next = s.channels) (waiting : cu.waiting = none) (bad : (s.ctx cu.ctx).checkBad = true) :
    ∃ t, exec .transmissionEnd s = .next t ∧ WarmRestarted .tableCheck 0 (s.withLink { s.link with tx := none }) t := by
  refine ⟨_, exec_transmissionEnd_emission free tx cursor sending last waiting, ?_⟩
  have spared := endEmission_spared { cu with sending := false, sent := cu.sent + 1 } (lastTraceSent cu s)
  rw [show ((lastTraceSent cu s).ctx cu.ctx).checkBad = true from bad] at spared
  exact (spared.trans (decideLine_spared _)).warmRestarted rfl rfl rfl

/-- The begin of the next emission finds a check error on its context, after the VP DONE of the one before (R132; log entry 24). -/
theorem exec_transmissionEnd_next {tr : Trace} {cu : Cursor} {j : Fin 4} {order : List (Fin 4)} {s : State} (free : s.mode.held = false)
    (tx : s.link.tx = some (.trace tr)) (cursor : s.emitter.cursor = some cu) (sending : cu.sending = true)
    (last : cu.next = s.channels) (waiting : cu.waiting = none) (closing : s.emitter.closing = cu.ctx :: j :: order)
    (other : j ≠ cu.ctx) (good : (s.ctx cu.ctx).checkBad = false) (bad : (s.ctx j).checkBad = true) :
    ∃ t u, exec .transmissionEnd s = .next t ∧ VpDone cu.ctx (cu.sent + 1) (lastTraceSent cu s) u ∧
      WarmRestarted .tableCheck 0 u t := by
  refine ⟨_, _, exec_transmissionEnd_emission free tx cursor sending last waiting, vpDone_done cu.ctx (cu.sent + 1) _, ?_⟩
  set e := lastTraceSent cu s with he
  have only := vpDone_only cu.ctx (cu.sent + 1) e
  set u := vpDone cu.ctx (cu.sent + 1) e with hu
  set v := (freeCtx cu.ctx u).withEmitter { closing := (freeCtx cu.ctx u).emitter.closing.tail, cursor := none } with hv
  have next : v.emitter.closing = j :: order := by
    show u.emitter.closing.tail = _
    rw [only.emitter]
    exact congrArg List.tail closing
  have badNext : (v.ctx j).checkBad = true := by
    show ((freeCtx cu.ctx u).ctx j).checkBad = true
    rw [freeCtx_other _ other, only.ctx]
    exact bad
  have found : emitterBegin v = v.withCheckHit true := by
    unfold emitterBegin
    simp only [next, badNext, if_true]
    rfl
  have ended : endEmission { cu with sending := false, sent := cu.sent + 1 } e = drainTest (v.withCheckHit true) := by
    rw [← found, hv, hu]
    unfold endEmission
    rw [show (e.ctx cu.ctx).checkBad = false from good]
    rfl
  have carried : v.carried = u.carried := ((freeCtx_spared cu.ctx u).trans (withEmitter_spared _ _)).carried
  rw [ended]
  exact ((drainTest_spared _).trans (decideLine_spared _)).warmRestarted rfl carried rfl

/-! ### The sample tick (R41, R50) -/

/-- A tick up to the lock state's own point, before the job goes on. -/
theorem tickHoldover_begins (s : State) :
    TickBegins s (tickHoldover ((s.mapOutputs outputTick).withTime { s.time with n := s.time.n + 1 })) := by
  set u := (s.mapOutputs outputTick).withTime { s.time with n := s.time.n + 1 } with hu
  refine ⟨u, fun i => ?_, rfl, ?_⟩
  · rw [← outputTick_eq]
    exact mapFour_getElem _ _ _ _
  · by_cases due : s.time.lock = .locked ∧ s.time.n + 1 = deadlineOf s
    · have free : u.time.lock ≠ .holdover := by
        rw [show u.time.lock = .locked from due.1]
        decide
      have entered : tickHoldover u = enterHoldover u := if_pos due
      rw [if_pos due, entered]
      refine ⟨setLock .holdover u, ?_, offerReport_offered _ _⟩
      rw [setLock_raise free]
      exact raiseLevel_rose _ _
    · rw [if_neg due]
      exact if_neg due

/-- What a tick reads behind its begin: the list, and the records of the first compare (log entry 13). -/
theorem tickCompares_spared {s : State} (bad : s.listBad = true ∨
      ∃ r l, (s.listed.filter (comparePoint fun c => c == s.time.n.toNat)) = r :: l ∧ (s.ctx r.ctx).checkBad = true) :
    Spared (s.withCheckHit true) (tickCompares s) := by
  rcases bad with list | ⟨r, l, due, ctx⟩
  · unfold tickCompares
    rw [list]
    exact foldl_spared fireSweep_spared _ _
  · have compares : tickCompares s = l.foldl fireSweep (fireSweep (markHit s.listBad s) r) := by
      unfold tickCompares
      have listed : (markHit s.listBad s).listed = s.listed := mark_listed _ s
      have time : (markHit s.listBad s).time = s.time := by cases s.listBad <;> rfl
      simp only [listed, time, due, List.foldl_cons]
    have fired := fireSweep_marked_spared (markHit s.listBad s) r
    have marked : markHit (r.checkBad || ((markHit s.listBad s).ctx r.ctx).checkBad) (markHit s.listBad s) =
        s.withCheckHit true := by
      rw [mark_ctx, ctx, Bool.or_true]
      cases s.listBad <;> rfl
    rw [marked] at fired
    rw [compares]
    exact fired.trans (foldl_spared fireSweep_spared l _)

theorem exec_sampleTick_restarted {s : State} (free : s.mode.held = false) (bad : s.listBad = true ∨
      ∃ r l, s.listed.filter (fun r => decide (r.state = .scheduled ∧ r.compare = some (s.time.n + 1).toNat)) = r :: l ∧
        (s.ctx r.ctx).checkBad = true) :
    ∃ t u, exec .sampleTick s = .next t ∧ TickBegins s u ∧ WarmRestarted .tableCheck 0 u t := by
  refine ⟨_, _, handle_free tick free, tickHoldover_begins s, ?_⟩
  set u := tickHoldover ((s.mapOutputs outputTick).withTime { s.time with n := s.time.n + 1 })
  have only := preTick_only s
  have job : preTick s = u.withEngine (preTick s).engine := tickJob_eq u
  have listed : (preTick s).listed = s.listed := only.listed
  have count : (preTick s).time.n = s.time.n + 1 := by rw [preTick_time]
  have found : Spared ((preTick s).withCheckHit true) (tickCompares (preTick s)) := by
    refine tickCompares_spared (bad.imp (fun list => ?_) fun ⟨r, l, due, ctx⟩ => ⟨r, l, ?_, ?_⟩)
    · rw [listBad_iff, listed, ← listBad_iff]
      exact list
    · rw [listed, count, ← due]
      refine List.filter_congr fun q _ => ?_
      rw [Bool.eq_iff_iff, comparePoint_iff, decide_eq_true_iff]
    · rw [only.ctx]
      exact ctx
  rw [tick_eq]
  refine (found.trans (arbitrate_spared _)).warmRestarted rfl ?_ ?_
  · rw [job]
    rfl
  · rw [job]
    rfl

/-! ### The PPS edge (R44, R45, R51) -/

theorem sps_large (s : State) : 250 ≤ s.sps := by
  unfold State.sps spsOf
  split <;> decide

/-- The step of R44 is the alignment of a PPS edge. -/
theorem ppsStep_alignStep (s : State) : ppsStep s.sps s.time.n.toNat = alignStep s := by
  have large := sps_large s
  unfold ppsStep alignStep
  simp only
  by_cases zero : s.time.n.toNat % s.sps = 0
  · rw [if_pos zero, zero, if_pos (by omega)]
    rfl
  · rw [if_neg zero]

/-- A PPS edge up to its report: N aligned, LOCKED with the fall of the HOLDOVER level, and TIMEBASE offered (R44, R45, R48). -/
theorem ppsReport_aligned (line : Fin 4) (level : Bool) {s : State} (step : alignStep s ≠ 0) :
    let n := BitVec.ofInt 48 ((s.time.n.toNat : Int) + alignStep s)
    let p := s.withRouter { s.router with pins := s.router.pins.set line.val level }
    Aligned line level s (ppsReport s.time.lock (alignStep s) (setLock .locked (p.withTime { p.time with n := n, a := n }))) := by
  intro n p
  refine ⟨setLock .locked (p.withTime { p.time with n := n, a := n }), ?_, ?_⟩
  · by_cases holdover : s.time.lock = .holdover
    · rw [if_pos holdover, setLock_drop (by exact holdover) (by decide)]
      exact dropLevel_fell _ _
    · rw [if_neg holdover]
      exact (if_neg holdover).trans (if_neg (by decide))
  · have time : (setLock .locked (p.withTime { p.time with n := n, a := n })).time.n = n := by
      rw [(setLock_only _ _).time]
      rfl
    rw [if_neg fun k => step k.2]
    cases lock : s.time.lock
    all_goals
      simp only [ppsReport, step, if_false, time]
      exact offerReport_offered _ _

theorem activeLevel_eq (p : Polarity) : activeLevel p = decide (p = .activeHigh) := by
  cases p <;> rfl

theorem exec_ppsEdge_restarted {line : Fin 4} {level : Bool} {s : State} (free : s.mode.held = false)
    (role : s.router.inputs[line.val].role = .pps)
    (active : level = decide (s.router.inputs[line.val].polarity = .activeHigh)) (step : alignStep s ≠ 0) (bad : s.listBad = true) :
    ∃ t u, exec (.ppsEdge line level) s = .next t ∧ Aligned line level s u ∧ WarmRestarted .tableCheck 0 u t := by
  set p := s.withRouter { s.router with pins := s.router.pins.set line.val level } with hp
  have moved : setPin line level s = p := setPin_other level (by rw [role]; decide)
  have edge : activeEdge line level .pps p = true := by
    simp [activeEdge, hp, role, active, activeLevel_eq]
  set n := BitVec.ofInt 48 ((s.time.n.toNat : Int) + alignStep s) with hn
  set u := ppsReport s.time.lock (alignStep s) (setLock .locked (p.withTime { p.time with n := n, a := n })) with hu
  have aligned : alignPps p = arbitrate (drainTest (stepCompares s.time.n.toNat ((s.time.n.toNat : Int) + alignStep s).toNat u)) := by
    have same : ppsStep p.sps p.time.n.toNat = alignStep s := ppsStep_alignStep s
    unfold alignPps
    simp only [same, step, if_false]
    rfl
  have run : exec (.ppsEdge line level) s = .next (settle (alignPps p)) := by
    simp only [exec, execPpsEdge, moved]
    rw [handle_free _ (show p.mode.held = false from free)]
    simp only [edge, if_true]
  refine ⟨_, u, run, ppsReport_aligned line level step, ?_⟩
  have listBad : u.listBad = true := by
    have tables : u.tables = s.tables := (tables_ppsReport _ _ _).trans (tables_setLock _ _)
    rw [listBad_iff, listed_of_tables tables, ← listBad_iff]
    exact bad
  have found := stepCompares_spared s.time.n.toNat ((s.time.n.toNat : Int) + alignStep s).toNat u
  rw [listBad] at found
  rw [aligned]
  exact (found.trans ((drainTest_spared _).trans (arbitrate_spared _))).warmRestarted rfl rfl rfl

/-- Settles O5, handling by handling. -/
theorem warmRestarts : Obligations.WarmRestarts := by
  refine ⟨fun _ _ _ taken _ => exec_restart_restarted taken, fun _ _ s taken bad => ?_, fun _ _ _ free job pass listed bad => ?_,
    fun _ _ _ _ _ free _ tx cursor sending last waiting closing other good bad =>
      exec_transmissionEnd_next free tx cursor sending last waiting closing other good bad,
    fun _ _ _ _ _ _ _ taken _ fleet op bad => ?_,
    fun _ _ _ free _ job pass listed bad ready => exec_jobCompletion_looks free job pass listed bad ready,
    fun _ _ _ free _ tx cursor sending last waiting bad =>
      exec_transmissionEnd_restarted free tx cursor sending last waiting bad,
    fun s free _ bad => exec_sampleTick_restarted free (bad.imp_left listBad_of),
    fun _ _ _ free _ role active step bad => exec_ppsEdge_restarted free role active step (listBad_of bad)⟩
  · exact exec_status_restarted taken (Bool.or_eq_true_iff.mpr (bad.imp listBad_of (ctxsBad_iff s).mpr))
  · exact exec_jobCompletion_restarted free job pass listed (Bool.or_eq_true_iff.mpr bad)
  · exact exec_post_restarted taken fleet op (bad.imp listBad_of (And.imp_right (ctxsBad_iff _).mpr))

end Sys2Proof.Machine
end

section
/-! PROOFS. The pilot table: what a request that stores, fails or refuses a slot leaves, the tests of PILOT OPEN, PILOT WORDS and PILOT CLOSE
as equations, and from them the loads (R25 to R35). -/

namespace Sys2Proof.Machine

/-! ### Replies over a slot -/

/-- What some next state of an outcome has, its one next state has. -/
theorem next_has {o : Host.Outcome State Fault Refusal} {t : State} {p : State → Prop} (run : o = .next t)
    (h : ∃ u, o = .next u ∧ p u) : p t := by
  obtain ⟨u, run', hu⟩ := h
  obtain rfl := Host.Outcome.next.inj (run.symm.trans run')
  exact hu

section request
variable {f : RxFrame} {rest : List RxFrame} {s : State} {g : State → State} {st : Status} {c : List Byte} {i : Fin 8}

/-- A request that stores a slot and places its reply. -/
theorem slot_answered {p : PilotSlot} (h : Taken f rest s) (length : lengthAllowed f.kind f.body.length = some true)
    (clean : s.checkHit = false) (e : g (taken rest s) = placeReply f st c ((taken rest s).withSlot i p)) :
    ∃ t, takeRequest f g s = .next t ∧ Answered f rest st c s t ∧ LinesFollow [.noticeHigh] s t ∧
      OnlyLinkLines (s.withSlot i p) t := by
  obtain ⟨t, next, only, lines, answered⟩ := reply_change (v := s.withSlot i p) st c h length clean rfl rfl e
  exact ⟨t, next, answered, lines, only⟩

/-- The report of a slot just failed carries the place and the check the load had come to (R35). -/
theorem pilotFailed_failSlot (cause : PilotFailure) (closing : Option Word) (p : PilotSlot) (s : State) :
    pilotFailed i cause closing (s.withSlot i (failSlot cause p)) =
      offerReport (.pilotFailed i cause p.lp p.pos p.check closing) (s.withSlot i (failSlot cause p)) := by
  rw [pilotFailed, State.slot_withSlot]
  rfl

/-- A request that fails a slot: PILOT FAILED is offered, and the reply is placed behind it (R35; log entry 20). -/
theorem slot_failed {cause : PilotFailure} {closing : Option Word} {p : PilotSlot} (h : Taken f rest s)
    (length : lengthAllowed f.kind f.body.length = some true) (clean : s.checkHit = false)
    (e : g (taken rest s) = placeReply f st c (pilotFailed i cause closing ((taken rest s).withSlot i (failSlot cause p)))) :
    ∃ t, takeRequest f g s = .next t ∧ AnsweredAfter [.pilotFailed i cause p.lp p.pos p.check closing] f rest st c s t ∧
      LinesFollow [.noticeHigh] s t ∧ OnlyLinkLines (s.withSlot i (failSlot cause p)) t := by
  rw [pilotFailed_failSlot] at e
  set failed := (taken rest s).withSlot i (failSlot cause p)
  have alike : SendsAlike (taken rest s) failed := ⟨rfl, rfl, rfl, rfl⟩
  have only : OnlyLinkLines (s.withSlot i (failSlot cause p)) failed := rfl
  have lines : LinesFollow [.noticeHigh] s failed := .of_outputs rfl
  obtain ⟨t, next, only, lines, answered, -⟩ := reply_after (v := s.withSlot i (failSlot cause p)) h length clean rfl e
    (only.trans (offerReport_only _ failed)) (lines.trans (offerReport_follow _ failed)) (by simp)
    (offeredLink_congr [.pilotFailed i cause p.lp p.pos p.check closing] rfl alike)
  exact ⟨t, next, answered, lines, only⟩

/-- A request that only places a reply, one for a slot number outside the table and one for each slot in it. -/
theorem slot_refused {b : Byte} {st' : Status} {c : List Byte} {c' : Fin 8 → List Byte} (h : Taken f rest s)
    (length : lengthAllowed f.kind f.body.length = some true) (clean : s.checkHit = false)
    (outside : 8 ≤ b.toNat → g (taken rest s) = placeReply f st c (taken rest s))
    (inside : ∀ i : Fin 8, b.toNat = i.val → g (taken rest s) = placeReply f st' (c' i) (taken rest s)) :
    ∃ t, takeRequest f g s = .next t ∧ (8 ≤ b.toNat → AnsweredOnly f rest st c s t) ∧
      ∀ i : Fin 8, b.toNat = i.val → AnsweredOnly f rest st' (c' i) s t := by
  have run := takeRequest_taken h g length
  exact ⟨_, run, fun out => next_has run (reply_only _ _ h length clean (outside out)),
    fun i slot => next_has run (reply_only _ _ h length clean (inside i slot))⟩

end request

/-! ### PILOT OPEN -/

section opening
variable {tag b sh : Byte} {lp : Word} {i : Fin 8} {s : State}

theorem pilotOpen_outside (h : 8 ≤ b.toNat) : pilotOpen ⟨0x0C, tag, pilotOpenBody b lp sh⟩ s =
    placeReply ⟨0x0C, tag, pilotOpenBody b lp sh⟩ .range [b, 0, 0, 0, 0] s := by
  simp only [pilotOpen, pilotOpenBody_slot, indexOf_none h]
  rfl

/-- PILOT OPEN on a slot of the table, with no check error in the list: its tests in their order (R26, R27). -/
theorem pilotOpen_inside (h : b.toNat = i.val) (good : s.listBad = false) : pilotOpen ⟨0x0C, tag, pilotOpenBody b lp sh⟩ s =
    if s.referenced i = true then placeReply ⟨0x0C, tag, pilotOpenBody b lp sh⟩ .busy (openContents b (s.slot i)) s
    else if lp.toNat < 256 ∨ 32768 < lp.toNat then
      placeReply ⟨0x0C, tag, pilotOpenBody b lp sh⟩ .range (openContents b (s.slot i)) s
    else placeReply ⟨0x0C, tag, pilotOpenBody b lp sh⟩ .ok (openContents b (openSlot lp.toNat sh.toNat))
      (s.withSlot i (openSlot lp.toNat sh.toNat)) := by
  simp only [pilotOpen, pilotOpenBody_slot, pilotOpenBody_lp, pilotOpenBody_shift, indexOf_val i h, good, Bool.false_eq_true, if_false]
  rfl

theorem not_referenced (unused : ∀ r ∈ s.listed, r.slot ≠ i) : ¬ s.referenced i = true := by
  rw [referenced_iff]
  rintro ⟨r, listed, slot⟩
  exact unused r listed slot

end opening

/-- A slot just opened, its shift clamped to 40 (R26). -/
theorem openSlot_eq (lp shift : Nat) : openSlot lp shift =
    { state := .loading, lp := lp, pos := 0, check := 0, shift := min 40 shift, failure := none, samples := [] } := by
  rw [openSlot, Nat.min_comm]
  rfl

/-- Settles O31, outcome by outcome. -/
theorem pilotOpens : Obligations.PilotOpens := by
  rintro tag b sh lp rest s request ⟨clean, good, -⟩ f
  have length : lengthAllowed f.kind f.body.length = some true := by
    rw [show f.body.length = 4 from pilotOpenBody_length b lp sh]
    rfl
  have run : exec (.pilotOpen tag (pilotOpenBody b lp sh)) s = .next _ := takeRequest_taken request (pilotOpen f) length
  refine ⟨_, run, fun outside => next_has run (reply_only .range _ request length clean (pilotOpen_outside outside)),
    fun i slot => ?_⟩
  have judged := pilotOpen_inside (tag := tag) (lp := lp) (sh := sh) (s := taken rest s) slot good
  refine ⟨fun used => ?_, fun unused bad => ?_, fun unused low high => ?_⟩
  · have busy := judged.trans (if_pos ((referenced_iff _ i).mpr used))
    exact next_has run (reply_only .busy _ request length clean busy)
  · have refused := (judged.trans (if_neg (not_referenced unused))).trans (if_pos bad)
    exact next_has run (reply_only .range _ request length clean refused)
  · have opened := (judged.trans (if_neg (not_referenced unused))).trans (if_neg (by omega))
    rw [openSlot_eq] at opened
    exact next_has run (slot_answered request length clean opened)

/-! ### PILOT WORDS -/

section words
variable {tag b : Byte} {ws : List PilotSample} {i : Fin 8} {s : State}

/-- The bodies of 1 to 256 samples are those R172 allows. -/
theorem pilotWordsBody_allowed (b : Byte) {ws : List PilotSample} (low : 1 ≤ ws.length) (high : ws.length ≤ 256) :
    lengthAllowed 0x0D (pilotWordsBody b ws).length = some true := by
  have allowed : lengthAllowed 0x0D (2 * ws.length + 1) = some (decide (3 ≤ 2 * ws.length + 1) && decide (2 * ws.length + 1 ≤ 513) &&
      decide ((2 * ws.length + 1) % 2 = 1)) := rfl
  rw [pilotWordsBody_length, allowed, decide_eq_true (by omega), decide_eq_true (by omega), decide_eq_true (by omega)]
  rfl

theorem pilotWords_outside (h : 8 ≤ b.toNat) : pilotWords ⟨0x0D, tag, pilotWordsBody b ws⟩ s =
    placeReply ⟨0x0D, tag, pilotWordsBody b ws⟩ .range [b, 0, 0, 0, 0] s := by
  simp only [pilotWords, pilotWordsBody_slot, indexOf_none h]
  rfl

theorem pilotWords_refused (h : b.toNat = i.val) (state : (s.slot i).state ≠ .loading) :
    pilotWords ⟨0x0D, tag, pilotWordsBody b ws⟩ s =
      placeReply ⟨0x0D, tag, pilotWordsBody b ws⟩ .order (wordsContents b (s.slot i)) s := by
  simp only [pilotWords, pilotWordsBody_slot, indexOf_val i h]
  rw [if_pos state]

/-- PILOT WORDS on a LOADING slot: whether the samples pass Lp (R29, R30). -/
theorem pilotWords_loading (h : b.toNat = i.val) (loading : (s.slot i).state = .loading) :
    pilotWords ⟨0x0D, tag, pilotWordsBody b ws⟩ s =
      if (s.slot i).lp < (s.slot i).pos + ws.length then
        placeReply ⟨0x0D, tag, pilotWordsBody b ws⟩ .range (wordsContents b (failSlot .overrun (s.slot i)))
          (pilotFailed i .overrun none (s.withSlot i (failSlot .overrun (s.slot i))))
      else placeReply ⟨0x0D, tag, pilotWordsBody b ws⟩ .ok (wordsContents b (takeWords ws (s.slot i)))
        (s.withSlot i (takeWords ws (s.slot i))) := by
  simp only [pilotWords, pilotWordsBody_slot, pilotWordsBody_words, indexOf_val i h]
  rw [if_neg (not_not.mpr loading)]

end words

/-! ### PILOT CLOSE -/

section closing
variable {tag b : Byte} {w : Word} {i : Fin 8} {s : State}

theorem pilotCloseBody_allowed (b : Byte) (w : Word) : lengthAllowed 0x0E (pilotCloseBody b w).length = some true := by
  rw [pilotCloseBody_length]
  rfl

theorem pilotClose_outside (h : 8 ≤ b.toNat) : pilotClose ⟨0x0E, tag, pilotCloseBody b w⟩ s =
    placeReply ⟨0x0E, tag, pilotCloseBody b w⟩ .range [b, 0, 0, 0, 0, 0, 0] s := by
  simp only [pilotClose, pilotCloseBody_slot, indexOf_none h]
  rfl

theorem pilotClose_refused (h : b.toNat = i.val) (state : (s.slot i).state ≠ .loading) :
    pilotClose ⟨0x0E, tag, pilotCloseBody b w⟩ s =
      placeReply ⟨0x0E, tag, pilotCloseBody b w⟩ .order (closeContents b (s.slot i)) s := by
  simp only [pilotClose, pilotCloseBody_slot, indexOf_val i h]
  rw [if_pos state]

/-- PILOT CLOSE on a LOADING slot: the place first, then the closing word (R32 to R34). -/
theorem pilotClose_loading (h : b.toNat = i.val) (loading : (s.slot i).state = .loading) :
    pilotClose ⟨0x0E, tag, pilotCloseBody b w⟩ s =
      if (s.slot i).pos < (s.slot i).lp then
        placeReply ⟨0x0E, tag, pilotCloseBody b w⟩ .check (closeContents b (failSlot .short (s.slot i)))
          (pilotFailed i .short (some w) (s.withSlot i (failSlot .short (s.slot i))))
      else if w ≠ (s.slot i).check then
        placeReply ⟨0x0E, tag, pilotCloseBody b w⟩ .check (closeContents b (failSlot .check (s.slot i)))
          (pilotFailed i .check (some w) (s.withSlot i (failSlot .check (s.slot i))))
      else placeReply ⟨0x0E, tag, pilotCloseBody b w⟩ .ok (closeContents b (validSlot (s.slot i)))
        (s.withSlot i (validSlot (s.slot i))) := by
  simp only [pilotClose, pilotCloseBody_slot, pilotCloseBody_word, indexOf_val i h, BitVec.ofNat_toNat, BitVec.setWidth_eq]
  rw [if_neg (not_not.mpr loading)]

end closing

/-- Settles O32, outcome by outcome. -/
theorem pilotLoadJudged : Obligations.PilotLoadJudged := by
  refine ⟨fun tag b ws i rest s request clean low high slot loading => ?_, fun tag b w i rest s request clean slot loading => ?_,
    fun tag b ws w rest s clean low high => ⟨fun request state => ?_, fun request state => ?_⟩⟩
  · have length := pilotWordsBody_allowed b low high
    have judged := pilotWords_loading (tag := tag) (ws := ws) (s := taken rest s) slot loading
    refine ⟨fun fits => ?_, fun passes => ?_⟩
    · exact slot_answered request length clean (judged.trans (if_neg (Nat.not_lt.mpr fits)))
    · exact slot_failed request length clean (judged.trans (if_pos passes))
  · have length := pilotCloseBody_allowed b w
    have judged := pilotClose_loading (tag := tag) (w := w) (s := taken rest s) slot loading
    refine ⟨fun short => ?_, fun full wrong => ?_, fun full right => ?_⟩
    · exact slot_failed request length clean (judged.trans (if_pos short))
    · exact slot_failed request length clean ((judged.trans (if_neg full.not_lt)).trans (if_pos wrong))
    · exact slot_answered request length clean ((judged.trans (if_neg full.not_lt)).trans (if_neg (not_not.mpr right)))
  · exact slot_refused request (pilotWordsBody_allowed b low high) clean pilotWords_outside
      fun i slot => pilotWords_refused slot (state i slot)
  · exact slot_refused request (pilotCloseBody_allowed b w) clean pilotClose_outside
      fun i slot => pilotClose_refused slot (state i slot)

end Sys2Proof.Machine
end

section
/-! PROOFS. What every shared operation and every handling upholds: the ranges of the parameters, the input roles on one line each, and the
tables free of check errors (R52, R82, R113, R151, R161). -/

namespace Sys2Proof.Machine

/-! ### The relation -/

/-- From `s` to `t` the ranges of the parameters and the uniqueness of the input roles carry over, and, where `ok` holds, the absence of
check errors. `ok` stands for what a turn of a loop knows of a record read before the loop. -/
structure Upholds (ok : Prop) (s t : State) : Prop where
  params : ParamsInRange s → ParamsInRange t
  roles : RolesUnique s → RolesUnique t
  clean : ok → Clean s → Clean t

variable {ok : Prop}

theorem Upholds.refl (s : State) : Upholds ok s s := ⟨id, id, fun _ => id⟩

theorem Upholds.trans {s t u : State} (h : Upholds ok s t) (k : Upholds ok t u) : Upholds ok s u :=
  ⟨k.params ∘ h.params, k.roles ∘ h.roles, fun o => k.clean o ∘ h.clean o⟩

/-- What holds of the tables where no check error stands may be taken for granted. -/
theorem Upholds.of_clean {s t : State} (h : Upholds (Clean s) s t) : Upholds ok s t := ⟨h.params, h.roles, fun _ hc => h.clean hc hc⟩

theorem Upholds.of_settings {s t : State} (params : t.mode.params = s.mode.params) (inputs : t.router.inputs = s.router.inputs)
    (clean : ok → Clean s → Clean t) : Upholds ok s t :=
  ⟨fun h => by rw [ParamsInRange, params]; exact h, fun h => by rw [RolesUnique, inputs]; exact h, clean⟩

theorem Quiet.upholds {srcs : List Source} {s t : State} (h : Quiet srcs s t) : Upholds ok s t :=
  .of_settings (congrArg ModeControl.params h.mode) h.inputs fun _ => h.clean

theorem OnlyLinkLines.upholds {s t : State} (h : OnlyLinkLines s t) : Upholds ok s t :=
  .of_settings (congrArg ModeControl.params h.mode) h.inputs fun _ => clean_only h

/-- A change of what the invariants do not read. -/
theorem Upholds.of_other {s t : State} (params : t.mode.params = s.mode.params) (inputs : t.router.inputs = s.router.inputs)
    (hit : t.checkHit = s.checkHit) (sweeps : t.sweeps = s.sweeps) (stack : t.stack = s.stack) : Upholds ok s t := by
  refine .of_settings params inputs fun _ hc => ?_
  simp only [Clean, State.listBad, State.ctxsBad, State.listed, State.ctx, hit, sweeps, stack]
  exact hc

/-- A loop upholds what its turns uphold, each given what is known of its element. -/
theorem foldl_upholds {α : Type} {g : State → α → State} {P : α → Prop} (turn : ∀ s a, (ok → P a) → Upholds ok s (g s a)) (l : List α)
    (s : State) (h : ok → ∀ a ∈ l, P a) : Upholds ok s (l.foldl g s) := by
  induction l generalizing s with
  | nil => exact .refl s
  | cons a l ih => exact (turn s a fun o => h o a (.head l)).trans (ih (g s a) fun o b hb => h o b (.tail a hb))

/-! ### Marks and the list -/

theorem markHit_upholds {bad : Bool} {s : State} (h : ok → Clean s → bad = false) : Upholds ok s (markHit bad s) := by
  refine .of_settings (by cases bad <;> rfl) (by cases bad <;> rfl) fun o hc => ?_
  rw [h o hc]
  exact hc

theorem markList_upholds (s : State) : Upholds ok s (markHit s.listBad s) := markHit_upholds fun _ hc => hc.2.1
theorem markCtxs_upholds (s : State) : Upholds ok s (markHit s.ctxsBad s) := markHit_upholds fun _ hc => hc.2.2

theorem markBoth_upholds (s : State) : Upholds ok s (markHit (s.listBad || s.ctxsBad) s) :=
  markHit_upholds fun _ hc => by rw [hc.2.1, hc.2.2]; rfl

theorem Upholds.of_not_clean {s t : State} (params : t.mode.params = s.mode.params) (inputs : t.router.inputs = s.router.inputs)
    (h : ¬ Clean s) : Upholds ok s t := .of_settings params inputs fun _ hc => absurd hc h

theorem withSweeps_upholds {s : State} {l : SweepList} (h : ok → Clean s → ∀ r ∈ l.recs, r.checkBad = false) :
    Upholds ok s (s.withSweeps l) := .of_settings rfl rfl fun o hc => Clean.of hc.1 (h o hc) hc.ctx

theorem changeSweep_upholds (id : Nat) {g : SweepRecord → SweepRecord} (hg : ∀ r, (g r).checkBad = r.checkBad) (s : State) :
    Upholds ok s (changeSweep id g s) := by
  refine withSweeps_upholds fun _ hc q hq => ?_
  obtain ⟨r, hr, rfl⟩ := List.mem_map.mp hq
  split
  · rw [hg]; exact hc.listed hr
  · exact hc.listed hr

theorem testReadiness_upholds (id : Nat) (s : State) : Upholds ok s (testReadiness id s) :=
  changeSweep_upholds id (readied_checkBad s) s

theorem arrivalNotice_upholds (s : State) : Upholds ok s (arrivalNotice s) := by
  refine (markList_upholds s).trans (withSweeps_upholds fun _ hc q hq => ?_)
  obtain ⟨r, hr, rfl⟩ := List.mem_map.mp hq
  rw [readied_checkBad]
  exact hc.listed hr

/-! ### Levels, the engine and the emitter -/

theorem setLock_upholds (l : LockState) (s : State) : Upholds ok s (setLock l s) :=
  (Upholds.of_other (s := s) (t := s.withTime { s.time with lock := l }) rfl rfl rfl rfl rfl).trans (setLock_only l s).upholds

theorem setOp_upholds (o : OpState) (d : Option DrainMode) (s : State) : Upholds ok s (setOp o d s) :=
  (Upholds.of_other (s := s) (t := s.withMode { s.mode with op := o, drain := d }) rfl rfl rfl rfl rfl).trans (setOp_only o d s).upholds

theorem arbitrate_upholds (s : State) : Upholds ok s (arbitrate s) := by
  unfold arbitrate
  split
  · exact .refl s
  split
  · exact .refl s
  split
  · next bad => exact .of_not_clean rfl rfl fun hc => by rw [hc.2.1] at bad; cases bad
  · next r _ _ =>
    exact (changeSweep_upholds r.id (g := fun q => { q with state := .correlating }) (fun _ => rfl) s).trans
      (quiet_engine _ _ []).upholds

theorem emitterBegin_upholds (s : State) : Upholds ok s (emitterBegin s) := by
  have frame := (emitterBegin_frame s).1
  refine .of_settings ?_ ?_ fun _ hc => (emitterBegin_quiet hc).clean hc
  · rw [frame]
  · rw [frame]

theorem drainTest_upholds (s : State) : Upholds ok s (drainTest s) := by
  unfold drainTest
  split
  · simp only
    split
    · exact ((markCtxs_upholds s).trans (setOp_upholds _ _ _)).trans (offerReport_only _ _).upholds
    · exact markCtxs_upholds s
  · exact .refl s

theorem holdChanged_upholds (s t : State) : Upholds ok t (holdChanged s t) := by
  unfold holdChanged
  split
  · exact (decideLine_quiet t).upholds
  · exact .refl t

theorem setPin_upholds (line : Fin 4) (level : Bool) (s : State) : Upholds ok s (setPin line level s) :=
  (Upholds.of_other (s := s) (t := s.withRouter { s.router with pins := s.router.pins.set line.val level }) rfl rfl rfl rfl rfl).trans
    (holdChanged_upholds s _)

/-! ### Contexts -/

theorem withCtx_upholds {s : State} {i : Fin 4} {c : Context} (h : c.checkBad = (s.ctx i).checkBad) : Upholds ok s (s.withCtx i c) :=
  (quiet_ctx s i c h []).upholds

theorem freeCtx_upholds (i : Fin 4) (s : State) : Upholds ok s (freeCtx i s) := (quiet_free i s []).upholds

theorem closeCtx_upholds (i : Fin 4) (s : State) : Upholds ok s (closeCtx i s) := by
  unfold closeCtx
  split
  · have closing : Upholds ok s ((s.withCtx i { s.ctx i with state := .closing }).withEmitter
        { s.emitter with closing := s.emitter.closing ++ [i] }) := (withCtx_upholds (by rfl)).trans (quiet_emitter _ _ []).upholds
    simp only
    split
    · exact closing.trans (emitterBegin_upholds _)
    · exact closing
  · exact (vpDone_quiet i 0 s).upholds.trans (freeCtx_upholds i _)

theorem applyClose_upholds (i : Fin 4) (s : State) : Upholds ok s (applyClose i s) := by
  unfold applyClose
  split
  · exact closeCtx_upholds i s
  · exact .refl s

theorem attachCtx_upholds (i : Fin 4) (k : Nat) (s : State) : Upholds ok s (attachCtx i k s).1 := by
  unfold attachCtx
  simp only
  split
  · exact .refl s
  split
  · exact .refl s
  split
  · exact .refl s
  · exact withCtx_upholds (by rfl)

theorem openFree_upholds (vp : VpId) (k target : Nat) (s : State) : Upholds ok s (openFree vp k target s).1 := by
  unfold openFree
  split
  · exact (openCtx_quiet _ vp k target s []).upholds
  · exact .refl s

theorem resolveCtx_upholds (vp : VpId) (k target : Nat) (s : State) : Upholds ok s (resolveCtx vp k target s).1 := by
  unfold resolveCtx
  split
  · next bad => exact .of_not_clean rfl rfl fun hc => by rw [hc.2.2] at bad; cases bad
  split
  · exact attachCtx_upholds _ k s
  split
  · exact openFree_upholds vp k target s
  split
  · exact (closeCtx_upholds _ s).trans (openFree_upholds vp k target _)
  · exact .refl s

/-! ### Drops and entries -/

/-- The mark of a drop or a compare, which reads the sweep's record and its context's. -/
theorem markRecord_upholds {r : SweepRecord} (s : State) (good : ok → r.checkBad = false) :
    Upholds ok s (markHit (r.checkBad || (s.ctx r.ctx).checkBad) s) :=
  markHit_upholds fun o hc => by rw [good o, hc.ctx]; rfl

theorem dropSweep_upholds (cause : DropCause) (close : Bool) {r : SweepRecord} (s : State) (good : ok → r.checkBad = false) :
    Upholds ok s (dropSweep cause close s r) := by
  have marked := markRecord_upholds s good
  have pre : Upholds ok s (dropPre cause s r) := by
    unfold dropPre
    set s0 := markHit (r.checkBad || (s.ctx r.ctx).checkBad) s
    have left : Upholds ok s (unlist r.id (if r.state = .correlating then abandonJob s0 else s0)) := by
      refine (marked.trans ?_).trans (quiet_unlist _ r.id []).upholds
      split
      · exact (quiet_engine s0 _ []).upholds
      · exact .refl s0
    have counted := left.trans (withCtx_upholds (i := r.ctx) (c := { (unlist r.id (if r.state = .correlating then abandonJob s0 else s0)).ctx r.ctx with
      attached := ((unlist r.id (if r.state = .correlating then abandonJob s0 else s0)).ctx r.ctx).attached - 1
      dropped := ((unlist r.id (if r.state = .correlating then abandonJob s0 else s0)).ctx r.ctx).dropped + 1 }) rfl)
    have told := (counted.trans (offerReport_only (.sweepDropped r.id r.fleet r.vp r.t0 cause (some r.state) (some r.ctx)) _).upholds).trans
      (raiseEvent_only .sweepDropped _).upholds
    simp only
    split
    · exact told.trans (raiseEvent_only .ringLate _).upholds
    · exact told
  rw [dropSweep_eq]
  split
  · exact pre.trans (applyClose_upholds _ _)
  · exact pre

theorem dropWhere_upholds (p : SweepRecord → Bool) (cause : DropCause) (close : Bool) (s : State) :
    Upholds ok s (dropWhere p cause close s) :=
  .of_clean (foldl_upholds (P := fun r : SweepRecord => r.checkBad = false) (fun s _ good => dropSweep_upholds cause close s good) _ s
    fun hc _ hr => hc.listed (List.mem_of_mem_filter hr))

theorem evictionNotice_upholds (oldest : Nat) (s : State) : Upholds ok s (evictionNotice oldest s) :=
  (markList_upholds s).trans (dropWhere_upholds _ _ _ _)

theorem listSweep_upholds {r : SweepRecord} (good : r.checkBad = false) (s : State) : Upholds ok s (listSweep r s).1 := by
  refine withSweeps_upholds fun _ hc q hq => ?_
  rcases insertSweep_mem.mp hq with rfl | hq
  · exact good
  · exact hc.listed hq

theorem enterSweep_upholds (origin : Origin) (f : Fin 4) (vp : VpId) (t0 : SampleIndex) (compare : Option Nat) (s : State) :
    Upholds ok s (enterSweep origin f vp t0 compare s).1 := by
  unfold enterSweep
  simp only
  split
  · next bad => exact .of_not_clean rfl rfl fun hc => by rw [hc.2.1] at bad; cases bad
  split
  · exact .refl s
  split
  · exact .refl s
  split
  · exact .refl s
  have resolved := resolveCtx_upholds (ok := ok) vp (s.fleet f).k (s.fleet f).target s
  generalize resolveCtx vp (s.fleet f).k (s.fleet f).target s = answer at resolved
  obtain ⟨u, i | why | ended⟩ := answer
  case refused => exact resolved
  case ended => exact resolved
  case attached =>
    cases compare with
    | some c => exact resolved.trans (listSweep_upholds (by rfl) u)
    | none =>
      exact ((resolved.trans (listSweep_upholds (by rfl) u)).trans (offerReport_only _ _).upholds).trans (testReadiness_upholds _ _)

theorem entered_upholds {origin : Origin} {f : Fin 4} {vp : VpId} {t0 : SampleIndex} {compare : Option Nat} {s u : State} {e : Entry}
    (h : enterSweep origin f vp t0 compare s = (u, e)) : Upholds ok s u := by
  have kept := enterSweep_upholds (ok := ok) origin f vp t0 compare s
  rwa [h] at kept

/-! ### Compares, the tick and the edge -/

theorem fireSweep_upholds {r : SweepRecord} (s : State) (good : ok → r.checkBad = false) : Upholds ok s (fireSweep s r) := by
  set s1 := raiseEvent (.startPulse r.fleet) (markHit (r.checkBad || (s.ctx r.ctx).checkBad) s) with hs1
  have raised : Upholds ok s s1 := (markRecord_upholds s good).trans (raiseEvent_only _ _).upholds
  have waiting := raised.trans (changeSweep_upholds r.id (g := fun q => { q with state := .waiting, compare := none }) (fun _ => rfl) s1)
  have entered := waiting.trans (offerReport_only (.sweepEntered r.id r.origin r.fleet r.vp r.t0 r.ctx
    ((changeSweep r.id (fun q => { q with state := .waiting, compare := none }) s1).ctx r.ctx).gen) _).upholds
  exact entered.trans (testReadiness_upholds r.id _)

theorem tickCompares_upholds (s : State) : Upholds ok s (tickCompares s) :=
  (markList_upholds s).trans (.of_clean (foldl_upholds (P := fun r : SweepRecord => r.checkBad = false)
    (fun s _ good => fireSweep_upholds s good) _ _ fun hc _ hr => hc.listed (List.mem_of_mem_filter hr)))

theorem stepCompares_upholds (old new : Nat) (s : State) : Upholds ok s (stepCompares old new s) := by
  refine (markList_upholds s).trans (.of_clean (foldl_upholds (P := fun r : SweepRecord => r.checkBad = false) (fun s r good => ?_) _ _
    fun hc _ hr => hc.listed (List.mem_of_mem_filter hr)))
  split
  · exact fireSweep_upholds s good
  · exact dropSweep_upholds .missed true s good

theorem preTick_upholds (s : State) : Upholds ok s (preTick s) :=
  (Upholds.of_other (s := s) (t := { s with time := (preTick s).time, engine := (tickJob s).engine }) rfl rfl rfl rfl rfl).trans
    (preTick_only s).upholds

theorem tick_upholds (s : State) : Upholds ok s (tick s) := by
  rw [tick_eq]
  exact ((preTick_upholds s).trans (tickCompares_upholds _)).trans (arbitrate_upholds _)

theorem ppsReport_upholds (was : LockState) (step : Int) (s : State) : Upholds ok s (ppsReport was step s) := by
  unfold ppsReport
  split
  · exact (offerReport_only _ s).upholds
  · exact (offerReport_only _ s).upholds
  · split
    · exact .refl s
    · exact (offerReport_only _ s).upholds

theorem alignPps_upholds (s : State) : Upholds ok s (alignPps s) := by
  have timed (r : Timebase) : Upholds ok s (s.withTime r) := .of_other rfl rfl rfl rfl rfl
  have reported := ((timed _).trans (setLock_upholds .locked _)).trans (ppsReport_upholds (ok := ok) s.time.lock
    (ppsStep s.sps s.time.n.toNat) (setLock .locked (s.withTime { s.time with
      n := BitVec.ofInt 48 ((s.time.n.toNat : Int) + ppsStep s.sps s.time.n.toNat)
      a := BitVec.ofInt 48 ((s.time.n.toNat : Int) + ppsStep s.sps s.time.n.toNat) })))
  unfold alignPps
  refine (Upholds.trans ?_ (drainTest_upholds _)).trans (arbitrate_upholds _)
  split
  · exact reported
  · exact reported.trans (stepCompares_upholds _ _ _)

theorem takeBreak_upholds (f : Fin 4) (s : State) : Upholds ok s (takeBreak f s) := by
  have armed (r : FleetRecord) : Upholds ok s (s.withFleet f r) := .of_other rfl rfl rfl rfl rfl
  unfold takeBreak
  split
  · exact (offerReport_only _ s).upholds
  split
  · exact (offerReport_only _ s).upholds
  simp only
  split
  · next h => exact ((armed _).trans (entered_upholds h)).trans (arbitrate_upholds _)
  · next h => exact ((armed _).trans (entered_upholds h)).trans (offerReport_only _ _).upholds
  · next h => exact (armed _).trans (entered_upholds h)

end Sys2Proof.Machine
end

section
/-! PROOFS. Every command upholds the ranges of the parameters, the uniqueness of the input roles and the absence of check errors, and so
does every step (R52, R60, R82, R113, R151, R161). -/

namespace Sys2Proof.Machine

variable {ok : Prop}

/-! ### The resets -/

theorem warmRestart_upholds (cause : ResetCause) (tag : Byte) (s : State) : Upholds ok s (warmRestart cause tag s) := by
  have only := placeNotice_only (.report tag (.restarted cause)) (restartBase cause s.link.tx s.carried)
  have listed : (warmRestart cause tag s).listed = [] := only.listed
  have mode : (warmRestart cause tag s).mode = { s.mode with op := .setup, drain := none, cause := cause } := only.mode
  refine .of_settings (by rw [mode]) only.inputs fun _ _ => Clean.of only.checkHit (fun r hr => ?_) fun i => ?_
  · rw [listed] at hr
    cases hr
  · rw [warmRestart_ctx]
    rfl

theorem coldReset_upholds (cause : ResetCause) (s : State) : Upholds ok s (coldReset cause s) := by
  refine ⟨fun _ => ?_, fun _ i j _ held => absurd ?_ held, fun _ _ => Clean.of rfl (fun _ hr => nomatch hr) fun i => ?_⟩
  · show ParamsInRange State.reset
    unfold ParamsInRange
    decide
  · exact congrArg InputEntry.role (cold_inputs s.router.pins i)
  · rw [coldReset_ctx]
    rfl

theorem completeReset_upholds (code : Fin 4) (position : Fin 8) (s : State) : Upholds ok s (completeReset code position s) := by
  set t := s.withMode { s.mode with sizeCode := code, position := position, held := false } with ht
  have latched : Upholds ok s (t.withLink { t.link with notices := [] }) := .of_other rfl rfl rfl rfl rfl
  exact latched.trans (placeNotice_only _ _).upholds

/-! ### Parameters and routes -/

/-- A parameter set stored in place of another whose values lie in their ranges. -/
theorem withParams_upholds {s : State} {p : Params} (fits : ParamsInRange s → ParamsInRange (s.withParams p)) :
    Upholds ok s (s.withParams p) := ⟨fits, id, fun _ => id⟩

theorem enterHoldover_upholds (s : State) : Upholds ok s (enterHoldover s) :=
  (setLock_upholds .holdover s).trans (offerReport_only _ _).upholds

theorem storeInterval_upholds (v : Nat) (s : State) : Upholds ok s (storeInterval v s) := by
  unfold storeInterval
  split
  · exact .refl s
  next i _ =>
  split
  · exact .refl s
  have stored : Upholds ok s (s.withParams { s.mode.params with interval := i }) := withParams_upholds id
  simp only
  split
  · exact stored
  · exact (stored.trans (.of_other (t := (s.withParams { s.mode.params with interval := i }).withTime
      { s.time with a := s.time.n }) rfl rfl rfl rfl rfl)).trans (setLock_upholds .free _)

/-- The write of the holdover limit, its value clamped to 1..60 (R46, R161). -/
theorem storeHoldover_eq (v : Nat) (s : State) : storeHoldover v s =
    if max 1 (min 60 v) = s.mode.params.holdover then s
    else if s.time.lock = .locked ∧ s.sps * max 1 (min 60 v) + s.sps / 2 ≤ (s.time.n - s.time.a).toNat then
      enterHoldover (s.withParams { s.mode.params with holdover := max 1 (min 60 v) })
    else s.withParams { s.mode.params with holdover := max 1 (min 60 v) } := by
  have clamp : (if v = 0 then 1 else min v 60) = max 1 (min 60 v) := by split <;> omega
  unfold storeHoldover
  simp only [clamp]
  rfl

theorem storeHoldover_upholds (v : Nat) (s : State) : Upholds ok s (storeHoldover v s) := by
  rw [storeHoldover_eq]
  set h := max 1 (min 60 v) with hh
  split
  · exact .refl s
  have stored : Upholds ok s (s.withParams { s.mode.params with holdover := h }) :=
    withParams_upholds fun ⟨margin, _, _, enables⟩ => ⟨margin, (by omega : 1 ≤ h), (by omega : h ≤ 60), enables⟩
  split
  · exact stored.trans (enterHoldover_upholds _)
  · exact stored

/-- The three lasting enables stand in every mask stored (R151). -/
theorem storedMask_enables (v : Nat) {k : Nat} (h : k < 3) : (BitVec.ofNat 12 v ||| 7).getLsbD k = true := by
  rw [BitVec.getLsbD_or, Bool.or_eq_true]
  right
  interval_cases k <;> rfl

theorem storeParam_upholds (key v : Nat) (s : State) : Upholds ok s (storeParam key v s) := by
  unfold storeParam
  split
  · exact storeInterval_upholds v s
  · exact withParams_upholds fun ⟨_, rest⟩ => ⟨Nat.min_le_right v 255, rest⟩
  · split
    · exact withParams_upholds id
    · exact withParams_upholds id
    · exact .refl s
  · split
    · exact withParams_upholds id
    · exact withParams_upholds id
    · exact .refl s
  · exact storeHoldover_upholds v s
  · exact withParams_upholds fun ⟨margin, low, high, _⟩ =>
      ⟨margin, low, high, storedMask_enables v (by decide), storedMask_enables v (by decide), storedMask_enables v (by decide)⟩
  · exact .refl s

theorem paramSet_upholds (f : RxFrame) (s : State) : Upholds ok s (paramSet f s) := by
  unfold paramSet
  simp only
  split
  · exact (placeReply_only _ _ _ s).upholds
  · exact (storeParam_upholds _ _ s).trans (placeReply_only _ _ _ _).upholds

/-- The input routes with an entry stored: another line that held its role becomes NONE (R52). -/
theorem storeInput_inputs (line : Fin 4) (role : Option Role) (pol : Option Polarity) (r : Router) (i : Fin 4) :
    (storeInput line role pol r).inputs[i.val] =
      if i = line then { role := role.getD r.inputs[line.val].role, polarity := pol.getD r.inputs[line.val].polarity }
      else { r.inputs[i.val] with
        role := if r.inputs[i.val].role = role.getD r.inputs[line.val].role then .none else r.inputs[i.val].role } := by
  unfold storeInput
  by_cases h : i = line
  · subst h
    simp
  · rw [if_neg h]
    simp only
    rw [Vector.getElem_set_ne (h := fun e => h (Fin.ext e.symm)), mapFour_getElem]
    split <;> rfl

/-- A role stored on a line is left on no other (R52). -/
theorem storeInput_unique (line : Fin 4) (role : Option Role) (pol : Option Polarity) {s : State} (h : RolesUnique s) :
    RolesUnique (s.withRouter (storeInput line role pol s.router)) := by
  intro i j same held
  simp only [State.withRouter_router, storeInput_inputs] at same held
  by_cases hi : i = line
  · by_cases hj : j = line
    · rw [hi, hj]
    · rw [if_pos hi] at same held
      rw [if_neg hj] at same
      simp only at same held
      split at same
      · exact absurd same held
      · next other => exact absurd same.symm other
  · rw [if_neg hi] at same held
    simp only at same held
    split at same
    · next taken => rw [if_pos taken] at held; exact absurd rfl held
    next kept =>
    rw [if_neg kept] at held
    by_cases hj : j = line
    · rw [if_pos hj] at same
      exact absurd same kept
    · rw [if_neg hj] at same
      simp only at same
      split at same
      · exact absurd same held
      · exact h i j same held

theorem routeSet_upholds (f : RxFrame) (s : State) : Upholds ok s (routeSet f s) := by
  unfold routeSet
  simp only
  split
  · next line _ _ =>
    have stored (role : Option Role) (pol : Option Polarity) : Upholds ok s (s.withRouter (storeInput line role pol s.router)) :=
      ⟨id, storeInput_unique line role pol, fun _ => id⟩
    exact ((stored _ _).trans (holdChanged_upholds s _)).trans (placeReply_only _ _ _ _).upholds
  · next line _ _ =>
    have stored (src : Option Source) (form : Option Form) (width : Nat) (pol : Option Polarity) :
        Upholds ok s (storeOutput line src form width pol s) := .of_other rfl rfl rfl rfl rfl
    exact (stored _ _ _ _).trans (placeReply_only _ _ _ _).upholds
  · exact (placeReply_only _ _ _ s).upholds

theorem timeSet_upholds (f : RxFrame) (s : State) : Upholds ok s (timeSet f s) := by
  have timed (r : Timebase) : Upholds ok s (s.withTime r) := .of_other rfl rfl rfl rfl rfl
  unfold timeSet
  split
  · exact ((timed _).trans (setLock_upholds .free _)).trans (placeReply_only _ _ _ _).upholds
  · exact (placeReply_only _ _ _ s).upholds

/-! ### The link and the modes -/

theorem syncRequest_upholds (f : RxFrame) (s : State) : Upholds ok s (syncRequest f s) :=
  (placeReply_only _ _ _ s).upholds.trans (withLink_only _ _).upholds

theorem startRequest_upholds (f : RxFrame) (s : State) : Upholds ok s (startRequest f s) := by
  unfold startRequest
  split
  · exact (setOp_upholds _ _ s).trans (placeReply_only _ _ _ _).upholds
  · exact (placeReply_only _ _ _ s).upholds

theorem pendCtx_upholds (s : State) (i : Fin 4) : Upholds ok s (pendCtx s i) := by
  unfold pendCtx
  split
  · exact withCtx_upholds (by rfl)
  · exact .refl s

theorem discardCtx_upholds (s : State) (i : Fin 4) : Upholds ok s (discardCtx s i) := by
  unfold discardCtx
  split
  · exact freeCtx_upholds i s
  · exact .refl s

/-- A loop each of whose turns upholds the invariants by itself. -/
theorem foldl_upholds_all {α : Type} {g : State → α → State} (turn : ∀ s a, Upholds ok s (g s a)) (l : List α) (s : State) :
    Upholds ok s (l.foldl g s) := foldl_upholds (P := fun _ => True) (fun s a _ => turn s a) l s fun _ _ _ => trivial

theorem finishAcquire_upholds (s : State) : Upholds ok s (finishAcquire s) := by
  have drained := (markBoth_upholds (ok := ok) s).trans (setOp_upholds .draining (some .finish) _)
  have dropped := drained.trans (dropWhere_upholds (fun r => decide (r.state = .scheduled)) .stopped true _)
  have closed := (dropped.trans (foldl_upholds_all pendCtx_upholds ctxOrder _)).trans
    (foldl_upholds_all (fun t i => applyClose_upholds i t) ctxOrder _)
  exact closed.trans (drainTest_upholds _)

theorem stopFinish_upholds (f : RxFrame) (s : State) : Upholds ok s (stopFinish f s) := by
  unfold stopFinish
  split
  · exact (placeReply_only _ _ _ s).upholds
  · split
    · exact (placeReply_only _ _ _ s).upholds
    · exact (placeReply_only _ _ _ s).upholds
    · exact (finishAcquire_upholds s).trans (placeReply_only _ _ _ _).upholds

theorem discardAll_upholds (s : State) : Upholds ok s (discardAll s) := by
  have drained := (markBoth_upholds (ok := ok) s).trans (setOp_upholds .draining (some .discard) _)
  have dropped := drained.trans (dropWhere_upholds (fun _ => true) .stopped false _)
  exact (dropped.trans (foldl_upholds_all discardCtx_upholds ctxOrder _)).trans (drainTest_upholds _)

theorem stopDiscard_upholds (f : RxFrame) (s : State) : Upholds ok s (stopDiscard f s) := by
  unfold stopDiscard
  split
  · exact (placeReply_only _ _ _ s).upholds
  · exact (discardAll_upholds s).trans (placeReply_only _ _ _ _).upholds

/-! ### The fleet table and the pilot table -/

theorem withFleet_upholds (s : State) (f : Fin 4) (r : FleetRecord) : Upholds ok s (s.withFleet f r) := .of_other rfl rfl rfl rfl rfl
theorem withSlot_upholds (s : State) (i : Fin 8) (p : PilotSlot) : Upholds ok s (s.withSlot i p) := .of_other rfl rfl rfl rfl rfl

/-- A read of the list that finds a check error, where none stands. -/
theorem foundList_upholds {s : State} (bad : s.listBad = true) : Upholds ok s (markHit true s) :=
  .of_not_clean rfl rfl fun hc => by rw [hc.2.1] at bad; cases bad

theorem fleetSet_upholds (f : RxFrame) (s : State) : Upholds ok s (fleetSet f s) := by
  unfold fleetSet
  simp only
  split
  · exact (placeReply_only _ _ _ s).upholds
  split
  · next bad => exact foundList_upholds bad
  split
  · exact (placeReply_only _ _ _ s).upholds
  split
  · exact (placeReply_only _ _ _ s).upholds
  · exact (withFleet_upholds s _ _).trans (placeReply_only _ _ _ _).upholds

theorem fleetGet_upholds (f : RxFrame) (s : State) : Upholds ok s (fleetGet f s) := by
  unfold fleetGet
  simp only
  split <;> exact (placeReply_only _ _ _ s).upholds

theorem armRequest_upholds (f : RxFrame) (s : State) : Upholds ok s (armRequest f s) := by
  unfold armRequest
  simp only
  split
  · exact (placeReply_only _ _ _ s).upholds
  · exact (withFleet_upholds s _ _).trans (placeReply_only _ _ _ _).upholds

theorem pilotOpen_upholds (f : RxFrame) (s : State) : Upholds ok s (pilotOpen f s) := by
  unfold pilotOpen
  simp only
  split
  · exact (placeReply_only _ _ _ s).upholds
  split
  · next bad => exact foundList_upholds bad
  split
  · exact (placeReply_only _ _ _ s).upholds
  split
  · exact (placeReply_only _ _ _ s).upholds
  · exact (withSlot_upholds s _ _).trans (placeReply_only _ _ _ _).upholds

theorem pilotFailed_upholds (i : Fin 8) (cause : PilotFailure) (closing : Option Word) (s : State) :
    Upholds ok s (pilotFailed i cause closing s) := (offerReport_only _ s).upholds

theorem pilotWords_upholds (f : RxFrame) (s : State) : Upholds ok s (pilotWords f s) := by
  unfold pilotWords
  simp only
  split
  · exact (placeReply_only _ _ _ s).upholds
  split
  · exact (placeReply_only _ _ _ s).upholds
  split
  · exact ((withSlot_upholds s _ _).trans (pilotFailed_upholds _ _ _ _)).trans (placeReply_only _ _ _ _).upholds
  · exact (withSlot_upholds s _ _).trans (placeReply_only _ _ _ _).upholds

theorem pilotClose_upholds (f : RxFrame) (s : State) : Upholds ok s (pilotClose f s) := by
  unfold pilotClose
  simp only
  split
  · exact (placeReply_only _ _ _ s).upholds
  split
  · exact (placeReply_only _ _ _ s).upholds
  split
  · exact ((withSlot_upholds s _ _).trans (pilotFailed_upholds _ _ _ _)).trans (placeReply_only _ _ _ _).upholds
  split
  · exact ((withSlot_upholds s _ _).trans (pilotFailed_upholds _ _ _ _)).trans (placeReply_only _ _ _ _).upholds
  · exact (withSlot_upholds s _ _).trans (placeReply_only _ _ _ _).upholds

/-! ### The sweep list and the contexts -/

theorem postRequest_upholds (f : RxFrame) (s : State) : Upholds ok s (postRequest f s) := by
  unfold postRequest
  split
  · exact (placeReply_only _ _ _ s).upholds
  split
  · exact (placeReply_only _ _ _ s).upholds
  split
  · next h => exact ((entered_upholds h).trans (placeReply_only _ _ _ _).upholds).trans (arbitrate_upholds _)
  · next h => exact (entered_upholds h).trans (placeReply_only _ _ _ _).upholds
  · next h => exact entered_upholds h

theorem scheduleRequest_upholds (f : RxFrame) (s : State) : Upholds ok s (scheduleRequest f s) := by
  unfold scheduleRequest
  split
  · exact (placeReply_only _ _ _ s).upholds
  simp only
  split
  · exact (placeReply_only _ _ _ s).upholds
  split
  · exact (placeReply_only _ _ _ s).upholds
  split
  · exact (placeReply_only _ _ _ s).upholds
  split
  · next h => exact (entered_upholds h).trans (placeReply_only _ _ _ _).upholds
  · next h => exact (entered_upholds h).trans (placeReply_only _ _ _ _).upholds
  · next h => exact entered_upholds h

theorem cancelRequest_upholds (f : RxFrame) (s : State) : Upholds ok s (cancelRequest f s) := by
  have marked := markList_upholds (ok := Clean s) s
  refine .of_clean ?_
  unfold cancelRequest
  simp only
  split
  · exact marked.trans (placeReply_only _ _ _ _).upholds
  next r found =>
  have good (hc : Clean s) : r.checkBad = false := hc.listed (mark_listed _ s ▸ List.mem_of_find?_eq_some found)
  exact (((marked.trans (dropSweep_upholds .cancelled true _ good)).trans (drainTest_upholds _)).trans
    (placeReply_only _ _ _ _).upholds).trans (arbitrate_upholds _)

theorem closeWait_upholds (f : RxFrame) (s : State) : Upholds ok s (closeWait f s) := by
  have marked := markCtxs_upholds (ok := ok) s
  unfold closeWait
  split
  · exact (placeReply_only _ _ _ s).upholds
  simp only
  split
  · exact marked.trans (placeReply_only _ _ _ _).upholds
  · exact (((marked.trans (withCtx_upholds (by rfl))).trans (applyClose_upholds _ _)).trans (drainTest_upholds _)).trans
      (placeReply_only _ _ _ _).upholds

theorem closeAttached_upholds (i : Fin 4) (s : State) : Upholds ok s (closeAttached i s) := by
  unfold closeAttached
  split
  · exact applyClose_upholds i s
  · exact dropWhere_upholds _ _ _ s

theorem closeNow_upholds (f : RxFrame) (s : State) : Upholds ok s (closeNow f s) := by
  have marked := markBoth_upholds (ok := ok) s
  unfold closeNow
  simp only
  split
  · exact marked.trans (placeReply_only _ _ _ _).upholds
  · exact ((((marked.trans (withCtx_upholds (by rfl))).trans (closeAttached_upholds _ _)).trans (drainTest_upholds _)).trans
      (placeReply_only _ _ _ _).upholds).trans (arbitrate_upholds _)

/-! ### The job and the emitter -/

theorem withEngine_upholds (s : State) (e : Engine) : Upholds ok s (s.withEngine e) := (quiet_engine s e []).upholds
theorem withEmitter_upholds (s : State) (e : Emitter) : Upholds ok s (s.withEmitter e) := (quiet_emitter s e []).upholds

theorem endPass_upholds (s : State) : Upholds ok s (endPass s) := by
  unfold endPass
  split
  · exact .refl s
  split
  · exact .refl s
  · exact (withEngine_upholds s _).trans (withEngine_upholds _ _)

theorem completeSweep_upholds (r : SweepRecord) (s : State) : Upholds ok s (completeSweep r s) := by
  unfold completeSweep
  have folded : Upholds ok s (s.withCtx r.ctx (foldedCtx (s.ctx r.ctx) s.engine.scratch)) := withCtx_upholds (by rfl)
  refine ((Upholds.trans ?_ (applyClose_upholds r.ctx _)).trans (drainTest_upholds _)).trans (arbitrate_upholds _)
  exact (((folded.trans (offerReport_only _ _).upholds).trans (raiseEvent_only .sweepFolded _).upholds).trans
    (quiet_unlist _ r.id []).upholds).trans (withEngine_upholds _ Engine.idle)

theorem completeJob_upholds (s : State) : Upholds ok s (completeJob s) := by
  unfold completeJob
  split
  · exact .refl s
  split
  · exact .refl s
  split
  · exact .refl s
  next r found =>
  split
  · next bad =>
    refine .of_not_clean rfl rfl fun hc => ?_
    rw [hc.listed (List.mem_of_find?_eq_some found), hc.ctx] at bad
    cases bad
  · exact (withEngine_upholds s _).trans (completeSweep_upholds r _)

theorem endEmission_upholds (cu : Cursor) (s : State) : Upholds ok s (endEmission cu s) := by
  have marked : Upholds ok s (markHit (s.ctx cu.ctx).checkBad s) := markHit_upholds fun _ hc => hc.ctx cu.ctx
  have freed := (marked.trans (vpDone_quiet cu.ctx cu.sent _).upholds).trans (freeCtx_upholds cu.ctx _)
  exact ((freed.trans (withEmitter_upholds _ _)).trans (emitterBegin_upholds _)).trans (drainTest_upholds _)

theorem traceSent_upholds (cu : Cursor) (s : State) : Upholds ok s (traceSent cu s) := by
  unfold traceSent
  simp only
  split
  · exact (withEmitter_upholds s _).trans (endEmission_upholds _ _)
  · exact withEmitter_upholds s _

theorem endMessage_upholds (m : TxMessage) (s : State) : Upholds ok s (endMessage m s) := by
  have ended : Upholds ok s (s.withLink { s.link with tx := none }) := (withLink_only _ s).upholds
  unfold endMessage
  simp only
  split
  · exact ended
  split
  · exact ended
  split
  · exact ended.trans (traceSent_upholds _ _)
  · exact ended

/-! ### The spread port -/

theorem withRing_upholds (s : State) (r : Ring) : Upholds ok s (s.withRing r) := .of_other rfl rfl rfl rfl rfl

theorem spreadFault_upholds (kind : FaultKind) (loc : Option (Nat × Nat)) (s : State) : Upholds ok s (spreadFault kind loc s) := by
  unfold spreadFault
  split
  · exact (withRing_upholds s _).trans (offerReport_only _ _).upholds
  · exact withRing_upholds s _

theorem frameWritten_upholds (s : State) : Upholds ok s (frameWritten s) :=
  ((arrivalNotice_upholds s).trans (drainTest_upholds _)).trans (arbitrate_upholds _)

theorem firstFrame_upholds (g b : Nat) (xs : List RingSample) (s : State) : Upholds ok s (firstFrame g b xs s) := by
  have written : Upholds ok s (writeBlock g b xs (s.withRing { s.ring with head := some b })) := withRing_upholds s _
  unfold firstFrame
  refine Upholds.trans ?_ (frameWritten_upholds _)
  split
  · exact written.trans (evictionNotice_upholds _ _)
  · exact written

theorem advanceFrame_upholds (old g b : Nat) (xs : List RingSample) (s : State) : Upholds ok s (advanceFrame old g b xs s) := by
  have advanced : Upholds ok s (advanceHead old b s) := withRing_upholds s _
  unfold advanceFrame
  refine (Upholds.trans ?_ (withRing_upholds _ _)).trans (frameWritten_upholds _)
  split
  · exact advanced.trans (evictionNotice_upholds _ _)
  · exact advanced

theorem placeBlock_upholds (g group b : Nat) (xs : List RingSample) (s : State) : Upholds ok s (placeBlock g group b xs s) := by
  unfold placeBlock
  split
  · exact spreadFault_upholds _ _ s
  split
  · exact firstFrame_upholds g b xs s
  split
  · exact spreadFault_upholds _ _ s
  split
  · exact advanceFrame_upholds _ g b xs s
  split
  · exact withRing_upholds s _
  split
  · exact withRing_upholds s _
  · exact (withRing_upholds s _).trans (frameWritten_upholds _)

theorem judgeBlock_upholds (bytes : List Byte) (s : State) : Upholds ok s (judgeBlock bytes s) := by
  unfold judgeBlock
  split
  · exact spreadFault_upholds _ _ s
  split
  · exact spreadFault_upholds _ _ s
  split
  · exact .refl s
  · exact placeBlock_upholds _ _ _ _ s

theorem receivePiece_upholds (bytes : List Byte) (last : Bool) (s : State) : Upholds ok s (receivePiece bytes last s) := by
  unfold receivePiece
  split
  · exact withRing_upholds s _
  · split
    · exact judgeBlock_upholds bytes s
    · exact withRing_upholds s _
  · split
    · exact (withRing_upholds s _).trans (judgeBlock_upholds _ _)
    · exact withRing_upholds s _

/-! ### Every command -/

theorem settle_upholds (s : State) : Upholds ok s (settle s) := by
  unfold settle
  split
  · exact warmRestart_upholds .tableCheck 0 s
  · exact .refl s

theorem handle_upholds {s u t : State} {g : State → State} (hu : Upholds ok s u) (hg : Upholds ok u (g u)) (h : handle g u = .next t) :
    Upholds ok s t := by
  unfold handle at h
  split at h
  · cases h; exact hu
  · cases h; exact (hu.trans hg).trans (settle_upholds _)

theorem takeRequest_upholds {f : RxFrame} {g : State → State} {s t : State} (hg : ∀ u, Upholds ok u (g u))
    (h : takeRequest f g s = .next t) : Upholds ok s t := by
  refine handle_upholds (.refl s) ?_ h
  split
  · exact .refl s
  split
  · have counted (l : HostLink) : Upholds ok s (s.withLink l) := (withLink_only l s).upholds
    simp only
    split
    · exact (counted _).trans (placeReply_only _ _ _ _).upholds
    · exact (counted _).trans (placeReply_only _ _ _ _).upholds
    · exact (counted _).trans (hg _)
  · exact .refl s

theorem replyOnly_upholds (f : RxFrame) (st : Status) (c : State → List Byte) {s t : State}
    (h : takeRequest f (fun u => placeReply f st (c u) u) s = .next t) : Upholds ok s t :=
  takeRequest_upholds (fun u => (placeReply_only f st (c u) u).upholds) h

theorem tickWhen_upholds {p : State → Prop} [DecidablePred p] {s t : State}
    (h : handle (fun t => if p t then tick t else t) s = .next t) : Upholds ok s t := by
  refine handle_upholds (.refl s) ?_ h
  split
  · exact tick_upholds s
  · exact .refl s

theorem next_upholds {s u t : State} (hu : Upholds ok s u)
    (h : (Host.Outcome.next u : Host.Outcome State Fault Refusal) = .next t) : Upholds ok s t := by
  cases h; exact hu

theorem execTransmissionEnd_upholds {s t : State} (h : execTransmissionEnd s = .next t) : Upholds ok s t := by
  refine handle_upholds (.refl s) ?_ h
  split
  · exact .refl s
  · exact (endMessage_upholds _ s).trans (decideLine_quiet _).upholds

theorem execBlockFrame_upholds {piece : FramePiece} {s t : State} (h : execBlockFrame piece s = .next t) : Upholds ok s t := by
  unfold execBlockFrame at h
  split at h
  · exact next_upholds (withRing_upholds s _) h
  · exact handle_upholds (.refl s) (receivePiece_upholds _ _ s) h

theorem execPpsEdge_upholds {line : Fin 4} {level : Bool} {s t : State} (h : execPpsEdge line level s = .next t) : Upholds ok s t := by
  refine handle_upholds (setPin_upholds line level s) ?_ h
  split
  · exact alignPps_upholds _
  · exact .refl _

theorem execTimeBreak_upholds {line : Fin 4} {level : Bool} {s t : State} (h : execTimeBreak line level s = .next t) :
    Upholds ok s t := by
  refine handle_upholds (setPin_upholds line level s) ?_ h
  split
  · exact takeBreak_upholds _ _
  · exact .refl _

/-- Every command upholds the invariants of the small tables. -/
theorem exec_upholds {c : Instr} {s t : State} (h : exec c s = .next t) : Upholds ok s t := by
  cases c with
  | ident => exact replyOnly_upholds _ _ identContents h
  | status =>
    exact takeRequest_upholds (fun u => (markBoth_upholds u).trans (placeReply_only _ _ _ _).upholds) h
  | paramSet => exact takeRequest_upholds (paramSet_upholds _) h
  | paramGet => exact replyOnly_upholds _ _ (paramContents _) h
  | start => exact takeRequest_upholds (startRequest_upholds _) h
  | stopFinish tag body =>
    simp only [exec, execStopFinish] at h
    split at h
    · exact next_upholds (.refl s) h
    · exact takeRequest_upholds (stopFinish_upholds _) h
  | stopDiscard tag body =>
    simp only [exec, execStopDiscard] at h
    split at h
    · exact takeRequest_upholds (stopDiscard_upholds _) h
    · exact next_upholds (.refl s) h
  | restart tag => exact takeRequest_upholds (warmRestart_upholds .restart tag) h
  | sync => exact takeRequest_upholds (syncRequest_upholds _) h
  | timeSet => exact takeRequest_upholds (timeSet_upholds _) h
  | routeSet => exact takeRequest_upholds (routeSet_upholds _) h
  | routeGet => exact replyOnly_upholds _ _ (fun u => routeBytes u.router) h
  | pilotOpen => exact takeRequest_upholds (pilotOpen_upholds _) h
  | pilotWords => exact takeRequest_upholds (pilotWords_upholds _) h
  | pilotClose => exact takeRequest_upholds (pilotClose_upholds _) h
  | fleetSet => exact takeRequest_upholds (fleetSet_upholds _) h
  | fleetGet => exact takeRequest_upholds (fleetGet_upholds _) h
  | arm => exact takeRequest_upholds (armRequest_upholds _) h
  | post => exact takeRequest_upholds (postRequest_upholds _) h
  | schedule => exact takeRequest_upholds (scheduleRequest_upholds _) h
  | cancel => exact takeRequest_upholds (cancelRequest_upholds _) h
  | closeVpWait tag body =>
    simp only [exec, execCloseVpWait] at h
    split at h
    · exact next_upholds (.refl s) h
    · exact takeRequest_upholds (closeWait_upholds _) h
  | closeVpNow tag body =>
    simp only [exec, execCloseVpNow] at h
    split at h
    · exact takeRequest_upholds (closeNow_upholds _) h
    · exact next_upholds (.refl s) h
  | faultRead =>
    exact takeRequest_upholds (g := faultRead _) (fun u => (withRing_upholds u _).trans (placeReply_only _ _ _ _).upholds) h
  | unknownKind kind tag body =>
    simp only [exec, execUnknownKind] at h
    split at h
    · exact takeRequest_upholds (fun u => .refl u) h
    · exact next_upholds (.refl s) h
  | hostFrame => exact handle_upholds (.refl s) (receive_only _ _ s).upholds h
  | transmissionStart => exact handle_upholds (.refl s) (decideLine_quiet s).upholds h
  | transmissionEnd => exact execTransmissionEnd_upholds h
  | transmitHold line level => exact next_upholds (setPin_upholds line level s) h
  | blockFrame => exact execBlockFrame_upholds h
  | sampleTick => exact handle_upholds (.refl s) (tick_upholds s) h
  | holdoverDeadline => exact tickWhen_upholds (p := (deadlineNext · = true)) h
  | scheduleCompare => exact tickWhen_upholds (p := (compareNext · = true)) h
  | pulseEnd line => exact tickWhen_upholds (p := (·.router.outputs[line.val].count = 1)) h
  | ppsEdge => exact execPpsEdge_upholds h
  | timeBreak => exact execTimeBreak_upholds h
  | correlationPassEnd => exact handle_upholds (.refl s) (endPass_upholds s) h
  | jobCompletion => exact handle_upholds (.refl s) (completeJob_upholds s) h
  | powerUp => exact next_upholds (coldReset_upholds .power s) h
  | resetPin =>
    simp only [exec, execResetPin] at h
    split at h
    · exact next_upholds (.refl s) h
    · exact next_upholds (coldReset_upholds .pin s) h
  | coldResetComplete code position =>
    simp only [exec, execColdResetComplete] at h
    split at h
    · exact next_upholds (completeReset_upholds code position s) h
    · exact next_upholds (.refl s) h

theorem step_upholds {s t : State} (h : step s = .next t) : Upholds True s t := by
  unfold step at h
  split at h
  · exact next_upholds (.refl s) h
  · next c rest _ =>
    exact (Upholds.of_other (s := s) (t := { s with pending := rest }) rfl rfl rfl rfl rfl).trans (exec_upholds h)

/-- Settles O57: every command upholds the parameters' ranges, the roles and the clean tables, and every change of the tables keeps the
fleet records within theirs. -/
theorem stepKeepsSmallInvariants : Obligations.StepKeepsSmallInvariants :=
  ⟨fun _ _ hs h => (step_upholds h).params hs, step_keeps_fleetsInRange, fun _ _ hs h => (step_upholds h).roles hs,
    fun _ _ hs h => (step_upholds h).clean trivial hs⟩

end Sys2Proof.Machine
end

section
/-! PROOFS. The transmit arbiter at TRANSMISSION_START, the transmit hold behind its line, and the edges that are not taken (R52, R53, R135,
R148, R152, R153). -/

namespace Sys2Proof.Machine

/-! ### Handlings that change nothing -/

/-- A handling that leaves its state leaves it in a held part too. -/
theorem handle_idle {g : State → State} {s : State} (same : g s = s) (clear : s.checkHit = false) : handle g s = .next s := by
  unfold handle
  split
  · rfl
  · rw [same, settle_clean clear]

/-- A decision makes no check error and leaves the input lines. -/
theorem Decided.kept {s t : State} (h : Decided s t) : t.checkHit = s.checkHit ∧ t.router.inputs = s.router.inputs ∧
    t.router.pins = s.router.pins ∧ t.mode = s.mode := by
  rw [h.frame.1]
  exact ⟨rfl, rfl, rfl, rfl⟩

/-! ### The arbiter's start -/

/-- The handling of TRANSMISSION_START is the arbiter's decision. -/
theorem exec_transmissionStart {s : State} (free : s.mode.held = false) (clear : s.checkHit = false) :
    exec .transmissionStart s = .next (decideLine s) :=
  handle_next decideLine free ((decideLine_decided s).kept.1.trans clear)

/-- A fall of NOTICE HIGH that the departure of the head may bring, line by line (R54, R148). -/
theorem departed_output {s t : State} {n : Nat} (h : if n = 47 then Fell .noticeHigh s t else t = s) (i : Fin 4) :
    t.router.outputs[i.val] =
      if s.router.outputs[i.val].source = .noticeHigh ∧ n = 47 ∧ s.router.outputs[i.val].form = .level then
        { s.router.outputs[i.val] with asserted := false }
      else s.router.outputs[i.val] := by
  by_cases left : n = 47
  · rw [if_pos left] at h
    rw [h.2 i]
    by_cases follows : s.router.outputs[i.val].source = .noticeHigh
    · by_cases level : s.router.outputs[i.val].form = .level
      · rw [if_pos follows, if_pos ⟨follows, left, level⟩, fallLine, if_pos level]
      · rw [if_pos follows, if_neg fun k => level k.2.2, fallLine, if_neg level]
    · rw [if_neg follows, if_neg fun k => follows k.1]
  · rw [if_neg left] at h
    rw [h, if_neg fun k => left k.2.1]

/-- With an entry in the queue the head is started (R152). -/
theorem Decided.head {s t : State} {n : Notice} {rest : List Notice} (h : Decided s t) (free : LineFree s)
    (queue : s.link.notices = n :: rest) :
    let u := s.withLink { s.link with notices := rest, tx := some (.notice n) }
    if rest.length = 47 then Fell .noticeHigh u t else t = u := by
  rcases h with ⟨busy, -⟩ | ⟨-, n', rest', queue', h⟩ | ⟨-, empty, -⟩ | ⟨-, empty, -⟩
  · exact absurd free busy
  · rw [queue] at queue'
    cases queue'
    exact h
  · rw [queue] at empty; cases empty
  · rw [queue] at empty; cases empty

/-- With the queue empty the pending TRACE is started, and the emitter prepares the next one (R135, R152). -/
theorem Decided.trace {s t : State} {cu : Cursor} {tr : Trace} (h : Decided s t) (free : LineFree s) (queue : s.link.notices = [])
    (cursor : s.emitter.cursor = some cu) (waiting : cu.waiting = some tr) :
    t = (s.withLink { s.link with tx := some (.trace tr) }).withEmitter { s.emitter with
      cursor := some
        (if cu.next < s.channels then
          { cu with sending := true, next := cu.next + 1, waiting := some (traceOf s (s.ctx cu.ctx) cu.next) }
         else { cu with sending := true, waiting := none }) } := by
  rcases h with ⟨busy, -⟩ | ⟨-, n, rest, queue', -⟩ | ⟨-, -, none, -⟩ | ⟨-, -, cu', tr', cursor', waiting', h⟩
  · exact absurd free busy
  · rw [queue] at queue'; cases queue'
  · rw [none cu cursor] at waiting; cases waiting
  · rw [cursor] at cursor'
    cases cursor'
    rw [waiting] at waiting'
    cases waiting'
    exact h

/-- With nothing to send, or with the line not free, a decision changes nothing (R152, R153). -/
theorem decideLine_same {s : State} (h : s.link.tx ≠ none ∨ s.transmitHold = true ∨
    (s.link.notices = [] ∧ ∀ cu, s.emitter.cursor = some cu → cu.waiting = none)) : decideLine s = s := by
  have decided := decideLine_decided s
  rcases h with busy | hold | ⟨queue, nothing⟩
  · exact decideLine_busy fun free => busy free.2.2.1
  · exact decideLine_busy fun free => absurd (hold.symm.trans free.2.2.2) (by decide)
  · rcases decided with ⟨-, same⟩ | ⟨-, n, rest, queue', -⟩ | ⟨-, -, -, same⟩ | ⟨-, -, cu, tr, cursor, waiting, -⟩
    · exact same
    · rw [queue] at queue'; cases queue'
    · exact same
    · rw [nothing cu cursor] at waiting; cases waiting

/-- Settles O11, from the cases of the arbiter's decision. -/
theorem arbiterStarts : Obligations.ArbiterStarts := by
  refine ⟨fun n rest s free clear tx hold queue => ?_, fun cu tr s free clear tx hold queue cursor waiting => ?_,
    fun s clear nothing => handle_idle (decideLine_same nothing) clear⟩
  · have started := (decideLine_decided s).head ⟨free, clear, tx, hold⟩ queue
    have link : OnlyLinkLines (s.withLink { s.link with notices := rest, tx := some (.notice n) }) (decideLine s) ∧
        (decideLine s).link = { s.link with notices := rest, tx := some (.notice n) } := by
      simp only at started
      split at started
      · exact ⟨started.only.1, started.only.2.1⟩
      · rw [started]
        exact ⟨.refl _, rfl⟩
    exact ⟨_, exec_transmissionStart free clear, (withLink_only _ s).trans link.1, link.2,
      departed_output (s := s.withLink { s.link with notices := rest, tx := some (.notice n) }) started⟩
  · have started := (decideLine_decided s).trace ⟨free, clear, tx, hold⟩ queue cursor waiting
    refine ⟨_, exec_transmissionStart free clear, ?_, ?_⟩
    · rw [started]
      rfl
    · rw [started]
      rfl

/-! ### The transmit hold -/

theorem transmitHold_iff (s : State) : s.transmitHold = true ↔ ∃ i : Fin 4, s.router.inputs[i.val].role = .transmitHold ∧
    s.router.pins[i.val] = activeLevel s.router.inputs[i.val].polarity := by
  simp only [State.transmitHold, List.any_eq_true, holdsTransmit, Bool.and_eq_true, decide_eq_true_eq]
  exact ⟨fun ⟨i, _, h⟩ => ⟨i, h⟩, fun ⟨i, h⟩ => ⟨i, mem_ctxOrder i, h⟩⟩

/-- The hold stands with the one line that has its role (R52, R53). -/
theorem transmitHold_of_role {line : Fin 4} {s : State} (unique : RolesUnique s) (role : s.router.inputs[line.val].role = .transmitHold) :
    s.transmitHold = decide (s.router.pins[line.val] = activeLevel s.router.inputs[line.val].polarity) := by
  rw [Bool.eq_iff_iff, transmitHold_iff, decide_eq_true_iff]
  constructor
  · rintro ⟨i, held, stands⟩
    obtain rfl : i = line := unique i line (held.trans role.symm) (by rw [held]; decide)
    exact stands
  · exact fun stands => ⟨line, role, stands⟩

/-- A line set to a level changes the hold as its new level says; the decision behind it leaves the lines. -/
theorem setPin_kept (line : Fin 4) (level : Bool) (s : State) : (setPin line level s).checkHit = s.checkHit ∧
    (setPin line level s).router.inputs = s.router.inputs ∧
    (setPin line level s).router.pins = s.router.pins.set line.val level ∧ (setPin line level s).mode = s.mode := by
  have set := setPin_set line level s
  unfold PinSet at set
  simp only at set
  split at set
  · exact set.kept
  · rw [set]
    exact ⟨rfl, rfl, rfl, rfl⟩

/-- Settles O15: the line is set, and the hold read off the input lines. -/
theorem holdFollowsLine : Obligations.HoldFollowsLine := by
  intro line level s unique
  obtain ⟨-, inputs, pins, -⟩ := setPin_kept line level s
  refine ⟨_, rfl, setPin_set line level s, fun role => ?_, fun role => ?_⟩
  · rw [transmitHold_of_role (line := line) (by rw [RolesUnique, inputs]; exact unique) (by rw [inputs]; exact role), inputs, pins,
      Vector.getElem_set_self, activeLevel_eq]
    cases level <;> simp
  · rw [← transmitHold_other level role]
    exact transmitHold_congr inputs pins

/-! ### Edges not taken -/

/-- A time break is taken on the edges its line carries one with, and is nothing on any other (R49). -/
theorem exec_timeBreak (line : Fin 4) (level : Bool) (s : State) : exec (.timeBreak line level) s =
    handle (fun t => (breakFleet line level t).elim t (takeBreak · t)) (setPin line level s) := by
  simp only [exec, execTimeBreak]
  congr 1
  funext t
  cases breakFleet line level t <;> rfl

theorem breakFleet_passive {line : Fin 4} {level : Bool} {s : State} (h : (∀ f, s.router.inputs[line.val].role ≠ .timeBreak f) ∨
    level ≠ decide (s.router.inputs[line.val].polarity = .activeHigh)) : breakFleet line level s = none := by
  unfold breakFleet
  rw [activeLevel_eq]
  cases role : s.router.inputs[line.val].role with
  | timeBreak f => exact if_neg (h.resolve_left fun k => k f role)
  | none | pps | transmitHold => rfl

/-- Settles O21: behind an edge that is not active the handling has nothing to do. -/
theorem edgeNotTaken : Obligations.EdgeNotTaken := by
  intro line level s clear
  obtain ⟨hit, inputs, -, -⟩ := setPin_kept line level s
  have moved {g : State → State} (same : g (setPin line level s) = setPin line level s) :
      ∃ t, handle g (setPin line level s) = .next t ∧ PinSet line level s t :=
    ⟨_, handle_idle same (hit.trans clear), setPin_set line level s⟩
  refine ⟨fun other => moved (if_neg fun active => ?_), fun other => ?_⟩
  · rw [activeEdge, inputs, activeLevel_eq, Bool.and_eq_true, decide_eq_true_iff, decide_eq_true_iff] at active
    exact other.elim (fun k => k active.1) fun k => k active.2
  · rw [exec_timeBreak]
    refine moved ?_
    rw [breakFleet_passive (by rw [inputs]; exact other)]
    rfl

end Sys2Proof.Machine
end

section
/-! PROOFS. The requests of the timebase and of the event router, and those that read tables: TIME_SET, PARAM_SET of the sample interval and
of the holdover limit, ROUTE_SET, and IDENT, ROUTE_GET, PARAM_GET, FLEET_GET (R42, R46, R47, R52 to R56, R61, R161 to R163, R166). -/

namespace Sys2Proof.Machine

/-- A request whose handling places its reply over a state without a check error. -/
theorem request_replied {f : RxFrame} {rest : List RxFrame} {s u : State} {g : State → State} {st : Status} {c : List Byte}
    (h : Taken f rest s) (length : lengthAllowed f.kind f.body.length = some true) (e : g (taken rest s) = placeReply f st c u)
    (clear : u.checkHit = false) : ∃ t, takeRequest f g s = .next t ∧ Replied f st c u t :=
  ⟨_, reply_next h length e ((placeReply_only _ _ _ _).checkHit.trans clear), placeReply_replied f st c u⟩

/-! ### The lock state -/

/-- A lock state other than HOLDOVER is set, with the fall of the HOLDOVER level where it was true (R43). -/
theorem setLock_left {l : LockState} (hl : l ≠ .holdover) (s : State) :
    if s.time.lock = .holdover then Fell .holdover (s.withTime { s.time with lock := l }) (setLock l s)
    else setLock l s = s.withTime { s.time with lock := l } := by
  split
  · next h =>
    rw [setLock_drop h hl]
    exact dropLevel_fell _ _
  · next h => exact (if_neg h).trans (if_neg hl)

/-- HOLDOVER is entered: its level rises and TIMEBASE is offered (R46, R48). -/
theorem enterHoldover_entered {s : State} (h : s.time.lock ≠ .holdover) :
    ∃ w, Rose .holdover (s.withTime { s.time with lock := .holdover }) w ∧
      Offered (.timebase .holdover 0 s.time.n .holdover) w (enterHoldover s) := by
  refine ⟨setLock .holdover s, ?_, offerReport_offered _ _⟩
  rw [setLock_raise h]
  exact raiseLevel_rose _ _

theorem enterHoldover_checkHit (s : State) : (enterHoldover s).checkHit = s.checkHit :=
  (offerReport_only _ _).checkHit.trans (setLock_only .holdover s).checkHit

/-! ### TIME SET -/

theorem timeSet_setup {f : RxFrame} {s : State} (op : s.mode.op = .setup) :
    let u := setLock .free (s.withTime { s.time with n := BitVec.ofNat 48 (fieldAt f.body 0 6), a := BitVec.ofNat 48 (fieldAt f.body 0 6) })
    timeSet f s = placeReply f .ok (leBytes 6 (BitVec.ofNat 48 (fieldAt f.body 0 6)).toNat ++ [0]) u := by
  intro u
  have time := (setLock_only .free (s.withTime
    { s.time with n := BitVec.ofNat 48 (fieldAt f.body 0 6), a := BitVec.ofNat 48 (fieldAt f.body 0 6) })).time
  unfold timeSet
  rw [if_pos op]
  simp only [timeContents, time]
  rfl

/-- Settles O16: the lock state is set over the new N and A, and the reply reads them. -/
theorem timeSetSets : Obligations.TimeSetSets := by
  intro tag n rest s h clear
  have length : lengthAllowed 0x09 (timeSetBody n).length = some true := by rw [timeSetBody_length]; rfl
  refine ⟨fun op => ?_, fun op => ?_⟩
  · set b := (taken rest s).withTime { s.time with n := n, a := n } with hb
    have handled : timeSet ⟨0x09, tag, timeSetBody n⟩ (taken rest s) =
        placeReply ⟨0x09, tag, timeSetBody n⟩ .ok (leBytes 6 n.toNat ++ [0]) (setLock .free b) := by
      rw [timeSet_setup (by exact op), timeSetBody_n, BitVec.ofNat_toNat, BitVec.setWidth_eq]
      rfl
    obtain ⟨t, run, replied⟩ := request_replied h length handled ((setLock_only .free b).checkHit.trans clear)
    exact ⟨t, _, run, setLock_left (by decide) b, replied⟩
  · exact reply_only .state _ h length clear (if_neg op)

/-! ### Parameters -/

/-- The write of the sample interval: a code outside its set leaves the value, and a change frees a timebase that was not FREE (R42). -/
theorem storeInterval_eq (v : Nat) (s : State) :
    let i : Fin 4 := if h : v < 4 then ⟨v, h⟩ else s.mode.params.interval
    let a := s.withParams { s.mode.params with interval := i }
    storeInterval v s = if i = s.mode.params.interval ∨ s.time.lock = .free then a
      else setLock .free (a.withTime { s.time with a := s.time.n }) := by
  intro i a
  have kept (same : i = s.mode.params.interval) : a = s := by
    show s.withParams { s.mode.params with interval := i } = s
    rw [same]
    rfl
  unfold storeInterval
  by_cases inside : v < 4
  · have index : indexOf 4 v = some i := (indexOf_val ⟨v, inside⟩ rfl).trans (congrArg some (dif_pos inside).symm)
    rw [index]
    simp only
    by_cases same : i = s.mode.params.interval
    · rw [if_pos same, if_pos (.inl same), kept same]
    · by_cases free : s.time.lock = .free
      · rw [if_neg same, if_pos free, if_pos (.inr free)]
      · rw [if_neg same, if_neg free, if_neg fun k => k.elim same free]
        rfl
  · have same : i = s.mode.params.interval := dif_neg inside
    rw [indexOf_none (Nat.le_of_not_lt inside)]
    exact (kept same).symm.trans (if_pos (.inl same)).symm

theorem setLock_mode (l : LockState) (s : State) : (setLock l s).mode = s.mode := (setLock_only l s).mode

/-- PARAM SET of the sample interval: the reply reads the value that stands behind the write (R42, R162). -/
theorem paramSet_interval (tag : Byte) (v : BitVec 32) (rest : List RxFrame) (s : State) (h : Taken ⟨0x03, tag, paramSetBody 1 v⟩ rest s)
    (clear : s.checkHit = false) (op : s.mode.op = .setup) :
    let now := s.mode.params.interval
    let i : Fin 4 := if h : v.toNat < 4 then ⟨v.toNat, h⟩ else now
    let a := (taken rest s).withMode { s.mode with params := { s.mode.params with interval := i } }
    let b := a.withTime { s.time with lock := .free, a := s.time.n }
    ∃ t u, exec (.paramSet tag (paramSetBody 1 v)) s = .next t ∧
      (if i = now ∨ s.time.lock = .free then u = a else if s.time.lock = .holdover then Fell .holdover b u else u = b) ∧
      Replied ⟨0x03, tag, paramSetBody 1 v⟩ .ok (1 :: leBytes 4 i.val) u t := by
  intro now i a b
  have length : lengthAllowed 0x03 (paramSetBody 1 v).length = some true := by rw [paramSetBody_length]; rfl
  have stored : storeInterval v.toNat (taken rest s) = if i = now ∨ s.time.lock = .free then a
      else setLock .free (a.withTime { s.time with a := s.time.n }) := storeInterval_eq v.toNat (taken rest s)
  have freed := setLock_left (l := .free) (by decide) (a.withTime { s.time with a := s.time.n })
  set u := storeInterval v.toNat (taken rest s) with hu
  have mode : u.mode = a.mode := by
    rw [stored]
    split
    · rfl
    · exact setLock_mode _ _
  have hit : u.checkHit = false := by
    rw [stored]
    split
    · exact clear
    · exact (setLock_only _ _).checkHit.trans clear
  have handled : paramSet ⟨0x03, tag, paramSetBody 1 v⟩ (taken rest s) =
      placeReply ⟨0x03, tag, paramSetBody 1 v⟩ .ok (1 :: leBytes 4 i.val) u := by
    unfold paramSet
    simp only [paramSetBody_key, paramSetBody_value]
    rw [if_neg fun k => k.2 op]
    show placeReply _ _ (paramContents 1 u) u = _
    rw [paramContents, mode]
    rfl
  obtain ⟨t, run, replied⟩ := request_replied h length handled hit
  refine ⟨t, u, run, ?_, replied⟩
  rw [stored]
  split
  · rfl
  · exact freed

/-- PARAM SET of the holdover limit: TIMEBASE stands before the reply (R46, R162; log entry 20). -/
theorem paramSet_holdover (tag : Byte) (v : BitVec 32) (rest : List RxFrame) (s : State) (taking : Taken ⟨0x03, tag, paramSetBody 5 v⟩ rest s)
    (clear : s.checkHit = false) :
    let h := max 1 (min 60 v.toNat)
    let late := h ≠ s.mode.params.holdover ∧ s.time.lock = .locked ∧ s.sps * h + s.sps / 2 ≤ (s.time.n - s.time.a).toNat
    let a := (taken rest s).withMode { s.mode with params := { s.mode.params with holdover := h } }
    ∃ t u, exec (.paramSet tag (paramSetBody 5 v)) s = .next t ∧
      (late → ∃ w, Rose .holdover (a.withTime { s.time with lock := .holdover }) w ∧
        Offered (.timebase .holdover 0 s.time.n .holdover) w u) ∧
      (¬ late → u = a) ∧ Replied ⟨0x03, tag, paramSetBody 5 v⟩ .ok (5 :: leBytes 4 h) u t := by
  intro h late a
  have length : lengthAllowed 0x03 (paramSetBody 5 v).length = some true := by rw [paramSetBody_length]; rfl
  set u := storeHoldover v.toNat (taken rest s) with hu
  have kept (same : h = s.mode.params.holdover) : a = taken rest s := by
    show (taken rest s).withMode { s.mode with params := { s.mode.params with holdover := h } } = _
    rw [same]
    rfl
  have passed (k : late) : u = enterHoldover a := by
    rw [hu, storeHoldover_eq]
    exact (if_neg k.1).trans (if_pos k.2)
  have standing (k : ¬ late) : u = a := by
    rw [hu, storeHoldover_eq]
    by_cases same : h = s.mode.params.holdover
    · exact (if_pos same).trans (kept same).symm
    · exact (if_neg same).trans (if_neg fun p => k ⟨same, p⟩)
  have fields : u.mode = a.mode ∧ u.checkHit = false := by
    by_cases k : late
    · rw [passed k]
      exact ⟨(offerReport_only _ _).mode.trans (setLock_mode _ a), (enterHoldover_checkHit a).trans clear⟩
    · rw [standing k]
      exact ⟨rfl, clear⟩
  have handled : paramSet ⟨0x03, tag, paramSetBody 5 v⟩ (taken rest s) =
      placeReply ⟨0x03, tag, paramSetBody 5 v⟩ .ok (5 :: leBytes 4 h) u := by
    unfold paramSet
    simp only [paramSetBody_key, paramSetBody_value]
    rw [if_neg fun k => absurd k.1 (by decide)]
    show placeReply _ _ (paramContents 5 u) u = _
    rw [paramContents, fields.1]
    rfl
  obtain ⟨t, run, replied⟩ := request_replied taking length handled fields.2
  refine ⟨t, u, run, fun k => ?_, standing, replied⟩
  rw [passed k]
  exact enterHoldover_entered (by rw [show a.time.lock = .locked from k.2.1]; decide)

/-- Settles O27, parameter by parameter. -/
theorem timebaseParamsStored : Obligations.TimebaseParamsStored := ⟨paramSet_interval, paramSet_holdover⟩

/-! ### Tables read -/

theorem toList_four {α : Type} (v : Vector α 4) : v.toList = (List.finRange 4).map fun i => v[i.val] := by
  apply List.ext_getElem
  · simp
  · intro i h k
    simp

theorem routeBytes_eq (r : Router) : routeBytes r =
    (List.finRange 4).flatMap (fun i => roleBytes r.inputs[i.val].role ++ [polarityCode r.inputs[i.val].polarity]) ++
      (List.finRange 4).flatMap (fun i => sourceBytes r.outputs[i.val].source ++ [formCode r.outputs[i.val].form] ++
        leBytes 1 r.outputs[i.val].width ++ [polarityCode r.outputs[i.val].polarity]) := by
  rw [routeBytes, toList_four, toList_four, List.flatMap_map, List.flatMap_map]
  rfl

/-- The value in force of a key, 0 for a key that names no parameter (R161, R163). -/
theorem paramValue_eq (p : Params) (key : Byte) : (paramValue p key.toNat).getD 0 =
    if key = 1 then p.interval.val else if key = 2 then p.margin
      else if key = 3 then (if p.gapPolicy = .fold then 0 else 1) else if key = 4 then (if p.outputMode = .mean then 0 else 1)
      else if key = 5 then p.holdover else if key = 6 then p.mask.toNat else 0 := by
  have gap : gapPolicyCode p.gapPolicy = if p.gapPolicy = .fold then 0 else 1 := by cases p.gapPolicy <;> rfl
  have mode : outputModeCode p.outputMode = if p.outputMode = .mean then 0 else 1 := by cases p.outputMode <;> rfl
  rw [← gap, ← mode]
  simp only [← BitVec.toNat_inj, paramValue]
  generalize key.toNat = k
  rcases k with _ | _ | _ | _ | _ | _ | _ | k
  all_goals simp

theorem fleetGet_outside {tag b : Byte} {s : State} (h : 4 ≤ b.toNat) :
    fleetGet ⟨0x10, tag, [b]⟩ s = placeReply ⟨0x10, tag, [b]⟩ .range (b :: List.replicate 17 0) s := by
  simp only [fleetGet, byteAt_cons_zero, indexOf_none h]
  rfl

theorem fleetGet_inside {tag b : Byte} {s : State} {i : Fin 4} (h : b.toNat = i.val) :
    fleetGet ⟨0x10, tag, [b]⟩ s = placeReply ⟨0x10, tag, [b]⟩ .ok (b :: fleetBytes (s.fleet i)) s := by
  simp only [fleetGet, byteAt_cons_zero, indexOf_val i h]
  rfl

/-- The contents of IDENT as bytes (R166, R174). -/
theorem identContents_eq (s : State) : identContents s =
    [0x10, 0x5C, 1] ++ leBytes 1 s.mode.sizeCode.val ++ leBytes 2 s.channels ++ leBytes 1 s.mode.position.val ++
      leBytes 2 (s.mode.position.val * s.channels) ++ leBytes 2 (s.mode.position.val * s.channels + s.channels - 1) ++
      [0x00, 0x08, 8, 0x00, 0x80, 4, 16, 4, 8, 64, 0x10, 0x04, resetCauseCode s.mode.cause] := by
  have code : leBytes 2 Config.partCode = [0x10, 0x5C] := rfl
  have blocks : leBytes 2 Config.ringBlocks = [0x00, 0x08] := rfl
  have pilot : leBytes 2 Config.maxPilot = [0x00, 0x80] := rfl
  have body : leBytes 2 Config.maxBody = [0x10, 0x04] := rfl
  have revision : leBytes 1 Config.revision = [1] := rfl
  have counts : leBytes 1 Config.pilotSlots = [8] ∧ leBytes 1 Config.fleetCount = [4] ∧ leBytes 1 Config.sweepCapacity = [16] ∧
      leBytes 1 Config.contextCount = [4] ∧ leBytes 1 Config.rxCapacity = [8] ∧ leBytes 1 Config.noticeCapacity = [64] :=
    ⟨rfl, rfl, rfl, rfl, rfl, rfl⟩
  simp only [identContents, code, blocks, pilot, body, revision, counts, List.append_assoc, List.cons_append, List.nil_append]

/-- Settles O24: each request places its reply and changes nothing else. -/
theorem tablesRead : Obligations.TablesRead := by
  refine ⟨fun tag rest s clear => ⟨fun h => ?_, fun h => ?_⟩, fun tag key rest s h clear => ?_, fun tag b rest s h clear => ?_⟩
  · obtain ⟨t, run, answered⟩ := reply_only (g := fun u => placeReply ⟨0x01, tag, []⟩ .ok (identContents u) u) .ok _ h rfl clear rfl
    refine ⟨t, run, ?_⟩
    rw [← identContents_eq]
    exact answered
  · obtain ⟨t, run, answered⟩ := reply_only (g := fun u => placeReply ⟨0x0B, tag, []⟩ .ok (routeBytes u.router) u) .ok _ h rfl clear rfl
    refine ⟨t, run, ?_⟩
    rw [← routeBytes_eq]
    exact answered
  · obtain ⟨t, run, answered⟩ := reply_only (g := fun u => placeReply ⟨0x04, tag, [key]⟩ .ok (paramContents key u) u) .ok _ h rfl clear rfl
    have value := paramValue_eq s.mode.params key
    exact ⟨t, run, by rw [← value]; exact answered⟩
  · have run := takeRequest_taken h (fleetGet ⟨0x10, tag, [b]⟩) rfl
    refine ⟨_, run, fun out => next_has run (reply_only .range _ h rfl clear (fleetGet_outside out)), fun i fleet => ?_⟩
    exact next_has run (reply_only .ok _ h rfl clear (fleetGet_inside fleet))

/-! ### ROUTE SET -/

theorem roleOf_getD (code fleet : Byte) (old : Role) : (roleOf code fleet).getD old =
    if code = 0 then .none else if code = 1 then .pps else if code = 3 then .transmitHold
      else if h : code = 2 ∧ fleet.toNat < 4 then .timeBreak ⟨fleet.toNat, h.2⟩ else old := by
  obtain ⟨⟨k, bound⟩⟩ := code
  rcases k with _ | _ | _ | _ | k
  all_goals by_cases inside : fleet.toNat < 4 <;> simp [roleOf, indexOf, ← BitVec.toNat_inj, inside]

theorem sourceOf_getD (code fleet : Byte) (old : Source) : (sourceOf code fleet).getD old =
    if code = 0 then .none else if h : code = 1 ∧ fleet.toNat < 4 then .startPulse ⟨fleet.toNat, h.2⟩
      else if code = 2 then .sweepFolded else if code = 3 then .sweepDropped else if code = 4 then .vpDone
      else if code = 5 then .holdover else if code = 6 then .ringLate else if code = 7 then .noticeHigh
      else if code = 8 then .acquire else old := by
  obtain ⟨⟨k, bound⟩⟩ := code
  rcases k with _ | _ | _ | _ | _ | _ | _ | _ | _ | k
  all_goals by_cases inside : fleet.toNat < 4 <;> simp [sourceOf, indexOf, ← BitVec.toNat_inj, inside]

theorem formOf_getD (code : Byte) (old : Form) : (formOf code).getD old =
    if code = 0 then .pulse else if code = 1 then .level else if code = 2 then .toggle else old := by
  simp only [← BitVec.toNat_inj, formOf]
  generalize code.toNat = k
  rcases k with _ | _ | _ | k
  all_goals simp

theorem polarityOf_getD (code : Byte) (old : Polarity) : (polarityOf code).getD old =
    if code = 0 then .activeHigh else if code = 1 then .activeLow else old := by
  simp only [← BitVec.toNat_inj, polarityOf]
  generalize code.toNat = k
  rcases k with _ | _ | k
  all_goals simp

section routeSet
variable {tag dir line role fleet form width pol : Byte} {k : Fin 4} {s : State}

theorem routeSet_input (h : line.toNat = k.val) :
    let t := holdChanged s (s.withRouter (storeInput k (roleOf role fleet) (polarityOf pol) s.router))
    routeSet ⟨0x0A, tag, [0, line, role, fleet, form, width, pol]⟩ s =
      placeReply ⟨0x0A, tag, [0, line, role, fleet, form, width, pol]⟩ .ok (routeBytes t.router) t := by
  have index : indexOf 4 (byteAt [0, line, role, fleet, form, width, pol] 1).toNat = some k := indexOf_val k h
  simp only [routeSet, index]
  rfl

theorem routeSet_output (h : line.toNat = k.val) :
    let t := storeOutput k (sourceOf role fleet) (formOf form) width.toNat (polarityOf pol) s
    routeSet ⟨0x0A, tag, [1, line, role, fleet, form, width, pol]⟩ s =
      placeReply ⟨0x0A, tag, [1, line, role, fleet, form, width, pol]⟩ .ok (routeBytes t.router) t := by
  have index : indexOf 4 (byteAt [1, line, role, fleet, form, width, pol] 1).toNat = some k := indexOf_val k h
  simp only [routeSet, index]
  rfl

theorem routeSet_outside (h : 2 ≤ dir.toNat ∨ 4 ≤ line.toNat) :
    routeSet ⟨0x0A, tag, [dir, line, role, fleet, form, width, pol]⟩ s =
      placeReply ⟨0x0A, tag, [dir, line, role, fleet, form, width, pol]⟩ .range (routeBytes s.router) s := by
  have first : byteAt [dir, line, role, fleet, form, width, pol] 0 = dir := rfl
  have second : byteAt [dir, line, role, fleet, form, width, pol] 1 = line := rfl
  simp only [routeSet, first, second]
  by_cases inside : line.toNat < 4
  · obtain ⟨d, other⟩ : ∃ d, dir.toNat = d + 2 := ⟨dir.toNat - 2, by omega⟩
    rw [indexOf_val ⟨line.toNat, inside⟩ rfl, other]
    rfl
  · rw [indexOf_none (Nat.le_of_not_lt inside)]

end routeSet

/-- The route tables as bytes hold the route entries alone, not the states of the lines (R172). -/
theorem routeBytes_congr {s t : State} (inputs : t.router.inputs = s.router.inputs) (routes : RoutesKept s t) :
    routeBytes t.router = routeBytes s.router := by
  rw [routeBytes_eq, routeBytes_eq, inputs]
  congr 2
  funext i
  obtain ⟨source, form, width, polarity⟩ := routes i
  rw [source, form, width, polarity]

/-- What a look at the hold leaves (R53). -/
theorem holdChanged_kept (s t : State) : (holdChanged s t).checkHit = t.checkHit ∧
    routeBytes (holdChanged s t).router = routeBytes t.router := by
  have looked := holdChanged_decided s t
  split at looked
  · exact ⟨looked.kept.1, routeBytes_congr looked.kept.2.1 looked.frame.2.2⟩
  · rw [looked]
    exact ⟨rfl, rfl⟩

/-- Settles O22: the stored entry, the roles moved, and the hold looked at again before the reply. -/
theorem routeSetInput : Obligations.RouteSetInput := by
  intro tag line role fleet form width pol k rest s f h clear index old role' pol'
  set u := (taken rest s).withRouter (storeInput k (roleOf role fleet) (polarityOf pol) s.router) with hu
  have inputs (j : Fin 4) := storeInput_inputs k (roleOf role fleet) (polarityOf pol) s.router j
  rw [roleOf_getD, polarityOf_getD] at inputs
  obtain ⟨hit, bytes⟩ := holdChanged_kept (taken rest s) u
  obtain ⟨t, run, replied⟩ := request_replied h rfl (routeSet_input index) (hit.trans clear)
  replace replied : Replied f .ok (routeBytes (holdChanged (taken rest s) u).router) (holdChanged (taken rest s) u) t := replied
  rw [bytes] at replied
  exact ⟨t, u, _, run, (inputs k).trans (if_pos rfl), fun j other => (inputs j).trans (if_neg other), rfl,
    holdChanged_decided (taken rest s) u, replied⟩

/-- A level source that is true (R54). -/
theorem levelSource_true (s : State) (src : Source) : (isLevelSource src && s.sourceLevel src) =
    decide ((src = .holdover ∧ s.time.lock = .holdover) ∨ (src = .noticeHigh ∧ 48 ≤ s.link.notices.length) ∨
      (src = .acquire ∧ s.mode.op = .acquire)) := by
  rw [Bool.eq_iff_iff, decide_eq_true_iff, Bool.and_eq_true]
  cases src with
  | holdover => simp [isLevelSource, State.sourceLevel, State.holdoverLevel]
  | noticeHigh =>
    have level : s.sourceLevel .noticeHigh = true ↔ 48 ≤ s.link.notices.length := decide_eq_true_iff
    simp [isLevelSource, level]
  | acquire => simp [isLevelSource, State.sourceLevel, State.acquireLevel]
  | none | ringLate | startPulse | sweepFolded | sweepDropped | vpDone => simp [isLevelSource]

/-- The entry stored for an output line: deasserted, but for a LEVEL entry whose level source is true (R55, R56). -/
def storedOutput (s : State) (src : Source) (form : Form) (width : Nat) (pol : Polarity) : OutputEntry :=
  { source := src, form := form, width := max 1 width, polarity := pol
    asserted := decide (form = .level ∧ ((src = .holdover ∧ s.time.lock = .holdover) ∨
      (src = .noticeHigh ∧ 48 ≤ s.link.notices.length) ∨ (src = .acquire ∧ s.mode.op = .acquire)))
    count := 0 }

section storeOutput
variable {k : Fin 4} {src : Option Source} {form : Option Form} {width : Nat} {pol : Option Polarity} {s : State}

theorem storeOutput_own : (storeOutput k src form width pol s).router.outputs[k.val] =
    storedOutput s (src.getD s.router.outputs[k.val].source) (form.getD s.router.outputs[k.val].form) width
      (pol.getD s.router.outputs[k.val].polarity) := by
  unfold storedOutput
  rw [Bool.decide_and, ← levelSource_true, ← Bool.and_assoc]
  exact Vector.getElem_set_self _

theorem storeOutput_other {j : Fin 4} (other : j ≠ k) :
    (storeOutput k src form width pol s).router.outputs[j.val] = s.router.outputs[j.val] :=
  Vector.getElem_set_ne k.isLt j.isLt fun e => other (Fin.ext e.symm)

end storeOutput

/-- Settles O23: outside its sets RANGE, inside the entry stored over the line. -/
theorem routeSetOutput : Obligations.RouteSetOutput := by
  intro tag dir line src fleet form width pol rest s f h clear
  refine ⟨fun out => reply_only .range _ h rfl clear (routeSet_outside out), fun k output index => ?_⟩
  subst output
  intro old src' form' true'
  set u := storeOutput k (sourceOf src fleet) (formOf form) width.toNat (polarityOf pol) (taken rest s) with hu
  have own : u.router.outputs[k.val] = storedOutput (taken rest s) src' form' width.toNat
      (if pol = 0 then .activeHigh else if pol = 1 then .activeLow else old.polarity) := by
    rw [hu, storeOutput_own, sourceOf_getD, formOf_getD, polarityOf_getD]
    rfl
  obtain ⟨t, run, replied⟩ := request_replied h rfl (routeSet_output index) (show u.checkHit = false from clear)
  exact ⟨t, u, run, rfl, fun j other => storeOutput_other other, own, replied⟩

end Sys2Proof.Machine
end

section
/-! PROOFS. The sample tick and the points it reaches (R41, R46, R50, R55, R72, R75, R84, R85; log entries 2, 4, 5). -/

namespace Sys2Proof.Machine

/-! ### The tick, part by part -/

/-- The compare of the sweep is taken by the next tick (R50). -/
def Due (s : State) (r : SweepRecord) : Prop := r.state = .scheduled ∧ r.compare = some (s.time.n + 1).toNat

/-- The next tick brings N to the holdover deadline in LOCKED (R46). -/
def Late (s : State) : Prop := s.time.lock = .locked ∧ s.time.n + 1 = deadlineOf s

/-- The compares of a list without check errors are a chain, and make none (R50). -/
theorem tickCompares_chain {s : State} (clean : Clean s) (distinct : IdsDistinct s) :
    Chain Fired (s.listed.filter (comparePoint fun c => c == s.time.n.toNat)) s (tickCompares s) ∧ Clean (tickCompares s) := by
  have compares : tickCompares s = (s.listed.filter (comparePoint fun c => c == s.time.n.toNat)).foldl fireSweep s := by
    unfold tickCompares
    rw [clean.2.1]
    rfl
  rw [compares]
  exact fires_chain _ clean distinct (distinct.sublist List.filter_sublist) fun r hr => List.mem_of_mem_filter hr

theorem preTick_listed (s : State) : (preTick s).listed = s.listed := (preTick_only s).listed

theorem preTick_clean {s : State} (clean : Clean s) : Clean (preTick s) := (preTick_upholds (ok := True) s).clean trivial clean

theorem tick_clean {s : State} (clean : Clean s) : Clean (tick s) := (tick_upholds (ok := True) s).clean trivial clean

theorem preTick_due (s : State) (r : SweepRecord) : comparePoint (fun c => c == (preTick s).time.n.toNat) r = true ↔ Due s r := by
  rw [preTick_time]
  exact comparePoint_iff r

/-- The sweeps whose compares the next tick takes, in list order (R50). -/
def dueSweeps (s : State) : List SweepRecord := (preTick s).listed.filter (comparePoint fun c => c == (preTick s).time.n.toNat)

theorem mem_dueSweeps (s : State) (r : SweepRecord) : r ∈ dueSweeps s ↔ r ∈ s.listed ∧ Due s r := by
  rw [dueSweeps, List.mem_filter, preTick_listed, preTick_due]

/-- What a tick leaves of the state up to its compares. -/
structure TickCompared (s x : State) : Prop where
  clean : Clean x
  distinct : IdsDistinct x
  only : OnlyLinkLines ({ s with time := (preTick s).time, engine := (tickJob s).engine }.withListed x.listed) x
  ids : x.listed.map (·.id) = s.listed.map (·.id)
  lines : LinesFollow (if dueSweeps s = [] then [] else (dueSweeps s).map (.startPulse ·.fleet) ++ [.noticeHigh]) (preTick s) x

theorem tick_compared {s : State} (clean : Clean s) (distinct : IdsDistinct s) : TickCompared s (tickCompares (preTick s)) := by
  have listed := preTick_listed s
  have before : IdsDistinct (preTick s) := by rw [IdsDistinct, listed]; exact distinct
  obtain ⟨chain, good⟩ := tickCompares_chain (preTick_clean clean) before
  obtain ⟨ids, only, lines⟩ := fires_kept chain
  refine ⟨good, ids_pairwise before ids, ?_, ids.trans (by rw [listed]), lines⟩
  have framed : OnlyLinkLines ({ s with time := (preTick s).time, engine := (tickJob s).engine }.withListed
      (tickCompares (preTick s)).listed) ((preTick s).withListed (tickCompares (preTick s)).listed) := by
    rw [preTick_only s]
    rfl
  exact framed.trans only

theorem tickedLine_source (e : OutputEntry) : (tickedLine e).source = e.source := rfl

/-- A line through a tick before its compares, where the deadline raises neither its source nor NOTICE HIGH on it (R46, R55). -/
theorem preTick_line {s : State} {i : Fin 4} (holdover : Late s → s.router.outputs[i.val].source ≠ .holdover)
    (notice : Late s → s.router.outputs[i.val].source ≠ .noticeHigh) :
    (preTick s).router.outputs[i.val] = tickedLine s.router.outputs[i.val] := by
  obtain ⟨u, ticked, -, rest⟩ := tickHoldover_begins s
  have router : (preTick s).router =
      (tickHoldover ((s.mapOutputs outputTick).withTime { s.time with n := s.time.n + 1 })).router := by
    rw [preTick, tickJob_eq]
    rfl
  rw [router]
  split at rest
  · next late =>
    obtain ⟨v, rose, offered⟩ := rest
    obtain ⟨-, -, raised, routes⟩ := rose.only
    have source : (u.withTime { u.time with lock := .holdover }).router.outputs[i.val].source = s.router.outputs[i.val].source := by
      rw [State.withTime_router, ticked]
      rfl
    have kept := raised i (by rw [source, List.mem_singleton]; exact holdover late)
    rw [offered.only.2.1 i (by rw [kept, source, List.mem_singleton]; exact notice late), kept]
    exact ticked i
  · rw [rest]
    exact ticked i

/-- A line through a whole tick that raises nothing on it only counts (R55). -/
theorem tick_line {s : State} (clean : Clean s) (distinct : IdsDistinct s) {i : Fin 4}
    (pulse : ∀ r ∈ s.listed, Due s r → s.router.outputs[i.val].source ≠ .startPulse r.fleet)
    (holdover : Late s → s.router.outputs[i.val].source ≠ .holdover)
    (notice : (Late s ∨ ∃ r ∈ s.listed, Due s r) → s.router.outputs[i.val].source ≠ .noticeHigh) :
    (tick s).router.outputs[i.val] = tickedLine s.router.outputs[i.val] := by
  obtain ⟨good, -, -, -, lines⟩ := tick_compared clean distinct
  have before := preTick_line holdover fun late => notice (.inl late)
  have looked : (tick s).router.outputs[i.val] = (tickCompares (preTick s)).router.outputs[i.val] :=
    (arbitrate_spec good).1.follow.1 i List.not_mem_nil
  rw [looked, lines.1 i ?_, before]
  rw [before, tickedLine_source]
  split
  · exact List.not_mem_nil
  · next some =>
    obtain ⟨r, hr⟩ := List.exists_mem_of_ne_nil _ some
    obtain ⟨listed, due⟩ := (mem_dueSweeps s r).mp hr
    rw [List.mem_append, List.mem_map, List.mem_singleton, not_or]
    refine ⟨?_, notice (.inr ⟨r, listed, due⟩)⟩
    rintro ⟨q, hq, source⟩
    obtain ⟨listed, due⟩ := (mem_dueSweeps s q).mp hq
    exact pulse q listed due source.symm

/-- The timebase through a whole tick (R41, R46). -/
theorem tick_time {s : State} (clean : Clean s) (distinct : IdsDistinct s) : (tick s).time =
    { n := s.time.n + 1, a := s.time.a
      lock := if s.time.lock = .locked ∧ s.time.n + 1 = deadlineOf s then .holdover else s.time.lock } := by
  obtain ⟨good, -, only, -, -⟩ := tick_compared clean distinct
  exact ((arbitrate_spec good).1.time.trans only.time).trans (preTick_time s)

/-- A command that is the whole tick where the tick reaches its point (log entry 4). -/
theorem tickWhen_next {p : State → Prop} [DecidablePred p] {s : State} (free : s.mode.held = false) (clean : Clean s) (h : p s) :
    handle (fun t => if p t then tick t else t) s = .next (tick s) :=
  handle_eq free (if_pos h) (tick_clean clean).1

/-- And where the tick does not reach it, nothing changes (log entry 2). -/
theorem tickWhen_same {p : State → Prop} [DecidablePred p] {s : State} (clean : Clean s) (h : ¬ p s) :
    handle (fun t => if p t then tick t else t) s = .next s := handle_idle (if_neg h) clean.1

/-- Settles O17, from the parts of the tick. -/
theorem tickAdvances : Obligations.TickAdvances := by
  intro s free clean ordered late due
  have distinct : IdsDistinct s := ordered.2.2.1
  obtain ⟨good, -, only, ids, -⟩ := tick_compared clean distinct
  obtain ⟨quiet, looked, stack, emitter, -⟩ := arbitrate_spec good
  refine ⟨tick s, handle_next tick free (tick_clean clean).1, tick_ticked clean distinct, tick_time clean distinct,
    quiet.ring.trans only.ring, quiet.pilots.trans only.pilots, quiet.fleets.trans only.fleets, stack.trans only.stack,
    emitter.trans only.emitter, quiet.mode.trans only.mode, quiet.inputs.trans only.inputs, quiet.pins.trans only.pins,
    quiet.pending.trans only.pending, ?_, looked.trans ids, fun i pulse holdover notice => tick_line clean distinct pulse holdover notice⟩
  rw [tick_eq, quiet.next, only.sweeps]
  rfl

/-! ### The points of a tick -/

theorem deadlineNext_iff (s : State) : deadlineNext s = true ↔ Late s := by
  rw [deadlineNext, Bool.and_eq_true, decide_eq_true_iff, decide_eq_true_iff]
  rfl

theorem compareNext_iff (s : State) : compareNext s = true ↔ ∃ r ∈ s.listed, Due s r := by
  simp only [compareNext, List.any_eq_true, comparePoint_iff, Due]

/-- Settles O18, point by point. -/
theorem tickPoints : Obligations.TickPoints := by
  intro s free clean ordered late due
  have distinct : IdsDistinct s := ordered.2.2.1
  have ticked := tick_ticked clean distinct
  refine ⟨fun h => ⟨_, tickWhen_next (p := (deadlineNext · = true)) free clean ((deadlineNext_iff s).mpr h), ticked, ?_⟩,
    fun h => tickWhen_same (p := (deadlineNext · = true)) clean fun k => h ((deadlineNext_iff s).mp k),
    fun h => ⟨_, tickWhen_next (p := (compareNext · = true)) free clean ((compareNext_iff s).mpr h), ticked⟩,
    fun h => tickWhen_same (p := (compareNext · = true)) clean fun k => ?_, fun line => ⟨fun h => ?_, fun h => ?_⟩⟩
  · rw [tick_time clean distinct]
    exact if_pos h
  · obtain ⟨r, listed, reached⟩ := (compareNext_iff s).mp k
    exact h r listed reached
  · exact tickWhen_same (p := (·.router.outputs[line.val].count = 1)) clean h
  · refine ⟨_, tickWhen_next (p := (·.router.outputs[line.val].count = 1)) free clean h, ticked, fun pulse holdover notice => ?_⟩
    rw [tick_line clean distinct pulse holdover notice, tickedLine, h]
    simp

/-! ### One compare -/

/-- The one sweep whose compare a tick takes. -/
theorem dueSweeps_one {a b : List SweepRecord} {r : SweepRecord} {s : State} (listed : s.listed = a ++ r :: b) (due : Due s r)
    (others : ∀ q ∈ a ++ b, ¬ Due s q) : dueSweeps s = [r] := by
  have none {l : List SweepRecord} (sub : ∀ q ∈ l, q ∈ a ++ b) :
      l.filter (comparePoint fun c => c == (preTick s).time.n.toNat) = [] :=
    List.filter_eq_nil_iff.mpr fun q hq k => others q (sub q hq) ((preTick_due s q).mp k)
  rw [dueSweeps, preTick_listed, listed, List.filter_append, List.filter_cons_of_pos ((preTick_due s r).mpr due),
    none fun q hq => List.mem_append_left b hq, none fun q hq => List.mem_append_right a hq]
  rfl

/-- With one compare due the tick's compares are that one. -/
theorem tickCompares_one {r : SweepRecord} {s : State} (clean : Clean s) (one : dueSweeps s = [r]) :
    tickCompares (preTick s) = fireSweep (preTick s) r := by
  have fold : tickCompares (preTick s) = (dueSweeps s).foldl fireSweep (preTick s) := by
    unfold tickCompares
    rw [(preTick_clean clean).2.1]
    rfl
  rw [fold, one]
  rfl

/-- The link after a compare: SWEEP ENTERED has been offered (R72). -/
theorem fireSweep_link {s : State} (clean : Clean s) {r : SweepRecord} (good : r.checkBad = false) : (fireSweep s r).link =
    offeredLink [.sweepEntered r.id r.origin r.fleet r.vp r.t0 r.ctx (s.ctx r.ctx).gen] s := by
  unfold fireSweep
  rw [good, clean.ctx]
  exact offerReport_link_congr _ rfl ⟨rfl, rfl, rfl, rfl⟩

/-- A tick that reaches no deadline sends nothing before its compares. -/
theorem preTick_onTime {s : State} (early : ¬ Late s) :
    preTick s = tickJob ((s.mapOutputs outputTick).withTime { s.time with n := s.time.n + 1 }) :=
  congrArg tickJob (if_neg early)

theorem preTick_link {s : State} (early : ¬ Late s) : (preTick s).link = s.link := by
  rw [preTick_onTime early, tickJob_eq]
  rfl

theorem preTick_time_onTime {s : State} (early : ¬ Late s) : (preTick s).time = { s.time with n := s.time.n + 1 } := by
  rw [preTick_onTime early, tickJob_eq]
  rfl

theorem preTick_alike (s : State) : SendsAlike s (preTick s) := by
  have only := preTick_only s
  have alike : SendsAlike s { s with time := (preTick s).time, engine := (tickJob s).engine } := ⟨rfl, rfl, rfl, rfl⟩
  exact alike.trans only.alike

/-- A readiness test reads the ring and the parameters alone. -/
theorem Tested.congr {s t : State} {r r' : SweepRecord} (h : Tested t r r') (ring : t.ring = s.ring) (mode : t.mode = s.mode) :
    Tested s r r' := by
  unfold Tested at h ⊢
  rwa [SpanReady.congr ring mode rfl rfl] at h

/-- A tick leaves a BUSY engine BUSY (R83). -/
theorem tickJob_busy {s : State} (h : s.engine.job.isSome = true) : (tickJob s).engine.job.isSome = true := by
  obtain ⟨j, job⟩ := Option.isSome_iff_exists.mp h
  unfold tickJob
  rw [job]
  rfl

/-- A record stands in one place of a list of distinct ids. -/
theorem split_unique {a b a' b' : List SweepRecord} {r : SweepRecord} (distinct : (a ++ r :: b).Pairwise fun x y => x.id ≠ y.id)
    (same : a ++ r :: b = a' ++ r :: b') : a = a' ∧ b = b' := by
  obtain ⟨-, behind, before⟩ := List.pairwise_append.mp distinct
  have left : r ∉ a := fun h => before r h r (.head b) rfl
  have right : r ∉ b := fun h => (List.pairwise_cons.mp behind).1 r h rfl
  obtain ⟨e1, -, e2⟩ := (List.append_cons_inj_of_notMem left right).mp same
  exact ⟨e1, e2⟩

/-- A line through a compare: START PULSE of the fleet is an event on it, and NOTICE HIGH does not reach it (R50, R55). -/
theorem Fired.output {r : SweepRecord} {s t : State} (h : Fired r s t) {i : Fin 4}
    (notice : s.router.outputs[i.val].source ≠ .noticeHigh) : t.router.outputs[i.val] =
      if s.router.outputs[i.val].source = .startPulse r.fleet then eventLine s.router.outputs[i.val]
      else s.router.outputs[i.val] := by
  obtain ⟨a, b, r', u, v, -, raised, offered, -, rfl⟩ := h
  have source : u.router.outputs[i.val].source = s.router.outputs[i.val].source := (raised.only.2.2.2 i).1
  rw [← raised.2 i]
  exact offered.only.2.1 i (by rw [List.mem_singleton]; exact fun k => notice (source.symm.trans k))

/-- The record of a compare, tested in its place (R50, R72, R75). -/
theorem Fired.record {a b : List SweepRecord} {r : SweepRecord} {s t : State} (h : Fired r s t) (distinct : IdsDistinct s)
    (listed : s.listed = a ++ r :: b) :
    ∃ r', Tested s { r with state := .waiting, compare := none } r' ∧ t.listed = a ++ r' :: b := by
  obtain ⟨a', b', r', u, v, place, -, -, tested, rfl⟩ := h
  rw [IdsDistinct, listed] at distinct
  obtain ⟨rfl, rfl⟩ := split_unique distinct (listed.symm.trans place)
  exact ⟨r', tested, rfl⟩

/-- Behind a compare the engine's arbiter has nothing to begin, where the engine is BUSY or the sweep's span is not ready (R84). -/
theorem served_of_record {a b : List SweepRecord} {r r' : SweepRecord} {s t : State} (served : ArbiterServed s)
    (listed : s.listed = a ++ r :: b) (list : t.listed = a ++ r' :: b)
    (tested : Tested s { r with state := .waiting, compare := none } r')
    (busy : s.engine.job.isSome = true → t.engine.job.isSome = true) (engine : s.engine.job.isSome = true ∨ ¬ SpanReady s r) :
    ArbiterServed t := by
  rcases Bool.eq_false_or_eq_true s.engine.job.isSome with run | idle
  · exact .inl (busy run)
  have waiting := served.resolve_left (by rw [idle]; decide)
  have unready := engine.resolve_left (by rw [idle]; decide)
  rw [listed] at waiting
  refine .inr fun q hq => ?_
  rw [list] at hq
  rcases List.mem_append.mp hq with before | own
  · exact waiting q (List.mem_append_left _ before)
  rcases List.mem_cons.mp own with rfl | behind
  · rcases tested with ⟨-, ready, -⟩ | ⟨-, same⟩
    · exact absurd ready unready
    · rw [same]
      exact show SweepState.waiting ≠ .ready by decide
  · exact waiting q (List.mem_append_right _ (.tail _ behind))

/-- Settles O19: the tick's one compare, with the record, the report and the lines it leaves. -/
theorem compareFires : Obligations.CompareFires := by
  intro a b r s free clean served ordered onTime listed scheduled compare others engine
  have distinct : IdsDistinct s := ordered.2.2.1
  have early : ¬ Late s := fun late => onTime late.1 late.2
  have due : Due s r := ⟨scheduled, compare⟩
  have member : r ∈ s.listed := by rw [listed]; exact List.mem_append_right a (.head b)
  have compares := tickCompares_one clean (dueSweeps_one listed due fun q hq k => others q hq k.1 k.2)
  have before := preTick_listed s
  have framed := preTick_only s
  obtain ⟨-, -, only, -, -⟩ := tick_compared clean distinct
  rw [compares] at only
  have distinct' : IdsDistinct (preTick s) := by rw [IdsDistinct, before]; exact distinct
  have fired := fireSweep_fired (preTick_clean clean) distinct' (before.symm ▸ member)
  set t := fireSweep (preTick s) r with ht
  obtain ⟨r', tested, list⟩ := fired.record distinct' (before.trans listed)
  replace tested := tested.congr (s := s) framed.ring framed.mode
  have looked : tick s = t := by
    rw [tick_eq, compares]
    refine arbitrate_served (served_of_record served listed list tested (fun busy => ?_) engine)
    rw [only.engine]
    exact tickJob_busy busy
  have line {i : Fin 4} : (preTick s).router.outputs[i.val] = tickedLine s.router.outputs[i.val] :=
    preTick_line (fun late => absurd late early) fun late => absurd late early
  have output {i : Fin 4} := fired.output (i := i)
  simp only [line, tickedLine_source] at output
  refine ⟨tick s, r', tickWhen_next (p := (compareNext · = true)) free clean ((compareNext_iff s).mpr ⟨r, member, due⟩), tested, ?_⟩
  rw [looked]
  refine ⟨list, ?_, ?_, ?_, fun i source form => ?_, fun i source notice => ?_⟩
  · have sweeps : t.sweeps = { s.sweeps with recs := t.listed } := only.sweeps
    rw [preTick_time_onTime early] at only
    rw [sweeps]
    exact only
  · rw [only.sweeps]
    rfl
  · rw [fireSweep_link (preTick_clean clean) (clean.listed member), framed.ctx]
    exact offeredLink_congr _ (preTick_link early) (preTick_alike s)
  · rw [output (by rw [source]; nofun), if_pos source]
    exact ⟨if_neg form, if_neg form⟩
  · rw [output notice, if_neg source]

end Sys2Proof.Machine
end

section
/-! PROOFS. The edges that are taken: the PPS edge, and the time break refused, refused entry, or admitted (R44, R45, R48 to R51, R63 to
R69, R72, R74, R77, R84, R122 to R124, R160). -/

namespace Sys2Proof.Machine

/-! ### The line an edge comes on -/

/-- The state with an input line at a level. -/
abbrev State.pinned (s : State) (line : Fin 4) (level : Bool) : State :=
  s.withRouter { s.router with pins := s.router.pins.set line.val level }

theorem pinned_clean {s : State} (clean : Clean s) (line : Fin 4) (level : Bool) : Clean (s.pinned line level) := clean

/-! ### The PPS edge -/

/-- The edge up to its report, a step of 0 among them (R44, R45, R48). -/
theorem ppsReport_aligns (line : Fin 4) (level : Bool) (s : State) :
    let n := BitVec.ofInt 48 ((s.time.n.toNat : Int) + alignStep s)
    let p := s.pinned line level
    Aligned line level s (ppsReport s.time.lock (alignStep s) (setLock .locked (p.withTime { p.time with n := n, a := n }))) := by
  intro n p
  set u := p.withTime { p.time with n := n, a := n } with hu
  have time : (setLock .locked u).time.n = n := by
    rw [(setLock_only _ _).time]
    rfl
  refine ⟨setLock .locked u, setLock_left (l := .locked) (by decide) u, ?_⟩
  split
  · next still => rw [still.1, still.2]; rfl
  · next moved =>
    cases lock : s.time.lock with
    | locked =>
      have step : alignStep s ≠ 0 := fun k => moved ⟨lock, k⟩
      rw [ppsReport, if_neg step, time]
      exact offerReport_offered _ _
    | free | holdover =>
      rw [ppsReport, time]
      exact offerReport_offered _ _

/-- N as aligned is a whole number (R44). -/
theorem aligned_nonneg (s : State) : 0 ≤ (s.time.n.toNat : Int) + alignStep s := by
  have below : s.time.n.toNat % s.sps ≤ s.time.n.toNat := Nat.mod_le _ _
  unfold alignStep
  simp only
  split_ifs <;> omega

/-- A sweep the step carries N past leaves the list, MISSED, where its T0 lies below the new N, and fires otherwise (R51). -/
def Passed (new : Int) (q : SweepRecord) (a b : State) : Prop :=
  if (q.t0.toNat : Int) < new then Dropped .missed true q a b else Fired q a b

/-- One sweep's share of a step. -/
def passSweep (new : Nat) (u : State) (r : SweepRecord) : State :=
  if new ≤ r.t0.toNat then fireSweep u r else dropSweep .missed true u r

/-- What a sweep's share of a step leaves: the tables clean, and the other records listed under distinct ids. -/
theorem passSweep_kept {new : Nat} {s : State} (clean : Clean s) (distinct : IdsDistinct s) {r : SweepRecord} (listed : r ∈ s.listed) :
    Passed new r s (passSweep new s r) ∧ Clean (passSweep new s r) ∧ IdsDistinct (passSweep new s r) ∧
      ∀ q ∈ s.listed, q.id ≠ r.id → q ∈ (passSweep new s r).listed := by
  unfold Passed passSweep
  by_cases later : new ≤ r.t0.toNat
  · rw [if_pos later, if_neg (by omega)]
    have fired := fireSweep_fired clean distinct listed
    obtain ⟨good, others⟩ := fireSweep_kept clean distinct listed
    exact ⟨fired, good, ids_pairwise distinct fired.kept.1, others⟩
  · rw [if_neg later, if_pos (by omega)]
    have left := dropSweep_listed .missed true s r
    refine ⟨dropSweep_dropped .missed true clean listed, (dropSweep_quiet .missed true clean listed).clean clean, ?_, fun q hq other => ?_⟩
    · rw [IdsDistinct, left]
      exact distinct.sublist List.filter_sublist
    · rw [left]
      exact List.mem_filter.mpr ⟨hq, decide_eq_true other⟩

/-- The sweeps a step carries N past, one after the other (R51). -/
theorem passes_chain {new : Nat} (l : List SweepRecord) {s : State} (clean : Clean s) (distinct : IdsDistinct s)
    (apart : l.Pairwise fun a b => a.id ≠ b.id) (listed : ∀ r ∈ l, r ∈ s.listed) :
    Chain (Passed new) l s (l.foldl (passSweep new) s) ∧ Clean (l.foldl (passSweep new) s) ∧
      IdsDistinct (l.foldl (passSweep new) s) := by
  induction l generalizing s with
  | nil => exact ⟨rfl, clean, distinct⟩
  | cons r l ih =>
    obtain ⟨first, rest⟩ := List.pairwise_cons.mp apart
    obtain ⟨passed, good, kept, others⟩ := passSweep_kept (new := new) clean distinct (listed r (.head l))
    obtain ⟨chain, last⟩ := ih good kept rest fun q hq => others q (listed q (.tail r hq)) (first q hq).symm
    exact ⟨⟨_, passed, chain⟩, last⟩

/-- The sweeps a step from `old` to `new` carries N past (R51). -/
def passedSweeps (old : Nat) (new : Int) (s : State) : List SweepRecord :=
  s.listed.filter fun q => decide (q.state = .scheduled) && q.compare.any fun c : Nat => decide (old < c ∧ (c : Int) ≤ new)

theorem stepCompares_chain {old new : Nat} {s : State} (clean : Clean s) (distinct : IdsDistinct s) :
    Chain (Passed new) (passedSweeps old new s) s (stepCompares old new s) ∧ Clean (stepCompares old new s) ∧
      IdsDistinct (stepCompares old new s) := by
  have same : passedSweeps old new s = s.listed.filter (comparePoint fun c => decide (old < c) && decide (c ≤ new)) := by
    refine List.filter_congr fun q _ => ?_
    simp only [comparePoint, Int.ofNat_le, Bool.decide_and]
  have fold : stepCompares old new s = (passedSweeps old new s).foldl (passSweep new) s := by
    rw [same]
    unfold stepCompares
    rw [clean.2.1]
    rfl
  rw [fold]
  exact passes_chain _ clean distinct (distinct.sublist List.filter_sublist) fun r hr => List.mem_of_mem_filter hr

/-- A step of 0 carries N past nothing. -/
theorem passedSweeps_still (old : Nat) (s : State) : passedSweeps old old s = [] := by
  refine List.filter_eq_nil_iff.mpr fun q _ => ?_
  cases q.compare with
  | none => simp
  | some c => simp

/-- Settles O20, from the edge's report to the arbiter's look. -/
theorem ppsAligns : Obligations.PpsAligns := by
  intro line level s free clean ordered role active new
  set p := s.pinned line level with hp
  have moved : setPin line level s = p := setPin_other level (by rw [role]; decide)
  have edge : activeEdge line level .pps p = true := by simp [activeEdge, hp, role, active, activeLevel_eq]
  set n := BitVec.ofInt 48 new
  set w := ppsReport s.time.lock (alignStep s) (setLock .locked (p.withTime { p.time with n := n, a := n })) with hw
  set x := if alignStep s = 0 then w else stepCompares s.time.n.toNat new.toNat w with hx
  have aligned : alignPps p = arbitrate (drainTest x) := by
    have same : ppsStep p.sps p.time.n.toNat = alignStep s := ppsStep_alignStep s
    unfold alignPps
    simp only [same]
    rfl
  have tables : w.tables = s.tables := (tables_ppsReport _ _ _).trans (tables_setLock _ _)
  have listed : w.listed = s.listed := listed_of_tables tables
  have good : Clean w := by
    have timed : Clean (p.withTime { p.time with n := n, a := n }) := clean
    exact ((setLock_upholds (ok := True) .locked _).trans (ppsReport_upholds _ _ _)).clean trivial timed
  have distinct : IdsDistinct w := IdsDistinct.of_tables tables ordered.2.2.1
  have whole : (new.toNat : Int) = new := Int.toNat_of_nonneg (aligned_nonneg s)
  have chain : Chain (Passed new) (passedSweeps s.time.n.toNat new s) w x ∧ Clean x ∧ IdsDistinct x := by
    have sweeps : passedSweeps s.time.n.toNat new s = passedSweeps s.time.n.toNat new w := by rw [passedSweeps, passedSweeps, listed]
    rw [sweeps, hx]
    split
    · next still =>
      have none : passedSweeps s.time.n.toNat new w = [] := by
        rw [show new = s.time.n.toNat by omega]
        exact passedSweeps_still _ _
      rw [none]
      exact ⟨rfl, good, distinct⟩
    · rw [← whole]
      exact stepCompares_chain good distinct
  obtain ⟨passed, after, apart⟩ := chain
  obtain ⟨drained, sweeps, -⟩ := drainTest_quiet after
  have still : IdsDistinct (drainTest x) := by rw [IdsDistinct, State.listed, sweeps]; exact apart
  have last : Clean (alignPps p) := (alignPps_upholds (ok := True) p).clean trivial (pinned_clean clean line level)
  refine ⟨alignPps p, w, x, drainTest x, ?_, ppsReport_aligns line level s, passed, drainTest_tested after, ?_⟩
  · show handle _ (setPin line level s) = _
    rw [moved]
    exact handle_eq free (if_pos edge) last.1
  · rw [aligned]
    exact arbitrate_looks drained still

/-! ### The time break -/

/-- A time break on its line, with the edge that is its active one (R49, R52). -/
theorem exec_timeBreak_taken {line : Fin 4} {level : Bool} {fl : Fin 4} {s : State} (free : s.mode.held = false) (clean : Clean s)
    (role : s.router.inputs[line.val].role = .timeBreak fl)
    (active : level = decide (s.router.inputs[line.val].polarity = .activeHigh)) :
    exec (.timeBreak line level) s = .next (takeBreak fl (s.pinned line level)) := by
  set p := s.pinned line level with hp
  have moved : setPin line level s = p := setPin_other level (by rw [role]; nofun)
  have carries : breakFleet line level p = some fl := by simp [breakFleet, hp, role, active, activeLevel_eq]
  rw [exec_timeBreak, moved]
  refine handle_eq free (by rw [carries]; rfl) ?_
  exact ((takeBreak_upholds (ok := True) fl p).clean trivial (pinned_clean clean line level)).1

/-- The state a break taken under an arm enters the list from: its arm's count has fallen (R63). -/
def armed (fl : Fin 4) (a : Arm) (s : State) : State :=
  s.withFleet fl { s.fleet fl with arm := if a.count ≤ 1 then none else some { a with count := a.count - 1 } }

/-- A time break outside ACQUIRE, and one without an arm, only report so (R64). -/
theorem takeBreak_refused {fl : Fin 4} {s : State} (refused : s.mode.op ≠ .acquire ∨ (s.fleet fl).arm = none) :
    takeBreak fl s =
      offerReport (.timeBreakRefused fl (if s.mode.op ≠ .acquire then .state else .unarmed) s.time.n s.mode.op) s := by
  unfold takeBreak
  by_cases outside : s.mode.op ≠ .acquire
  · rw [if_pos outside, if_pos outside]
  · have unarmed : (s.fleet fl).arm = none := refused.resolve_left outside
    rw [if_neg outside, if_neg outside, unarmed]

theorem takeBreak_armed {fl : Fin 4} {a : Arm} {s : State} (op : s.mode.op = .acquire) (arm : (s.fleet fl).arm = some a) :
    takeBreak fl s =
      match enterSweep .timeBreak fl a.vp (s.time.n + (s.fleet fl).offset.signExtend 48) none (armed fl a s) with
      | (u, .admitted _) => arbitrate u
      | (u, .refused why) =>
        offerReport (.sweepDropped 0 fl a.vp (s.time.n + (s.fleet fl).offset.signExtend 48) (refusedCause why) none none) u
      | (u, .ended) => u := by
  unfold takeBreak
  rw [if_neg (not_not.mpr op), arm]
  rfl

/-- Neither the arm nor the pins are read by the checks of an entry. -/
theorem armed_checks (line : Fin 4) (level : Bool) (fl : Fin 4) (a : Arm) (s : State) (t0 : SampleIndex) :
    ChecksPass (armed fl a (s.pinned line level)) fl t0 ∧ Resolvable (armed fl a (s.pinned line level)) fl a.vp ↔
      ChecksPass s fl t0 ∧ Resolvable s fl a.vp := by
  set u := armed fl a (s.pinned line level) with hu
  have record : u.fleet fl = { s.fleet fl with arm := if a.count ≤ 1 then none else some { a with count := a.count - 1 } } :=
    State.fleet_withFleet _ _ _
  have slot : (u.fleet fl).slot = (s.fleet fl).slot := by rw [record]
  have k : (u.fleet fl).k = (s.fleet fl).k := by rw [record]
  exact ⟨fun ⟨checks, resolvable⟩ =>
      ⟨ChecksPass.congr (s := u) (u := s) rfl rfl slot.symm rfl checks, Resolvable.congr (s := u) (u := s) k.symm rfl resolvable⟩,
    fun ⟨checks, resolvable⟩ =>
      ⟨ChecksPass.congr (s := s) (u := u) rfl rfl slot rfl checks, Resolvable.congr (s := s) (u := u) k rfl resolvable⟩⟩

/-- Settles O35: the refusals before the arm is taken, and the entry refused behind it. -/
theorem breakTurnedAway : Obligations.BreakTurnedAway := by
  intro line level fl s free clean role active u
  have run := exec_timeBreak_taken free clean role active
  refine ⟨fun refused => ⟨_, run, ?_⟩, fun a op arm => ?_⟩
  · rw [takeBreak_refused (s := s.pinned line level) refused]
    exact offerReport_offered _ _
  · intro t0 turned
    obtain ⟨why, v, entry, left, -⟩ := enter_turned (s := armed fl a u) .timeBreak fl a.vp t0 none (pinned_clean clean line level)
      fun k => turned ((armed_checks line level fl a s t0).mp k)
    refine ⟨_, why, v, run, left, ?_⟩
    rw [takeBreak_armed (by exact op) (by exact arm)]
    have entered : enterSweep .timeBreak fl a.vp (u.time.n + (u.fleet fl).offset.signExtend 48) none (armed fl a u) =
        (v, .refused why) := entry
    rw [entered]
    cases why <;> exact offerReport_offered _ _

/-- Settles O36: the admitted entry from the arm's fallen count, and the arbiter's look behind it. -/
theorem breakEnters : Obligations.BreakEnters := by
  intro line level fl a s free clean ordered role active op arm t0 checks resolvable u
  obtain ⟨-, -, distinct, -, next⟩ := ordered
  obtain ⟨checks, resolvable⟩ := (armed_checks line level fl a s t0).mpr ⟨checks, resolvable⟩
  obtain ⟨v, r', entry, enters, -, good, apart⟩ := enter_waiting (s := u) .timeBreak fl a.vp t0 clean next distinct checks resolvable
  refine ⟨_, r', v, exec_timeBreak_taken free clean role active, enters, ?_⟩
  rw [takeBreak_armed (by exact op) (by exact arm)]
  have entered : enterSweep .timeBreak fl a.vp ((s.pinned line level).time.n + ((s.pinned line level).fleet fl).offset.signExtend 48)
      none (armed fl a (s.pinned line level)) = (v, .admitted r') := entry
  rw [entered]
  exact arbitrate_looks good apart

end Sys2Proof.Machine
end

section
/-! PROOFS. The sweep list through the model: what leaves it, and that every change of it keeps its bounds, its order by T0 and its ids
(R67, R68). -/

namespace Sys2Proof.Machine

/-! ### Operations that leave the list -/

@[simp] theorem placeReply_sweeps (f : RxFrame) (st : Status) (c : List Byte) (s : State) : (placeReply f st c s).sweeps = s.sweeps :=
  (placeReply_only f st c s).sweeps

@[simp] theorem offerReport_sweeps (r : Report) (s : State) : (offerReport r s).sweeps = s.sweeps := (offerReport_only r s).sweeps

@[simp] theorem raiseEvent_sweeps (src : Source) (s : State) : (raiseEvent src s).sweeps = s.sweeps := rfl

@[simp] theorem vpDone_sweeps (i : Fin 4) (n : Nat) (s : State) : (vpDone i n s).sweeps = s.sweeps := (vpDone_only i n s).sweeps

@[simp] theorem setLock_sweeps (l : LockState) (s : State) : (setLock l s).sweeps = s.sweeps := (setLock_only l s).sweeps

@[simp] theorem setOp_sweeps (o : OpState) (d : Option DrainMode) (s : State) : (setOp o d s).sweeps = s.sweeps :=
  (setOp_only o d s).sweeps

@[simp] theorem markHit_sweeps (bad : Bool) (s : State) : (markHit bad s).sweeps = s.sweeps := by cases bad <;> rfl

@[simp] theorem decideLine_sweeps (s : State) : (decideLine s).sweeps = s.sweeps := (decideLine_tables s).1

@[simp] theorem emitterBegin_sweeps (s : State) : (emitterBegin s).sweeps = s.sweeps := (emitterBegin_tables s).1

@[simp] theorem holdChanged_sweeps (s t : State) : (holdChanged s t).sweeps = t.sweeps := by
  simp [holdChanged, apply_ite State.sweeps]

@[simp] theorem setPin_sweeps (line : Fin 4) (level : Bool) (s : State) : (setPin line level s).sweeps = s.sweeps := by simp [setPin]

@[simp] theorem freeCtx_sweeps (i : Fin 4) (s : State) : (freeCtx i s).sweeps = s.sweeps := rfl

@[simp] theorem closeCtx_sweeps (i : Fin 4) (s : State) : (closeCtx i s).sweeps = s.sweeps := by
  simp [closeCtx, apply_ite State.sweeps]

@[simp] theorem applyClose_sweeps (i : Fin 4) (s : State) : (applyClose i s).sweeps = s.sweeps := by
  simp [applyClose, apply_ite State.sweeps]

@[simp] theorem attachCtx_sweeps (i : Fin 4) (k : Nat) (s : State) : (attachCtx i k s).1.sweeps = s.sweeps := by
  simp [attachCtx, apply_ite Prod.fst, apply_ite State.sweeps]

@[simp] theorem openFree_sweeps (vp : VpId) (k target : Nat) (s : State) : (openFree vp k target s).1.sweeps = s.sweeps := by
  unfold openFree; split <;> rfl

@[simp] theorem resolveCtx_sweeps (vp : VpId) (k target : Nat) (s : State) : (resolveCtx vp k target s).1.sweeps = s.sweeps := by
  unfold resolveCtx
  split
  · rfl
  · split
    · simp
    · split
      · simp
      · split <;> simp

@[simp] theorem drainTest_sweeps (s : State) : (drainTest s).sweeps = s.sweeps := by
  simp [drainTest, apply_ite State.sweeps]

@[simp] theorem tickJob_sweeps (s : State) : (tickJob s).sweeps = s.sweeps := by rw [tickJob_eq]; rfl

@[simp] theorem advanceJob_sweeps (n : Nat) (j : Job) (s : State) : (advanceJob n j s).sweeps = s.sweeps := rfl

@[simp] theorem enterHoldover_sweeps (s : State) : (enterHoldover s).sweeps = s.sweeps := by simp [enterHoldover]

@[simp] theorem preTick_sweeps (s : State) : (preTick s).sweeps = s.sweeps := (preTick_only s).sweeps

@[simp] theorem ppsReport_sweeps (was : LockState) (step : Int) (s : State) : (ppsReport was step s).sweeps = s.sweeps := by
  cases was <;> simp [ppsReport, apply_ite State.sweeps]

@[simp] theorem spreadFault_sweeps (kind : FaultKind) (loc : Option (Nat × Nat)) (s : State) :
    (spreadFault kind loc s).sweeps = s.sweeps := by
  unfold spreadFault; split <;> simp

@[simp] theorem writeBlock_sweeps (g b : Nat) (xs : List RingSample) (s : State) : (writeBlock g b xs s).sweeps = s.sweeps := rfl

/-- A fold leaves the list when each of its steps does. -/
theorem foldl_sweeps {α : Type} {g : State → α → State} (hg : ∀ s a, (g s a).sweeps = s.sweeps) (l : List α) (s : State) :
    (l.foldl g s).sweeps = s.sweeps := by
  induction l generalizing s with
  | nil => rfl
  | cons a l ih => exact (ih (g s a)).trans (hg s a)

theorem pendCtx_sweeps (s : State) (i : Fin 4) : (pendCtx s i).sweeps = s.sweeps := by
  simp [pendCtx, apply_ite State.sweeps]

theorem discardCtx_sweeps (s : State) (i : Fin 4) : (discardCtx s i).sweeps = s.sweeps := by
  simp [discardCtx, apply_ite State.sweeps]

/-! ### Handlings that leave the list -/

@[simp] theorem withParams_sweeps (s : State) (p : Params) : (s.withParams p).sweeps = s.sweeps := rfl

@[simp] theorem storeParam_sweeps (key v : Nat) (s : State) : (storeParam key v s).sweeps = s.sweeps := by
  unfold storeParam
  split
  · unfold storeInterval
    split
    · rfl
    · simp [apply_ite State.sweeps]
  · rfl
  · split <;> rfl
  · split <;> rfl
  · simp [storeHoldover, apply_ite State.sweeps]
  · rfl
  · rfl

theorem paramSet_sweeps (f : RxFrame) (s : State) : (paramSet f s).sweeps = s.sweeps := by
  simp [paramSet, apply_ite State.sweeps]

theorem startRequest_sweeps (f : RxFrame) (s : State) : (startRequest f s).sweeps = s.sweeps := by
  simp [startRequest, apply_ite State.sweeps]

theorem syncRequest_sweeps (f : RxFrame) (s : State) : (syncRequest f s).sweeps = s.sweeps := by simp [syncRequest]

theorem timeSet_sweeps (f : RxFrame) (s : State) : (timeSet f s).sweeps = s.sweeps := by
  simp [timeSet, apply_ite State.sweeps]

theorem routeSet_sweeps (f : RxFrame) (s : State) : (routeSet f s).sweeps = s.sweeps := by
  unfold routeSet
  simp only
  split <;> simp [storeOutput]

theorem pilotOpen_sweeps (f : RxFrame) (s : State) : (pilotOpen f s).sweeps = s.sweeps := by
  unfold pilotOpen
  simp only
  split <;> simp [apply_ite State.sweeps]

theorem pilotWords_sweeps (f : RxFrame) (s : State) : (pilotWords f s).sweeps = s.sweeps := by
  unfold pilotWords
  simp only
  split <;> simp [pilotFailed, apply_ite State.sweeps]

theorem pilotClose_sweeps (f : RxFrame) (s : State) : (pilotClose f s).sweeps = s.sweeps := by
  unfold pilotClose
  simp only
  split <;> simp [pilotFailed, apply_ite State.sweeps]

theorem fleetSet_sweeps (f : RxFrame) (s : State) : (fleetSet f s).sweeps = s.sweeps := by
  unfold fleetSet
  simp only
  split
  · simp
  · split
    · rfl
    · split
      · simp
      · split <;> simp

theorem fleetGet_sweeps (f : RxFrame) (s : State) : (fleetGet f s).sweeps = s.sweeps := by
  unfold fleetGet
  simp only
  split <;> simp

theorem armRequest_sweeps (f : RxFrame) (s : State) : (armRequest f s).sweeps = s.sweeps := by
  unfold armRequest
  simp only
  split <;> simp

theorem closeWait_sweeps (f : RxFrame) (s : State) : (closeWait f s).sweeps = s.sweeps := by
  unfold closeWait
  split
  · simp
  · simp only
    split <;> simp

theorem endPass_sweeps (s : State) : (endPass s).sweeps = s.sweeps := by
  unfold endPass
  split
  · rfl
  · split <;> rfl

theorem endEmission_sweeps (cu : Cursor) (s : State) : (endEmission cu s).sweeps = s.sweeps := by simp [endEmission]

theorem traceSent_sweeps (cu : Cursor) (s : State) : (traceSent cu s).sweeps = s.sweeps := by
  simp [traceSent, endEmission_sweeps, apply_ite State.sweeps]

theorem endMessage_sweeps (m : TxMessage) (s : State) : (endMessage m s).sweeps = s.sweeps := by
  unfold endMessage
  simp only
  split
  · rfl
  · split
    · rfl
    · simp [traceSent_sweeps, apply_ite State.sweeps]

/-! ### Changes of the list -/

variable {s t : State}

theorem ListOrdered.of_sweeps (h : ListOrdered s) (e : t.sweeps = s.sweeps) : ListOrdered t := by
  unfold ListOrdered State.listed at *
  rw [e]
  exact h

/-- The states of listed sweeps change, their ids and T0 standing. -/
theorem ListOrdered.relabel (h : ListOrdered s) {g : SweepRecord → SweepRecord} (kept : ∀ r, (g r).id = r.id ∧ (g r).t0 = r.t0) :
    ListOrdered (s.withListed (s.listed.map g)) := by
  obtain ⟨length, order, distinct, range, next⟩ := h
  refine ⟨by simpa using length, ?_, ?_, fun r hr => ?_, next⟩
  · exact List.pairwise_map.mpr (order.imp fun {a b} hab => by rw [(kept a).2, (kept b).2]; exact hab)
  · exact List.pairwise_map.mpr (distinct.imp fun {a b} hab => by rw [(kept a).1, (kept b).1]; exact hab)
  · obtain ⟨q, hq, rfl⟩ := List.mem_map.mp hr
    rw [(kept q).1]
    exact range q hq

/-- Records leave the list. -/
theorem ListOrdered.thin (h : ListOrdered s) (p : SweepRecord → Bool) : ListOrdered (s.withListed (s.listed.filter p)) := by
  obtain ⟨length, order, distinct, range, next⟩ := h
  exact ⟨(List.length_filter_le p s.listed).trans length, order.sublist List.filter_sublist, distinct.sublist List.filter_sublist,
    fun r hr => range r (List.mem_of_mem_filter hr), next⟩

/-- A record of an id that is not listed goes into the list, and the ids stay distinct. -/
theorem insertSweep_distinct {r : SweepRecord} {l : List SweepRecord} (new : ∀ q ∈ l, q.id ≠ r.id)
    (distinct : l.Pairwise fun a b => a.id ≠ b.id) : (insertSweep r l).Pairwise fun a b => a.id ≠ b.id := by
  obtain ⟨a, b, split, inserted, -, -⟩ := insertSweep_insertedAt r l
  rw [inserted]
  refine (List.pairwise_middle (R := fun x y : SweepRecord => x.id ≠ y.id) fun hxy => hxy.symm).mpr (List.pairwise_cons.mpr ?_)
  rw [← split]
  exact ⟨fun q hq => (new q hq).symm, distinct⟩

/-- A record goes into a list with a free place, under the id that the search finds (R67, R68). -/
theorem ListOrdered.list (h : ListOrdered s) (free : s.listed.length < 16) (r : SweepRecord) : ListOrdered (listSweep r s).1 := by
  obtain ⟨-, order, distinct, range, next⟩ := h
  obtain ⟨-, -, listed⟩ := listSweep_lists (u := s) r rfl
  set id := freeId (s.listed.map (·.id)) 16 s.sweeps.nextId with hid
  have idRange : 1 ≤ id ∧ id ≤ 65535 := freeId_range next
  have idNew : id ∉ s.listed.map (·.id) := freeId_new next (by simpa using free)
  unfold ListOrdered
  rw [listed]
  refine ⟨by rw [insertSweep_length]; omega, insertSweep_sorted order, insertSweep_distinct (fun q hq e => ?_) distinct, fun q hq => ?_, ?_⟩
  · exact idNew (List.mem_map.mpr ⟨q, hq, e⟩)
  · rcases insertSweep_mem.mp hq with rfl | hq
    · exact idRange
    · exact range q hq
  · show 1 ≤ idAfter id ∧ idAfter id ≤ 65535
    unfold idAfter
    split <;> omega

/-- An empty list. -/
theorem ListOrdered.of_cleared (h : t.sweeps = SweepList.cleared) : ListOrdered t := by
  unfold ListOrdered State.listed
  rw [h]
  decide

/-- A loop keeps the bounds when each of its turns does. -/
theorem ListOrdered.foldl {α : Type} {g : State → α → State} (turn : ∀ s a, ListOrdered s → ListOrdered (g s a)) (l : List α)
    (h : ListOrdered s) : ListOrdered (l.foldl g s) := by
  induction l generalizing s with
  | nil => exact h
  | cons a l ih => exact ih (turn s a h)

/-! ### Readiness, the engine and the compares -/

theorem changeSweep_ordered (id : Nat) {g : SweepRecord → SweepRecord} (kept : ∀ r, (g r).id = r.id ∧ (g r).t0 = r.t0)
    (h : ListOrdered s) : ListOrdered (changeSweep id g s) :=
  h.relabel fun r => by
    split
    · exact kept r
    · exact ⟨rfl, rfl⟩

theorem readied_kept (s : State) (r : SweepRecord) : (readied s r).id = r.id ∧ (readied s r).t0 = r.t0 := ⟨readied_id s r, readied_t0 s r⟩

theorem testReadiness_ordered (id : Nat) (h : ListOrdered s) : ListOrdered (testReadiness id s) :=
  changeSweep_ordered id (readied_kept s) h

theorem arrivalNotice_ordered (h : ListOrdered s) : ListOrdered (arrivalNotice s) :=
  (h.of_sweeps (markHit_sweeps s.listBad s)).relabel (readied_kept _)

theorem beginJob_ordered (r : SweepRecord) (h : ListOrdered s) : ListOrdered (beginJob r s) :=
  (changeSweep_ordered r.id (g := fun q => { q with state := .correlating }) (fun _ => ⟨rfl, rfl⟩) h).of_sweeps rfl

theorem arbitrate_ordered (h : ListOrdered s) : ListOrdered (arbitrate s) := by
  unfold arbitrate
  split
  · exact h
  split
  · exact h
  split
  · exact h.of_sweeps rfl
  · exact beginJob_ordered _ h

theorem fireSweep_ordered (s : State) (r : SweepRecord) (h : ListOrdered s) : ListOrdered (fireSweep s r) := by
  set u := raiseEvent (.startPulse r.fleet) (markHit (r.checkBad || (s.ctx r.ctx).checkBad) s) with hu
  have raised : ListOrdered u := h.of_sweeps (by simp [hu])
  have waiting := changeSweep_ordered r.id (g := fun q => { q with state := .waiting, compare := none }) (fun _ => ⟨rfl, rfl⟩) raised
  exact testReadiness_ordered r.id (waiting.of_sweeps (offerReport_sweeps _ _))

theorem tickCompares_ordered (h : ListOrdered s) : ListOrdered (tickCompares s) :=
  (h.of_sweeps (markHit_sweeps s.listBad s)).foldl fireSweep_ordered _

/-! ### Drops and entries -/

theorem dropSweep_ordered (cause : DropCause) (close : Bool) (s : State) (r : SweepRecord) (h : ListOrdered s) :
    ListOrdered (dropSweep cause close s r) := by
  have left := h.thin fun q => decide (q.id ≠ r.id)
  refine left.of_sweeps ?_
  simp [dropSweep, unlist, State.withListed, State.listed, abandonJob, apply_ite State.sweeps]

theorem dropWhere_ordered (p : SweepRecord → Bool) (cause : DropCause) (close : Bool) (h : ListOrdered s) :
    ListOrdered (dropWhere p cause close s) := h.foldl (dropSweep_ordered cause close) _

theorem evictionNotice_ordered (oldest : Nat) (h : ListOrdered s) : ListOrdered (evictionNotice oldest s) :=
  dropWhere_ordered _ _ _ (h.of_sweeps (markHit_sweeps s.listBad s))

theorem stepCompares_ordered (old new : Nat) (h : ListOrdered s) : ListOrdered (stepCompares old new s) := by
  refine (h.of_sweeps (markHit_sweeps s.listBad s)).foldl (fun u r hu => ?_) _
  split
  · exact fireSweep_ordered u r hu
  · exact dropSweep_ordered .missed true u r hu

theorem enterSweep_ordered (origin : Origin) (f : Fin 4) (vp : VpId) (t0 : SampleIndex) (compare : Option Nat) (h : ListOrdered s) :
    ListOrdered (enterSweep origin f vp t0 compare s).1 := by
  unfold enterSweep
  simp only
  split
  · exact h.of_sweeps rfl
  split
  · exact h
  next room =>
  split
  · exact h
  split
  · exact h
  have kept := resolveCtx_sweeps vp (s.fleet f).k (s.fleet f).target s
  generalize resolveCtx vp (s.fleet f).k (s.fleet f).target s = answer at kept
  obtain ⟨u, i | why | ended⟩ := answer
  case refused => exact h.of_sweeps kept
  case ended => exact h.of_sweeps kept
  case attached =>
    have free : u.listed.length < 16 := by
      rw [show u.listed = s.listed from congrArg SweepList.recs kept]
      exact Nat.lt_of_not_le room
    cases compare with
    | some c => exact (h.of_sweeps kept).list free _
    | none => exact testReadiness_ordered _ (((h.of_sweeps kept).list free _).of_sweeps (offerReport_sweeps _ _))

theorem entered_ordered {origin : Origin} {f : Fin 4} {vp : VpId} {t0 : SampleIndex} {compare : Option Nat} {e : Entry}
    (h : ListOrdered s) (entry : enterSweep origin f vp t0 compare s = (t, e)) : ListOrdered t := by
  have ordered := enterSweep_ordered origin f vp t0 compare h
  rwa [entry] at ordered

/-! ### The requests' handlings -/

theorem stopFinish_ordered (f : RxFrame) (h : ListOrdered s) : ListOrdered (stopFinish f s) := by
  unfold stopFinish
  split
  · exact h.of_sweeps (placeReply_sweeps _ _ _ s)
  split
  · exact h.of_sweeps (placeReply_sweeps _ _ _ s)
  · exact h.of_sweeps (placeReply_sweeps _ _ _ s)
  · have draining : ListOrdered (setOp .draining (some .finish) (markHit (s.listBad || s.ctxsBad) s)) := h.of_sweeps (by simp)
    refine (dropWhere_ordered (fun r => decide (r.state = .scheduled)) .stopped true draining).of_sweeps ?_
    simp [finishAcquire, foldl_sweeps pendCtx_sweeps, foldl_sweeps fun t i => applyClose_sweeps i t]

theorem stopDiscard_ordered (f : RxFrame) (h : ListOrdered s) : ListOrdered (stopDiscard f s) := by
  unfold stopDiscard
  split
  · exact h.of_sweeps (placeReply_sweeps _ _ _ s)
  · have draining : ListOrdered (setOp .draining (some .discard) (markHit (s.listBad || s.ctxsBad) s)) := h.of_sweeps (by simp)
    refine (dropWhere_ordered (fun _ => true) .stopped false draining).of_sweeps ?_
    simp [discardAll, foldl_sweeps discardCtx_sweeps]

theorem postRequest_ordered (f : RxFrame) (h : ListOrdered s) : ListOrdered (postRequest f s) := by
  unfold postRequest
  split
  · exact h.of_sweeps (placeReply_sweeps _ _ _ s)
  split
  · exact h.of_sweeps (placeReply_sweeps _ _ _ s)
  split
  · next entry => exact arbitrate_ordered ((entered_ordered h entry).of_sweeps (placeReply_sweeps _ _ _ _))
  · next entry => exact (entered_ordered h entry).of_sweeps (placeReply_sweeps _ _ _ _)
  · next entry => exact entered_ordered h entry

theorem scheduleRequest_ordered (f : RxFrame) (h : ListOrdered s) : ListOrdered (scheduleRequest f s) := by
  unfold scheduleRequest
  split
  · exact h.of_sweeps (placeReply_sweeps _ _ _ s)
  simp only
  split
  · exact h.of_sweeps (placeReply_sweeps _ _ _ s)
  split
  · exact h.of_sweeps (placeReply_sweeps _ _ _ s)
  split
  · exact h.of_sweeps (placeReply_sweeps _ _ _ s)
  split
  · next entry => exact (entered_ordered h entry).of_sweeps (placeReply_sweeps _ _ _ _)
  · next entry => exact (entered_ordered h entry).of_sweeps (placeReply_sweeps _ _ _ _)
  · next entry => exact entered_ordered h entry

theorem cancelRequest_ordered (f : RxFrame) (h : ListOrdered s) : ListOrdered (cancelRequest f s) := by
  have marked : ListOrdered (markHit s.listBad s) := h.of_sweeps (markHit_sweeps _ s)
  unfold cancelRequest
  simp only
  split
  · exact marked.of_sweeps (placeReply_sweeps _ _ _ _)
  · next r _ => exact arbitrate_ordered ((dropSweep_ordered .cancelled true _ r marked).of_sweeps (by simp))

theorem closeAttached_ordered (i : Fin 4) (h : ListOrdered s) : ListOrdered (closeAttached i s) := by
  unfold closeAttached
  split
  · exact h.of_sweeps (applyClose_sweeps i s)
  · exact dropWhere_ordered _ _ _ h

theorem closeNow_ordered (f : RxFrame) (h : ListOrdered s) : ListOrdered (closeNow f s) := by
  have marked : ListOrdered (markHit (s.listBad || s.ctxsBad) s) := h.of_sweeps (markHit_sweeps _ s)
  unfold closeNow
  simp only
  split
  · exact marked.of_sweeps (placeReply_sweeps _ _ _ _)
  · next i _ =>
    refine arbitrate_ordered ((closeAttached_ordered i (s := State.withCtx _ i _) ?_).of_sweeps (by simp; rfl))
    exact marked.of_sweeps rfl

/-! ### The events' handlings -/

theorem tick_ordered (h : ListOrdered s) : ListOrdered (tick s) := by
  rw [tick_eq]
  exact arbitrate_ordered (tickCompares_ordered (h.of_sweeps (preTick_sweeps s)))

theorem alignPps_ordered (h : ListOrdered s) : ListOrdered (alignPps s) := by
  unfold alignPps
  refine arbitrate_ordered (ListOrdered.of_sweeps (s := ite _ _ _) ?_ (drainTest_sweeps _))
  split
  · exact h.of_sweeps (by simp)
  · exact stepCompares_ordered _ _ (h.of_sweeps (by simp))

theorem takeBreak_ordered (f : Fin 4) (h : ListOrdered s) : ListOrdered (takeBreak f s) := by
  unfold takeBreak
  split
  · exact h.of_sweeps (offerReport_sweeps _ s)
  split
  · exact h.of_sweeps (offerReport_sweeps _ s)
  next a _ =>
  have armed : ListOrdered (s.withFleet f { s.fleet f with arm := armAfter a }) := h.of_sweeps rfl
  simp only
  split
  · next entry => exact arbitrate_ordered (entered_ordered armed entry)
  · next entry => exact (entered_ordered armed entry).of_sweeps (offerReport_sweeps _ _)
  · next entry => exact entered_ordered armed entry

theorem completeSweep_ordered (r : SweepRecord) (h : ListOrdered s) : ListOrdered (completeSweep r s) := by
  refine arbitrate_ordered ((h.thin fun q => decide (q.id ≠ r.id)).of_sweeps ?_)
  simp [unlist, abandonJob, State.withListed, State.listed]

theorem completeJob_ordered (h : ListOrdered s) : ListOrdered (completeJob s) := by
  unfold completeJob
  split
  · exact h
  split
  · exact h
  split
  · exact h
  split
  · exact h.of_sweeps rfl
  · exact completeSweep_ordered _ (h.of_sweeps (advanceJob_sweeps _ _ _))

theorem frameWritten_ordered (h : ListOrdered s) : ListOrdered (frameWritten s) :=
  arbitrate_ordered ((arrivalNotice_ordered h).of_sweeps (drainTest_sweeps _))

theorem firstFrame_ordered (g b : Nat) (xs : List RingSample) (h : ListOrdered s) : ListOrdered (firstFrame g b xs s) := by
  have written : ListOrdered (writeBlock g b xs (s.withRing { s.ring with head := some b })) := h.of_sweeps rfl
  refine frameWritten_ordered ?_
  split
  · exact evictionNotice_ordered _ written
  · exact written

theorem advanceFrame_ordered (old g b : Nat) (xs : List RingSample) (h : ListOrdered s) :
    ListOrdered (advanceFrame old g b xs s) := by
  have moved : ListOrdered (advanceHead old b s) := h.of_sweeps rfl
  have evicted : ListOrdered (if oldestBlock old ≠ oldestBlock b then evictionNotice (oldestBlock b) (advanceHead old b s)
      else advanceHead old b s) := by
    split
    · exact evictionNotice_ordered _ moved
    · exact moved
  exact frameWritten_ordered (evicted.of_sweeps (writeBlock_sweeps g b xs _))

theorem placeBlock_ordered (g group b : Nat) (xs : List RingSample) (h : ListOrdered s) : ListOrdered (placeBlock g group b xs s) := by
  unfold placeBlock
  split
  · exact h.of_sweeps (spreadFault_sweeps _ _ s)
  split
  · exact firstFrame_ordered _ _ _ h
  split
  · exact h.of_sweeps (spreadFault_sweeps _ _ s)
  split
  · exact advanceFrame_ordered _ _ _ _ h
  split
  · exact h.of_sweeps rfl
  split
  · exact h.of_sweeps rfl
  · exact frameWritten_ordered (h.of_sweeps rfl)

theorem judgeBlock_ordered (bytes : List Byte) (h : ListOrdered s) : ListOrdered (judgeBlock bytes s) := by
  unfold judgeBlock
  split
  · exact h.of_sweeps (spreadFault_sweeps _ _ s)
  split
  · exact h.of_sweeps (spreadFault_sweeps _ _ s)
  split
  · exact h
  · exact placeBlock_ordered _ _ _ _ h

theorem receivePiece_ordered (bytes : List Byte) (last : Bool) (h : ListOrdered s) : ListOrdered (receivePiece bytes last s) := by
  unfold receivePiece
  split
  · exact h.of_sweeps rfl
  · cases last
    · exact h.of_sweeps rfl
    · exact judgeBlock_ordered bytes h
  · cases last
    · exact h.of_sweeps rfl
    · exact judgeBlock_ordered _ (h.of_sweeps rfl)

/-! ### Every command -/

theorem warmRestart_ordered (cause : ResetCause) (tag : Byte) (s : State) : ListOrdered (warmRestart cause tag s) :=
  .of_cleared (placeNotice_only _ _).sweeps

theorem handle_ordered {g : State → State} (hg : ListOrdered s → ListOrdered (g s)) (h : ListOrdered s) (run : handle g s = .next t) :
    ListOrdered t := by
  unfold handle settle at run
  split at run
  · cases run; exact h
  · cases run
    split
    · exact warmRestart_ordered .tableCheck 0 _
    · exact hg h

theorem takeRequest_ordered {f : RxFrame} {g : State → State} (hg : ∀ {u}, ListOrdered u → ListOrdered (g u)) (h : ListOrdered s)
    (run : takeRequest f g s = .next t) : ListOrdered t := by
  refine handle_ordered (fun h => ?_) h run
  split
  · exact h
  split
  · simp only
    split
    · exact h.of_sweeps (placeReply_sweeps _ _ _ _)
    · exact h.of_sweeps (placeReply_sweeps _ _ _ _)
    · exact hg (h.of_sweeps rfl)
  · exact h

/-- A request whose handling leaves the list. -/
theorem takeRequest_left {f : RxFrame} {g : State → State} (hg : ∀ u, (g u).sweeps = u.sweeps) (h : ListOrdered s)
    (run : takeRequest f g s = .next t) : ListOrdered t := takeRequest_ordered (fun hu => hu.of_sweeps (hg _)) h run

/-- A request whose block only places a reply. -/
theorem replyOnly_ordered (f : RxFrame) (st : Status) (c : State → List Byte) (h : ListOrdered s)
    (run : takeRequest f (fun u => placeReply f st (c u) u) s = .next t) : ListOrdered t :=
  takeRequest_left (fun u => placeReply_sweeps f st (c u) u) h run

theorem execStatus_ordered {tag : Byte} {body : List Byte} (h : ListOrdered s) (run : execStatus tag body s = .next t) :
    ListOrdered t := by
  unfold execStatus at run
  exact takeRequest_left (fun u => (placeReply_sweeps _ _ _ _).trans (markHit_sweeps _ u)) h run

/-- A tick taken only in the states for which `p` holds. -/
theorem tickWhen_ordered {p : State → Prop} [DecidablePred p] (h : ListOrdered s)
    (run : handle (fun t => if p t then tick t else t) s = .next t) : ListOrdered t := by
  refine handle_ordered (fun h => ?_) h run
  split
  · exact tick_ordered h
  · exact h

theorem next_ordered {u : State} (h : ListOrdered u) (run : (Host.Outcome.next u : Host.Outcome State Fault Refusal) = .next t) :
    ListOrdered t := by
  cases run; exact h

theorem execTransmissionEnd_ordered (h : ListOrdered s) (run : execTransmissionEnd s = .next t) : ListOrdered t := by
  refine handle_ordered (fun h => ?_) h run
  split
  · exact h
  · exact h.of_sweeps (by rw [decideLine_sweeps, endMessage_sweeps])

theorem execBlockFrame_ordered {piece : FramePiece} (h : ListOrdered s) (run : execBlockFrame piece s = .next t) : ListOrdered t := by
  unfold execBlockFrame at run
  split at run
  · exact next_ordered (u := dropPiece _ s) (h.of_sweeps rfl) run
  · exact handle_ordered (receivePiece_ordered _ _) h run

theorem execPpsEdge_ordered {line : Fin 4} {level : Bool} (h : ListOrdered s) (run : execPpsEdge line level s = .next t) :
    ListOrdered t := by
  refine handle_ordered (fun h => ?_) (h.of_sweeps (setPin_sweeps line level s)) run
  split
  · exact alignPps_ordered h
  · exact h

theorem execTimeBreak_ordered {line : Fin 4} {level : Bool} (h : ListOrdered s) (run : execTimeBreak line level s = .next t) :
    ListOrdered t := by
  refine handle_ordered (fun h => ?_) (h.of_sweeps (setPin_sweeps line level s)) run
  split
  · exact takeBreak_ordered _ h
  · exact h

/-- Every command keeps the bounds of the sweep list. -/
theorem exec_ordered {c : Instr} (h : ListOrdered s) (run : exec c s = .next t) : ListOrdered t := by
  cases c with
  | ident => exact replyOnly_ordered _ _ identContents h run
  | status => exact execStatus_ordered h run
  | paramSet => exact takeRequest_left (paramSet_sweeps _) h run
  | paramGet => exact replyOnly_ordered _ _ (paramContents _) h run
  | start => exact takeRequest_left (startRequest_sweeps _) h run
  | stopFinish tag body =>
    simp only [exec, execStopFinish] at run
    split at run
    · exact next_ordered h run
    · exact takeRequest_ordered (stopFinish_ordered _) h run
  | stopDiscard tag body =>
    simp only [exec, execStopDiscard] at run
    split at run
    · exact takeRequest_ordered (stopDiscard_ordered _) h run
    · exact next_ordered h run
  | restart tag => exact takeRequest_ordered (fun _ => warmRestart_ordered .restart tag _) h run
  | sync => exact takeRequest_left (syncRequest_sweeps _) h run
  | timeSet => exact takeRequest_left (timeSet_sweeps _) h run
  | routeSet => exact takeRequest_left (routeSet_sweeps _) h run
  | routeGet => exact replyOnly_ordered _ _ (fun u => routeBytes u.router) h run
  | pilotOpen => exact takeRequest_left (pilotOpen_sweeps _) h run
  | pilotWords => exact takeRequest_left (pilotWords_sweeps _) h run
  | pilotClose => exact takeRequest_left (pilotClose_sweeps _) h run
  | fleetSet => exact takeRequest_left (fleetSet_sweeps _) h run
  | fleetGet => exact takeRequest_left (fleetGet_sweeps _) h run
  | arm => exact takeRequest_left (armRequest_sweeps _) h run
  | post => exact takeRequest_ordered (postRequest_ordered _) h run
  | schedule => exact takeRequest_ordered (scheduleRequest_ordered _) h run
  | cancel => exact takeRequest_ordered (cancelRequest_ordered _) h run
  | closeVpWait tag body =>
    simp only [exec, execCloseVpWait] at run
    split at run
    · exact next_ordered h run
    · exact takeRequest_left (closeWait_sweeps _) h run
  | closeVpNow tag body =>
    simp only [exec, execCloseVpNow] at run
    split at run
    · exact takeRequest_ordered (closeNow_ordered _) h run
    · exact next_ordered h run
  | faultRead => exact takeRequest_left (g := faultRead _) (fun u => placeReply_sweeps _ _ _ _) h run
  | unknownKind kind tag body =>
    simp only [exec, execUnknownKind] at run
    split at run
    · exact takeRequest_left (fun _ => rfl) h run
    · exact next_ordered h run
  | hostFrame => exact handle_ordered (·.of_sweeps (receive_only _ _ s).sweeps) h run
  | transmissionStart => exact handle_ordered (·.of_sweeps (decideLine_sweeps s)) h run
  | transmissionEnd => exact execTransmissionEnd_ordered h run
  | transmitHold line level => exact next_ordered (h.of_sweeps (setPin_sweeps line level s)) run
  | blockFrame => exact execBlockFrame_ordered h run
  | sampleTick => exact handle_ordered tick_ordered h run
  | holdoverDeadline => exact tickWhen_ordered (p := (deadlineNext · = true)) h run
  | scheduleCompare => exact tickWhen_ordered (p := (compareNext · = true)) h run
  | pulseEnd line => exact tickWhen_ordered (p := (·.router.outputs[line.val].count = 1)) h run
  | ppsEdge => exact execPpsEdge_ordered h run
  | timeBreak => exact execTimeBreak_ordered h run
  | correlationPassEnd => exact handle_ordered (·.of_sweeps (endPass_sweeps s)) h run
  | jobCompletion => exact handle_ordered completeJob_ordered h run
  | powerUp => exact next_ordered (u := coldReset .power s) (.of_cleared rfl) run
  | resetPin =>
    simp only [exec, execResetPin] at run
    split at run
    · exact next_ordered h run
    · exact next_ordered (u := coldReset .pin s) (.of_cleared rfl) run
  | coldResetComplete code position =>
    simp only [exec, execColdResetComplete] at run
    split at run
    · exact next_ordered (u := completeReset code position s) (h.of_sweeps (placeNotice_only _ _).sweeps) run
    · exact next_ordered h run

/-- Settles O56: the list changes by a sweep's new state, by records that leave it, and by a record that goes in under a free id, and each of
these keeps its bounds in every command. -/
theorem stepKeepsListOrdered : Obligations.StepKeepsListOrdered := by
  intro s t h run
  unfold step at run
  split at run
  · exact next_ordered h run
  · next c rest _ => exact exec_ordered (s := { s with pending := rest }) (h.of_sweeps rfl) run

end Sys2Proof.Machine
end

section
/-! PROOFS. The requests of the fleet table: FLEET_SET and ARM (R60, R62). -/

namespace Sys2Proof.Machine

/-! ### FLEET SET -/

/-- A request that stores a fleet record and places its reply. -/
theorem fleet_answered {f : RxFrame} {rest : List RxFrame} {s : State} {g : State → State} {st : Status} {c : List Byte} {i : Fin 4}
    {r : FleetRecord} (h : Taken f rest s) (length : lengthAllowed f.kind f.body.length = some true) (clear : s.checkHit = false)
    (e : g (taken rest s) = placeReply f st c ((taken rest s).withFleet i r)) :
    ∃ t, takeRequest f g s = .next t ∧ OnlyLinkLines (s.withFleet i r) t ∧ LinesFollow [.noticeHigh] s t ∧ Answered f rest st c s t :=
  reply_change (v := s.withFleet i r) st c h length clear rfl rfl e

section fleetSet
variable {tag b sl j fo : Byte} {k e : Word} {lead offset : BitVec 16} {i : Fin 4} {s : State}

theorem fleetSet_outside (h : 4 ≤ b.toNat) : fleetSet ⟨0x0F, tag, fleetSetBody b sl k e j fo lead offset⟩ s =
    placeReply ⟨0x0F, tag, fleetSetBody b sl k e j fo lead offset⟩ .range (b :: List.replicate 17 0) s := by
  simp only [fleetSet, fleetSetBody_fleet, indexOf_none h]
  rfl

theorem fleetSet_busy (h : b.toNat = i.val) (good : s.listBad = false) (used : ∃ r ∈ s.listed, r.fleet = i) :
    fleetSet ⟨0x0F, tag, fleetSetBody b sl k e j fo lead offset⟩ s =
      placeReply ⟨0x0F, tag, fleetSetBody b sl k e j fo lead offset⟩ .busy (b :: fleetBytes (s.fleet i)) s := by
  simp only [fleetSet, fleetSetBody_fleet, indexOf_val i h, good, Bool.false_eq_true, if_false, if_pos ((fleetListed_iff s i).mpr used)]
  rfl

theorem not_fleetListed (unused : ∀ r ∈ s.listed, r.fleet ≠ i) : ¬ s.fleetListed i = true := by
  rw [fleetListed_iff]
  rintro ⟨r, listed, fleet⟩
  exact unused r listed fleet

theorem fleetSet_badSlot (h : b.toNat = i.val) (good : s.listBad = false) (unused : ∀ r ∈ s.listed, r.fleet ≠ i) (bad : 8 ≤ sl.toNat) :
    fleetSet ⟨0x0F, tag, fleetSetBody b sl k e j fo lead offset⟩ s =
      placeReply ⟨0x0F, tag, fleetSetBody b sl k e j fo lead offset⟩ .range (b :: fleetBytes (s.fleet i)) s := by
  simp only [fleetSet, fleetSetBody_fleet, fleetSetBody_slot, indexOf_val i h, indexOf_none bad, good, Bool.false_eq_true, if_false,
    if_neg (not_fleetListed unused)]
  rfl

/-- The record a FLEET SET stores, its fields clamped (R60). -/
theorem storedFleet_eq (slot : Fin 8) (r : FleetRecord) : storedFleet slot (fleetSetBody b sl k e j fo lead offset) r =
    { slot := slot
      k := max 256 (min 8192 (64 * (k.toNat / 64)))
      edit := if e.toNat = 0 then 0 else max 16 (min 4095 e.toNat)
      reject := min 128 j.toNat
      target := max 1 (min 32 fo.toNat)
      lead := lead, offset := offset, arm := r.arm } := by
  simp only [storedFleet, clampK, clampE, clampJ, clampF, fleetSetBody_k, fleetSetBody_e, fleetSetBody_j, fleetSetBody_f,
    fleetSetBody_lead, fleetSetBody_offset, BitVec.ofNat_toNat, BitVec.setWidth_eq, Nat.mul_comm]

theorem fleetSet_stored {slot : Fin 8} (h : b.toNat = i.val) (good : s.listBad = false) (unused : ∀ r ∈ s.listed, r.fleet ≠ i)
    (hslot : sl.toNat = slot.val) : fleetSet ⟨0x0F, tag, fleetSetBody b sl k e j fo lead offset⟩ s =
      placeReply ⟨0x0F, tag, fleetSetBody b sl k e j fo lead offset⟩ .ok
        (b :: fleetBytes (storedFleet slot (fleetSetBody b sl k e j fo lead offset) (s.fleet i)))
        (s.withFleet i (storedFleet slot (fleetSetBody b sl k e j fo lead offset) (s.fleet i))) := by
  simp only [fleetSet, fleetSetBody_fleet, fleetSetBody_slot, indexOf_val i h, indexOf_val slot hslot, good, Bool.false_eq_true, if_false,
    if_neg (not_fleetListed unused)]
  rfl

end fleetSet

/-- Settles O33, outcome by outcome. -/
theorem fleetSetStores : Obligations.FleetSetStores := by
  rintro tag b sl j fo k e lead offset rest s f request ⟨clear, good, -⟩
  have length : lengthAllowed f.kind f.body.length = some true := by
    rw [show f.body.length = 12 from fleetSetBody_length b sl k e j fo lead offset]
    rfl
  have run : exec (.fleetSet tag f.body) s = .next _ := takeRequest_taken request (fleetSet f) length
  refine ⟨_, run, fun outside => next_has run (reply_only .range _ request length clear (fleetSet_outside outside)), fun i fleet =>
    ⟨fun used => ?_, fun unused bad => ?_, fun slot unused hslot => ?_⟩⟩
  · exact next_has run (reply_only .busy _ request length clear (fleetSet_busy fleet good used))
  · exact next_has run (reply_only .range _ request length clear (fleetSet_badSlot fleet good unused bad))
  · have stored := fleetSet_stored (tag := tag) (j := j) (fo := fo) (k := k) (e := e) (lead := lead) (offset := offset)
      (s := taken rest s) fleet good unused hslot
    rw [storedFleet_eq] at stored
    exact next_has run (fleet_answered request length clear stored)

/-! ### ARM -/

section arm
variable {tag b n : Byte} {vp : VpId} {i : Fin 4} {s : State}

theorem armRequest_outside (h : 4 ≤ b.toNat) : armRequest ⟨0x11, tag, armBody b vp n⟩ s =
    placeReply ⟨0x11, tag, armBody b vp n⟩ .range [b, 0, 0, 0, 0, 0, 0] s := by
  simp only [armRequest, armBody_fleet, indexOf_none h]
  rfl

theorem armRequest_inside (h : b.toNat = i.val) : armRequest ⟨0x11, tag, armBody b vp n⟩ s =
    placeReply ⟨0x11, tag, armBody b vp n⟩ .ok (b :: armBytes (armFor vp n.toNat))
      (s.withFleet i { s.fleet i with arm := armFor vp n.toNat }) := by
  simp only [armRequest, armBody_fleet, armBody_vp, armBody_count, indexOf_val i h, BitVec.ofNat_toNat, BitVec.setWidth_eq]

end arm

/-- Settles O34: the arm a request leaves is stored, none for a count of 0. -/
theorem armSets : Obligations.ArmSets := by
  intro tag b n vp rest s request clear f
  have length : lengthAllowed f.kind f.body.length = some true := by
    rw [show f.body.length = 6 from armBody_length b vp n]
    rfl
  have run : exec (.arm tag f.body) s = .next _ := takeRequest_taken request (armRequest f) length
  refine ⟨_, run, fun outside => next_has run (reply_only .range _ request length clear (armRequest_outside outside)), fun i fleet => ?_⟩
  have stored := fleet_answered request length clear (armRequest_inside (tag := tag) (vp := vp) (n := n) (s := taken rest s) fleet)
  refine ⟨fun zero => ?_, fun some => ?_⟩
  · have none : armFor vp n.toNat = none := if_pos (by rw [zero]; rfl)
    rw [none] at stored
    exact next_has run stored
  · have count : n.toNat ≠ 0 := fun e => some (BitVec.eq_of_toNat_eq e)
    rw [show armFor vp n.toNat = _ from if_neg count] at stored
    exact next_has run stored

end Sys2Proof.Machine
end

section
/-! PROOFS. The requests that enter a sweep in the list, POST and SCHEDULE: their tests as equations, the refusals, and the admissions (R66 to
R72, R74, R84, R120, R122 to R124). -/

namespace Sys2Proof.Machine

/-! ### The tests of POST -/

section post
variable {tag b : Byte} {vp : VpId} {t0 : SampleIndex} {fl : Fin 4} {s u : State}

theorem postRequest_outside (h : 4 ≤ b.toNat) : postRequest ⟨0x12, tag, sweepBody b vp t0⟩ s =
    placeReply ⟨0x12, tag, sweepBody b vp t0⟩ .range [0, 0, 0xFF, 0] s := by
  simp only [postRequest, sweepBody_fleet, indexOf_none h]
  rfl

theorem postRequest_idle (h : b.toNat = fl.val) (op : s.mode.op ≠ .acquire) : postRequest ⟨0x12, tag, sweepBody b vp t0⟩ s =
    placeReply ⟨0x12, tag, sweepBody b vp t0⟩ .state [0, 0, 0xFF, 0] s := by
  simp only [postRequest, sweepBody_fleet, indexOf_val fl h, if_pos op]
  rfl

theorem postRequest_refused {why : Refused} (h : b.toNat = fl.val) (op : s.mode.op = .acquire)
    (entry : enterSweep .post fl vp t0 none s = (u, .refused why)) : postRequest ⟨0x12, tag, sweepBody b vp t0⟩ s =
      placeReply ⟨0x12, tag, sweepBody b vp t0⟩ (refusedStatus why) [0, 0, 0xFF, 0] u := by
  simp only [postRequest, sweepBody_fleet, sweepBody_vp, sweepBody_t0, indexOf_val fl h, op, ne_eq, not_true_eq_false, if_false,
    BitVec.ofNat_toNat, BitVec.setWidth_eq, entry]
  rfl

theorem postRequest_admitted {r : SweepRecord} (h : b.toNat = fl.val) (op : s.mode.op = .acquire)
    (entry : enterSweep .post fl vp t0 none s = (u, .admitted r)) : postRequest ⟨0x12, tag, sweepBody b vp t0⟩ s =
      arbitrate (placeReply ⟨0x12, tag, sweepBody b vp t0⟩ .ok (postContents (some r)) u) := by
  simp only [postRequest, sweepBody_fleet, sweepBody_vp, sweepBody_t0, indexOf_val fl h, op, ne_eq, not_true_eq_false, if_false,
    BitVec.ofNat_toNat, BitVec.setWidth_eq, entry]

/-- The reply to an admitted POST, by the state its readiness test leaves the sweep in (R70, R74). -/
theorem postContents_entered {r : SweepRecord} (entered : r.state = .waiting ∨ r.state = .ready) :
    postContents (some r) = leBytes 2 r.id ++ [BitVec.ofNat 8 r.ctx.val, if r.state = .waiting then 2 else 3] := by
  rcases entered with state | state <;> rw [postContents, state] <;> rfl

end post

/-! ### The tests of SCHEDULE -/

section schedule
variable {tag b : Byte} {vp : VpId} {t0 : SampleIndex} {fl : Fin 4} {s u : State}

theorem scheduleRequest_outside (h : 4 ≤ b.toNat) : scheduleRequest ⟨0x13, tag, sweepBody b vp t0⟩ s =
    placeReply ⟨0x13, tag, sweepBody b vp t0⟩ .range [0, 0, 0xFF, 0, 0, 0, 0, 0, 0] s := by
  simp only [scheduleRequest, sweepBody_fleet, indexOf_none h]
  rfl

theorem scheduleRequest_idle (h : b.toNat = fl.val) (state : s.mode.op ≠ .acquire ∨ s.time.lock = .free) :
    scheduleRequest ⟨0x13, tag, sweepBody b vp t0⟩ s =
      placeReply ⟨0x13, tag, sweepBody b vp t0⟩ .state [0, 0, 0xFF, 0, 0, 0, 0, 0, 0] s := by
  simp only [scheduleRequest, sweepBody_fleet, indexOf_val fl h]
  by_cases op : s.mode.op ≠ .acquire
  · rw [if_pos op]
    rfl
  · rw [if_neg op, if_pos (state.resolve_left op)]
    rfl

theorem scheduleRequest_late (h : b.toNat = fl.val) (op : s.mode.op = .acquire) (lock : s.time.lock ≠ .free)
    (late : (t0.toNat : Int) - (s.fleet fl).lead.toNat ≤ s.time.n.toNat) : scheduleRequest ⟨0x13, tag, sweepBody b vp t0⟩ s =
      placeReply ⟨0x13, tag, sweepBody b vp t0⟩ .late [0, 0, 0xFF, 0, 0, 0, 0, 0, 0] s := by
  simp only [scheduleRequest, sweepBody_fleet, sweepBody_t0, indexOf_val fl h, op, ne_eq, not_true_eq_false, if_false, if_neg lock,
    BitVec.ofNat_toNat, BitVec.setWidth_eq, if_pos late]
  rfl

theorem scheduleRequest_refused {why : Refused} (h : b.toNat = fl.val) (op : s.mode.op = .acquire) (lock : s.time.lock ≠ .free)
    (early : ¬ (t0.toNat : Int) - (s.fleet fl).lead.toNat ≤ s.time.n.toNat)
    (entry : enterSweep .schedule fl vp t0 (some ((t0.toNat : Int) - (s.fleet fl).lead.toNat).toNat) s = (u, .refused why)) :
    scheduleRequest ⟨0x13, tag, sweepBody b vp t0⟩ s =
      placeReply ⟨0x13, tag, sweepBody b vp t0⟩ (refusedStatus why) [0, 0, 0xFF, 0, 0, 0, 0, 0, 0] u := by
  simp only [scheduleRequest, sweepBody_fleet, sweepBody_vp, sweepBody_t0, indexOf_val fl h, op, ne_eq, not_true_eq_false, if_false,
    if_neg lock, BitVec.ofNat_toNat, BitVec.setWidth_eq, if_neg early, entry]
  rfl

theorem scheduleRequest_admitted {r : SweepRecord} (h : b.toNat = fl.val) (op : s.mode.op = .acquire) (lock : s.time.lock ≠ .free)
    (early : ¬ (t0.toNat : Int) - (s.fleet fl).lead.toNat ≤ s.time.n.toNat)
    (entry : enterSweep .schedule fl vp t0 (some ((t0.toNat : Int) - (s.fleet fl).lead.toNat).toNat) s = (u, .admitted r)) :
    scheduleRequest ⟨0x13, tag, sweepBody b vp t0⟩ s =
      placeReply ⟨0x13, tag, sweepBody b vp t0⟩ .ok (scheduleContents (some r)) u := by
  simp only [scheduleRequest, sweepBody_fleet, sweepBody_vp, sweepBody_t0, indexOf_val fl h, op, ne_eq, not_true_eq_false, if_false,
    if_neg lock, BitVec.ofNat_toNat, BitVec.setWidth_eq, if_neg early, entry]

end schedule

/-! ### Refusals -/

theorem sweepBody_fits (kind : Byte) (h : kind = 0x12 ∨ kind = 0x13) (b : Byte) (vp : VpId) (t0 : SampleIndex) :
    lengthAllowed kind (sweepBody b vp t0).length = some true := by
  rw [sweepBody_length]
  rcases h with rfl | rfl <;> rfl

/-- Settles O37, request by request and test by test. -/
theorem entryTurnedAway : Obligations.EntryTurnedAway := by
  intro tag b vp t0 rest s clean body p q late status
  refine ⟨fun request => ?_, fun request => ?_⟩
  · have length := sweepBody_fits 0x12 (.inl rfl) b vp t0
    refine ⟨fun outside => reply_only .range _ request length clean.1 (postRequest_outside outside), fun fl fleet =>
      ⟨fun op => reply_only .state _ request length clean.1 (postRequest_idle fleet op), fun op turned => ?_⟩⟩
    obtain ⟨why, u, entry, left, good⟩ := enter_turned (s := taken rest s) .post fl vp t0 none clean turned
    obtain ⟨t, run, replied⟩ := request_replied request length (postRequest_refused fleet op entry) good.1
    exact ⟨t, why, u, run, left, by cases why <;> exact replied⟩
  · have length := sweepBody_fits 0x13 (.inr rfl) b vp t0
    refine ⟨fun outside => reply_only .range _ request length clean.1 (scheduleRequest_outside outside), fun fl fleet =>
      ⟨fun state => reply_only .state _ request length clean.1 (scheduleRequest_idle fleet state),
        fun op lock below => reply_only .late _ request length clean.1 (scheduleRequest_late fleet op lock below),
        fun op lock above turned => ?_⟩⟩
    obtain ⟨why, u, entry, left, good⟩ := enter_turned (s := taken rest s) .schedule fl vp t0 _ clean turned
    obtain ⟨t, run, replied⟩ := request_replied request length (scheduleRequest_refused fleet op lock above entry) good.1
    exact ⟨t, why, u, run, left, by cases why <;> exact replied⟩

/-! ### Admissions -/

/-- A request behind whose reply the engine's arbiter looks (R84). -/
theorem answered_looks {f : RxFrame} {rest : List RxFrame} {s u : State} {g : State → State} {c : List Byte} (request : Taken f rest s)
    (length : lengthAllowed f.kind f.body.length = some true) (e : g (taken rest s) = arbitrate (placeReply f .ok c u))
    (clean : Clean u) (distinct : IdsDistinct u) :
    ∃ t, takeRequest f g s = .next t ∧ ∃ v, Replied f .ok c u v ∧ EngineLooks v t := by
  have good : Clean (placeReply f .ok c u) := clean_only (placeReply_only f .ok c u) clean
  have looked : EngineLooks (placeReply f .ok c u) (arbitrate (placeReply f .ok c u)) := by
    refine arbitrate_looks good ?_
    rw [State.listed, placeReply_sweeps]
    exact distinct
  exact ⟨_, reply_next request length e ((arbitrate_spec good).1.clean good).1, _, placeReply_replied f .ok c u, looked⟩

/-- Settles O38. -/
theorem postAdmitted : Obligations.PostAdmitted := by
  intro tag b vp t0 fl rest s request clean ordered fleet op checks resolvable
  obtain ⟨-, -, distinct, -, next⟩ := ordered
  obtain ⟨u, r', entry, enters, state, good, apart⟩ :=
    enter_waiting (s := taken rest s) .post fl vp t0 clean next distinct checks resolvable
  obtain ⟨t, run, v, replied, looks⟩ :=
    answered_looks request (sweepBody_fits 0x12 (.inl rfl) b vp t0) (postRequest_admitted fleet op entry) good apart
  rw [postContents_entered state] at replied
  exact ⟨t, r', u, v, run, enters, state, replied, looks⟩

/-- Settles O39. -/
theorem scheduleAdmitted : Obligations.ScheduleAdmitted := by
  intro tag b vp t0 fl rest s request clean ordered fleet op lock ahead checks resolvable point
  obtain ⟨-, -, -, -, next⟩ := ordered
  have same : ((t0.toNat : Int) - (s.fleet fl).lead.toNat).toNat = point := by omega
  have early : ¬ (t0.toNat : Int) - (s.fleet fl).lead.toNat ≤ s.time.n.toNat := by omega
  obtain ⟨id, i, u, v, entry, fresh, attaches, lists, good⟩ :=
    enter_scheduled (s := taken rest s) .schedule fl vp t0 point clean next checks resolvable
  rw [← same] at entry
  obtain ⟨t, run, replied⟩ := request_replied request (sweepBody_fits 0x13 (.inr rfl) b vp t0)
    (scheduleRequest_admitted (s := taken rest s) (tag := tag) fleet op lock early entry) good.1
  rw [same] at replied
  exact ⟨t, id, i, u, v, run, fresh, attaches, lists, replied⟩

end Sys2Proof.Machine
end

section
/-! PROOFS. The force-close that a POST without a FREE context makes (R69, R120, R124, R126). -/

namespace Sys2Proof.Machine

/-- A context with something folded closes to CLOSING, behind the order as it stood (R126). -/
theorem Closes.closing {i : Fin 4} {s t : State} (h : Closes i s t) (folded : (s.ctx i).folded ≠ 0) :
    t.ctx i = { s.ctx i with state := .closing } ∧ t.emitter.closing = s.emitter.closing ++ [i] := by
  rcases h with ⟨zero, -⟩ | ⟨-, h⟩
  · exact absurd zero folded
  · set u := (s.withCtx i { s.ctx i with state := .closing }).withEmitter { s.emitter with closing := s.emitter.closing ++ [i] } with hu
    have own : u.ctx i = { s.ctx i with state := .closing } := State.ctx_withCtx s i _
    change if s.emitter.closing = [] ∧ s.emitter.cursor = none then EmissionBegins i u t else t = u at h
    split at h
    · have frame := h.frame.1
      exact ⟨by rw [frame]; exact own, by rw [frame]; rfl⟩
    · rw [h]
      exact ⟨own, rfl⟩

/-- A context with nothing folded closes to FREE with VP DONE (R126). -/
theorem Closes.freed {i : Fin 4} {s t : State} (h : Closes i s t) (empty : (s.ctx i).folded = 0) :
    ∃ u, VpDone i 0 s u ∧ Frees i u t := by
  rcases h with ⟨-, h⟩ | ⟨folded, -⟩
  · exact h
  · exact absurd empty folded

theorem Frees.gen {i : Fin 4} {s t : State} (h : Frees i s t) : (t.ctx i).gen = (s.ctx i).gen := by
  rw [h]
  simp [State.ctx, State.withStack]

theorem Opens.gen {i f : Fin 4} {vp : VpId} {s t : State} (h : Opens i f vp s t) : (t.ctx i).gen = (s.ctx i).gen + 1 := by
  rw [h]
  simp [State.ctx, State.withStack]

/-- One context at most is the one a force-close takes. -/
theorem ForceCandidate.unique {s : State} {i j : Fin 4} (hi : ForceCandidate s i) (hj : ForceCandidate s j) : i = j :=
  Option.some.inj (((forceCandidate_iff s i).mpr hi).symm.trans ((forceCandidate_iff s j).mpr hj))

/-- With no context that collects the VP and none FREE, a sweep attaches by the force-close of the candidate (R124). -/
theorem Attaches.forced {fl i j : Fin 4} {vp : VpId} {s t : State} (h : Attaches fl vp j s t) (none : ∀ k, ¬ CollectsVp s vp k)
    (full : ∀ k, (s.ctx k).state ≠ .free) (candidate : ForceCandidate s i) (empty : (s.ctx i).folded = 0) :
    j = i ∧ ∃ a c, VpDone i 0 s a ∧ Frees i a c ∧ Opens i fl vp c t := by
  rcases h with ⟨holds, -⟩ | ⟨-, first, -⟩ | ⟨-, -, forced, -, c, closes, opens⟩
  · exact absurd holds.1 (none j)
  · exact absurd first.1 (full j)
  · obtain rfl := forced.unique candidate
    obtain ⟨a, done, frees⟩ := closes.freed empty
    exact ⟨rfl, a, c, done, frees, opens⟩

/-- With no context that collects the VP and none FREE, an entry refused behind checks 2 to 4 leaves the force-close of the candidate to
CLOSING (R69, R124). -/
theorem EntryTurned.forced {fl i : Fin 4} {vp : VpId} {t0 : SampleIndex} {why : Refused} {s u : State} (h : EntryTurned s fl vp t0 why u)
    (checks : ChecksPass s fl t0) (none : ∀ k, ¬ CollectsVp s vp k) (candidate : ForceCandidate s i) : why = .noContext ∧ Closes i s u := by
  obtain ⟨room, pilot, window⟩ := checks
  rcases h with ⟨refused, -⟩ | ⟨rfl, -, -, -, j, forced, -, closes⟩
  · obtain ⟨collecting, unattached, before, after, order, -⟩ := candidate
    cases why with
    | full => exact absurd room (Nat.not_lt.mpr refused)
    | pilot => exact absurd pilot refused.2
    | late => exact absurd refused.2.2 window
    | foldFull =>
      obtain ⟨-, k, holds, -⟩ := refused
      exact absurd holds.1 (none k)
    | mismatch =>
      obtain ⟨-, k, holds, -⟩ := refused
      exact absurd holds.1 (none k)
    | noContext =>
      obtain ⟨-, -, -, busy⟩ := refused
      exact absurd unattached (busy i (by rw [order]; simp) collecting)
  · obtain rfl := forced.unique candidate
    exact ⟨rfl, closes⟩

/-- The force-close of a candidate that has folded something resolves no context. -/
theorem Resolvable.candidate_empty {fl i : Fin 4} {vp : VpId} {s : State} (h : Resolvable s fl vp) (none : ∀ k, ¬ CollectsVp s vp k)
    (full : ∀ k, (s.ctx k).state ≠ .free) (candidate : ForceCandidate s i) : (s.ctx i).folded = 0 := by
  rcases h with ⟨k, holds, -⟩ | ⟨-, ⟨k, free⟩ | ⟨k, forced, empty⟩⟩
  · exact absurd holds.1 (none k)
  · exact absurd free (full k)
  · obtain rfl := forced.unique candidate
    exact empty

/-- Settles O40, by what the candidate has folded. -/
theorem postForcesClose : Obligations.PostForcesClose := by
  intro tag b vp t0 fl i rest s f request clean ordered fleet op checks none full candidate
  obtain ⟨-, -, distinct, -, next⟩ := ordered
  have length := sweepBody_fits 0x12 (.inl rfl) b vp t0
  refine ⟨fun empty => ?_, fun folded => ?_⟩
  · have resolvable : Resolvable s fl vp := .inr ⟨none, .inr ⟨i, candidate, empty⟩⟩
    obtain ⟨v, r', entry, enters, state, good, apart⟩ :=
      enter_waiting (s := taken rest s) .post fl vp t0 clean next distinct checks resolvable
    obtain ⟨t, run, w, replied, looks⟩ := answered_looks request length (postRequest_admitted fleet op entry) good apart
    rw [postContents_entered state] at replied
    obtain ⟨id, j, d, e, u, fresh, attaches, lists, offered, tested, inserted, last⟩ := enters
    obtain ⟨rfl, a, c, done, frees, opens⟩ := attaches.forced none full candidate empty
    have own : r'.id = id ∧ r'.ctx = j := by
      rcases tested with ⟨-, -, rfl⟩ | ⟨-, rfl⟩ <;> exact ⟨rfl, rfl⟩
    rw [own.1, own.2] at replied
    have ring : u.ring = s.ring := by
      rw [offered.only.1.ring, lists.2, opens, frees]
      exact done.only.1.ring
    have mode : u.mode = s.mode := by
      rw [offered.only.1.mode, lists.2, opens, frees]
      exact done.only.1.mode
    have gen : (d.ctx j).gen = (s.ctx j).gen + 1 := by
      rw [opens.gen, frees.gen, done.only.1.ctx]
      rfl
    exact ⟨t, id, a, c, u, v, w, run, done, frees, fresh, ⟨d, e, r', opens, gen, lists, offered, tested.congr ring mode, inserted, last,
      replied⟩, looks⟩
  · have turned : ¬ (ChecksPass s fl t0 ∧ Resolvable s fl vp) := fun k => folded (k.2.candidate_empty none full candidate)
    obtain ⟨why, u, entry, left, good⟩ := enter_turned (s := taken rest s) .post fl vp t0 .none clean turned
    obtain ⟨rfl, closes⟩ := left.forced checks none candidate
    obtain ⟨t, run, replied⟩ := request_replied request length (postRequest_refused fleet op entry) good.1
    obtain ⟨own, order⟩ := closes.closing folded
    exact ⟨t, u, run, closes, by rw [own], order, replied⟩

end Sys2Proof.Machine
end

section
/-! PROOFS. The drops by id and by VP, CANCEL and CLOSE VP with mode NOW (R76 to R80, R84, R98, R125 to R128, R160). -/

namespace Sys2Proof.Machine

/-! ### CANCEL -/

section cancel
variable {tag : Byte} {id : Word} {s : State}

/-- The sweep a CANCEL names (R76). -/
theorem cancel_found {r : SweepRecord} (distinct : IdsDistinct s) (listed : r ∈ s.listed) (own : r.id = id.toNat) (named : id.toNat ≠ 0) :
    (s.listed.find? fun q => decide (id.toNat ≠ 0) && decide (q.id = id.toNat)) = some r := by
  cases found : s.listed.find? fun q => decide (id.toNat ≠ 0) && decide (q.id = id.toNat) with
  | none =>
    have other := List.find?_eq_none.mp found r listed
    simp [named, own] at other
  | some q =>
    have same : q.id = id.toNat := by
      have := List.find?_some found
      simp only [Bool.and_eq_true, decide_eq_true_eq] at this
      exact this.2
    rw [distinct.eq_of_id listed (List.mem_of_find?_eq_some found) (same.trans own.symm)]

theorem cancelRequest_listed {r : SweepRecord} (clean : s.listBad = false) (distinct : IdsDistinct s) (listed : r ∈ s.listed)
    (own : r.id = id.toNat) (named : id.toNat ≠ 0) : cancelRequest ⟨0x14, tag, cancelBody id⟩ s =
      arbitrate (placeReply ⟨0x14, tag, cancelBody id⟩ .ok (leBytes 2 id.toNat ++ [sweepStateCode (some r.state)])
        (drainTest (dropSweep .cancelled true s r))) := by
  simp only [cancelRequest, cancelBody_id, clean, markHit_false, cancel_found distinct listed own named]

theorem cancelRequest_unlisted (clean : s.listBad = false) (unlisted : id = 0 ∨ ∀ r ∈ s.listed, r.id ≠ id.toNat) :
    cancelRequest ⟨0x14, tag, cancelBody id⟩ s =
      placeReply ⟨0x14, tag, cancelBody id⟩ .unknown (leBytes 2 id.toNat ++ [0]) s := by
  have none : (s.listed.find? fun q => decide (id.toNat ≠ 0) && decide (q.id = id.toNat)) = none := by
    refine List.find?_eq_none.mpr fun q listed found => ?_
    simp only [Bool.and_eq_true, decide_eq_true_eq] at found
    rcases unlisted with rfl | other
    · exact found.1 rfl
    · exact other q listed found.2
  simp only [cancelRequest, cancelBody_id, clean, markHit_false, none]
  rfl

end cancel

theorem cancelBody_fits (id : Word) : lengthAllowed 0x14 (cancelBody id).length = some true := by
  rw [cancelBody_length]
  rfl

/-- Settles O41: the drop, the drain test, the reply and the arbiter's look; and the id that no sweep has. -/
theorem cancelDrops : Obligations.CancelDrops := by
  refine ⟨fun tag id r rest s request clean ordered listed own => ?_, fun tag id rest s request clean unlisted => ?_⟩
  · obtain ⟨-, -, distinct, ids, -⟩ := ordered
    have named : id.toNat ≠ 0 := by
      have := ids r listed
      omega
    have dropped := dropSweep_dropped .cancelled true (s := taken rest s) clean listed
    have good := (dropSweep_quiet .cancelled true (s := taken rest s) clean listed).clean clean
    obtain ⟨drained, sweeps, -⟩ := drainTest_quiet good
    have apart : IdsDistinct (drainTest (dropSweep .cancelled true (taken rest s) r)) := by
      rw [IdsDistinct, State.listed, sweeps, ← State.listed, dropSweep_listed]
      exact distinct.sublist List.filter_sublist
    obtain ⟨t, run, w, replied, looks⟩ := answered_looks request (cancelBody_fits id)
      (cancelRequest_listed (s := taken rest s) clean.2.1 distinct listed own named) drained apart
    exact ⟨t, _, _, w, run, dropped, drainTest_tested good, replied, looks⟩
  · exact reply_only .unknown _ request (cancelBody_fits id) clean.1 (cancelRequest_unlisted clean.2.1 unlisted)

end Sys2Proof.Machine
end

section
/-! PROOFS. CLOSE VP with mode NOW: the drops of a context's sweeps and the close they end in (R77, R79, R84, R126, R128, R160). -/

namespace Sys2Proof.Machine

/-! ### What a reply and a look leave -/

theorem Replied.only {f : RxFrame} {st : Status} {c : List Byte} {s t : State} (h : Replied f st c s t) : OnlyLinkLines s t :=
  (Placed.only h).1

/-- A look of the engine's arbiter keeps the contexts, the emitter and the list's ids (R84). -/
theorem EngineLooks.kept {s t : State} (h : EngineLooks s t) :
    t.stack = s.stack ∧ t.emitter = s.emitter ∧ t.listed.map (·.id) = s.listed.map (·.id) := by
  rcases h with ⟨-, rfl⟩ | ⟨-, a, r, b, list, -, -, begun, -⟩
  · exact ⟨rfl, rfl, rfl⟩
  · rw [begun]
    exact ⟨rfl, rfl, by rw [list]; simp⟩

/-! ### The close of a context with its sweeps -/

/-- The sweeps attached to a context. -/
def State.attachedTo (s : State) (i : Fin 4) : List SweepRecord := s.listed.filter fun r => decide (r.ctx = i)

theorem mem_attachedTo {s : State} {i : Fin 4} {r : SweepRecord} : r ∈ s.attachedTo i ↔ r ∈ s.listed ∧ r.ctx = i := by
  rw [State.attachedTo, List.mem_filter, decide_eq_true_iff]

theorem Attached.length_attachedTo {s : State} (h : Attached s) (i : Fin 4) : (s.attachedTo i).length = (s.ctx i).attached := by
  rw [h.2 i, List.countP_eq_length_filter, State.attachedTo]

/-- The close of a CLOSE PENDING context with nothing attached. -/
theorem applyClose_closedBy {i : Fin 4} {s : State} (clean : Clean s) (state : (s.ctx i).state = .closePending)
    (attached : (s.ctx i).attached = 0) : ClosedBy i 0 s (applyClose i s) := by
  have due : CloseDue (s.ctx i) := ⟨attached, .inr state⟩
  have closed := ((applyClose_spec i clean).resolve_right fun h => h.1 due).2
  refine ⟨closed.free, fun folded => ?_⟩
  obtain ⟨own, order⟩ := closed.emit folded
  exact ⟨by rw [own, Nat.add_zero, ← attached], order⟩

/-- What a CLOSE VP NOW comes to on a context that is CLOSE PENDING (R128). -/
structure ClosedNow (i : Fin 4) (s t : State) : Prop where
  closed : ClosedBy i (s.ctx i).attached s t
  other : ∀ j, j ≠ i → t.ctx j = s.ctx j
  listed : t.listed = s.listed.filter fun r => decide (r.ctx ≠ i)
  chain : if s.attachedTo i = [] then CloseTested i s t else Chain (Dropped .closed true) (s.attachedTo i) s t
  clean : Clean t

theorem closeAttached_closedNow {i : Fin 4} {s : State} (clean : Clean s) (distinct : IdsDistinct s)
    (state : (s.ctx i).state = .closePending) (count : (s.attachedTo i).length = (s.ctx i).attached) :
    ClosedNow i s (closeAttached i s) := by
  by_cases none : s.attachedTo i = []
  · have same : closeAttached i s = applyClose i s := if_pos none
    have zero : (s.ctx i).attached = 0 := by rw [← count, none, List.length_nil]
    rw [same]
    refine ⟨by rw [zero]; exact applyClose_closedBy clean state zero, fun j other => applyClose_other clean other, ?_,
      by rw [if_pos none]; exact applyClose_tested i clean, (applyClose_quiet i clean).clean clean⟩
    rw [applyClose_listed]
    refine (List.filter_eq_self.mpr fun r listed => decide_eq_true (p := r.ctx ≠ i) fun own => ?_).symm
    exact List.not_mem_nil (none ▸ mem_attachedTo.mpr ⟨listed, own⟩)
  · have same : closeAttached i s = (s.attachedTo i).foldl (dropSweep .closed true) s := if_neg none
    have apart : (s.attachedTo i).Pairwise fun a b => a.id ≠ b.id := distinct.sublist List.filter_sublist
    have listed : ∀ r ∈ s.attachedTo i, r ∈ s.listed := fun r hr => (mem_attachedTo.mp hr).1
    have own : ∀ r ∈ s.attachedTo i, r.ctx = i := fun r hr => (mem_attachedTo.mp hr).2
    obtain ⟨quiet, others, -⟩ := drops_quiet .closed true (s.attachedTo i) clean apart listed
    rw [same]
    refine ⟨?_, fun j other => others j fun r hr e => other (e.symm.trans (own r hr)), ?_,
      by rw [if_neg none]; exact drops_chain .closed true _ clean apart listed, quiet.clean clean⟩
    · rw [← count]
      exact dropsClose i _ clean apart listed own state count.symm none
    · rw [drops_listed, State.attachedTo, filter_ids distinct rfl]
      simp only [ne_eq, decide_not]

theorem ClosedBy.congr {i : Fin 4} {n : Nat} {s t u : State} (h : ClosedBy i n s t) (stack : u.stack = t.stack)
    (emitter : u.emitter = t.emitter) : ClosedBy i n s u := by
  have same : u.ctx i = t.ctx i := by rw [State.ctx, stack, State.ctx]
  exact ⟨by rw [same, emitter]; exact h.free, by rw [same, emitter]; exact h.emit⟩

/-! ### The request -/

section closeNow
variable {tag : Byte} {vp : VpId} {i : Fin 4} {s : State}

/-- The context is OPEN and holds the VP. -/
def HoldsOpen (vp : VpId) (s : State) (i : Fin 4) : Prop := (s.ctx i).state = .opened ∧ (s.ctx i).vp = vp

theorem openHolding_none (h : ∀ i, ¬ HoldsOpen vp s i) : openHolding vp s = none := by
  refine findCtx_none.mpr fun i => ?_
  rw [← Bool.not_eq_true, Bool.and_eq_true, decide_eq_true_iff, decide_eq_true_iff]
  exact h i

theorem openHolding_some (own : HoldsOpen vp s i) (first : ∀ j : Fin 4, j.val < i.val → ¬ HoldsOpen vp s j) :
    openHolding vp s = some i := by
  refine findCtx_some.mpr ⟨?_, fun j before => ?_⟩
  · rw [Bool.and_eq_true, decide_eq_true_iff, decide_eq_true_iff]
    exact own
  · rw [← Bool.not_eq_true, Bool.and_eq_true, decide_eq_true_iff, decide_eq_true_iff]
    exact first j before

theorem closeNow_unknown (clean : Clean s) (none : ∀ i, ¬ HoldsOpen vp s i) : closeNow ⟨0x15, tag, closeVpBody vp 1⟩ s =
    placeReply ⟨0x15, tag, closeVpBody vp 1⟩ .unknown [0xFF, 0, 0, 0, 0, 0] s := by
  simp only [closeNow, closeVpBody_vp, clean.2.1, clean.2.2, Bool.or_false, markHit_false, BitVec.ofNat_toNat, BitVec.setWidth_eq,
    openHolding_none none]
  rfl

/-- The context made CLOSE PENDING (R127, R128). -/
def State.pended (s : State) (i : Fin 4) : State := s.withCtx i { s.ctx i with state := .closePending }

/-- The drain test behind the drops and the close. -/
def closedAndTested (i : Fin 4) (s : State) : State := drainTest (closeAttached i (s.pended i))

theorem closeNow_held (clean : Clean s) (own : HoldsOpen vp s i) (first : ∀ j : Fin 4, j.val < i.val → ¬ HoldsOpen vp s j) :
    closeNow ⟨0x15, tag, closeVpBody vp 1⟩ s = arbitrate (placeReply ⟨0x15, tag, closeVpBody vp 1⟩ .ok
      (closedContents i ((s.ctx i).attached - (s.attachedTo i).length) (s.ctx i).folded ((s.ctx i).dropped + (s.attachedTo i).length)
        (closedAndTested i s)) (closedAndTested i s)) := by
  simp only [closeNow, closeVpBody_vp, clean.2.1, clean.2.2, Bool.or_false, markHit_false, BitVec.ofNat_toNat, BitVec.setWidth_eq,
    openHolding_some own first]
  rfl

theorem closeVpBody_fits (vp : VpId) (m : Byte) : lengthAllowed 0x15 (closeVpBody vp m).length = some true := by
  rw [closeVpBody_length]
  rfl

theorem exec_closeVpNow : exec (.closeVpNow tag (closeVpBody vp 1)) s =
    takeRequest ⟨0x15, tag, closeVpBody vp 1⟩ (closeNow ⟨0x15, tag, closeVpBody vp 1⟩) s := by
  change execCloseVpNow tag (closeVpBody vp 1) s = _
  refine if_pos ?_
  rw [closesNow, closeVpBody_length, closeVpBody_mode]
  rfl

/-- The counts and the state a reply gives of a context that has closed (R127, R128). -/
theorem closedContents_closed {n : Nat} {a t : State} (closed : ClosedBy i n a t) :
    closedContents i 0 (a.ctx i).folded ((a.ctx i).dropped + n) t =
    BitVec.ofNat 8 i.val :: (leBytes 1 (a.ctx i).gen.toNat ++ [if (a.ctx i).folded = 0 then 0 else 3] ++ leBytes 1 0 ++
      leBytes 1 (a.ctx i).folded ++ leBytes 1 ((a.ctx i).dropped + n)) := by
  unfold closedContents
  by_cases folded : (a.ctx i).folded = 0
  · rw [(closed.free folded).1, if_pos folded]
    rfl
  · rw [(closed.emit folded).1, if_neg folded]
    rfl

end closeNow

/-- Settles O43: the close with its drops, then the drain test, the reply and the arbiter's look. -/
theorem closeVpDropsNow : Obligations.CloseVpDropsNow := by
  intro tag vp rest s request clean ordered attached f isOpen
  obtain ⟨-, -, distinct, -, -⟩ := ordered
  have length := closeVpBody_fits vp 1
  refine ⟨fun none => ?_, fun i own first => ?_⟩
  · obtain ⟨t, run, answered⟩ := reply_only .unknown _ request length clean.1 (closeNow_unknown (s := taken rest s) clean none)
    exact ⟨t, exec_closeVpNow.trans run, answered⟩
  intro c l a
  have state : (a.ctx i).state = .closePending := by rw [ctx_with_same]
  have good : Clean a := (quiet_ctx (taken rest s) i { c with state := .closePending } rfl []).clean clean
  have count : l.length = c.attached := attached.length_attachedTo i
  have here : a.ctx i = { c with state := .closePending } := ctx_with_same _ i _
  obtain ⟨closed, others, listed, chain, after⟩ :=
    closeAttached_closedNow good distinct state (count.trans (by rw [here]))
  set u := closeAttached i a with hu
  obtain ⟨drained, sweeps, -, stack, emitter, -⟩ := drainTest_quiet after
  have apart : IdsDistinct (drainTest u) := by
    rw [IdsDistinct, State.listed, sweeps, ← State.listed, listed]
    exact distinct.sublist List.filter_sublist
  obtain ⟨t, run, w, replied, looks⟩ := answered_looks (u := drainTest u) request length
    (closeNow_held (s := taken rest s) clean own first) drained apart
  obtain ⟨stack', emitter', ids⟩ := looks.kept
  have only := replied.only
  have tested : ClosedBy i c.attached a (drainTest u) := by
    rw [here] at closed
    exact closed.congr stack emitter
  have final : ClosedBy i c.attached a t :=
    tested.congr (stack'.trans only.stack) (emitter'.trans only.emitter)
  have number : ((taken rest s).attachedTo i).length = c.attached := count
  have contents := closedContents_closed tested
  rw [here] at contents
  rw [number] at replied
  change Replied _ .ok (closedContents i (c.attached - c.attached) c.folded (c.dropped + c.attached) (drainTest u)) _ _ at replied
  rw [Nat.sub_self, contents] at replied
  have freed := final.free
  have emits := final.emit
  rw [here] at freed emits
  refine ⟨t, u, drainTest u, w, exec_closeVpNow.trans run, chain, drainTest_tested after, replied, looks, ?_, ?_, fun j other => ?_,
    fun zero => ?_, emits⟩
  · rw [ids, only.listed, State.listed, sweeps, ← State.listed, listed]
    rfl
  · by_cases zero : c.folded = 0
    · rw [(freed zero).1]
      rfl
    · rw [(emits zero).1]
  · calc t.ctx j = u.ctx j := by rw [State.ctx, stack', only.stack, stack, State.ctx]
      _ = a.ctx j := others j other
      _ = s.ctx j := ctx_with_other _ _ other
  · obtain ⟨here', still⟩ := freed zero
    exact ⟨by rw [here']; rfl, still⟩

end Sys2Proof.Machine
end

section
/-! PROOFS. STOP with mode DISCARD: the drops without a close, the contexts freed without emission, and the drain test behind them (R77, R129,
R158 to R160). -/

namespace Sys2Proof.Machine

/-! ### What both modes of STOP begin with -/

/-- A STOP takes the part to DRAINING, with the fall of the ACQUIRE level where it was true (R158, R159). -/
theorem setOp_draining (d : DrainMode) (s : State) :
    let a := s.withMode { s.mode with op := .draining, drain := some d }
    if s.mode.op = .acquire then Fell .acquire a (setOp .draining (some d) s) else setOp .draining (some d) s = a := by
  unfold setOp
  split
  · exact dropLevel_fell .acquire _
  · rfl

theorem setOp_clean {o : OpState} {d : Option DrainMode} {s : State} (clean : Clean s) : Clean (setOp o d s) :=
  clean_only (setOp_only o d s) clean

theorem stopBody_fits (mode : Byte) : lengthAllowed 0x06 [mode].length = some true := rfl

/-! ### The drops without a close -/

/-- What the drops of a STOP with DISCARD leave of the contexts and the emitter (R77, R159). -/
theorem dropsOpen (cause : DropCause) (l : List SweepRecord) {s : State} (clean : Clean s) (apart : l.Pairwise fun a b => a.id ≠ b.id)
    (listed : ∀ r ∈ l, r ∈ s.listed) : Quiet (dropOwnLines cause) s (l.foldl (dropSweep cause false) s) ∧
      (l.foldl (dropSweep cause false) s).emitter = s.emitter ∧
      ∀ j, ((l.foldl (dropSweep cause false) s).ctx j).state = (s.ctx j).state ∧
        ((l.foldl (dropSweep cause false) s).ctx j).gen = (s.ctx j).gen := by
  induction l generalizing s with
  | nil => exact ⟨.refl _ s, rfl, fun j => ⟨rfl, rfl⟩⟩
  | cons r l ih =>
    obtain ⟨first, behind⟩ := List.pairwise_cons.mp apart
    have dropped : DroppedOpen (dropOwnLines cause) r s (dropSweep cause false s r) := dropPre_spec cause clean (listed r (.head l))
    have left : ∀ q ∈ l, q ∈ (dropSweep cause false s r).listed := fun q hq => by
      rw [dropped.listed]
      exact List.mem_filter.mpr ⟨listed q (.tail r hq), decide_eq_true (first q hq).symm⟩
    obtain ⟨quiet, emitter, ctx⟩ := ih (dropped.quiet.clean clean) behind left
    refine ⟨dropped.quiet.trans quiet, emitter.trans dropped.emitter, fun j => ?_⟩
    obtain ⟨state, gen⟩ := ctx j
    rw [List.foldl_cons, state, gen]
    by_cases own : j = r.ctx
    · rw [own, dropped.own]
      exact ⟨rfl, rfl⟩
    · rw [dropped.other j own]
      exact ⟨rfl, rfl⟩

/-! ### The discard -/

/-- Every listed sweep dropped without a close. -/
def discardDrops (s : State) : State := s.listed.foldl (dropSweep .stopped false) s

/-- Every collecting context freed. -/
def discardCtxs (s : State) : State := ctxOrder.foldl discardCtx s

theorem discardAll_eq {s : State} (clean : Clean s) :
    discardAll s = drainTest (discardCtxs (discardDrops (setOp .draining (some .discard) s))) := by
  unfold discardAll
  rw [clean.2.1, clean.2.2]
  simp only [Bool.or_false, markHit_false, dropWhere, List.filter_true]
  rfl

/-- What the drops and the freeing leave, the drain test not yet made. -/
structure Emptied (s t : State) : Prop where
  quiet : Quiet [.sweepDropped, .noticeHigh] s t
  listed : t.listed = []
  job : t.engine.job = none
  closing : ∀ i, (s.ctx i).state = .closing → t.ctx i = s.ctx i
  freed : ∀ i, (s.ctx i).state ≠ .closing → (t.ctx i).state = .free ∧ (t.ctx i).gen = (s.ctx i).gen
  emitter : t.emitter = s.emitter

theorem discardDrops_chain {s : State} (clean : Clean s) (distinct : IdsDistinct s) :
    Chain (Dropped .stopped false) s.listed s (discardDrops s) := drops_chain .stopped false _ clean distinct fun _ h => h

theorem discard_emptied {s : State} (clean : Clean s) (distinct : IdsDistinct s) (attached : Attached s) (engine : EngineMatches s) :
    Emptied s (discardCtxs (discardDrops s)) := by
  obtain ⟨-, others, job⟩ := drops_quiet .stopped false s.listed clean distinct fun _ h => h
  obtain ⟨quiet, emitter, ctx⟩ := dropsOpen .stopped s.listed clean distinct fun _ h => h
  obtain ⟨quiet', engine', sweeps', emitter', ctx'⟩ := discardFold ctxOrder (s := discardDrops s) (by decide)
  have listed : (discardDrops s).listed = [] := by
    rw [discardDrops, drops_listed]
    exact List.filter_eq_nil_iff.mpr fun r hr k => (of_decide_eq_true k) (List.mem_map_of_mem hr)
  refine ⟨quiet.trans (quiet'.mono (by simp)), by rw [State.listed, discardCtxs, sweeps', ← State.listed, listed], ?_, fun i closing => ?_,
    fun i other => ?_, emitter'.trans emitter⟩
  · rw [discardCtxs, engine', discardDrops, job]
    split
    · rfl
    · next none =>
      cases run : s.engine.job with
      | none => rfl
      | some j =>
        obtain ⟨r, hr, -, state⟩ := engine.1 j run
        exact absurd ⟨r, hr, state⟩ none
  · have apart : ∀ r ∈ s.listed, r.ctx ≠ i := fun r hr own => by
      have := attached.1 r hr
      rw [own, closing] at this
      exact this.elim nofun nofun
    have same : (discardDrops s).ctx i = s.ctx i := others i apart
    rw [discardCtxs, ctx' i, same, collecting, closing]
    simp
  · obtain ⟨state, gen⟩ := ctx i
    rw [discardCtxs, ctx' i]
    change ((discardDrops s).ctx i).state = _ at state
    change ((discardDrops s).ctx i).gen = _ at gen
    split
    · exact ⟨rfl, gen⟩
    · next idle =>
      have idle : ¬ collecting ((discardDrops s).ctx i) = true := fun k => idle ⟨mem_ctxOrder i, k⟩
      rw [collecting_iff, state] at idle
      refine ⟨?_, gen⟩
      rw [state]
      cases own : (s.ctx i).state with
      | free => rfl
      | opened => exact absurd (.inl own) idle
      | closePending => exact absurd (.inr own) idle
      | closing => exact absurd own other

/-- The mode behind the drain test of a DRAINING part whose list is empty (R160). -/
theorem drainTest_mode {s : State} (clean : Clean s) (op : s.mode.op = .draining) (empty : s.listed = []) :
    (drainTest s).mode = if ∀ i, (s.ctx i).state = .free then { s.mode with op := .setup, drain := none } else s.mode := by
  obtain ⟨-, -, -, -, mode⟩ := drain_spec clean op _ rfl
  by_cases free : ∀ i, (s.ctx i).state = .free
  · rw [if_pos free]
    rwa [if_pos ⟨empty, free⟩] at mode
  · rw [if_neg free]
    rwa [if_neg fun k => free k.2] at mode

theorem Emptied.allFree_iff {s t : State} (h : Emptied s t) : (∀ i, (t.ctx i).state = .free) ↔ ∀ i, (s.ctx i).state ≠ .closing := by
  refine ⟨fun free i closing => ?_, fun none i => (h.freed i (none i)).1⟩
  have := free i
  rw [h.closing i closing, closing] at this
  cases this

/-- What a STOP with DISCARD comes to (R129, R159, R160). -/
structure Discarded (s t : State) : Prop where
  clean : Clean t
  listed : t.listed = []
  job : t.engine.job = none
  closing : ∀ i, (s.ctx i).state = .closing → t.ctx i = s.ctx i
  freed : ∀ i, (s.ctx i).state ≠ .closing → (t.ctx i).state = .free ∧ (t.ctx i).gen = (s.ctx i).gen
  emitter : t.emitter = s.emitter
  mode : if ∀ i, (s.ctx i).state ≠ .closing then t.mode = { s.mode with op := .setup, drain := none }
    else t.mode = { s.mode with op := .draining, drain := some .discard }
  ring : t.ring = s.ring
  pilots : t.pilots = s.pilots
  time : t.time = s.time
  fleets : t.fleets = s.fleets
  inputs : t.router.inputs = s.router.inputs
  follow : LinesFollow [.acquire, .sweepDropped, .noticeHigh] s t

/-- The reply to a request moves no line but those that follow NOTICE HIGH. -/
theorem Replied.follow {f : RxFrame} {st : Status} {c : List Byte} {s t : State} (h : Replied f st c s t) :
    LinesFollow [.noticeHigh] s t := (Placed.only h).2

theorem Discarded.replied {f : RxFrame} {st : Status} {c : List Byte} {s t u : State} (h : Discarded s t) (k : Replied f st c t u) :
    Discarded s u := by
  have only := k.only
  have ctx := only.ctx
  refine ⟨clean_only only h.clean, only.listed.trans h.listed, by rw [only.engine, h.job],
    fun i closing => (ctx i).trans (h.closing i closing),
    fun i collecting => by rw [ctx i]; exact h.freed i collecting, only.emitter.trans h.emitter, by rw [only.mode]; exact h.mode,
    only.ring.trans h.ring, only.pilots.trans h.pilots, only.time.trans h.time, only.fleets.trans h.fleets, only.inputs.trans h.inputs,
    h.follow.trans (k.follow.mono (by simp))⟩

/-- The part with the STOP's mode in force (R158). -/
def stopBegun (d : DrainMode) (s : State) : State := setOp .draining (some d) s

theorem stopBegun_only (d : DrainMode) (s : State) :
    OnlyLinkLines (s.withMode { s.mode with op := .draining, drain := some d }) (stopBegun d s) := setOp_only _ _ _

/-- The beginning of a STOP leaves the tables, and with them what holds of them. -/
theorem stopBegun_kept {d : DrainMode} {s : State} (clean : Clean s) (distinct : IdsDistinct s) (attached : Attached s) :
    Clean (stopBegun d s) ∧ IdsDistinct (stopBegun d s) ∧ Attached (stopBegun d s) := by
  have only := stopBegun_only d s
  have list : (stopBegun d s).listed = s.listed := only.listed
  have ctx : ∀ i, (stopBegun d s).ctx i = s.ctx i := only.ctx
  refine ⟨setOp_clean clean, by rw [IdsDistinct, list]; exact distinct, ?_⟩
  unfold Attached
  simp only [list, ctx]
  exact attached

/-- The state before the drain test of a STOP with DISCARD. -/
def discardBody (s : State) : State := discardCtxs (discardDrops (stopBegun .discard s))

theorem discardBody_emptied {s : State} (clean : Clean s) (distinct : IdsDistinct s) (attached : Attached s) (engine : EngineMatches s) :
    Emptied (stopBegun .discard s) (discardBody s) := by
  obtain ⟨good, apart, matched⟩ := stopBegun_kept (d := .discard) clean distinct attached
  refine discard_emptied good apart matched ?_
  have only := stopBegun_only .discard s
  have list : (stopBegun .discard s).listed = s.listed := only.listed
  have run : (stopBegun .discard s).engine = s.engine := only.engine
  rw [EngineMatches, list, run]
  exact engine

theorem discardAll_discarded {s : State} (clean : Clean s) (distinct : IdsDistinct s) (attached : Attached s)
    (engine : EngineMatches s) : DrainTested (discardBody s) (discardAll s) ∧ Discarded s (discardAll s) := by
  have begun := stopBegun_only .discard s
  have ctx : ∀ i, (stopBegun .discard s).ctx i = s.ctx i := begun.ctx
  have good := (stopBegun_kept (d := .discard) clean distinct attached).1
  have emptied := discardBody_emptied clean distinct attached engine
  have after : Clean (discardBody s) := emptied.quiet.clean good
  have mode : (discardBody s).mode = { s.mode with op := .draining, drain := some .discard } := emptied.quiet.mode.trans begun.mode
  obtain ⟨drained, sweeps, job, stack, emitter, ring, pilots, time, fleets, inputs, -, -, -, follow⟩ := drainTest_quiet after
  have final : ∀ i, (drainTest (discardBody s)).ctx i = (discardBody s).ctx i := fun i => by rw [State.ctx, stack, State.ctx]
  have last := drainTest_mode after (by rw [mode]) emptied.listed
  have free := emptied.allFree_iff
  simp only [ctx] at free
  have first : LinesFollow [.acquire] s (stopBegun .discard s) := setOp_follow .draining (some .discard) s
  rw [show discardAll s = drainTest (discardBody s) from discardAll_eq clean]
  refine ⟨drainTest_tested after, drained, ?_, by rw [job, emptied.job], fun i closing => ?_, fun i collecting => ?_, ?_, ?_,
    ring.trans (emptied.quiet.ring.trans begun.ring), pilots.trans (emptied.quiet.pilots.trans begun.pilots),
    time.trans (emptied.quiet.time.trans begun.time), fleets.trans (emptied.quiet.fleets.trans begun.fleets),
    inputs.trans (emptied.quiet.inputs.trans begun.inputs),
    ((first.mono (by simp)).trans (emptied.quiet.follow.mono (by simp))).trans (follow.mono (by simp))⟩
  · rw [State.listed, sweeps, ← State.listed, emptied.listed]
  · rw [final, emptied.closing i (by rw [ctx]; exact closing), ctx]
  · rw [final, ← ctx]
    exact emptied.freed i (by rw [ctx]; exact collecting)
  · exact emitter.trans (emptied.emitter.trans begun.emitter)
  · rw [last, mode]
    by_cases none : ∀ i, (s.ctx i).state ≠ .closing
    · rw [if_pos none, if_pos (free.mpr none)]
    · rw [if_neg none, if_neg fun k => none (free.mp k)]

/-! ### The request -/

theorem stopDiscard_setup {tag : Byte} {s : State} (op : s.mode.op = .setup) :
    stopDiscard ⟨0x06, tag, [1]⟩ s = placeReply ⟨0x06, tag, [1]⟩ .state [0] s := by
  rw [stopDiscard, if_pos op, op]
  rfl

theorem stopDiscard_taken {tag : Byte} {s : State} (op : s.mode.op ≠ .setup) : stopDiscard ⟨0x06, tag, [1]⟩ s =
    placeReply ⟨0x06, tag, [1]⟩ .ok [opCode (discardAll s).mode.op] (discardAll s) := if_neg op

/-- Settles O30, from the state the drops, the freeing and the drain test leave. -/
theorem stopDiscardClears : Obligations.StopDiscardClears := by
  intro tag rest s request clean ordered attached engine
  have length := stopBody_fits 1
  refine ⟨fun op => reply_only .state _ request length clean.1 (stopDiscard_setup op), fun op => ?_⟩
  obtain ⟨-, -, distinct, -, -⟩ := ordered
  obtain ⟨tested, discarded⟩ := discardAll_discarded (s := taken rest s) clean distinct attached engine
  obtain ⟨good, apart, -⟩ := stopBegun_kept (s := taken rest s) (d := .discard) clean distinct attached
  have list : (stopBegun .discard (taken rest s)).listed = s.listed := (stopBegun_only .discard (taken rest s)).listed
  have dropped := discardDrops_chain good apart
  rw [list] at dropped
  obtain ⟨t, run, replied⟩ := request_replied request length (stopDiscard_taken (s := taken rest s) op) discarded.clean.1
  have final := discarded.replied replied
  exact ⟨t, stopBegun .discard (taken rest s), _, discardBody (taken rest s), _, run, setOp_draining .discard (taken rest s), dropped,
    discards_chain ctxOrder _, tested, replied, final.listed, final.job, final.closing, final.freed, final.emitter, final.mode, final.ring,
    final.pilots, final.time, final.fleets, final.inputs, final.follow⟩

end Sys2Proof.Machine
end

section
/-! PROOFS. What becomes of one collecting context while sweeps are dropped and contexts are closed: it goes on collecting under an exact
attached count, or it has closed and no listed sweep is attached to it (R77, R121, R125, R126). -/

namespace Sys2Proof.Machine

/-! ### A context that collects, and one that has closed -/

/-- The context collects, has folded `n`, and its attached count is that of the list (R121). -/
structure Collects (i : Fin 4) (n : Nat) (s : State) : Prop where
  state : (s.ctx i).state = .opened ∨ (s.ctx i).state = .closePending
  folded : (s.ctx i).folded = n
  attached : (s.ctx i).attached = s.listed.countP fun r => decide (r.ctx = i)

/-- The context has closed with `n` folded: no listed sweep is attached to it, and it is FREE or in the closing order (R126). -/
structure HasClosed (i : Fin 4) (n : Nat) (s : State) : Prop where
  left : ∀ r ∈ s.listed, r.ctx ≠ i
  free : n = 0 → (s.ctx i).state = .free
  closing : n ≠ 0 → (s.ctx i).state = .closing ∧ i ∈ s.emitter.closing

/-- A context that collected with `n` folded still does, or has closed. -/
def Accounted (i : Fin 4) (n : Nat) (s : State) : Prop := Collects i n s ∨ HasClosed i n s

section
variable {i j : Fin 4} {n : Nat} {s t : State}

theorem Attached.accounted (h : Attached s) (state : (s.ctx i).state = .opened ∨ (s.ctx i).state = .closePending) :
    Accounted i (s.ctx i).folded s := .inl ⟨state, rfl, h.2 i⟩

theorem HasClosed.not_due (h : HasClosed i n s) : ¬ CloseDue (s.ctx i) := by
  rintro ⟨-, due⟩
  by_cases zero : n = 0
  · rw [h.free zero] at due
    exact due.elim (nofun) nofun
  · rw [(h.closing zero).1] at due
    exact due.elim (nofun) nofun

theorem Collects.unattached (h : Collects i n s) (zero : (s.ctx i).attached = 0) : ∀ r ∈ s.listed, r.ctx ≠ i := by
  have none := h.attached.symm.trans zero
  rw [List.countP_eq_zero] at none
  exact fun r listed own => none r listed (decide_eq_true own)

/-- What is read of the state for a context's account. -/
theorem Accounted.congr (h : Accounted i n s) (listed : t.listed = s.listed) (ctx : t.ctx i = s.ctx i)
    (closing : ∀ k ∈ s.emitter.closing, k ∈ t.emitter.closing) : Accounted i n t := by
  rcases h with ⟨state, folded, attached⟩ | ⟨left, free, waits⟩
  · exact .inl ⟨by rwa [ctx], by rwa [ctx], by rwa [ctx, listed]⟩
  · refine .inr ⟨by rwa [listed], by rwa [ctx], fun some => ?_⟩
    obtain ⟨state, order⟩ := waits some
    exact ⟨by rwa [ctx], closing i order⟩

/-! ### The close condition -/

/-- The closing order only grows at its end where a close condition is applied (R126). -/
theorem applyClose_order (clean : Clean s) : ∀ k ∈ s.emitter.closing, k ∈ (applyClose j s).emitter.closing := by
  intro k order
  rcases applyClose_spec j clean with ⟨-, closed⟩ | ⟨-, same⟩
  · by_cases folded : (s.ctx j).folded = 0
    · rw [(closed.free folded).2]
      exact order
    · rw [(closed.emit folded).2]
      exact List.mem_append_left _ order
  · rwa [same]

theorem applyClose_accounted (clean : Clean s) (h : Accounted i n s) : Accounted i n (applyClose j s) := by
  by_cases own : j = i
  · subst own
    rcases applyClose_spec j clean with ⟨due, closed⟩ | ⟨-, same⟩
    · rcases h with collects | hasClosed
      · have left := collects.unattached due.1
        refine .inr ⟨fun r listed => left r (by rwa [applyClose_listed] at listed), fun zero => ?_, fun some => ?_⟩
        · rw [(closed.free (collects.folded.trans zero)).1]
          rfl
        · obtain ⟨here, order⟩ := closed.emit (by rwa [collects.folded])
          exact ⟨by rw [here], by rw [order]; simp⟩
      · exact absurd due hasClosed.not_due
    · rwa [same]
  · exact h.congr (applyClose_listed j s) (applyClose_other clean (Ne.symm own)) (applyClose_order clean)

/-! ### A drop -/

/-- The sweeps attached to a context, once a record has left the list. -/
theorem countP_without {l : List SweepRecord} {r : SweepRecord} (distinct : l.Pairwise fun a b => a.id ≠ b.id) (listed : r ∈ l) :
    (l.filter fun q => decide (q.id ≠ r.id)).countP (fun q => decide (q.ctx = i)) =
      l.countP (fun q => decide (q.ctx = i)) - if r.ctx = i then 1 else 0 := by
  obtain ⟨a, b, rfl⟩ := List.append_of_mem listed
  rw [filter_id_split distinct]
  simp only [List.countP_append, List.countP_cons, decide_eq_true_iff]
  omega

theorem dropSweep_accounted {cause : DropCause} {r : SweepRecord} (clean : Clean s) (distinct : IdsDistinct s) (listed : r ∈ s.listed)
    (h : Accounted i n s) : Accounted i n (dropSweep cause true s r) := by
  have dropped := dropPre_spec cause clean listed
  have before : Accounted i n (dropPre cause s r) := by
    rcases h with ⟨state, folded, attached⟩ | ⟨left, free, waits⟩
    · refine .inl ?_
      have count := countP_without (i := i) distinct listed
      by_cases own : r.ctx = i
      · subst own
        rw [if_pos rfl] at count
        exact ⟨by rw [dropped.own]; exact state, by rw [dropped.own]; exact folded, by rw [dropped.own, dropped.listed, count, ← attached]⟩
      · rw [if_neg own] at count
        have same := dropped.other i (Ne.symm own)
        exact ⟨by rwa [same], by rwa [same], by rw [same, dropped.listed, count, ← attached]; rfl⟩
    · have same := dropped.other i (Ne.symm (left r listed))
      refine .inr ⟨fun q hq => left q ?_, by rwa [same], by rwa [same, dropped.emitter]⟩
      rw [dropped.listed] at hq
      exact List.mem_of_mem_filter hq
  rw [dropSweep_eq, if_pos rfl]
  exact applyClose_accounted (dropped.quiet.clean clean) before

theorem drops_accounted {cause : DropCause} (l : List SweepRecord) {s : State} (clean : Clean s) (distinct : IdsDistinct s)
    (apart : l.Pairwise fun a b => a.id ≠ b.id) (listed : ∀ r ∈ l, r ∈ s.listed) (h : Accounted i n s) :
    Accounted i n (l.foldl (dropSweep cause true) s) := by
  induction l generalizing s with
  | nil => exact h
  | cons r l ih =>
    obtain ⟨first, behind⟩ := List.pairwise_cons.mp apart
    have here := listed r (.head l)
    have list := dropSweep_listed cause true s r
    refine ih ((dropSweep_quiet cause true clean here).clean clean) ?_ behind (fun q hq => ?_) (dropSweep_accounted clean distinct here h)
    · rw [IdsDistinct, list]
      exact distinct.sublist List.filter_sublist
    · rw [list]
      exact List.mem_filter.mpr ⟨listed q (.tail r hq), decide_eq_true (first q hq).symm⟩

theorem closes_accounted (l : List (Fin 4)) {s : State} (clean : Clean s) (h : Accounted i n s) :
    Accounted i n (l.foldl (fun t k => applyClose k t) s) := by
  induction l generalizing s with
  | nil => exact h
  | cons k l ih => exact ih ((applyClose_quiet k clean).clean clean) (applyClose_accounted clean h)

end

/-! ### The contexts made CLOSE PENDING -/

/-- The OPEN contexts made CLOSE PENDING change nothing but the contexts (R158). -/
theorem pends_eq (l : List (Fin 4)) (s : State) :
    l.foldl pendCtx s = s.withStack { s.stack with ctxs := (l.foldl pendCtx s).stack.ctxs } := by
  induction l generalizing s with
  | nil => rfl
  | cons k l ih =>
    have one : pendCtx s k = s.withStack { s.stack with ctxs := (pendCtx s k).stack.ctxs } := by
      unfold pendCtx
      split <;> rfl
    have rest := ih (pendCtx s k)
    rw [List.foldl_cons]
    generalize l.foldl pendCtx (pendCtx s k) = t at rest ⊢
    rw [rest, one]
    rfl

theorem pends_accounted {i : Fin 4} {n : Nat} (l : List (Fin 4)) {s : State} (h : Accounted i n s) :
    Accounted i n (l.foldl pendCtx s) := by
  obtain ⟨-, -, sweeps, emitter, ctx⟩ := pendFold l (s := s)
  have listed : (l.foldl pendCtx s).listed = s.listed := by rw [State.listed, sweeps, State.listed]
  have own := ctx i
  split at own
  · next pended =>
    rcases h with ⟨state, folded, attached⟩ | closed
    · exact .inl ⟨by rw [own]; exact .inr rfl, by rw [own]; exact folded, by rw [own, listed]; exact attached⟩
    · by_cases zero : n = 0
      · exact absurd pended.2 (by rw [closed.free zero]; decide)
      · exact absurd pended.2 (by rw [(closed.closing zero).1]; decide)
  · exact h.congr listed own fun k order => by rwa [emitter]

end Sys2Proof.Machine
end

section
/-! PROOFS. STOP with mode FINISH: the SCHEDULED sweeps dropped, the contexts made CLOSE PENDING, the close conditions and the drain test (R77,
R125, R126, R129, R158, R160). -/

namespace Sys2Proof.Machine

/-! ### The steps of the handling -/

/-- The sweeps a STOP with FINISH drops. -/
def State.scheduled (s : State) : List SweepRecord := s.listed.filter fun r => decide (r.state = .scheduled)

/-- The SCHEDULED sweeps dropped. -/
def finishDrops (s : State) : State := s.scheduled.foldl (dropSweep .stopped true) s

/-- The OPEN contexts made CLOSE PENDING. -/
def finishPends (s : State) : State := ctxOrder.foldl pendCtx s

/-- The close condition applied to every context. -/
def finishCloses (s : State) : State := ctxOrder.foldl (fun t i => applyClose i t) s

theorem finishAcquire_eq {s : State} (clean : Clean s) :
    finishAcquire s = drainTest (finishCloses (finishPends (finishDrops (stopBegun .finish s)))) := by
  unfold finishAcquire
  rw [clean.2.1, clean.2.2]
  rfl

section steps
variable {s : State}

theorem mem_scheduled {r : SweepRecord} : r ∈ s.scheduled ↔ r ∈ s.listed ∧ r.state = .scheduled := by
  rw [State.scheduled, List.mem_filter, decide_eq_true_iff]

theorem scheduled_distinct (distinct : IdsDistinct s) : s.scheduled.Pairwise fun a b => a.id ≠ b.id :=
  distinct.sublist List.filter_sublist

theorem finishDrops_listed (distinct : IdsDistinct s) :
    (finishDrops s).listed = s.listed.filter fun r => decide (r.state ≠ .scheduled) := by
  rw [finishDrops, drops_listed, State.scheduled, filter_ids distinct rfl]
  simp only [ne_eq, decide_not]

/-- The drops of a STOP with FINISH: a CLOSING context has no sweep among them, and none of them is the engine's. -/
theorem finishDrops_kept (clean : Clean s) (distinct : IdsDistinct s) (attached : Attached s) :
    Quiet (dropLines .stopped) s (finishDrops s) ∧ (finishDrops s).engine = s.engine ∧
      ∀ i, (s.ctx i).state = .closing → (finishDrops s).ctx i = s.ctx i := by
  obtain ⟨quiet, others, engine⟩ :=
    drops_quiet .stopped true s.scheduled clean (scheduled_distinct distinct) fun r hr => (mem_scheduled.mp hr).1
  refine ⟨quiet, engine.trans (if_neg ?_), fun i closing => others i fun r hr own => ?_⟩
  · rintro ⟨r, hr, state⟩
    rw [(mem_scheduled.mp hr).2] at state
    cases state
  · have := attached.1 r (mem_scheduled.mp hr).1
    rw [own, closing] at this
    exact this.elim nofun nofun

theorem finishDrops_chain (clean : Clean s) (distinct : IdsDistinct s) :
    Chain (Dropped .stopped true) s.scheduled s (finishDrops s) :=
  drops_chain .stopped true _ clean (scheduled_distinct distinct) fun _ hr => (mem_scheduled.mp hr).1

theorem finishPends_eq : finishPends s = s.withStack { s.stack with ctxs := (finishPends s).stack.ctxs } := by
  unfold finishPends
  exact pends_eq ctxOrder s

theorem finishPends_ctx (i : Fin 4) : (finishPends s).ctx i =
    if (s.ctx i).state = .opened then { s.ctx i with state := .closePending } else s.ctx i := by
  obtain ⟨-, -, -, -, ctx⟩ := pendFold ctxOrder (s := s)
  rw [finishPends, ctx i]
  simp only [mem_ctxOrder i, true_and]

theorem finishPends_not_opened (i : Fin 4) : ((finishPends s).ctx i).state ≠ .opened := by
  rw [finishPends_ctx]
  split
  · exact nofun
  · assumption

/-- A context after the close conditions: as it was, its condition not holding, or FREE or CLOSING (R125, R126). -/
theorem finishCloses_ctx (clean : Clean s) (i : Fin 4) :
    ((finishCloses s).ctx i = s.ctx i ∧ ¬ CloseDue (s.ctx i)) ∨
      (CloseDue (s.ctx i) ∧ (((finishCloses s).ctx i).state = .free ∨ ((finishCloses s).ctx i).state = .closing)) := by
  obtain ⟨-, -, -, ctx⟩ := closeFold ctxOrder clean (by decide)
  exact (ctx i).imp_left fun h => ⟨h.1, h.2 (mem_ctxOrder i)⟩

end steps

/-! ### What becomes of the contexts -/

/-- The state before the drain test of a STOP with FINISH. -/
def finishBody (s : State) : State := finishCloses (finishPends (finishDrops s))

section body
variable {i : Fin 4} {n : Nat} {s : State}

theorem finishBody_kept (clean : Clean s) (distinct : IdsDistinct s) (attached : Attached s) :
    Quiet (dropLines .stopped) s (finishBody s) ∧ (finishBody s).engine = s.engine ∧
      (finishBody s).listed = s.listed.filter fun r => decide (r.state ≠ .scheduled) := by
  obtain ⟨quiet, engine, -⟩ := finishDrops_kept clean distinct attached
  obtain ⟨quiet', engine', sweeps', -⟩ := pendFold ctxOrder (s := finishDrops s)
  have good : Clean (finishPends (finishDrops s)) := quiet'.clean (quiet.clean clean)
  obtain ⟨quiet'', engine'', sweeps'', -⟩ := closeFold ctxOrder good (by decide)
  refine ⟨(quiet.trans (quiet'.mono (by simp))).trans (quiet''.mono (by decide)), engine''.trans (engine'.trans engine), ?_⟩
  rw [← finishDrops_listed distinct]
  exact congrArg SweepList.recs (sweeps''.trans sweeps')

theorem finishPends_clean (clean : Clean s) : Clean (finishPends s) := (pendFold ctxOrder (s := s)).1.clean clean

theorem finishBody_closing (clean : Clean s) (distinct : IdsDistinct s) (attached : Attached s) (closing : (s.ctx i).state = .closing) :
    (finishBody s).ctx i = s.ctx i := by
  obtain ⟨quiet, -, kept⟩ := finishDrops_kept clean distinct attached
  have dropped := kept i closing
  have pended : (finishPends (finishDrops s)).ctx i = s.ctx i := by
    rw [finishPends_ctx, dropped, if_neg (by rw [closing]; decide)]
  rcases finishCloses_ctx (finishPends_clean (quiet.clean clean)) i with ⟨same, -⟩ | ⟨due, -⟩
  · exact same.trans pended
  · rw [pended, CloseDue, closing] at due
    exact due.2.elim (nofun) nofun

theorem finishDrops_accounted (clean : Clean s) (distinct : IdsDistinct s) (h : Accounted i n s) : Accounted i n (finishDrops s) :=
  drops_accounted s.scheduled clean distinct (scheduled_distinct distinct) (fun _ hr => (mem_scheduled.mp hr).1) h

theorem finishPends_accounted (h : Accounted i n s) : Accounted i n (finishPends s) := pends_accounted ctxOrder h

theorem finishCloses_accounted (clean : Clean s) (h : Accounted i n s) : Accounted i n (finishCloses s) :=
  closes_accounted ctxOrder clean h

theorem finishBody_accounted (clean : Clean s) (distinct : IdsDistinct s) (attached : Attached s) (h : Accounted i n s) :
    Accounted i n (finishBody s) := by
  have dropped : Clean (finishDrops s) := (finishDrops_kept clean distinct attached).1.clean clean
  exact finishCloses_accounted (finishPends_clean dropped) (finishPends_accounted (finishDrops_accounted clean distinct h))

/-- A context that collects behind the close conditions is CLOSE PENDING with sweeps attached (R125). -/
theorem Collects.finished (h : Collects i n (finishBody s)) (clean : Clean (finishDrops s)) :
    ((finishBody s).ctx i).state = .closePending ∧ ∃ r ∈ (finishBody s).listed, r.ctx = i := by
  obtain ⟨state, -, attached⟩ := h
  rcases finishCloses_ctx (finishPends_clean clean) i with ⟨same, early⟩ | ⟨-, closed⟩
  · change (finishBody s).ctx i = _ at same
    have pending : ((finishBody s).ctx i).state = .closePending :=
      state.resolve_left (by rw [same]; exact finishPends_not_opened i)
    refine ⟨pending, ?_⟩
    by_contra none
    refine early ⟨?_, .inr (by rw [← same]; exact pending)⟩
    rw [← same, attached, List.countP_eq_zero]
    exact fun r listed own => none ⟨r, listed, of_decide_eq_true own⟩
  · change ((finishBody s).ctx i).state = .free ∨ ((finishBody s).ctx i).state = .closing at closed
    rcases state with state | state <;> rw [state] at closed <;> exact closed.elim (nofun) nofun

end body

/-! ### The handling whole -/

/-- What a STOP with FINISH comes to (R125, R126, R129, R158). -/
structure Finished (s t : State) : Prop where
  clean : Clean t
  listed : t.listed = s.listed.filter fun r => decide (r.state ≠ .scheduled)
  closing : ∀ i, (s.ctx i).state = .closing → t.ctx i = s.ctx i
  pending : ∀ i, (s.ctx i).state = .opened ∨ (s.ctx i).state = .closePending → (∃ r ∈ t.listed, r.ctx = i) →
    (t.ctx i).state = .closePending
  closed : ∀ i, (s.ctx i).state = .opened ∨ (s.ctx i).state = .closePending → (∀ r ∈ t.listed, r.ctx ≠ i) →
    HasClosed i (s.ctx i).folded t
  engine : t.engine = s.engine
  ring : t.ring = s.ring
  pilots : t.pilots = s.pilots
  time : t.time = s.time
  fleets : t.fleets = s.fleets
  inputs : t.router.inputs = s.router.inputs
  follow : LinesFollow [.acquire, .sweepDropped, .vpDone, .noticeHigh] s t

/-- A change that leaves what a STOP with FINISH is judged by. -/
theorem Finished.trans {s t u : State} (h : Finished s t) (clean : Clean u) (sweeps : u.sweeps = t.sweeps) (engine : u.engine = t.engine)
    (stack : u.stack = t.stack) (emitter : u.emitter = t.emitter) (ring : u.ring = t.ring) (pilots : u.pilots = t.pilots)
    (time : u.time = t.time) (fleets : u.fleets = t.fleets) (inputs : u.router.inputs = t.router.inputs)
    (follow : LinesFollow [.noticeHigh] t u) : Finished s u := by
  have listed : u.listed = t.listed := congrArg SweepList.recs sweeps
  have ctx : ∀ i, u.ctx i = t.ctx i := fun i => by rw [State.ctx, stack, State.ctx]
  refine ⟨clean, listed.trans h.listed, fun i closing => (ctx i).trans (h.closing i closing), fun i collects some => ?_,
    fun i collects none => ?_, engine.trans h.engine, ring.trans h.ring, pilots.trans h.pilots, time.trans h.time, fleets.trans h.fleets,
    inputs.trans h.inputs, h.follow.trans (follow.mono (by simp))⟩
  · rw [ctx]
    rw [listed] at some
    exact h.pending i collects some
  · rw [listed] at none
    obtain ⟨left, free, waits⟩ := h.closed i collects none
    exact ⟨by rwa [listed], by rwa [ctx], by rwa [ctx, emitter]⟩

theorem Finished.replied {f : RxFrame} {st : Status} {c : List Byte} {s t u : State} (h : Finished s t) (k : Replied f st c t u) :
    Finished s u := by
  have only := k.only
  exact h.trans (clean_only only h.clean) only.sweeps only.engine only.stack only.emitter only.ring only.pilots only.time only.fleets
    only.inputs k.follow

theorem finishBody_finished {s : State} (clean : Clean s) (distinct : IdsDistinct s) (attached : Attached s) :
    Finished s (finishBody s) := by
  obtain ⟨quiet, engine, listed⟩ := finishBody_kept clean distinct attached
  have dropped : Clean (finishDrops s) := (finishDrops_kept clean distinct attached).1.clean clean
  have account (i : Fin 4) (collects : (s.ctx i).state = .opened ∨ (s.ctx i).state = .closePending) :=
    finishBody_accounted clean distinct attached (attached.accounted collects)
  refine ⟨quiet.clean clean, listed, fun i => finishBody_closing clean distinct attached, fun i collects some => ?_, fun i collects none => ?_,
    engine, quiet.ring, quiet.pilots, quiet.time, quiet.fleets, quiet.inputs, quiet.follow.mono (by decide)⟩
  · rcases account i collects with collecting | closed
    · exact (collecting.finished dropped).1
    · obtain ⟨r, hr, own⟩ := some
      exact absurd own (closed.left r hr)
  · rcases account i collects with collecting | closed
    · obtain ⟨r, hr, own⟩ := (collecting.finished dropped).2
      exact absurd own (none r hr)
    · exact closed

theorem finishAcquire_finished {s : State} (clean : Clean s) (distinct : IdsDistinct s) (attached : Attached s) :
    DrainTested (finishBody (stopBegun .finish s)) (finishAcquire s) ∧ Finished s (finishAcquire s) := by
  obtain ⟨good, apart, matched⟩ := stopBegun_kept (d := .finish) clean distinct attached
  have begun := stopBegun_only .finish s
  have list : (stopBegun .finish s).listed = s.listed := begun.listed
  have ctx : ∀ i, (stopBegun .finish s).ctx i = s.ctx i := begun.ctx
  have first : LinesFollow [.acquire] s (stopBegun .finish s) := setOp_follow .draining (some .finish) s
  have body := finishBody_finished good apart matched
  obtain ⟨drained, sweeps, engine, stack, emitter, ring, pilots, time, fleets, inputs, -, -, -, follow⟩ := drainTest_quiet body.clean
  obtain ⟨-, listed, closing, pending, closed, engine', ring', pilots', time', fleets', inputs', follow'⟩ :=
    body.trans drained sweeps engine stack emitter ring pilots time fleets inputs follow
  simp only [list, ctx] at listed closing pending closed
  rw [show finishAcquire s = drainTest (finishBody (stopBegun .finish s)) from finishAcquire_eq clean]
  exact ⟨drainTest_tested body.clean, drained, listed, closing, pending, closed, engine'.trans begun.engine, ring'.trans begun.ring,
    pilots'.trans begun.pilots, time'.trans begun.time, fleets'.trans begun.fleets, inputs'.trans begun.inputs,
    (first.mono (by simp)).trans follow'⟩

/-! ### The request -/

section request
variable {tag mode : Byte} {s : State}

theorem exec_stopFinish (other : mode ≠ 1) :
    exec (.stopFinish tag [mode]) s = takeRequest ⟨0x06, tag, [mode]⟩ (stopFinish ⟨0x06, tag, [mode]⟩) s := by
  change execStopFinish tag [mode] s = _
  refine if_neg ?_
  rw [stopsWithDiscard, decide_eq_true_iff]
  exact fun same => other (List.head_eq_of_cons_eq same)

theorem stopFinish_outside (outside : mode ≠ 0) : stopFinish ⟨0x06, tag, [mode]⟩ s =
    placeReply ⟨0x06, tag, [mode]⟩ .range [opCode s.mode.op] s := if_pos outside

theorem stopFinish_setup (op : s.mode.op = .setup) : stopFinish ⟨0x06, tag, [0]⟩ s = placeReply ⟨0x06, tag, [0]⟩ .state [0] s := by
  unfold stopFinish
  rw [op]
  rfl

theorem stopFinish_draining (op : s.mode.op = .draining) : stopFinish ⟨0x06, tag, [0]⟩ s = placeReply ⟨0x06, tag, [0]⟩ .ok [2] s := by
  unfold stopFinish
  rw [op]
  rfl

theorem stopFinish_acquire (op : s.mode.op = .acquire) : stopFinish ⟨0x06, tag, [0]⟩ s =
    placeReply ⟨0x06, tag, [0]⟩ .ok [opCode (finishAcquire s).mode.op] (finishAcquire s) := by
  unfold stopFinish
  rw [op]
  exact if_neg fun outside => outside rfl

end request

/-- A STOP with FINISH in ACQUIRE, step by step. -/
theorem stopFinish_drains {tag : Byte} {rest : List RxFrame} {s : State} (request : Taken ⟨0x06, tag, [0]⟩ rest s) (clean : Clean s)
    (distinct : IdsDistinct s) (attached : Attached s) (op : s.mode.op = .acquire) :
    let b := stopBegun .finish (taken rest s)
    ∃ t, exec (.stopFinish tag [0]) s = .next t ∧
      Fell .acquire ((taken rest s).withMode { s.mode with op := .draining, drain := some .finish }) b ∧
      Chain (Dropped .stopped true) (s.listed.filter fun r => r.state = .scheduled) b (finishDrops b) ∧
      DrainTested (finishBody b) (finishAcquire (taken rest s)) ∧
      Chain CloseTested [0, 1, 2, 3] (finishPends (finishDrops b)) (finishBody b) ∧
      Replied ⟨0x06, tag, [0]⟩ .ok [opCode (finishAcquire (taken rest s)).mode.op] (finishAcquire (taken rest s)) t ∧
      Finished (taken rest s) t := by
  intro b
  obtain ⟨good, apart, matched⟩ := stopBegun_kept (s := taken rest s) (d := .finish) clean distinct attached
  obtain ⟨tested, finished⟩ := finishAcquire_finished (s := taken rest s) clean distinct attached
  obtain ⟨t, run, replied⟩ := request_replied request (stopBody_fits 0) (stopFinish_acquire (s := taken rest s) op) finished.clean.1
  have fell := setOp_draining .finish (taken rest s)
  rw [if_pos (show (taken rest s).mode.op = .acquire from op)] at fell
  have dropped := finishDrops_chain good apart
  have list : b.listed = s.listed := (stopBegun_only .finish (taken rest s)).listed
  rw [State.scheduled, list] at dropped
  have pended : Clean (finishPends (finishDrops b)) := finishPends_clean ((finishDrops_kept good apart matched).1.clean good)
  exact ⟨t, (exec_stopFinish (by decide)).trans run, fell, dropped, tested, closes_chain ctxOrder pended, replied, finished.replied replied⟩

/-- Settles O29: the steps in ACQUIRE, and the answers without a change. -/
theorem stopFinishDrains : Obligations.StopFinishDrains := by
  refine ⟨fun tag rest s request clean ordered attached op => ?_, fun tag mode rest s request clear other => ⟨fun outside => ?_,
    fun inside op => ?_, fun inside op => ?_⟩⟩
  · obtain ⟨-, -, distinct, -, -⟩ := ordered
    obtain ⟨t, run, fell, dropped, tested, closes, replied, final⟩ := stopFinish_drains request clean distinct attached op
    refine ⟨t, stopBegun .finish (taken rest s), finishDrops _, finishPends _, finishBody _, finishAcquire (taken rest s), run, fell, dropped,
      finishPends_eq, finishPends_ctx, closes, tested, replied, final.listed, final.closing,
      fun i collects => ⟨final.pending i collects, ?_, ?_⟩, final.ring,
      final.pilots, final.time, final.fleets, final.engine, final.inputs, final.follow⟩
    · exact fun none => (final.closed i collects none).free
    · exact fun none => (final.closed i collects none).closing
  · obtain ⟨t, run, answered⟩ := reply_only .range _ request (stopBody_fits mode) clear (stopFinish_outside (s := taken rest s) outside)
    exact ⟨t, (exec_stopFinish other).trans run, answered⟩
  · subst inside
    obtain ⟨t, run, answered⟩ := reply_only .state _ request (stopBody_fits 0) clear (stopFinish_setup (s := taken rest s) op)
    exact ⟨t, (exec_stopFinish other).trans run, answered⟩
  · subst inside
    obtain ⟨t, run, answered⟩ := reply_only .ok _ request (stopBody_fits 0) clear (stopFinish_draining (s := taken rest s) op)
    exact ⟨t, (exec_stopFinish other).trans run, answered⟩

end Sys2Proof.Machine
end

section
/-! PROOFS. The rounded quotient: what its magnitude is, and that it takes the sign of the number divided (R90). -/

namespace Sys2Proof.Machine

/-- The sign of the number divided is the sign of the rounded quotient. -/
theorem roundQuot_neg (a : Int) (b : Nat) : roundQuot (-a) b = -roundQuot a b := by
  simp [roundQuot, Int.sign_neg]

/-- The magnitude rounded: with `a` at or above 0 the rounded quotient is the whole number `q` with `2 b q ≤ 2 a + b < 2 b (q + 1)`. -/
theorem roundQuot_natCast (n : Nat) {b : Nat} (hb : 0 < b) : roundQuot n b = ((2 * n + b) / (2 * b) : Nat) := by
  rcases Nat.eq_zero_or_pos n with rfl | hn
  · have small : b / (2 * b) = 0 := Nat.div_eq_of_lt (by omega)
    simp [roundQuot, small]
  · rw [roundQuot, Int.sign_natCast_of_ne_zero (by omega), one_mul, Int.natAbs_natCast]

/-- The rounded quotient of a number is nearest, and of the two nearest the greater. -/
theorem roundQuot_natCast_nearest (n : Nat) {b : Nat} (hb : 0 < b) :
    2 * ((n : Int) - b * roundQuot n b).natAbs ≤ b ∧
    (2 * ((n : Int) - b * roundQuot n b).natAbs = b → n < b * (roundQuot n b).natAbs) := by
  set q := (2 * n + b) / (2 * b) with hq
  have low : 2 * (b * q) ≤ 2 * n + b := by
    calc 2 * (b * q) = 2 * b * q := by ring
      _ ≤ 2 * n + b := Nat.mul_div_le _ _
  have high : 2 * n + b < 2 * (b * q) + 2 * b := by
    calc 2 * n + b < 2 * b * (q + 1) := Nat.lt_mul_div_succ _ (by omega)
      _ = 2 * (b * q) + 2 * b := by ring
  rw [roundQuot_natCast n hb, ← hq, Int.natAbs_natCast]
  have product : (b : Int) * (q : Int) = ((b * q : Nat) : Int) := by push_cast; rfl
  rw [product]
  omega

/-- Settles O48: the claim for whole numbers, carried to the others by the symmetry. -/
theorem roundsHalfAway : Obligations.RoundsHalfAway := by
  intro a b hb
  refine and_assoc.mp ⟨?_, roundQuot_neg a b⟩
  rcases Int.natAbs_eq a with h | h
  · have nearest := roundQuot_natCast_nearest a.natAbs hb
    rwa [← h] at nearest
  · have nearest := roundQuot_natCast_nearest a.natAbs hb
    have e : ((a.natAbs : Nat) : Int) = -a := by omega
    have mirrored : -a - b * roundQuot (-a) b = -(a - b * roundQuot a b) := by rw [roundQuot_neg]; ring
    rwa [e, mirrored, roundQuot_neg, Int.natAbs_neg, Int.natAbs_neg] at nearest

end Sys2Proof.Machine
end

section
/-! PROOFS. The end of the correlation pass: every channel left is correlated and the editing pass begins (R88 to R95). -/

namespace Sys2Proof.Machine

/-- The end of a correlation pass is the job advanced over every channel, with the editing pass begun (R95). -/
theorem endPass_correlation {j : Job} {s : State} (job : s.engine.job = some j) (pass : j.pass = .correlation) :
    endPass s = s.withEngine { s.engine with
      job := some { j with pass := .editing, done := 0, elapsed := 0 }, scratch := (advanceJob s.channels j s).engine.scratch } := by
  unfold endPass
  simp only [job, pass]
  rfl

/-- Settles O49: the advance over every channel finishes the pass, and the turn to editing keeps its records. -/
theorem passCorrelates : Obligations.PassCorrelates := by
  intro j s free clear job pass stored
  have ended := endPass_correlation job pass
  obtain ⟨-, finished⟩ := advanceJob_finished s.channels stored
  obtain ⟨-, -, -, done, -⟩ := stored
  rw [Nat.max_eq_right done, PassFinished, pass] at finished
  obtain ⟨length, before, correlated⟩ := finished
  exact ⟨_, handle_eq free ended clear, rfl, length, before, correlated⟩

end Sys2Proof.Machine
end

section
/-! PROOFS. The completion of a job: its channels decided and folded, the six totals, and the steps behind the fold (R84, R95, R96, R107,
R108, R114 to R116, R125, R160). -/

namespace Sys2Proof.Machine

/-! ### Reports beside the engine -/

theorem placeNotice_withEngine (n : Notice) (s : State) (e : Engine) :
    placeNotice n (s.withEngine e) = (placeNotice n s).withEngine e := by
  unfold placeNotice
  rw [apply_ite (State.withEngine · e), apply_ite (State.withEngine · e)]
  rfl

theorem admitReport_withEngine (r : Report) (s : State) (e : Engine) :
    admitReport r (s.withEngine e) = (admitReport r s).withEngine e := by
  unfold admitReport
  rw [apply_ite (State.withEngine · e), placeNotice_withEngine]
  rfl

/-- A report is offered alike whatever the engine does. -/
theorem offerReport_withEngine (r : Report) (s : State) (e : Engine) :
    offerReport r (s.withEngine e) = (offerReport r s).withEngine e := by
  unfold offerReport
  simp only [apply_ite (State.withEngine · e), placeNotice_withEngine, ← admitReport_withEngine]
  rfl

/-! ### The fold of the channels (R107, R108, R112, R115) -/

/-- The editing pass carried to its end decides every channel from its count on (R95, R107). -/
theorem advanceJob_decides {j : Job} {s : State} (pass : j.pass = .editing) (whole : s.engine.scratch.length = s.channels) :
    PassFinished s j s.channels (advanceJob s.channels j s).engine.scratch := by
  unfold PassFinished advanceJob
  rw [pass]
  refine ⟨by simp, fun c q found => ?_⟩
  have inside : c < s.channels := whole ▸ (List.getElem?_eq_some_iff.mp found).1
  simp only [State.withEngine_engine, List.getElem?_mapIdx, found, Option.map_some, Option.some.injEq, exists_eq_left']
  have same : (j.done ≤ c ∧ c < max j.done s.channels) ↔ (j.done ≤ c ∧ c < s.channels) :=
    and_congr_right fun _ => ⟨fun _ => inside, fun h => lt_max_of_lt_right h⟩
  simp only [same]
  split <;> rfl

/-- The stack records of the folded context (R108, R109). -/
theorem stackRecord_foldedCtx {c : Context} {qs : List ChannelRecord} {ch : Nat} {q : ChannelRecord}
    (rising : c.records.Pairwise fun x y => x.1 < y.1) (found : qs[ch]? = some q) : stackRecord (foldedCtx c qs) ch =
      if outcomeOf q = some .accepted then foldRecord c.folded (c.k / 64) q (rejectedOf q) (stackRecord c ch)
      else stackRecord c ch := by
  have folded := (foldChannels_get c qs 0 c.records rising).2 ch q found
  rwa [Nat.zero_add] at folded

/-- What the check detects on a channel: an error on a value of an accepted window (R112). -/
theorem channelError_iff (c : Context) (ch : Nat) (q : ChannelRecord) : channelError c ch q = true ↔
    outcomeOf q = some .accepted ∧
      ((∃ lag ∈ (stackRecord c ch).accErr, lag / 64 < c.k / 64 ∧ lag / 64 ∉ rejectedOf q) ∨
        ∃ w ∈ (stackRecord c ch).cntErr, w < c.k / 64 ∧ w ∉ rejectedOf q) := by
  simp only [channelError, foldReadError, Bool.and_eq_true, Bool.or_eq_true, decide_eq_true_eq, List.any_eq_true, lagIn_iff,
    accepted_mem]
  rfl

/-- The channels on which the fold detects a check error, ascending. -/
def errorChannels (c : Context) (qs : List ChannelRecord) : List Nat :=
  (qs.zipIdx.filter fun p => channelError c p.2 p.1).map Prod.snd

theorem errorChannels_nodup (c : Context) (qs : List ChannelRecord) : (errorChannels c qs).Nodup := by
  have places : (qs.zipIdx.map Prod.snd).Nodup := by
    rw [List.zipIdx_map_snd]
    exact List.nodup_range'
  exact places.sublist (List.filter_sublist.map _)

theorem errorChannels_length (c : Context) (qs : List ChannelRecord) :
    (foldTotals c qs).checkErrors = (errorChannels c qs).length := by
  rw [errorChannels, List.length_map, ← List.countP_eq_length_filter]
  rfl

theorem mem_errorChannels {c : Context} {qs : List ChannelRecord} {ch : Nat} : ch ∈ errorChannels c qs ↔
    ∃ q, qs[ch]? = some q ∧ channelError c ch q = true := by
  simp only [errorChannels, List.mem_map, List.mem_filter, Prod.exists, List.mem_zipIdx_iff_getElem?, exists_eq_right]

/-! ### The steps of a completion -/

/-- SWEEP FOLDED of a record folded into a context (R115, R116). -/
def foldReport (r : SweepRecord) (c : Context) (qs : List ChannelRecord) : Report :=
  .sweepFolded r.id r.fleet r.vp r.t0 r.ctx c.gen (c.folded + 1) c.dropped (foldTotals c qs)

/-- A completion up to where the sweep has left the list, before the close condition is applied (R96, R114, R116). -/
def foldSweep (r : SweepRecord) (s : State) : State :=
  abandonJob (unlist r.id (raiseEvent .sweepFolded
    (offerReport (foldReport r (s.ctx r.ctx) s.engine.scratch) (s.withCtx r.ctx (foldedCtx (s.ctx r.ctx) s.engine.scratch)))))

theorem completeSweep_eq (r : SweepRecord) (s : State) :
    completeSweep r s = arbitrate (drainTest (applyClose r.ctx (foldSweep r s))) := rfl

theorem foldSweep_listed (r : SweepRecord) (s : State) :
    (foldSweep r s).listed = s.listed.filter fun q => decide (q.id ≠ r.id) :=
  congrArg (List.filter _) (offerReport_only _ _).listed

theorem foldSweep_clean (r : SweepRecord) {s : State} (clean : Clean s) : Clean (foldSweep r s) := by
  have folded := (quiet_ctx s r.ctx (foldedCtx (s.ctx r.ctx) s.engine.scratch) rfl [] : Quiet [] s _).clean clean
  have reported := (raise_quiet .sweepFolded _).clean
    ((offer_quiet (foldReport r (s.ctx r.ctx) s.engine.scratch) _).clean folded)
  exact (quiet_engine _ Engine.idle [] : Quiet [] _ _).clean ((quiet_unlist _ r.id [] : Quiet [] _ _).clean reported)

/-- Whatever pass the engine has run, the fold reads its scratch store alone, and leaves the engine IDLE. -/
theorem foldSweep_withEngine (r : SweepRecord) (s : State) (e : Engine) : foldSweep r (s.withEngine e) =
    ((raiseEvent .sweepFolded (offerReport (foldReport r (s.ctx r.ctx) e.scratch)
      (s.withCtx r.ctx (foldedCtx (s.ctx r.ctx) e.scratch)))).withListed
        (s.listed.filter fun q => decide (q.id ≠ r.id))).withEngine Engine.idle := by
  have listed := (offerReport_only (foldReport r (s.ctx r.ctx) e.scratch)
    (s.withCtx r.ctx (foldedCtx (s.ctx r.ctx) e.scratch))).listed
  have apart := offerReport_withEngine (foldReport r (s.ctx r.ctx) e.scratch)
    (s.withCtx r.ctx (foldedCtx (s.ctx r.ctx) e.scratch)) e
  rw [show s.listed = _ from listed.symm]
  exact (congrArg (fun u => abandonJob (unlist r.id (raiseEvent .sweepFolded u))) apart).trans rfl

/-- With distinct ids the record found for the job is the listed one of its id. -/
theorem jobRecord_found {j : Job} {r : SweepRecord} {s : State} (distinct : IdsDistinct s) (listed : r ∈ s.listed)
    (own : r.id = j.sweep.id) : (s.listed.find? fun q => decide (q.id = j.sweep.id)) = some r := by
  obtain ⟨q, found⟩ : ∃ q, (s.listed.find? fun q => decide (q.id = j.sweep.id)) = some q :=
    Option.isSome_iff_exists.mp (List.find?_isSome.mpr ⟨r, listed, decide_eq_true own⟩)
  have same : q.id = j.sweep.id := of_decide_eq_true (List.find?_some found :)
  rw [found, distinct.eq_of_id listed (List.mem_of_find?_eq_some found) (same.trans own.symm)]

/-- A completion whose records are good: the channels left are decided, and the sweep is folded (R95, R96). -/
theorem completeJob_folds {j : Job} {r : SweepRecord} {s : State} (clean : Clean s) (distinct : IdsDistinct s)
    (job : s.engine.job = some j) (pass : j.pass = .editing) (listed : r ∈ s.listed) (own : r.id = j.sweep.id) :
    completeJob s = completeSweep r (advanceJob s.channels j s) := by
  rw [completeJob_own job pass (jobRecord_found distinct listed own), clean.listed listed, clean.ctx]
  rfl

/-- Settles O52: the completion is the fold of the decided channels, then the close condition, the drain test and the engine's look. -/
theorem jobFolds : Obligations.JobFolds := by
  intro j r s free clean ordered job pass whole listed own c outcome rejected
  obtain ⟨-, -, distinct, -⟩ := ordered
  have completed := completeJob_folds clean distinct job pass listed own
  rw [completeSweep_eq] at completed
  set advanced := advanceJob s.channels j s with hadv
  have cleanW : Clean (foldSweep r advanced) := foldSweep_clean r ((quiet_engine s advanced.engine [] : Quiet [] _ _).clean clean)
  have cleanX := (applyClose_quiet r.ctx cleanW).clean cleanW
  obtain ⟨cleanY, sweeps, -⟩ := drainTest_quiet cleanX
  have apart : IdsDistinct (drainTest (applyClose r.ctx (foldSweep r advanced))) := by
    have left : (drainTest (applyClose r.ctx (foldSweep r advanced))).listed = _ :=
      (congrArg SweepList.recs sweeps).trans ((applyClose_listed r.ctx _).trans (foldSweep_listed r advanced))
    rw [IdsDistinct, left]
    exact List.Pairwise.filter _ distinct
  have last : (completeJob s).checkHit = false := ((completeJob_upholds (ok := True) s).clean trivial clean).1
  refine ⟨completeJob s, advanced.engine.scratch, foldedCtx c advanced.engine.scratch, foldTotals c advanced.engine.scratch,
    _, _, _, _, _, handle_next completeJob free last, advanceJob_decides pass whole, rfl,
    fun rising ch q found => stackRecord_foldedCtx rising found, rfl, rfl, rfl, rfl, rfl,
    ⟨errorChannels c advanced.engine.scratch, errorChannels_nodup _ _, errorChannels_length _ _, fun ch => ?_⟩,
    offerReport_offered _ _, raiseEvent_raised _ _, foldSweep_withEngine r s advanced.engine,
    applyClose_tested r.ctx cleanW, drainTest_tested cleanX, ?_⟩
  · simp only [mem_errorChannels, channelError_iff]
    rfl
  · rw [completed]
    exact arbitrate_looks cleanY apart

end Sys2Proof.Machine
end

section
/-! PROOFS. What every handling sustains: the line served, the engine, the contexts and the closing order in account with the sweep list,
and the engine's arbiter served. Here what the three read of the state, and the operations that leave the tables (R83, R84, R121, R122,
R132, R152, R153). -/

namespace Sys2Proof.Machine

/-! ### What the accounts read -/

/-- The parts of the state that the accounts of the sweep list and the engine's arbiter read: of the job its sweep alone, of the emission
its context alone. -/
structure Ledger where
  sweeps : SweepList
  worked : Option SweepRecord
  ctxs : Vector Context 4
  closing : List (Fin 4)
  emitted : Option (Fin 4)
  fleets : Vector FleetRecord 4

/-- The ledger of a state. -/
def State.ledger (s : State) : Ledger :=
  { sweeps := s.sweeps, worked := s.engine.job.map (·.sweep), ctxs := s.stack.ctxs, closing := s.emitter.closing
    emitted := s.emitter.cursor.map (·.ctx), fleets := s.fleets }

section ledger

variable {s t : State} (h : t.ledger = s.ledger)
include h

theorem sweeps_of_ledger : t.sweeps = s.sweeps := congrArg Ledger.sweeps h
theorem listed_of_ledger : t.listed = s.listed := congrArg SweepList.recs (sweeps_of_ledger h)
theorem worked_of_ledger : t.engine.job.map (·.sweep) = s.engine.job.map (·.sweep) := congrArg Ledger.worked h
theorem ctx_of_ledger (i : Fin 4) : t.ctx i = s.ctx i := congrArg (fun v => v.ctxs[i.val]) h
theorem closing_of_ledger : t.emitter.closing = s.emitter.closing := congrArg Ledger.closing h
theorem emitted_of_ledger : t.emitter.cursor.map (·.ctx) = s.emitter.cursor.map (·.ctx) := congrArg Ledger.emitted h
theorem fleet_of_ledger (f : Fin 4) : t.fleet f = s.fleet f := congrArg (fun v => v.fleets[f.val]) h

end ledger

theorem OnlyLinkLines.ledger {s t : State} (h : OnlyLinkLines s t) : t.ledger = s.ledger := by rw [h]; rfl

theorem engineMatches_iff (s : State) : EngineMatches s ↔
    (∀ q, s.engine.job.map (·.sweep) = some q → ∃ r ∈ s.listed, r.id = q.id ∧ r.state = .correlating) ∧
    ∀ r ∈ s.listed, r.state = .correlating → ∃ q, s.engine.job.map (·.sweep) = some q ∧ q.id = r.id := by
  simp [EngineMatches, Option.map_eq_some_iff]

theorem closingMatches_iff (s : State) : ClosingMatches s ↔ (∀ i, i ∈ s.emitter.closing ↔ (s.ctx i).state = .closing) ∧
    s.emitter.closing.Nodup ∧ ∀ i, s.emitter.cursor.map (·.ctx) = some i → s.emitter.closing.head? = some i := by
  simp [ClosingMatches, Option.map_eq_some_iff]

/-- The accounts: the list's bounds, the engine, the attached counts and the closing order in account with it, and, where `ok` holds, the
budgets of the contexts with the fold targets that new ones take (R62, R67, R83, R121, R122, R132). -/
structure Accounts (ok : Prop) (s : State) : Prop where
  ordered : ListOrdered s
  engine : EngineMatches s
  attached : Attached s
  closing : ClosingMatches s
  targets : ok → ∀ f, 1 ≤ (s.fleet f).target
  budget : ok → Budgeted s

theorem Accounts.distinct {ok : Prop} {s : State} (h : Accounts ok s) : IdsDistinct s := h.ordered.2.2.1

theorem EngineMatches.of_ledger {s t : State} (h : EngineMatches s) (e : t.ledger = s.ledger) : EngineMatches t := by
  rw [engineMatches_iff] at h ⊢
  rwa [worked_of_ledger e, listed_of_ledger e]

theorem Attached.of_ledger {s t : State} (h : Attached s) (e : t.ledger = s.ledger) : Attached t := by
  unfold Attached at h ⊢
  simpa only [listed_of_ledger e, ctx_of_ledger e] using h

theorem ClosingMatches.of_ledger {s t : State} (h : ClosingMatches s) (e : t.ledger = s.ledger) : ClosingMatches t := by
  rw [closingMatches_iff] at h ⊢
  simpa only [closing_of_ledger e, emitted_of_ledger e, ctx_of_ledger e] using h

theorem Budgeted.of_ledger {s t : State} (h : Budgeted s) (e : t.ledger = s.ledger) : Budgeted t := by
  unfold Budgeted CollectsVp at h ⊢
  simpa only [ctx_of_ledger e] using h

theorem Accounts.of_ledger {ok : Prop} {s t : State} (h : Accounts ok s) (e : t.ledger = s.ledger) : Accounts ok t :=
  ⟨h.ordered.of_sweeps (sweeps_of_ledger e), h.engine.of_ledger e, h.attached.of_ledger e, h.closing.of_ledger e,
    fun k f => (fleet_of_ledger e f).symm ▸ h.targets k f, fun k => (h.budget k).of_ledger e⟩

theorem ArbiterServed.of_ledger {s t : State} (h : ArbiterServed s) (e : t.ledger = s.ledger) : ArbiterServed t := by
  have busy : t.engine.job.isSome = s.engine.job.isSome := by
    simpa only [Option.isSome_map] using congrArg Option.isSome (worked_of_ledger e)
  unfold ArbiterServed at h ⊢
  rwa [busy, listed_of_ledger e]

/-! ### What the line reads -/

/-- With the line free nothing waits to be sent: no entry in the queue and no pending TRACE (R152, R153). -/
def NothingWaits (s : State) : Prop :=
  s.lineFree = true → s.link.notices = [] ∧ ∀ cu, s.emitter.cursor = some cu → cu.waiting = none

theorem lineServed_iff (s : State) : LineServed s ↔ s.checkHit = false ∧ NothingWaits s := by
  unfold LineServed NothingWaits
  rw [lineFree_iff, LineFree]
  exact and_congr_right fun clear => by simp [clear]

/-- The parts of the state that say whether something waits to be sent. -/
structure Outbox where
  held : Bool
  checkHit : Bool
  sending : Option TxMessage
  inputs : Vector InputEntry 4
  pins : Vector Bool 4
  notices : List Notice
  pending : Option Trace

/-- The outbox of a state. -/
def State.outbox (s : State) : Outbox :=
  { held := s.mode.held, checkHit := s.checkHit, sending := s.link.tx, inputs := s.router.inputs, pins := s.router.pins
    notices := s.link.notices, pending := s.emitter.cursor.bind (·.waiting) }

theorem nothingWaits_iff (s : State) : NothingWaits s ↔
    (s.lineFree = true → s.link.notices = [] ∧ s.emitter.cursor.bind (·.waiting) = none) := by
  unfold NothingWaits
  cases s.emitter.cursor <;> simp

theorem NothingWaits.of_outbox {s t : State} (h : NothingWaits s) (e : t.outbox = s.outbox) : NothingWaits t := by
  rw [nothingWaits_iff] at h ⊢
  rwa [show t.lineFree = s.lineFree from lineFree_congr (congrArg Outbox.held e) (congrArg Outbox.checkHit e) (congrArg Outbox.sending e)
      (transmitHold_congr (congrArg Outbox.inputs e) (congrArg Outbox.pins e)),
    show t.link.notices = s.link.notices from congrArg Outbox.notices e,
    show t.emitter.cursor.bind (·.waiting) = s.emitter.cursor.bind (·.waiting) from congrArg Outbox.pending e]

/-- A line that is not free can start nothing. -/
theorem NothingWaits.of_busy {s : State} (h : ¬ LineFree s) : NothingWaits s := fun free => absurd ((lineFree_iff s).mp free) h

theorem not_lineFree_of_sending {s : State} {m : TxMessage} (h : s.link.tx = some m) : ¬ LineFree s :=
  fun free => nomatch h.symm.trans free.2.2.1

theorem not_lineFree_of_hit {s : State} (h : s.checkHit = true) : ¬ LineFree s := fun free => nomatch h.symm.trans free.2.1

theorem OnlyLinkLines.lineFree_iff {s t : State} (h : OnlyLinkLines s t) (tx : t.link.tx = s.link.tx) : LineFree t ↔ LineFree s := by
  unfold LineFree
  rw [h.mode, h.checkHit, tx, h.transmitHold]

/-- An entry placed on a free line with an empty queue is started, and on a line that is not free it waits for it. -/
theorem placeNotice_waits (n : Notice) {s : State} (h : s.lineFree = true → s.link.notices = []) : NothingWaits (placeNotice n s) := by
  refine .of_busy ?_
  have link := placeNotice_link n s
  by_cases free : LineFree s
  · obtain ⟨held, clear, tx, hold⟩ := id free
    have started : joined s n s.link = { s.link with tx := some (.notice n) } :=
      if_pos ⟨held, clear, hold, tx, h ((Machine.lineFree_iff s).mpr free)⟩
    exact not_lineFree_of_sending (m := .notice n) (by rw [link, started])
  · have kept : (joined s n s.link).tx = s.link.tx := by
      rw [joined, if_neg fun k => free ⟨k.1, k.2.1, k.2.2.2.1, k.2.2.1⟩]
    rwa [(placeNotice_only n s).lineFree_iff (by rw [link, kept])]

theorem NothingWaits.place {s : State} (h : NothingWaits s) (n : Notice) : NothingWaits (placeNotice n s) :=
  placeNotice_waits n fun free => (h free).1

theorem NothingWaits.lose {s : State} (h : NothingWaits s) : NothingWaits (loseReport s) := h.of_outbox rfl

theorem NothingWaits.enqueue {s : State} (h : NothingWaits s) (r : Report) : NothingWaits (admitReport r s) := by
  unfold admitReport
  split
  · exact h.place _
  · exact h.lose

theorem NothingWaits.offer {s : State} (h : NothingWaits s) (r : Report) : NothingWaits (offerReport r s) := by
  unfold offerReport
  split
  · exact h
  split
  · exact h.lose
  split
  · exact h.place _
  · refine NothingWaits.enqueue ?_ r
    exact (h.place (.report 0 (.reportsLost s.link.lost))).of_outbox rfl

/-- Where the arbiter has decided nothing waits. -/
theorem decideLine_waits (s : State) : NothingWaits (decideLine s) := by
  rcases decideLine_decided s with ⟨busy, e⟩ | ⟨-, n, rest, -, departed⟩ | ⟨-, empty, none, e⟩ | ⟨-, -, cu, tr, -, -, e⟩
  · rw [e]
    exact .of_busy busy
  · refine .of_busy (not_lineFree_of_sending (m := .notice n) ?_)
    dsimp only at departed
    split at departed
    · rw [(Fell.only departed).2.1]; rfl
    · rw [departed]; rfl
  · rw [e]
    exact fun _ => ⟨empty, none⟩
  · rw [e]
    exact .of_busy (not_lineFree_of_sending (m := .trace tr) rfl)

/-- A hold looked at again after a change of the router leaves nothing waiting. -/
theorem NothingWaits.holdChanged {s : State} (h : NothingWaits s) (r : Router) : NothingWaits (holdChanged s (s.withRouter r)) := by
  unfold Machine.holdChanged
  split
  · exact decideLine_waits _
  · next still =>
    intro free
    have hold : (s.withRouter r).transmitHold = false := ((Machine.lineFree_iff _).mp free).2.2.2
    obtain ⟨held, clear, tx, -⟩ := (Machine.lineFree_iff _).mp free
    have before : s.transmitHold = false := Bool.eq_false_of_not_eq_true fun up => still ⟨up, hold⟩
    exact h ((Machine.lineFree_iff s).mpr ⟨held, clear, tx, before⟩)

/-! ### The relation -/

/-- What a change from `s` to `t` sustains: nothing waiting on a free line, the accounts, and, where `calm` holds, the engine's arbiter
served. A change is not calm when it can leave the engine IDLE or a sweep READY, so that the arbiter has to look. -/
structure Sustains (calm ok : Prop) (s t : State) : Prop where
  line : NothingWaits s → NothingWaits t
  accounts : Accounts ok s → Accounts ok t
  engine : calm → ArbiterServed s → ArbiterServed t

variable {calm ok : Prop}

theorem Sustains.refl (s : State) : Sustains calm ok s s := ⟨id, id, fun _ => id⟩

theorem Sustains.trans {s t u : State} (h : Sustains calm ok s t) (k : Sustains calm ok t u) : Sustains calm ok s u :=
  ⟨k.line ∘ h.line, k.accounts ∘ h.accounts, fun c => k.engine c ∘ h.engine c⟩

/-- A change of none of the tables. -/
theorem Sustains.of_ledger {s t : State} (ledger : t.ledger = s.ledger) (line : NothingWaits s → NothingWaits t) :
    Sustains calm ok s t := ⟨line, fun h => h.of_ledger ledger, fun _ h => h.of_ledger ledger⟩

/-- A change of neither the tables nor the line. -/
theorem Sustains.of_same {s t : State} (ledger : t.ledger = s.ledger) (outbox : t.outbox = s.outbox) : Sustains calm ok s t :=
  .of_ledger ledger fun h => h.of_outbox outbox

/-- A fold sustains what each of its turns does. -/
theorem foldl_sustains {α : Type} {g : State → α → State} (turn : ∀ s a, Sustains calm ok s (g s a)) (l : List α) (s : State) :
    Sustains calm ok s (l.foldl g s) := by
  induction l generalizing s with
  | nil => exact .refl s
  | cons a l ih => exact (turn s a).trans (ih (g s a))

/-! ### Operations that leave the tables -/

theorem markHit_sustains (bad : Bool) (s : State) : Sustains calm ok s (markHit bad s) := by
  cases bad with
  | false => exact .refl s
  | true => exact .of_ledger rfl fun _ => .of_busy (not_lineFree_of_hit rfl)

theorem mapOutputs_sustains (g : OutputEntry → OutputEntry) (s : State) : Sustains calm ok s (s.mapOutputs g) := .of_same rfl rfl

theorem raiseEvent_sustains (src : Source) (s : State) : Sustains calm ok s (raiseEvent src s) := .of_same rfl rfl

theorem placeReply_sustains (f : RxFrame) (st : Status) (c : List Byte) (s : State) : Sustains calm ok s (placeReply f st c s) :=
  .of_ledger (placeReply_only f st c s).ledger fun h => h.place _

theorem offerReport_sustains (r : Report) (s : State) : Sustains calm ok s (offerReport r s) :=
  .of_ledger (offerReport_only r s).ledger fun h => h.offer r

theorem vpDone_sustains (i : Fin 4) (traces : Nat) (s : State) : Sustains calm ok s (vpDone i traces s) :=
  (offerReport_sustains _ s).trans (raiseEvent_sustains _ _)

theorem setLock_sustains (l : LockState) (s : State) : Sustains calm ok s (setLock l s) := by
  have only := setLock_only l s
  refine .of_same only.ledger ?_
  rw [only]
  simp only [State.outbox, setLock_link]
  rfl

theorem setOp_sustains (o : OpState) (d : Option DrainMode) (s : State) : Sustains calm ok s (setOp o d s) := by
  have only := setOp_only o d s
  refine .of_same only.ledger ?_
  rw [only]
  simp only [State.outbox, setOp_link]
  rfl

theorem decideLine_ledger (s : State) : (decideLine s).ledger = s.ledger := by
  rcases decideLine_decided s with ⟨-, e⟩ | ⟨-, n, rest, -, departed⟩ | ⟨-, -, -, e⟩ | ⟨-, -, cu, tr, cursor, -, e⟩
  · rw [e]
  · dsimp only at departed
    split at departed
    · rw [(Fell.only departed).1.ledger]; rfl
    · rw [departed]; rfl
  · rw [e]
  · rw [e]
    simp only [State.ledger, State.withEmitter_emitter, cursor]
    split <;> rfl

theorem decideLine_sustains (s : State) : Sustains calm ok s (decideLine s) := .of_ledger (decideLine_ledger s) fun _ => decideLine_waits s

theorem holdChanged_sustains (s : State) (r : Router) : Sustains calm ok s (holdChanged s (s.withRouter r)) := by
  refine .of_ledger ?_ fun h => h.holdChanged r
  unfold holdChanged
  split
  · exact decideLine_ledger _
  · rfl

theorem setPin_sustains (line : Fin 4) (level : Bool) (s : State) : Sustains calm ok s (setPin line level s) := holdChanged_sustains s _

end Sys2Proof.Machine
end

section
/-! PROOFS. The accounts through each change of the sweep list, the engine and a context: what the change has to keep for the engine, the
attached counts, the closing order and the budgets to stay in account with the list (R83, R121, R122, R132). -/

namespace Sys2Proof.Machine

variable {ok : Prop} {s t : State} {i : Fin 4}

/-! ### Counting the sweeps of a context -/

/-- The listed sweeps attached to a context. -/
def State.count (s : State) (i : Fin 4) : Nat := s.listed.countP fun r => decide (r.ctx = i)

/-- The context collects sweeps: OPEN or CLOSE PENDING (R121). -/
def Collecting (c : Context) : Prop := c.state = .opened ∨ c.state = .closePending

/-- No listed sweep is attached to the context. -/
def Unlisted (i : Fin 4) (s : State) : Prop := ∀ r ∈ s.listed, r.ctx ≠ i

theorem count_eq_zero : s.count i = 0 ↔ Unlisted i s := by simp [State.count, Unlisted, List.countP_eq_zero]

theorem Collecting.not_closing {c : Context} (h : Collecting c) : c.state ≠ .closing := by
  rintro e
  rcases h with h | h <;> rw [e] at h <;> cases h

theorem attached_iff (s : State) : Attached s ↔ (∀ r ∈ s.listed, Collecting (s.ctx r.ctx)) ∧ ∀ i, (s.ctx i).attached = s.count i :=
  Iff.rfl

theorem Attached.unlisted (h : Attached s) (zero : (s.ctx i).attached = 0) : Unlisted i s := count_eq_zero.mp ((h.2 i).symm.trans zero)

/-- No sweep is attached to a context that does not collect. -/
theorem Attached.unlisted_of_state (h : Attached s) (state : ¬ Collecting (s.ctx i)) : Unlisted i s :=
  fun r hr e => state (e ▸ h.1 r hr)

/-! ### A change of one context -/

theorem ctx_withCtx_other (c : Context) {j : Fin 4} (h : j ≠ i) : (s.withCtx i c).ctx j = s.ctx j := s.ctx_withCtx_ne h c

/-- The counts stay right where one context changes to `c`, its count with its sweeps and its state only while none is attached. -/
theorem Attached.of_change (h : Attached s) {c : Context} (listed : t.listed = s.listed) (own : t.ctx i = c)
    (others : ∀ j, j ≠ i → t.ctx j = s.ctx j) (count : c.attached = (s.ctx i).attached) (state : Unlisted i s ∨ Collecting c) :
    Attached t := by
  rw [attached_iff] at h ⊢
  rw [listed]
  refine ⟨fun r hr => ?_, fun j => ?_⟩
  · by_cases e : r.ctx = i
    · rw [e, own]
      exact state.resolve_left fun none => none r hr e
    · rw [others _ e]
      exact h.1 r hr
  · rw [State.count, listed]
    by_cases e : j = i
    · rw [e, own, count]
      exact h.2 i
    · rw [others j e]
      exact h.2 j

/-- The budgets stay kept where one context changes to `c` within its own, and collects no VP that another collects. -/
theorem Budgeted.of_change (h : Budgeted s) {c : Context} (own : t.ctx i = c) (others : ∀ j, j ≠ i → t.ctx j = s.ctx j)
    (fits : c.attached + c.folded + c.dropped ≤ c.target)
    (vp : Collecting c → CollectsVp s c.vp i ∨ ∀ j, ¬ CollectsVp s c.vp j) : Budgeted t := by
  have other {v : VpId} {j : Fin 4} (e : j ≠ i) : CollectsVp t v j ↔ CollectsVp s v j := by rw [CollectsVp, others j e]; rfl
  have alone {v : VpId} {j : Fin 4} (hi : CollectsVp t v i) (hj : CollectsVp t v j) : j = i := by
    by_contra e
    have hj := (other e).mp hj
    obtain ⟨collects, rfl⟩ : Collecting c ∧ c.vp = v := by rwa [CollectsVp, own] at hi
    rcases vp collects with same | none
    · exact e (h.2 _ j i hj same)
    · exact none j hj
  refine ⟨fun j => ?_, fun v j k hj hk => ?_⟩
  · by_cases e : j = i
    · rw [e, own]
      exact fits
    · rw [others j e]
      exact h.1 j
  · by_cases ej : j = i
    · subst ej
      exact (alone hj hk).symm
    · by_cases ek : k = i
      · subst ek
        exact alone hk hj
      · exact h.2 v j k ((other ej).mp hj) ((other ek).mp hk)

/-- The closing order stays right where the emitter stands and no context closes or leaves CLOSING. -/
theorem ClosingMatches.of_states (h : ClosingMatches s) (emitter : t.emitter = s.emitter)
    (states : ∀ j, (t.ctx j).state = .closing ↔ (s.ctx j).state = .closing) : ClosingMatches t := by
  unfold ClosingMatches at h ⊢
  rw [emitter]
  exact ⟨fun j => (h.1 j).trans (states j).symm, h.2⟩

/-- A context changes that neither closes nor leaves CLOSING. -/
theorem Accounts.withCtx (h : Accounts ok s) {c : Context} (count : c.attached = (s.ctx i).attached)
    (state : Unlisted i s ∨ Collecting c) (closing : c.state = .closing ↔ (s.ctx i).state = .closing)
    (fits : ok → c.attached + c.folded + c.dropped ≤ c.target) (vp : Collecting c → CollectsVp s c.vp i) :
    Accounts ok (s.withCtx i c) := by
  have own : (s.withCtx i c).ctx i = c := s.ctx_withCtx i c
  have others (j : Fin 4) (e : j ≠ i) : (s.withCtx i c).ctx j = s.ctx j := ctx_withCtx_other c e
  refine ⟨h.ordered, h.engine, h.attached.of_change rfl own others count state, h.closing.of_states rfl fun j => ?_, h.targets,
    fun k => (h.budget k).of_change own others (fits k) fun collects => .inl (vp collects)⟩
  rw [State.ctx_withCtx_cases]
  split
  · next e => rw [e, closing]
  · rfl

/-- The emitter changes under a closing order that matches. -/
theorem Accounts.withEmitter (h : Accounts ok s) {e : Emitter} (closing : ClosingMatches (s.withEmitter e)) :
    Accounts ok (s.withEmitter e) := ⟨h.ordered, h.engine, h.attached, closing, h.targets, h.budget⟩

/-- An OPEN context becomes CLOSE PENDING. -/
theorem Accounts.pend (h : Accounts ok s) (state : (s.ctx i).state = .opened) :
    Accounts ok (s.withCtx i { s.ctx i with state := .closePending }) :=
  h.withCtx rfl (.inr (.inr rfl)) (by simp [state]) (fun k => (h.budget k).1 i) fun _ => ⟨.inl state, rfl⟩

theorem freeCtx_ledger (i : Fin 4) (s : State) : (freeCtx i s).ledger = (s.withCtx i (Context.freed (s.ctx i).gen)).ledger := rfl

theorem not_collecting_freed (gen : BitVec 8) : ¬ Collecting (Context.freed gen) := fun c => c.elim (nomatch ·) (nomatch ·)

/-- A FREE context counts no sweep, as none is attached to it. -/
theorem Attached.freed (h : Attached s) (none : Unlisted i s) (gen : BitVec 8) : (Context.freed gen).attached = (s.ctx i).attached :=
  ((h.2 i).trans (count_eq_zero.mpr none)).symm

/-- A context that is not CLOSING and has no sweep attached becomes FREE. -/
theorem Accounts.free (h : Accounts ok s) (state : (s.ctx i).state ≠ .closing) (none : Unlisted i s) : Accounts ok (freeCtx i s) := by
  refine Accounts.of_ledger ?_ (freeCtx_ledger i s)
  exact h.withCtx (h.attached.freed none _) (.inl none) (iff_of_false (nomatch ·) state) (fun _ => le_refl 0)
    fun c => absurd c (not_collecting_freed _)

/-- A collecting context without sweeps attached becomes CLOSING at the tail of the closing order. -/
theorem Accounts.close (h : Accounts ok s) (state : Collecting (s.ctx i)) (none : Unlisted i s) :
    Accounts ok ((s.withCtx i { s.ctx i with state := .closing }).withEmitter
      { s.emitter with closing := s.emitter.closing ++ [i] }) := by
  set c : Context := { s.ctx i with state := .closing } with hc
  set t := (s.withCtx i c).withEmitter { s.emitter with closing := s.emitter.closing ++ [i] } with ht
  have own : t.ctx i = c := s.ctx_withCtx i c
  have others (j : Fin 4) (e : j ≠ i) : t.ctx j = s.ctx j := ctx_withCtx_other c e
  obtain ⟨members, nodup, head⟩ := h.closing
  have new : i ∉ s.emitter.closing := fun mem => state.not_closing ((members i).mp mem)
  refine ⟨h.ordered, h.engine, h.attached.of_change rfl own others rfl (.inl none), ⟨fun j => ?_, ?_, fun cu hcu => ?_⟩, h.targets,
    fun k => (h.budget k).of_change own others ((h.budget k).1 i) fun c => c.elim (nomatch ·) (nomatch ·)⟩
  · rw [ht, State.withEmitter_emitter, List.mem_append, List.mem_singleton, members j]
    by_cases e : j = i
    · rw [e, ← ht, own]
      exact iff_of_true (.inr rfl) rfl
    · rw [← ht, others j e, or_iff_left e]
  · exact List.Nodup.append nodup (List.nodup_singleton i) (List.disjoint_singleton.mpr new)
  · rw [ht, State.withEmitter_emitter, List.head?_append, head cu hcu]
    rfl

/-! ### The emissions -/

/-- The emitter, IDLE before, stands on the head of the closing order or stays IDLE. -/
theorem emitterBegin_ledger (idle : s.emitter.cursor = none) : ∃ cursor : Option Cursor,
    (emitterBegin s).ledger = (s.withEmitter { s.emitter with cursor := cursor }).ledger ∧
    ∀ cu, cursor = some cu → s.emitter.closing.head? = some cu.ctx := by
  unfold emitterBegin
  split
  · exact ⟨none, rfl, fun _ h => nomatch h⟩
  · next i l order =>
    split
    · exact ⟨s.emitter.cursor, rfl, fun _ h => nomatch idle.symm.trans h⟩
    · refine ⟨some { ctx := i, next := 0, waiting := none, sending := false, sent := 0 }, ?_, fun cu h => ?_⟩
      · rw [decideLine_ledger]
        unfold prepareTrace
        split <;> rfl
      · cases h
        rw [order]
        rfl

theorem Accounts.emitterBegin (h : Accounts ok s) (idle : s.emitter.cursor = none) : Accounts ok (emitterBegin s) := by
  obtain ⟨cursor, ledger, head⟩ := emitterBegin_ledger idle
  exact (h.withEmitter (e := { s.emitter with cursor := cursor }) ⟨h.closing.1, h.closing.2.1, head⟩).of_ledger ledger

/-- The emission of the head of the closing order ends: its context becomes FREE and leaves the order. -/
theorem Accounts.finish (h : Accounts ok s) {cu : Cursor} (cursor : s.emitter.cursor = some cu) :
    Accounts ok ((freeCtx cu.ctx s).withEmitter { closing := s.emitter.closing.tail, cursor := none }) := by
  obtain ⟨members, nodup, head⟩ := h.closing
  obtain ⟨rest, order⟩ : ∃ rest, s.emitter.closing = cu.ctx :: rest := by
    have first := head cu cursor
    cases e : s.emitter.closing with
    | nil => rw [e] at first; cases first
    | cons j rest => rw [e] at first; cases first; exact ⟨rest, rfl⟩
  have closed : (s.ctx cu.ctx).state = .closing := (members cu.ctx).mp (order ▸ .head rest)
  have none : Unlisted cu.ctx s := h.attached.unlisted_of_state fun c => c.not_closing closed
  set t := (freeCtx cu.ctx s).withEmitter { closing := s.emitter.closing.tail, cursor := Option.none } with ht
  have own : t.ctx cu.ctx = Context.freed (s.ctx cu.ctx).gen := freeCtx_ctx cu.ctx s
  have others (j : Fin 4) (e : j ≠ cu.ctx) : t.ctx j = s.ctx j := freeCtx_other s e
  have left : t.emitter.closing = rest := congrArg List.tail order
  rw [order, List.nodup_cons] at nodup
  refine ⟨h.ordered, h.engine, h.attached.of_change rfl own others (h.attached.freed none _) (.inl none),
    ⟨fun j => ?_, left ▸ nodup.2, fun _ hcu => nomatch hcu⟩, h.targets,
    fun k => (h.budget k).of_change own others (le_refl 0) fun c => absurd c (not_collecting_freed _)⟩
  rw [left]
  by_cases e : j = cu.ctx
  · rw [e, own]
    exact iff_of_false nodup.1 (nomatch ·)
  · rw [others j e, ← members j, order, List.mem_cons, or_iff_right e]

/-! ### The list -/

/-- The states and compare points of listed sweeps change, none becoming or ceasing to be CORRELATING. -/
theorem Accounts.relist (h : Accounts ok s) {g : SweepRecord → SweepRecord} (same : ∀ r, SameSweep r (g r))
    (busy : ∀ r ∈ s.listed, (g r).state = .correlating ↔ r.state = .correlating) : Accounts ok (s.withListed (s.listed.map g)) := by
  have id (r : SweepRecord) : (g r).id = r.id := by rw [same r]
  have ctx (r : SweepRecord) : (g r).ctx = r.ctx := by rw [same r]
  have t0 (r : SweepRecord) : (g r).t0 = r.t0 := by rw [same r]
  refine ⟨h.ordered.relabel fun r => ⟨id r, t0 r⟩, ⟨fun j hj => ?_, fun r hr hs => ?_⟩, ⟨fun r hr => ?_, fun i => ?_⟩, h.closing, h.targets,
    h.budget⟩
  · obtain ⟨r, hr, own, state⟩ := h.engine.1 j hj
    exact ⟨g r, List.mem_map_of_mem hr, (id r).trans own, (busy r hr).mpr state⟩
  · obtain ⟨q, hq, rfl⟩ := List.mem_map.mp hr
    obtain ⟨j, hj, own⟩ := h.engine.2 q hq ((busy q hq).mp hs)
    exact ⟨j, hj, own.trans (id q).symm⟩
  · obtain ⟨q, hq, rfl⟩ := List.mem_map.mp hr
    rw [ctx]
    exact h.attached.1 q hq
  · have counts : (s.listed.map g).countP (fun r => decide (r.ctx = i)) = s.count i := by
      rw [List.countP_map, State.count]
      exact List.countP_congr fun r _ => by simp [ctx]
    exact (h.attached.2 i).trans counts.symm

/-- The engine, IDLE before, begins a listed sweep, which becomes CORRELATING (R86). -/
theorem Accounts.begin (h : Accounts ok s) (idle : s.engine.job = none) {r : SweepRecord} (listed : r ∈ s.listed) :
    Accounts ok (beginJob r s) := by
  set g : SweepRecord → SweepRecord := fun q => if q.id = r.id then { q with state := .correlating } else q with hg
  have id (q : SweepRecord) : (g q).id = q.id := by simp only [hg]; split <;> rfl
  have ctx (q : SweepRecord) : (g q).ctx = q.ctx := by simp only [hg]; split <;> rfl
  have marked : (beginJob r s).listed = s.listed.map g := rfl
  refine ⟨beginJob_ordered r h.ordered, ⟨fun j hj => ?_, fun q hq hs => ⟨_, rfl, ?_⟩⟩, ⟨fun q hq => ?_, fun i => ?_⟩, h.closing, h.targets,
    h.budget⟩
  · cases hj
    exact ⟨g r, marked ▸ List.mem_map_of_mem listed, id r, by simp [hg]⟩
  · obtain ⟨x, hx, rfl⟩ := List.mem_map.mp (marked ▸ hq)
    rw [id]
    by_contra other
    have state : x.state = .correlating := by
      have unmarked : g x = x := if_neg fun e => other e.symm
      rwa [unmarked] at hs
    obtain ⟨j, hj, -⟩ := h.engine.2 x hx state
    rw [idle] at hj
    cases hj
  · obtain ⟨x, hx, rfl⟩ := List.mem_map.mp (marked ▸ hq)
    rw [ctx]
    exact h.attached.1 x hx
  · rw [marked, List.countP_map]
    exact (h.attached.2 i).trans (List.countP_congr fun q _ => by simp [ctx])

/-- A listed sweep leaves the list and its context's attached count for one of the others, the job with it if it is the job's (R77, R96,
R98, R114). -/
theorem Accounts.leave (h : Accounts ok s) {r : SweepRecord} (listed : r ∈ s.listed) {e : Engine} {c : Context}
    (job : e.job = if r.state = .correlating then none else s.engine.job)
    (count : c.attached = (s.ctx r.ctx).attached - 1) (state : c.state = (s.ctx r.ctx).state) (vp : c.vp = (s.ctx r.ctx).vp)
    (target : c.target = (s.ctx r.ctx).target) (total : c.folded + c.dropped = (s.ctx r.ctx).folded + (s.ctx r.ctx).dropped + 1) :
    Accounts ok (((s.withListed (s.listed.filter fun q => decide (q.id ≠ r.id))).withEngine e).withCtx r.ctx c) := by
  set t := ((s.withListed (s.listed.filter fun q => decide (q.id ≠ r.id))).withEngine e).withCtx r.ctx c with ht
  have left : t.listed = s.listed.filter fun q => decide (q.id ≠ r.id) := rfl
  have own : t.ctx r.ctx = c := State.ctx_withCtx _ _ _
  have others (j : Fin 4) (ne : j ≠ r.ctx) : t.ctx j = s.ctx j := ctx_withCtx_other c ne
  have mem {q : SweepRecord} (hq : q ∈ t.listed) : q ∈ s.listed ∧ q.id ≠ r.id := by
    obtain ⟨hq, ne⟩ := List.mem_filter.mp (left ▸ hq)
    exact ⟨hq, of_decide_eq_true ne⟩
  have counts (j : Fin 4) : t.count j = s.count j - if r.ctx = j then 1 else 0 := countP_without h.distinct listed
  have positive : 1 ≤ (s.ctx r.ctx).attached := by
    rw [h.attached.2 r.ctx]
    exact List.countP_pos_iff.mpr ⟨r, listed, decide_eq_true rfl⟩
  refine ⟨h.ordered.thin fun q => decide (q.id ≠ r.id), ⟨fun j hj => ?_, fun q hq hs => ?_⟩, ⟨fun q hq => ?_, fun j => ?_⟩,
    h.closing.of_states rfl fun j => ?_, h.targets, fun k => (h.budget k).of_change own others ?_ fun collects => .inl ⟨?_, vp.symm⟩⟩
  · rw [show t.engine = e from rfl, job] at hj
    split at hj
    · cases hj
    · next idle =>
      obtain ⟨q, hq, same, state⟩ := h.engine.1 j hj
      refine ⟨q, left ▸ List.mem_filter.mpr ⟨hq, decide_eq_true fun eq => idle ?_⟩, same, state⟩
      exact h.distinct.eq_of_id listed hq eq ▸ state
  · obtain ⟨hq, ne⟩ := mem hq
    obtain ⟨j, hj, same⟩ := h.engine.2 q hq hs
    refine ⟨j, ?_, same⟩
    rw [show t.engine = e from rfl, job, if_neg fun busy => ?_]
    · exact hj
    · obtain ⟨k, hk, own⟩ := h.engine.2 r listed busy
      cases hj.symm.trans hk
      exact ne (same.symm.trans own)
  · have collects := h.attached.1 q (mem hq).1
    by_cases eq : q.ctx = r.ctx
    · rw [eq] at collects ⊢
      rwa [own, state]
    · rwa [others _ eq]
  · show (t.ctx j).attached = t.count j
    rw [counts]
    by_cases eq : j = r.ctx
    · rw [eq, own, count, h.attached.2 r.ctx, if_pos rfl]
      rfl
    · rw [others j eq, if_neg fun e => eq e.symm]
      exact h.attached.2 j
  · by_cases eq : j = r.ctx
    · rw [eq, own, state]
    · rw [others j eq]
  · have fits := (h.budget k).1 r.ctx
    omega
  · rwa [Collecting, state] at collects

/-- A sweep enters a list with a free place, and its context's attached count with it (R67, R121, R123). -/
theorem Accounts.enter (h : Accounts ok s) (room : s.listed.length < 16) {r : SweepRecord} (waits : r.state ≠ .correlating) {c : Context}
    (count : c.attached = (s.ctx r.ctx).attached + 1) (opened : c.state = .opened) (unclosed : (s.ctx r.ctx).state ≠ .closing)
    (fits : ok → c.attached + c.folded + c.dropped ≤ c.target)
    (vp : ok → CollectsVp s c.vp r.ctx ∨ ∀ j, ¬ CollectsVp s c.vp j) : Accounts ok (listSweep r (s.withCtx r.ctx c)).1 := by
  obtain ⟨-, -, listed⟩ := listSweep_lists (u := s.withCtx r.ctx c) r rfl
  set t := (listSweep r (s.withCtx r.ctx c)).1 with ht
  have own : t.ctx r.ctx = c := State.ctx_withCtx _ _ _
  have others (j : Fin 4) (ne : j ≠ r.ctx) : t.ctx j = s.ctx j := ctx_withCtx_other c ne
  have inserted := insertSweep_insertedAt
    { r with id := freeId ((s.withCtx r.ctx c).listed.map (·.id)) 16 (s.withCtx r.ctx c).sweeps.nextId } (s.withCtx r.ctx c).listed
  rw [← listed] at inserted
  obtain ⟨a, b, before, after, -, -⟩ := inserted
  rw [State.withCtx_listed] at before
  have mem {q : SweepRecord} (hq : q ∈ t.listed) : (q.ctx = r.ctx ∧ q.state = r.state) ∨ q ∈ s.listed := by
    rw [after, List.mem_append, List.mem_cons] at hq
    rw [before, List.mem_append]
    rcases hq with hq | rfl | hq
    · exact .inr (.inl hq)
    · exact .inl ⟨rfl, rfl⟩
    · exact .inr (.inr hq)
  have counts (j : Fin 4) : t.count j = s.count j + if r.ctx = j then 1 else 0 := by
    unfold State.count
    rw [before, after]
    simp only [List.countP_append, List.countP_cons, decide_eq_true_iff]
    omega
  have kept {q : SweepRecord} (hq : q ∈ s.listed) : q ∈ t.listed := by
    rw [before, List.mem_append] at hq
    rw [after, List.mem_append, List.mem_cons]
    exact hq.imp_right .inr
  refine ⟨ListOrdered.list (s := s.withCtx r.ctx c) h.ordered room r, ⟨fun j hj => ?_, fun q hq hs => ?_⟩, ⟨fun q hq => ?_, fun j => ?_⟩,
    h.closing.of_states rfl fun j => ?_, h.targets, fun k => (h.budget k).of_change own others (fits k) fun _ => vp k⟩
  · obtain ⟨q, hq, same⟩ := h.engine.1 j hj
    exact ⟨q, kept hq, same⟩
  · rcases mem hq with ⟨-, state⟩ | hq
    · exact absurd (state.symm.trans hs) waits
    · exact h.engine.2 q hq hs
  · by_cases eq : q.ctx = r.ctx
    · rw [eq, own]
      exact .inl opened
    · rw [others _ eq]
      exact h.attached.1 q ((mem hq).resolve_left fun e => eq e.1)
  · show (t.ctx j).attached = t.count j
    rw [counts]
    by_cases eq : j = r.ctx
    · rw [eq, own, count, h.attached.2 r.ctx, if_pos rfl]
      rfl
    · rw [others j eq, if_neg fun e => eq e.symm]
      exact h.attached.2 j
  · by_cases eq : j = r.ctx
    · rw [eq, own, opened]
      exact iff_of_false (nomatch ·) unclosed
    · rw [others j eq]

end Sys2Proof.Machine
end

section
/-! PROOFS. What each shared operation sustains: readiness and the engine, closes, drops, compares and entries (R50, R51, R69, R75, R77, R84,
R86, R95, R122 to R129, R132, R160). -/

namespace Sys2Proof.Machine

variable {calm ok : Prop} {s t : State} {i : Fin 4}

/-! ### Readiness and the engine -/

theorem ArbiterServed.of_lists (h : ArbiterServed s) (listed : t.listed = s.listed) (engine : t.engine = s.engine) : ArbiterServed t := by
  unfold ArbiterServed
  rwa [listed, engine]

/-- A change that is not calm sustains nothing of the arbiter. -/
theorem Sustains.of_loud (h : Sustains False ok s t) (loud : ¬ calm) : Sustains calm ok s t := ⟨h.line, h.accounts, fun c => absurd c loud⟩

theorem readied_busy (u : State) (r : SweepRecord) : (readied u r).state = .correlating ↔ r.state = .correlating :=
  ⟨readied_not_correlating, fun h => by rwa [readied_correlating h]⟩

/-- The listed sweeps are tested for readiness, all or those of an id: not calm. -/
theorem readies_sustains (u : State) (p : SweepRecord → Prop) [DecidablePred p] (s : State) :
    Sustains False ok s (s.withListed (s.listed.map fun r => if p r then readied u r else r)) := by
  refine ⟨fun h => h.of_outbox rfl, fun h => h.relist (fun r => ?_) fun r _ => ?_, False.elim⟩
  · split
    · exact readied_same u r
    · rfl
  · split
    · exact readied_busy u r
    · rfl

theorem testReadiness_sustains (id : Nat) (s : State) : Sustains False ok s (testReadiness id s) := readies_sustains s (·.id = id) s

theorem arrivalNotice_sustains (s : State) : Sustains False ok s (arrivalNotice s) := by
  have tested := readies_sustains (ok := ok) (markHit s.listBad s) (fun _ => True) (markHit s.listBad s)
  simp only [if_true] at tested
  exact (markHit_sustains s.listBad s).trans tested

/-- The engine's stores change under the same sweep. -/
theorem withEngine_sustains {e : Engine} (worked : e.job.map (·.sweep) = s.engine.job.map (·.sweep)) :
    Sustains calm ok s (s.withEngine e) := .of_same (congrArg (fun q => { s.ledger with worked := q }) worked) rfl

theorem advanceJob_sustains {j : Job} (job : s.engine.job = some j) (elapsed n : Nat) :
    Sustains calm ok s (advanceJob n { j with elapsed := elapsed } s) := withEngine_sustains (by rw [job]; rfl)

theorem tickJob_sustains (s : State) : Sustains calm ok s (tickJob s) := by
  unfold tickJob
  split
  · exact .refl s
  · next job => exact advanceJob_sustains job _ _

theorem endPass_sustains (s : State) : Sustains calm ok s (endPass s) := by
  cases job : s.engine.job with
  | none => simp only [endPass, job]; exact .refl s
  | some j =>
    cases pass : j.pass with
    | editing => simp only [endPass, job, pass]; exact .refl s
    | correlation =>
      rw [endPass_correlation job pass]
      exact withEngine_sustains (by rw [job]; rfl)

theorem arbitrate_sustains (s : State) : Sustains False ok s (arbitrate s) := by
  unfold arbitrate
  split
  · exact .refl s
  next idle =>
  split
  · exact .refl s
  next r ready =>
  split
  · exact markHit_sustains true s
  · exact ⟨fun h => h.of_outbox rfl, fun h => h.begin idle (List.mem_of_find?_eq_some ready), False.elim⟩

/-- The arbiter's look leaves it served, or has found a check error (R84, R86). -/
theorem arbitrate_served_or_hit (s : State) : (arbitrate s).checkHit = true ∨ ArbiterServed (arbitrate s) := by
  unfold arbitrate
  split
  · next job => exact .inr (.inl (by rw [job]; rfl))
  split
  · next none => exact .inr (.inr (firstReady_none.mp none))
  split
  · exact .inl rfl
  · exact .inr (.inl rfl)

/-! ### Contexts -/

theorem emitterBegin_sustains (idle : s.emitter.cursor = none) : Sustains calm ok s (emitterBegin s) := by
  obtain ⟨sweeps, engine, -⟩ := emitterBegin_tables s
  refine ⟨fun h => ?_, fun h => h.emitterBegin idle, fun _ h => h.of_lists (congrArg SweepList.recs sweeps) engine⟩
  unfold emitterBegin
  split
  · exact h.of_outbox (by simp [State.outbox, idle])
  split
  · exact (markHit_sustains (calm := True) (ok := True) true s).line h
  · exact decideLine_waits _

theorem freeCtx_sustains (state : (s.ctx i).state ≠ .closing) (none : Attached s → Unlisted i s) : Sustains calm ok s (freeCtx i s) :=
  ⟨fun h => h.of_outbox rfl, fun h => h.free state (none h.attached), fun _ h => h⟩

/-- A context that collects, with no sweep attached, is closed. -/
theorem closeCtx_sustains (state : Collecting (s.ctx i)) (zero : (s.ctx i).attached = 0) : Sustains calm ok s (closeCtx i s) := by
  unfold closeCtx
  split
  · set u := (s.withCtx i { s.ctx i with state := .closing }).withEmitter { s.emitter with closing := s.emitter.closing ++ [i] } with hu
    have closed : Sustains calm ok s u := ⟨fun h => h.of_outbox rfl, fun h => h.close state (h.attached.unlisted zero), fun _ h => h⟩
    show Sustains calm ok s (if s.emitter.closing = [] ∧ s.emitter.cursor = none then emitterBegin u else u)
    split
    · next idle => exact closed.trans (emitterBegin_sustains idle.2)
    · exact closed
  · have same := (vpDone_only i 0 s).ctx i
    refine (vpDone_sustains i 0 s).trans (freeCtx_sustains ?_ fun h => h.unlisted ?_)
    · rw [same]
      exact state.not_closing
    · rw [same]
      exact zero

theorem CloseDue.collecting {c : Context} (h : CloseDue c) : Collecting c := h.2.imp (·.1) id

theorem applyClose_sustains (i : Fin 4) (s : State) : Sustains calm ok s (applyClose i s) := by
  rcases applyClose_cases i s with e | ⟨due, e⟩ <;> rw [e]
  · exact .refl s
  · exact closeCtx_sustains due.collecting due.1

theorem closePending_sustains (state : (s.ctx i).state = .opened) :
    Sustains calm ok s (s.withCtx i { s.ctx i with state := .closePending }) :=
  ⟨fun h => h.of_outbox rfl, fun h => h.pend state, fun _ h => h⟩

theorem pendCtx_sustains (s : State) (i : Fin 4) : Sustains calm ok s (pendCtx s i) := by
  unfold pendCtx
  split
  · next state => exact closePending_sustains state
  · exact .refl s

/-- With the list empty the collecting contexts are freed without emission (R129). -/
theorem discards_sustains (l : List (Fin 4)) (empty : s.listed = []) : Sustains calm ok s (l.foldl discardCtx s) := by
  induction l generalizing s with
  | nil => exact .refl s
  | cons i l ih =>
    have left : (discardCtx s i).listed = [] := (congrArg SweepList.recs (discardCtx_sweeps s i)).trans empty
    refine Sustains.trans ?_ (ih left)
    unfold discardCtx
    split
    · next collects =>
      have state : Collecting (s.ctx i) := (collecting_iff s i).mp collects
      refine freeCtx_sustains state.not_closing fun _ r hr => ?_
      rw [empty] at hr
      cases hr
    · exact .refl s

theorem drainTest_sustains (s : State) : Sustains calm ok s (drainTest s) := by
  unfold drainTest
  split
  · have marked : Sustains calm ok s (markHit s.ctxsBad s) := markHit_sustains _ s
    dsimp only
    split
    · exact marked.trans ((setOp_sustains _ _ _).trans (offerReport_sustains _ _))
    · exact marked
  · exact .refl s

/-- The emission on which the cursor stands ends, and the emitter begins the next (R136). -/
theorem endEmission_sustains {cu cu' : Cursor} (cursor : s.emitter.cursor = some cu') (same : cu'.ctx = cu.ctx) :
    Sustains calm ok s (endEmission cu s) := by
  set u := vpDone cu.ctx cu.sent (markHit (s.ctx cu.ctx).checkBad s) with hu
  have offered : Sustains calm ok s u := (markHit_sustains _ s).trans (vpDone_sustains _ _ _)
  have stands : u.emitter.cursor = some cu' := by
    rw [hu, (vpDone_only _ _ _).emitter]
    cases (s.ctx cu.ctx).checkBad <;> exact cursor
  have finished : Sustains calm ok u ((freeCtx cu.ctx u).withEmitter { closing := u.emitter.closing.tail, cursor := none }) := by
    refine ⟨fun h free => ?_, fun h => same ▸ h.finish stands, fun _ h => h⟩
    exact ⟨(h free).1, fun _ e => nomatch e⟩
  exact (offered.trans finished).trans ((emitterBegin_sustains rfl).trans (drainTest_sustains _))

/-! ### Loops over listed sweeps -/

/-- A loop over listed sweeps of distinct ids keeps the accounts, where each turn does for a listed sweep and leaves those of other ids
as they are. -/
theorem foldl_accounts {g : State → SweepRecord → State} (l : List SweepRecord)
    (turn : ∀ s, ∀ r ∈ l, r ∈ s.listed → Accounts ok s → Accounts ok (g s r))
    (keep : ∀ s r q, q ∈ s.listed → q.id ≠ r.id → q ∈ (g s r).listed) (distinct : l.Pairwise fun a b => a.id ≠ b.id)
    (listed : ∀ r ∈ l, r ∈ s.listed) (h : Accounts ok s) : Accounts ok (l.foldl g s) := by
  induction l generalizing s with
  | nil => exact h
  | cons r l ih =>
    obtain ⟨apart, distinct⟩ := List.pairwise_cons.mp distinct
    refine ih (fun s q hq => turn s q (.tail r hq)) distinct (fun q hq => ?_) (turn s r (.head l) (listed r (.head l)) h)
    exact keep s r q (listed q (.tail r hq)) (apart q hq).symm

theorem Accounts.filter_distinct (h : Accounts ok s) (p : SweepRecord → Bool) : (s.listed.filter p).Pairwise fun a b => a.id ≠ b.id :=
  h.distinct.filter p

/-! ### Drops -/

/-- What a drop does to the tables: the job abandoned, the record off the list, and its context's counts (R77, R98). -/
def dropTables (r : SweepRecord) (s : State) : State :=
  let u := unlist r.id (if r.state = .correlating then abandonJob s else s)
  u.withCtx r.ctx { u.ctx r.ctx with attached := (u.ctx r.ctx).attached - 1, dropped := (u.ctx r.ctx).dropped + 1 }

theorem dropTables_eq (r : SweepRecord) (s : State) : dropTables r s =
    ((s.withListed (s.listed.filter fun q => decide (q.id ≠ r.id))).withEngine
      (if r.state = .correlating then Engine.idle else s.engine)).withCtx r.ctx
      { s.ctx r.ctx with attached := (s.ctx r.ctx).attached - 1, dropped := (s.ctx r.ctx).dropped + 1 } := by
  unfold dropTables
  split <;> rfl

theorem dropTables_line (r : SweepRecord) (h : NothingWaits s) : NothingWaits (dropTables r s) := by
  rw [dropTables_eq]
  exact h.of_outbox rfl

theorem dropTables_accounts {r : SweepRecord} (listed : r ∈ s.listed) (h : Accounts ok s) : Accounts ok (dropTables r s) := by
  rw [dropTables_eq]
  refine h.leave listed ?_ rfl rfl rfl rfl rfl
  split <;> rfl

theorem dropTables_engine {r : SweepRecord} (quiet : r.state ≠ .correlating) (h : ArbiterServed s) : ArbiterServed (dropTables r s) := by
  rw [dropTables_eq, if_neg quiet]
  exact h.imp id fun none q hq => none q (List.mem_of_mem_filter hq)

/-- Behind the tables a drop offers its report, raises its events and applies the close condition. -/
theorem dropSweep_behind (cause : DropCause) (close : Bool) (s : State) (r : SweepRecord) :
    Sustains calm ok (dropTables r (markHit (r.checkBad || (s.ctx r.ctx).checkBad) s)) (dropSweep cause close s r) := by
  set u := dropTables r (markHit (r.checkBad || (s.ctx r.ctx).checkBad) s) with hu
  have reported : Sustains calm ok u (raiseEvent .sweepDropped
      (offerReport (.sweepDropped r.id r.fleet r.vp r.t0 cause (some r.state) (some r.ctx)) u)) :=
    (offerReport_sustains _ u).trans (raiseEvent_sustains _ _)
  have dropped : Sustains calm ok u (dropPre cause s r) := by
    unfold dropPre
    dsimp only
    split
    · exact reported.trans (raiseEvent_sustains .ringLate _)
    · exact reported
  rw [dropSweep_eq]
  split
  · exact dropped.trans (applyClose_sustains r.ctx _)
  · exact dropped

theorem dropSweep_line (cause : DropCause) (close : Bool) (r : SweepRecord) (h : NothingWaits s) :
    NothingWaits (dropSweep cause close s r) :=
  (dropSweep_behind (calm := True) (ok := True) cause close s r).line
    (dropTables_line r ((markHit_sustains (calm := True) (ok := True) _ s).line h))

theorem dropSweep_accounts (cause : DropCause) (close : Bool) {r : SweepRecord} (listed : r ∈ s.listed) (h : Accounts ok s) :
    Accounts ok (dropSweep cause close s r) := by
  refine (dropSweep_behind (calm := True) cause close s r).accounts (dropTables_accounts ?_ ((markHit_sustains (calm := True) _ s).accounts h))
  rwa [mark_listed]

theorem dropSweep_engine (cause : DropCause) (close : Bool) {r : SweepRecord} (quiet : r.state ≠ .correlating) (h : ArbiterServed s) :
    ArbiterServed (dropSweep cause close s r) :=
  (dropSweep_behind (calm := True) (ok := True) cause close s r).engine trivial
    (dropTables_engine quiet ((markHit_sustains (calm := True) (ok := True) _ s).engine trivial h))

theorem dropSweep_sustains (cause : DropCause) (close : Bool) {r : SweepRecord} (listed : r ∈ s.listed)
    (quiet : calm → r.state ≠ .correlating) : Sustains calm ok s (dropSweep cause close s r) :=
  ⟨dropSweep_line cause close r, dropSweep_accounts cause close listed, fun c => dropSweep_engine cause close (quiet c)⟩

theorem dropSweep_keeps (cause : DropCause) (close : Bool) (s : State) (r q : SweepRecord) (hq : q ∈ s.listed) (other : q.id ≠ r.id) :
    q ∈ (dropSweep cause close s r).listed := by
  rw [dropSweep_listed]
  exact List.mem_filter.mpr ⟨hq, decide_eq_true other⟩

/-- The drops of the listed sweeps with `p`, one by one; calm where none of them is CORRELATING. -/
theorem dropWhere_sustains (p : SweepRecord → Bool) (cause : DropCause) (close : Bool) (s : State)
    (quiet : calm → ∀ r, p r = true → r.state ≠ .correlating) : Sustains calm ok s (dropWhere p cause close s) := by
  refine ⟨fun h => ?_, fun h => ?_, fun c h => ?_⟩
  · exact List.foldlRecOn _ _ h fun u hu r _ => dropSweep_line cause close r hu
  · exact foldl_accounts _ (fun u r _ => dropSweep_accounts cause close) (dropSweep_keeps cause close) (h.filter_distinct p)
      (fun r hr => List.mem_of_mem_filter hr) h
  · exact List.foldlRecOn _ _ h fun u hu r hr => dropSweep_engine cause close (quiet c r (List.mem_filter.mp hr).2) hu

theorem evictionNotice_sustains (oldest : Nat) (s : State) : Sustains False ok s (evictionNotice oldest s) :=
  (markHit_sustains _ s).trans (dropWhere_sustains _ _ _ _ False.elim)

/-! ### Compares -/

/-- A SCHEDULED sweep becomes WAITING, its compare taken. -/
def startWaiting (r : SweepRecord) (s : State) : State := changeSweep r.id (fun q => { q with state := .waiting, compare := none }) s

theorem startWaiting_accounts {r : SweepRecord} (listed : r ∈ s.listed) (scheduled : r.state = .scheduled) (h : Accounts ok s) :
    Accounts ok (startWaiting r s) := by
  refine h.relist (fun q => ?_) fun q hq => ?_
  · split <;> rfl
  · split
    · next own =>
      have state : q.state = .scheduled := h.distinct.eq_of_id listed hq own ▸ scheduled
      exact iff_of_false (nomatch ·) (by rw [state]; exact (nomatch ·))
    · rfl

/-- A compare's start pulse, before the sweep's record changes (R50). -/
def pulsed (s : State) (r : SweepRecord) : State := raiseEvent (.startPulse r.fleet) (markHit (r.checkBad || (s.ctx r.ctx).checkBad) s)

theorem pulsed_sustains (s : State) (r : SweepRecord) : Sustains calm ok s (pulsed s r) :=
  (markHit_sustains _ s).trans (raiseEvent_sustains _ _)

theorem fireSweep_behind (s : State) (r : SweepRecord) : Sustains False ok (startWaiting r (pulsed s r)) (fireSweep s r) :=
  (offerReport_sustains _ _).trans (testReadiness_sustains r.id _)

theorem fireSweep_line (r : SweepRecord) (h : NothingWaits s) : NothingWaits (fireSweep s r) := by
  refine (fireSweep_behind (ok := True) s r).line (NothingWaits.of_outbox ?_ rfl)
  exact (pulsed_sustains (calm := True) (ok := True) s r).line h

theorem fireSweep_accounts {r : SweepRecord} (listed : r ∈ s.listed) (scheduled : r.state = .scheduled) (h : Accounts ok s) :
    Accounts ok (fireSweep s r) := by
  refine (fireSweep_behind s r).accounts (startWaiting_accounts ?_ scheduled ((pulsed_sustains (calm := True) s r).accounts h))
  exact (mark_listed _ s).symm ▸ listed

theorem mem_changeSweep {id : Nat} {g : SweepRecord → SweepRecord} {q : SweepRecord} (hq : q ∈ s.listed) (other : q.id ≠ id) :
    q ∈ (changeSweep id g s).listed := List.mem_map.mpr ⟨q, hq, if_neg other⟩

theorem fireSweep_keeps (s : State) (r q : SweepRecord) (hq : q ∈ s.listed) (other : q.id ≠ r.id) : q ∈ (fireSweep s r).listed := by
  have waiting : q ∈ (startWaiting r (pulsed s r)).listed := mem_changeSweep ((mark_listed _ s).symm ▸ hq) other
  exact mem_changeSweep ((offerReport_only _ (startWaiting r (pulsed s r))).listed.symm ▸ waiting) other

theorem tickCompares_sustains (s : State) : Sustains False ok s (tickCompares s) := by
  refine (markHit_sustains s.listBad s).trans ⟨fun h => ?_, fun h => ?_, False.elim⟩
  · exact List.foldlRecOn _ _ h fun u hu r _ => fireSweep_line r hu
  · exact foldl_accounts _ (fun u r hr listed => fireSweep_accounts listed (comparePoint_scheduled (List.mem_filter.mp hr).2))
      fireSweep_keeps (h.filter_distinct _) (fun r hr => List.mem_of_mem_filter hr) h

theorem stepCompares_sustains (old new : Nat) (s : State) : Sustains False ok s (stepCompares old new s) := by
  refine (markHit_sustains s.listBad s).trans ⟨fun h => ?_, fun h => ?_, False.elim⟩
  · refine List.foldlRecOn _ _ h fun u hu r _ => ?_
    split
    · exact fireSweep_line r hu
    · exact dropSweep_line .missed true r hu
  · refine foldl_accounts _ (fun u r hr listed hu => ?_) (fun u r q hq other => ?_) (h.filter_distinct _)
      (fun r hr => List.mem_of_mem_filter hr) h
    · split
      · exact fireSweep_accounts listed (comparePoint_scheduled (List.mem_filter.mp hr).2) hu
      · exact dropSweep_accounts .missed true listed hu
    · split
      · exact fireSweep_keeps u r q hq other
      · exact dropSweep_keeps .missed true u r q hq other

end Sys2Proof.Machine
end

section
/-! PROOFS. What context resolution and an entry sustain (R67 to R72, R122 to R124). -/

namespace Sys2Proof.Machine

variable {calm ok : Prop} {s t u : State} {i : Fin 4}

/-! ### Context resolution -/

theorem emitterBegin_ctx (s : State) (j : Fin 4) : (emitterBegin s).ctx j = s.ctx j :=
  congrArg (fun v : Tables => v.ctxs[j.val]) (tables_emitterBegin s)

/-- A close leaves its context collecting no more, and the other contexts as they are. -/
theorem closeCtx_ctxs (i : Fin 4) (s : State) : ∃ c, ¬ Collecting c ∧ ∀ j, (closeCtx i s).ctx j = (s.withCtx i c).ctx j := by
  unfold closeCtx
  split
  · refine ⟨{ s.ctx i with state := .closing }, fun c => c.elim (nomatch ·) (nomatch ·), fun j => ?_⟩
    dsimp only
    split
    · exact emitterBegin_ctx _ j
    · rfl
  · refine ⟨Context.freed ((vpDone i 0 s).ctx i).gen, not_collecting_freed _, fun j => ?_⟩
    show ((vpDone i 0 s).withCtx i _).ctx j = _
    rw [State.ctx_withCtx_cases, State.ctx_withCtx_cases, (vpDone_only i 0 s).ctx j]

/-- A close makes no context collect a VP. -/
theorem closeCtx_collects {vp : VpId} {j : Fin 4} (h : CollectsVp (closeCtx i s) vp j) : CollectsVp s vp j := by
  obtain ⟨c, closed, ctxs⟩ := closeCtx_ctxs i s
  rw [CollectsVp, ctxs j, State.ctx_withCtx_cases] at h
  split at h
  · exact absurd h.1 closed
  · exact h

/-- What an entry may set its context to: the sweep counted in an OPEN context, within the fold target, and the one that collects
its VP. -/
structure Seat (ok : Prop) (i : Fin 4) (c : Context) (s : State) : Prop where
  count : c.attached = (s.ctx i).attached + 1
  opened : c.state = .opened
  unclosed : (s.ctx i).state ≠ .closing
  fits : ok → c.attached + c.folded + c.dropped ≤ c.target
  vp : ok → CollectsVp s c.vp i ∨ ∀ j, ¬ CollectsVp s c.vp j

/-- A resolution that counts the sweep in context `i`. -/
structure Seats (ok : Prop) (i : Fin 4) (s u : State) : Prop where
  outbox : u.outbox = s.outbox
  seat : ∃ c, u.ledger = (s.withCtx i c).ledger ∧ (Accounts ok s → Seat ok i c s)

theorem attachCtx_seats {vp : VpId} {k : Nat} (collects : CollectsVp s vp i) {j : Fin 4} (h : attachCtx i k s = (u, .attached j)) :
    Seats ok j s u := by
  unfold attachCtx at h
  dsimp only at h
  split at h
  · cases h
  next unpended =>
  split at h
  · cases h
  split at h
  · cases h
  next below =>
  cases h
  refine ⟨rfl, _, rfl, fun a => ?_⟩
  refine ⟨rfl, collects.1.resolve_right unpended, Collecting.not_closing collects.1, fun k => ?_, fun _ => .inl ⟨collects.1, rfl⟩⟩
  have within := (a.budget k).1 i
  show (s.ctx i).attached + 1 + (s.ctx i).folded + (s.ctx i).dropped ≤ (s.ctx i).target
  omega

theorem attachCtx_attaches_or_keeps (i : Fin 4) (k : Nat) (s : State) : (attachCtx i k s).2 = .attached i ∨ (attachCtx i k s).1 = s := by
  unfold attachCtx
  dsimp only
  split
  · exact .inr rfl
  split
  · exact .inr rfl
  split
  · exact .inr rfl
  · exact .inl rfl

theorem openFree_seats {vp : VpId} {k target : Nat} (none : ∀ j, ¬ CollectsVp s vp j) (positive : Accounts ok s → ok → 1 ≤ target)
    (h : openFree vp k target s = (u, .attached i)) : Seats ok i s u := by
  unfold openFree at h
  split at h
  · next j found =>
    cases h
    have free : (s.ctx i).state = .free := of_decide_eq_true (findCtx_some.mp found).1
    refine ⟨rfl, _, rfl, fun a => ⟨?_, rfl, ?_, fun k => positive a k, fun _ => .inr none⟩⟩
    · have unlisted : Unlisted i s := a.attached.unlisted_of_state fun c => by
        rw [Collecting, free] at c
        exact c.elim (nomatch ·) (nomatch ·)
      exact congrArg (· + 1) ((a.attached.2 i).trans (count_eq_zero.mpr unlisted)).symm
    · rw [free]
      exact (nomatch ·)
  · cases h

theorem openFree_refused {vp : VpId} {k target : Nat} {why : Refused} (h : openFree vp k target s = (u, .refused why)) : u = s := by
  unfold openFree at h
  split at h
  · cases h
  · exact (congrArg Prod.fst h).symm

theorem openFree_not_ended {vp : VpId} {k target : Nat} (h : openFree vp k target s = (u, .ended)) : False := by
  unfold openFree at h
  split at h <;> cases h

/-- What a resolution does for a fleet's target: a context is force-closed or nothing done, and then the sweep is counted, or not. -/
theorem resolveCtx_cases (vp : VpId) (k : Nat) (f : Fin 4) {answer : Resolved} (h : resolveCtx vp k (s.fleet f).target s = (u, answer)) :
    ∃ v, (∀ calm, Sustains calm ok s v) ∧ v.listed = s.listed ∧
      ((∃ i, answer = .attached i ∧ Seats ok i v u) ∨ (∀ i, answer ≠ .attached i) ∧ u = v) := by
  unfold resolveCtx at h
  split at h
  · cases h
    exact ⟨_, fun _ => markHit_sustains true s, rfl, .inr ⟨nofun, rfl⟩⟩
  split at h
  · next i found =>
    have collects := (collects_iff s vp i).mp (findCtx_some.mp found).1
    refine ⟨s, fun _ => .refl s, rfl, ?_⟩
    cases answer with
    | attached j => exact .inl ⟨j, rfl, attachCtx_seats collects h⟩
    | refused | ended =>
      refine .inr ⟨nofun, ?_⟩
      rcases attachCtx_attaches_or_keeps i k s with e | e
      · rw [h] at e
        cases e
      · rwa [h] at e
  next unheld =>
  have none (j : Fin 4) : ¬ CollectsVp s vp j := fun c =>
    Bool.false_ne_true ((findCtx_none.mp unheld j).symm.trans ((collects_iff s vp j).mpr c))
  split at h
  · refine ⟨s, fun _ => .refl s, rfl, ?_⟩
    cases answer with
    | attached i => exact .inl ⟨i, rfl, openFree_seats none (fun a k => a.targets k f) h⟩
    | refused => exact .inr ⟨nofun, openFree_refused h⟩
    | ended => exact (openFree_not_ended h).elim
  split at h
  · next i found =>
    obtain ⟨collecting, zero, -⟩ := (forceCandidate_iff s i).mp found
    have fleet : (closeCtx i s).fleet f = s.fleet f := congrArg (fun v : Tables => v.fleets[f.val]) (closeCtx_tables i s)
    have left (j : Fin 4) : ¬ CollectsVp (closeCtx i s) vp j := fun c => none j (closeCtx_collects c)
    refine ⟨closeCtx i s, fun _ => closeCtx_sustains collecting zero, closeCtx_listed i s, ?_⟩
    cases answer with
    | attached j => exact .inl ⟨j, rfl, openFree_seats left (fun a k => fleet ▸ a.targets k f) h⟩
    | refused => exact .inr ⟨nofun, openFree_refused h⟩
    | ended => exact (openFree_not_ended h).elim
  · cases h
    exact ⟨s, fun _ => .refl s, rfl, .inr ⟨nofun, rfl⟩⟩

/-! ### Entries -/

theorem listSweep_ledger (r : SweepRecord) (h : t.ledger = s.ledger) : (listSweep r t).1.ledger = (listSweep r s).1.ledger := by
  have sweeps : (listSweep r t).1.sweeps = (listSweep r s).1.sweeps := by
    simp only [listSweep, listed_of_ledger h, sweeps_of_ledger h]
    rfl
  exact congrArg₂ (fun v w => { v with sweeps := w }) h sweeps

/-- A sweep that is neither READY nor CORRELATING is listed where its context has counted it. -/
theorem Seats.list {r : SweepRecord} (h : Seats ok r.ctx s u) (room : s.listed.length < 16) (waits : r.state ≠ .correlating)
    (unready : r.state ≠ .ready) : Sustains calm ok s (listSweep r u).1 := by
  obtain ⟨outbox, c, ledger, seat⟩ := h
  have listed := listSweep_ledger r ledger
  refine ⟨fun h => h.of_outbox outbox, fun a => ?_, fun _ served => ArbiterServed.of_ledger (s := (listSweep r (s.withCtx r.ctx c)).1) ?_ listed⟩
  · obtain ⟨count, opened, unclosed, fits, vp⟩ := seat a
    exact (a.enter room waits count opened unclosed fits vp).of_ledger listed
  · refine served.imp id fun none q hq => ?_
    obtain ⟨-, -, recs⟩ := listSweep_lists (u := s.withCtx r.ctx c) r rfl
    rw [recs, insertSweep_mem] at hq
    rcases hq with rfl | hq
    · exact unready
    · exact none q hq

/-- An entry is calm where it has a compare point or is not taken up. -/
theorem enterSweep_sustains (origin : Origin) (f : Fin 4) (vp : VpId) (t0 : SampleIndex) (compare : Option Nat) (s : State)
    (quiet : calm → compare.isSome = true ∨ ∀ r, (enterSweep origin f vp t0 compare s).2 ≠ .admitted r) :
    Sustains calm ok s (enterSweep origin f vp t0 compare s).1 := by
  unfold enterSweep at quiet ⊢
  simp only at quiet ⊢
  split
  · exact markHit_sustains true s
  next clear =>
  rw [if_neg clear] at quiet
  split
  · exact .refl s
  next full =>
  rw [if_neg full] at quiet
  split
  · exact .refl s
  next valid =>
  rw [if_neg valid] at quiet
  split
  · exact .refl s
  next window =>
  rw [if_neg window] at quiet
  have resolved := resolveCtx_cases (ok := ok) vp (s.fleet f).k f (s := s) (Prod.eta _).symm
  generalize resolveCtx vp (s.fleet f).k (s.fleet f).target s = answer at resolved quiet
  obtain ⟨u, answer⟩ := answer
  obtain ⟨v, behind, kept, counted⟩ := resolved
  have room : v.listed.length < 16 := by
    rw [kept]
    exact Nat.lt_of_not_le full
  cases answer with
  | refused | ended =>
    obtain ⟨i, e, -⟩ | ⟨-, e⟩ := counted
    · cases e
    · exact e ▸ behind calm
  | attached i =>
    obtain ⟨_, ⟨⟩, seats⟩ | ⟨none, -⟩ := counted
    · cases compare with
      | some c =>
        exact (behind calm).trans (Seats.list (r := { entryRecord u origin f vp t0 i with state := .scheduled, compare := some c }) seats room
          (nomatch ·) (nomatch ·))
      | none =>
        have listed := (behind False).trans (Seats.list (r := entryRecord u origin f vp t0 i) seats room (nomatch ·) (nomatch ·))
        refine Sustains.of_loud (listed.trans ((offerReport_sustains _ _).trans (testReadiness_sustains _ _))) fun c => ?_
        exact (quiet c).elim (nomatch ·) fun unlisted => unlisted _ rfl
    · exact absurd rfl (none i)

end Sys2Proof.Machine
end

section
/-! PROOFS. What the requests sustain, each a handling after which the engine's arbiter is served or a check error found (R70, R71, R76, R84,
R127, R128, R157 to R162). -/

namespace Sys2Proof.Machine

variable {calm ok : Prop} {s t u : State} {i : Fin 4}

/-! ### Handlings -/

/-- What a whole handling from `s` to `t` serves: nothing waiting on a free line, the accounts, and the engine's arbiter, unless a check
error has been found. -/
structure Serves (ok : Prop) (s t : State) : Prop where
  line : NothingWaits s → NothingWaits t
  accounts : Accounts ok s → Accounts ok t
  engine : ArbiterServed s → t.checkHit = true ∨ ArbiterServed t

/-- A handling whose changes are all calm. -/
theorem Sustains.serves (h : Sustains True ok s t) : Serves ok s t := ⟨h.line, h.accounts, fun a => .inr (h.engine trivial a)⟩

/-- A calm change before a handling. -/
theorem Sustains.before (h : Sustains True ok s u) (k : Serves ok u t) : Serves ok s t :=
  ⟨k.line ∘ h.line, k.accounts ∘ h.accounts, k.engine ∘ h.engine trivial⟩

/-- A handling that ends in the arbiter's look (R84). -/
theorem Sustains.arbitrated (h : Sustains False ok s u) : Serves ok s (arbitrate u) :=
  have looked := h.trans (arbitrate_sustains u)
  ⟨looked.line, looked.accounts, fun _ => arbitrate_served_or_hit u⟩

theorem ArbiterServed.of_empty (listed : t.listed = []) : ArbiterServed t := .inr fun r hr => by
  rw [listed] at hr
  cases hr

/-- A handling that leaves the list empty. -/
theorem Sustains.emptied (h : Sustains False ok s t) (empty : t.listed = []) : Serves ok s t :=
  ⟨h.line, h.accounts, fun _ => .inr (.of_empty empty)⟩

/-! ### The job's own events (R95, R96) -/

theorem foldSweep_ledger (r : SweepRecord) (s : State) : (foldSweep r s).ledger =
    (((s.withListed (s.listed.filter fun q => decide (q.id ≠ r.id))).withEngine Engine.idle).withCtx r.ctx
      (foldedCtx (s.ctx r.ctx) s.engine.scratch)).ledger := by
  have only := offerReport_only (foldReport r (s.ctx r.ctx) s.engine.scratch)
    (s.withCtx r.ctx (foldedCtx (s.ctx r.ctx) s.engine.scratch))
  unfold foldSweep
  rw [only]
  rfl

/-- With the accounts right the record of the job's id is CORRELATING. -/
theorem Accounts.correlating (h : Accounts ok s) {q r : SweepRecord} (worked : s.engine.job.map (·.sweep) = some q) (listed : r ∈ s.listed)
    (own : r.id = q.id) : r.state = .correlating := by
  obtain ⟨p, member, same, busy⟩ := ((engineMatches_iff s).mp h.engine).1 q worked
  rwa [h.distinct.eq_of_id member listed (own.trans same.symm)]

theorem foldSweep_sustains {q r : SweepRecord} (worked : s.engine.job.map (·.sweep) = some q) (listed : r ∈ s.listed) (own : r.id = q.id) :
    Sustains False ok s (foldSweep r s) := by
  refine ⟨fun h => ?_, fun h => ?_, False.elim⟩
  · have counted : NothingWaits (s.withCtx r.ctx (foldedCtx (s.ctx r.ctx) s.engine.scratch)) := h.of_outbox rfl
    exact (counted.offer (foldReport r (s.ctx r.ctx) s.engine.scratch)).of_outbox rfl
  · refine (h.leave (e := Engine.idle) (c := foldedCtx (s.ctx r.ctx) s.engine.scratch) listed ?_ rfl rfl rfl rfl ?_).of_ledger
      (foldSweep_ledger r s)
    · rw [if_pos (h.correlating worked listed own)]
      rfl
    · exact Nat.add_right_comm _ 1 _

theorem completeJob_serves (s : State) : Serves ok s (completeJob s) := by
  cases job : s.engine.job with
  | none => simp only [completeJob, job]; exact (Sustains.refl s).serves
  | some j =>
    cases pass : j.pass with
    | correlation => simp only [completeJob, job, pass]; exact (Sustains.refl s).serves
    | editing =>
      cases found : s.listed.find? fun r => decide (r.id = j.sweep.id) with
      | none => simp only [completeJob, job, pass, found]; exact (Sustains.refl s).serves
      | some r =>
        rw [completeJob_own job pass found]
        split
        · exact (markHit_sustains true s).serves
        · rw [completeSweep_eq]
          have decided : Sustains False ok s (advanceJob s.channels j s) := advanceJob_sustains job j.elapsed _
          have own : r.id = j.sweep.id := of_decide_eq_true (List.find?_some found :)
          have folded : Sustains False ok (advanceJob s.channels j s) (foldSweep r (advanceJob s.channels j s)) :=
            foldSweep_sustains rfl (List.mem_of_find?_eq_some found) own
          exact ((decided.trans folded).trans ((applyClose_sustains r.ctx _).trans (drainTest_sustains _))).arbitrated

/-! ### The mode controller's requests -/

theorem withTime_sustains (s : State) (t : Timebase) : Sustains calm ok s (s.withTime t) := .of_same rfl rfl

theorem withParams_sustains (s : State) (p : Params) : Sustains calm ok s (s.withParams p) := .of_same rfl rfl

theorem enterHoldover_sustains (s : State) : Sustains calm ok s (enterHoldover s) :=
  (setLock_sustains _ s).trans (offerReport_sustains _ _)

theorem storeInterval_sustains (v : Nat) (s : State) : Sustains calm ok s (storeInterval v s) := by
  unfold storeInterval
  split
  · exact .refl s
  split
  · exact .refl s
  dsimp only
  split
  · exact withParams_sustains s _
  · exact (withParams_sustains s _).trans ((withTime_sustains _ _).trans (setLock_sustains _ _))

theorem storeHoldover_sustains (v : Nat) (s : State) : Sustains calm ok s (storeHoldover v s) := by
  unfold storeHoldover
  generalize (if v = 0 then 1 else min v 60) = limit
  dsimp only
  split
  · exact .refl s
  split
  · exact (withParams_sustains s _).trans (enterHoldover_sustains _)
  · exact withParams_sustains s _

theorem storeParam_sustains (key v : Nat) (s : State) : Sustains calm ok s (storeParam key v s) := by
  unfold storeParam
  split
  · exact storeInterval_sustains v s
  · exact withParams_sustains s _
  · split
    · exact withParams_sustains s _
    · exact withParams_sustains s _
    · exact .refl s
  · split
    · exact withParams_sustains s _
    · exact withParams_sustains s _
    · exact .refl s
  · exact storeHoldover_sustains v s
  · exact withParams_sustains s _
  · exact .refl s

theorem paramSet_sustains (f : RxFrame) (s : State) : Sustains calm ok s (paramSet f s) := by
  unfold paramSet
  dsimp only
  split
  · exact placeReply_sustains f _ _ s
  · exact (storeParam_sustains _ _ s).trans (placeReply_sustains f _ _ _)

theorem startRequest_sustains (f : RxFrame) (s : State) : Sustains calm ok s (startRequest f s) := by
  unfold startRequest
  split
  · exact (setOp_sustains _ _ s).trans (placeReply_sustains f _ _ _)
  · exact placeReply_sustains f _ _ s

theorem finishAcquire_sustains (s : State) : Sustains calm ok s (finishAcquire s) := by
  have begun := (markHit_sustains (calm := calm) (ok := ok) (s.listBad || s.ctxsBad) s).trans (setOp_sustains .draining (some .finish) _)
  have dropped := begun.trans (dropWhere_sustains (fun r => decide (r.state = .scheduled)) .stopped true _ fun _ r scheduled => by
    rw [of_decide_eq_true scheduled]
    exact (nomatch ·))
  exact dropped.trans ((foldl_sustains pendCtx_sustains ctxOrder _).trans
    ((foldl_sustains (fun t i => applyClose_sustains i t) ctxOrder _).trans (drainTest_sustains _)))

theorem stopFinish_sustains (f : RxFrame) (s : State) : Sustains calm ok s (stopFinish f s) := by
  unfold stopFinish
  split
  · exact placeReply_sustains f _ _ s
  split
  · exact placeReply_sustains f _ _ s
  · exact placeReply_sustains f _ _ s
  · exact (finishAcquire_sustains s).trans (placeReply_sustains f _ _ _)

theorem dropWhere_all (cause : DropCause) (close : Bool) (s : State) : (dropWhere (fun _ => true) cause close s).listed = [] := by
  unfold dropWhere
  rw [drops_listed, List.filter_eq_nil_iff]
  intro r hr
  rw [List.filter_true, decide_eq_true_eq, not_not]
  exact List.mem_map_of_mem hr

/-- After a STOP with DISCARD the list is empty: the engine's arbiter need not look (R159). -/
theorem stopDiscard_serves (f : RxFrame) (s : State) : Serves ok s (stopDiscard f s) := by
  unfold stopDiscard
  split
  · exact (placeReply_sustains f _ _ s).serves
  have begun := (markHit_sustains (calm := False) (ok := ok) (s.listBad || s.ctxsBad) s).trans (setOp_sustains .draining (some .discard) _)
  have dropped := begun.trans (dropWhere_sustains (fun _ => true) .stopped false _ False.elim)
  have empty := dropWhere_all .stopped false (setOp .draining (some .discard) (markHit (s.listBad || s.ctxsBad) s))
  set v := dropWhere (fun _ => true) .stopped false (setOp .draining (some .discard) (markHit (s.listBad || s.ctxsBad) s)) with hv
  have discarded : Sustains False ok s (discardAll s) :=
    dropped.trans ((discards_sustains ctxOrder empty).trans (drainTest_sustains _))
  refine (discarded.trans (placeReply_sustains f _ _ _)).emptied ?_
  have kept : (discardAll s).listed = v.listed := congrArg SweepList.recs
    ((drainTest_sweeps _).trans (foldl_sweeps discardCtx_sweeps ctxOrder v))
  exact ((placeReply_only f _ _ _).listed.trans kept).trans empty

/-! ### Sweeps and contexts -/

theorem postRequest_serves (f : RxFrame) (s : State) : Serves ok s (postRequest f s) := by
  unfold postRequest
  split
  · exact (placeReply_sustains f _ _ s).serves
  next fl _ =>
  split
  · exact (placeReply_sustains f _ _ s).serves
  have entered (calm : Prop) := enterSweep_sustains (calm := calm) (ok := ok) .post fl (BitVec.ofNat 32 (fieldAt f.body 1 4))
    (BitVec.ofNat 48 (fieldAt f.body 5 6)) none s
  split
  · next e =>
    rw [e] at entered
    exact ((entered False False.elim).trans (placeReply_sustains f _ _ _)).arbitrated
  · next e =>
    rw [e] at entered
    exact ((entered True fun _ => .inr nofun).trans (placeReply_sustains f _ _ _)).serves
  · next e =>
    rw [e] at entered
    exact (entered True fun _ => .inr nofun).serves

theorem scheduleRequest_sustains (f : RxFrame) (s : State) : Sustains calm ok s (scheduleRequest f s) := by
  unfold scheduleRequest
  split
  · exact placeReply_sustains f _ _ s
  next fl _ =>
  dsimp only
  split
  · exact placeReply_sustains f _ _ s
  split
  · exact placeReply_sustains f _ _ s
  split
  · exact placeReply_sustains f _ _ s
  have entered (c : Nat) := enterSweep_sustains (calm := calm) (ok := ok) .schedule fl (BitVec.ofNat 32 (fieldAt f.body 1 4))
    (BitVec.ofNat 48 (fieldAt f.body 5 6)) (some c) s fun _ => .inl rfl
  split
  · next e => exact (e ▸ entered _ :).trans (placeReply_sustains f _ _ _)
  · next e => exact (e ▸ entered _ :).trans (placeReply_sustains f _ _ _)
  · next e => exact (e ▸ entered _ :)

theorem cancelRequest_serves (f : RxFrame) (s : State) : Serves ok s (cancelRequest f s) := by
  unfold cancelRequest
  dsimp only
  split
  · exact ((markHit_sustains _ s).trans (placeReply_sustains f _ _ _)).serves
  · next found =>
    have dropped := (markHit_sustains (calm := False) (ok := ok) s.listBad s).trans
      (dropSweep_sustains .cancelled true (List.mem_of_find?_eq_some found) False.elim)
    exact ((dropped.trans (drainTest_sustains _)).trans (placeReply_sustains f _ _ _)).arbitrated

theorem openHolding_opened {vp : VpId} (h : openHolding vp s = some i) : (s.ctx i).state = .opened := by
  have found := (findCtx_some.mp h).1
  rw [Bool.and_eq_true] at found
  exact of_decide_eq_true found.1

theorem closeWait_sustains (f : RxFrame) (s : State) : Sustains calm ok s (closeWait f s) := by
  unfold closeWait
  split
  · exact placeReply_sustains f _ _ s
  dsimp only
  split
  · exact (markHit_sustains _ s).trans (placeReply_sustains f _ _ _)
  · next found =>
    have pended := (markHit_sustains (calm := calm) (ok := ok) s.ctxsBad s).trans (closePending_sustains (openHolding_opened found))
    exact pended.trans ((applyClose_sustains _ _).trans ((drainTest_sustains _).trans (placeReply_sustains f _ _ _)))

theorem closeAttached_sustains (i : Fin 4) (s : State) : Sustains False ok s (closeAttached i s) := by
  unfold closeAttached
  split
  · exact applyClose_sustains i s
  · exact dropWhere_sustains _ _ _ s False.elim

theorem closeNow_serves (f : RxFrame) (s : State) : Serves ok s (closeNow f s) := by
  unfold closeNow
  dsimp only
  split
  · exact ((markHit_sustains _ s).trans (placeReply_sustains f _ _ _)).serves
  · next found =>
    have pended := (markHit_sustains (calm := False) (ok := ok) (s.listBad || s.ctxsBad) s).trans
      (closePending_sustains (openHolding_opened found))
    exact (pended.trans ((closeAttached_sustains _ _).trans ((drainTest_sustains _).trans (placeReply_sustains f _ _ _)))).arbitrated

end Sys2Proof.Machine
end

section
/-! PROOFS. What the remaining handlings sustain: the timebase and the lines, the fleet and pilot tables, the host link and the spread port
(R4 to R22, R26 to R35, R41 to R65, R84, R135, R136, R141 to R153). -/

namespace Sys2Proof.Machine

variable {calm ok : Prop} {s t u : State} {i : Fin 4}

/-! ### The timebase and the lines -/

theorem timeSet_sustains (f : RxFrame) (s : State) : Sustains calm ok s (timeSet f s) := by
  unfold timeSet
  split
  · exact (withTime_sustains s _).trans ((setLock_sustains _ _).trans (placeReply_sustains f _ _ _))
  · exact placeReply_sustains f _ _ s

theorem storeOutput_sustains (line : Fin 4) (src : Option Source) (form : Option Form) (width : Nat) (pol : Option Polarity) (s : State) :
    Sustains calm ok s (storeOutput line src form width pol s) := .of_same rfl rfl

theorem routeSet_sustains (f : RxFrame) (s : State) : Sustains calm ok s (routeSet f s) := by
  unfold routeSet
  dsimp only
  split
  · exact (holdChanged_sustains s _).trans (placeReply_sustains f _ _ _)
  · exact (storeOutput_sustains _ _ _ _ _ s).trans (placeReply_sustains f _ _ _)
  · exact placeReply_sustains f _ _ s

theorem tickHoldover_sustains (s : State) : Sustains calm ok s (tickHoldover s) := by
  unfold tickHoldover
  split
  · exact enterHoldover_sustains s
  · exact .refl s

theorem tick_serves (s : State) : Serves ok s (tick s) := by
  have timed : Sustains False ok s ((s.mapOutputs outputTick).withTime { s.time with n := s.time.n + 1 }) :=
    (mapOutputs_sustains outputTick s).trans (withTime_sustains _ _)
  exact ((timed.trans (tickHoldover_sustains _)).trans ((tickJob_sustains _).trans (tickCompares_sustains _))).arbitrated

theorem ppsReport_sustains (was : LockState) (step : Int) (s : State) : Sustains calm ok s (ppsReport was step s) := by
  unfold ppsReport
  split
  · exact offerReport_sustains _ s
  · exact offerReport_sustains _ s
  · split
    · exact .refl s
    · exact offerReport_sustains _ s

theorem alignPps_serves (s : State) : Serves ok s (alignPps s) := by
  unfold alignPps
  dsimp only
  have aligned (tb : Timebase) (step : Int) : Sustains False ok s (ppsReport s.time.lock step (setLock .locked (s.withTime tb))) :=
    (withTime_sustains s tb).trans ((setLock_sustains _ _).trans (ppsReport_sustains _ _ _))
  refine Sustains.arbitrated (Sustains.trans ?_ (drainTest_sustains _))
  split
  · exact aligned _ _
  · exact (aligned _ _).trans (stepCompares_sustains _ _ _)

/-! ### The fleets -/

/-- A fleet record is stored that keeps the fold target above 0. -/
theorem withFleet_sustains (f : Fin 4) {r : FleetRecord} (target : 1 ≤ (s.fleet f).target → 1 ≤ r.target) :
    Sustains calm ok s (s.withFleet f r) := by
  refine ⟨fun h => h.of_outbox rfl, fun h => ⟨h.ordered, h.engine, h.attached, h.closing, fun k g => ?_, h.budget⟩, fun _ h => h⟩
  by_cases e : g = f
  · rw [e, State.fleet_withFleet]
    exact target (h.targets k f)
  · rw [s.fleet_withFleet_ne e]
    exact h.targets k g

theorem arm_sustains (f : Fin 4) (a : Option Arm) (s : State) : Sustains calm ok s (s.withFleet f { s.fleet f with arm := a }) :=
  withFleet_sustains f id

theorem fleetSet_sustains (f : RxFrame) (s : State) : Sustains calm ok s (fleetSet f s) := by
  unfold fleetSet
  dsimp only
  split
  · exact placeReply_sustains f _ _ s
  split
  · exact markHit_sustains true s
  split
  · exact placeReply_sustains f _ _ s
  split
  · exact placeReply_sustains f _ _ s
  · exact (withFleet_sustains _ fun _ => Nat.le_max_left 1 _).trans (placeReply_sustains f _ _ _)

theorem fleetGet_sustains (f : RxFrame) (s : State) : Sustains calm ok s (fleetGet f s) := by
  unfold fleetGet
  dsimp only
  split
  · exact placeReply_sustains f _ _ s
  · exact placeReply_sustains f _ _ s

theorem armRequest_sustains (f : RxFrame) (s : State) : Sustains calm ok s (armRequest f s) := by
  unfold armRequest
  dsimp only
  split
  · exact placeReply_sustains f _ _ s
  · exact (arm_sustains _ _ s).trans (placeReply_sustains f _ _ _)

theorem takeBreak_serves (f : Fin 4) (s : State) : Serves ok s (takeBreak f s) := by
  unfold takeBreak
  split
  · exact (offerReport_sustains _ s).serves
  split
  · exact (offerReport_sustains _ s).serves
  next a _ =>
  dsimp only
  have armed (calm : Prop) := arm_sustains (calm := calm) (ok := ok) f (armAfter a) s
  have entered (calm : Prop) := enterSweep_sustains (calm := calm) (ok := ok) .timeBreak f a.vp (breakT0 s.time.n (s.fleet f).offset) none
    (s.withFleet f { s.fleet f with arm := armAfter a })
  split
  · next e =>
    rw [e] at entered
    exact ((armed False).trans (entered False False.elim)).arbitrated
  · next e =>
    rw [e] at entered
    exact ((armed True).trans ((entered True fun _ => .inr nofun).trans (offerReport_sustains _ _))).serves
  · next e =>
    rw [e] at entered
    exact ((armed True).trans (entered True fun _ => .inr nofun)).serves

/-! ### The pilots -/

theorem withSlot_sustains (s : State) (j : Fin 8) (p : PilotSlot) : Sustains calm ok s (s.withSlot j p) := .of_same rfl rfl

theorem pilotOpen_sustains (f : RxFrame) (s : State) : Sustains calm ok s (pilotOpen f s) := by
  unfold pilotOpen
  dsimp only
  split
  · exact placeReply_sustains f _ _ s
  split
  · exact markHit_sustains true s
  split
  · exact placeReply_sustains f _ _ s
  split
  · exact placeReply_sustains f _ _ s
  · exact (withSlot_sustains s _ _).trans (placeReply_sustains f _ _ _)

theorem pilotWords_sustains (f : RxFrame) (s : State) : Sustains calm ok s (pilotWords f s) := by
  unfold pilotWords
  dsimp only
  split
  · exact placeReply_sustains f _ _ s
  split
  · exact placeReply_sustains f _ _ s
  split
  · exact (withSlot_sustains s _ _).trans ((offerReport_sustains _ _).trans (placeReply_sustains f _ _ _))
  · exact (withSlot_sustains s _ _).trans (placeReply_sustains f _ _ _)

theorem pilotClose_sustains (f : RxFrame) (s : State) : Sustains calm ok s (pilotClose f s) := by
  unfold pilotClose
  dsimp only
  split
  · exact placeReply_sustains f _ _ s
  split
  · exact placeReply_sustains f _ _ s
  split
  · exact (withSlot_sustains s _ _).trans ((offerReport_sustains _ _).trans (placeReply_sustains f _ _ _))
  split
  · exact (withSlot_sustains s _ _).trans ((offerReport_sustains _ _).trans (placeReply_sustains f _ _ _))
  · exact (withSlot_sustains s _ _).trans (placeReply_sustains f _ _ _)

/-! ### The host link -/

theorem syncRequest_sustains (f : RxFrame) (s : State) : Sustains calm ok s (syncRequest f s) :=
  (placeReply_sustains f _ _ s).trans (.of_same rfl rfl)

/-- A LINK ERROR moves the receiver to HUNT. -/
theorem hunt_sustains (cause : LinkCause) (s : State) : Sustains calm ok s (linkError cause (s.withLink { s.link with receiver := .hunt })) := by
  have moved : Sustains calm ok s (s.withLink { s.link with receiver := .hunt }) := .of_same rfl rfl
  exact moved.trans (offerReport_sustains _ _)

theorem offerFrame_sustains (f : RxFrame) (s : State) : Sustains calm ok s (offerFrame f s) := by
  unfold offerFrame
  split
  · exact .of_same rfl rfl
  · exact hunt_sustains _ s

theorem checkedFrame_sustains (f : RxFrame) (s : State) : Sustains calm ok s (checkedFrame f s) := by
  unfold checkedFrame
  split
  · exact offerFrame_sustains f s
  split
  · exact offerFrame_sustains f s
  · exact .of_same rfl rfl

theorem badFrame_sustains (cause : LinkCause) (s : State) : Sustains calm ok s (badFrame cause s) := by
  unfold badFrame
  split
  · exact hunt_sustains _ s
  · exact .refl s

theorem keepPartial_sustains (bs : List Byte) (s : State) : Sustains calm ok s (keepPartial bs s) := .of_same rfl rfl

theorem receive_sustains (n : Nat) (bs : List Byte) (s : State) : Sustains calm ok s (receive n bs s) := by
  induction n generalizing bs s with
  | zero => exact keepPartial_sustains bs s
  | succ n ih =>
    cases bs with
    | nil => exact keepPartial_sustains [] s
    | cons a bs =>
      unfold receive
      split
      · exact ih bs s
      split
      · exact keepPartial_sustains _ s
      split
      · exact ih _ s
      split
      · exact keepPartial_sustains _ s
      · exact (badFrame_sustains _ s).trans (ih _ _)
      · exact (badFrame_sustains _ s).trans (ih _ _)
      · exact (checkedFrame_sustains _ s).trans (ih _ _)

theorem traceSent_sustains {cu : Cursor} (cursor : s.emitter.cursor = some cu) : Sustains calm ok s (traceSent cu s) := by
  have counted : Sustains calm ok s (s.withEmitter { s.emitter with cursor := some { cu with sending := false, sent := cu.sent + 1 } }) := by
    refine .of_same ?_ ?_
    · simp [State.ledger, cursor]
    · simp [State.outbox, cursor]
  unfold traceSent
  dsimp only
  split
  · exact counted.trans (endEmission_sustains rfl rfl)
  · exact counted

theorem endMessage_sustains (m : TxMessage) (s : State) : Sustains calm ok (s.withLink { s.link with tx := none }) (endMessage m s) := by
  unfold endMessage
  dsimp only
  split
  · exact .refl _
  split
  · exact .refl _
  · next cursor =>
    split
    · exact traceSent_sustains cursor
    · exact .refl _

/-- The message ends and the arbiter decides: the line part is the decision's (R152, R153). -/
theorem endMessage_serves (m : TxMessage) (s : State) : Serves ok s (decideLine (endMessage m s)) := by
  have ended : Sustains True ok (s.withLink { s.link with tx := none }) (decideLine (endMessage m s)) :=
    (endMessage_sustains m s).trans (decideLine_sustains _)
  exact ⟨fun _ => decideLine_waits _, fun h => ended.accounts (h.of_ledger rfl), fun h => .inr (ended.engine trivial h)⟩

/-! ### The spread port -/

theorem withRing_sustains (s : State) (r : Ring) : Sustains calm ok s (s.withRing r) := .of_same rfl rfl

theorem spreadFault_sustains (kind : FaultKind) (loc : Option (Nat × Nat)) (s : State) : Sustains calm ok s (spreadFault kind loc s) := by
  unfold spreadFault
  split
  · exact (withRing_sustains s _).trans (offerReport_sustains _ _)
  · exact withRing_sustains s _

/-- A change, calm or not, before a written frame's end, which has the arbiter look. -/
theorem Sustains.written (h : Sustains False ok s u) : Serves ok s (frameWritten u) :=
  ((h.trans (arrivalNotice_sustains u)).trans (drainTest_sustains _)).arbitrated

theorem firstFrame_serves (g b : Nat) (xs : List RingSample) (s : State) : Serves ok s (firstFrame g b xs s) := by
  have written : Sustains False ok s (writeBlock g b xs (s.withRing { s.ring with head := some b })) :=
    (withRing_sustains s _).trans (withRing_sustains _ _)
  unfold firstFrame
  dsimp only
  split
  · exact (written.trans (evictionNotice_sustains _ _)).written
  · exact written.written

theorem advanceFrame_serves (old g b : Nat) (xs : List RingSample) (s : State) : Serves ok s (advanceFrame old g b xs s) := by
  have advanced : Sustains False ok s (advanceHead old b s) := withRing_sustains s _
  unfold advanceFrame
  dsimp only
  split
  · exact ((advanced.trans (evictionNotice_sustains _ _)).trans (withRing_sustains _ _)).written
  · exact (advanced.trans (withRing_sustains _ _)).written

theorem placeBlock_serves (g group b : Nat) (xs : List RingSample) (s : State) : Serves ok s (placeBlock g group b xs s) := by
  unfold placeBlock
  split
  · exact (spreadFault_sustains _ _ s).serves
  split
  · exact firstFrame_serves g b xs s
  split
  · exact (spreadFault_sustains _ _ s).serves
  split
  · exact advanceFrame_serves _ g b xs s
  split
  · exact (withRing_sustains s _).serves
  split
  · exact (withRing_sustains s _).serves
  · exact (withRing_sustains s _).written

theorem judgeBlock_serves (bytes : List Byte) (s : State) : Serves ok s (judgeBlock bytes s) := by
  unfold judgeBlock
  split
  · exact (spreadFault_sustains _ _ s).serves
  split
  · exact (spreadFault_sustains _ _ s).serves
  split
  · exact (Sustains.refl s).serves
  · exact placeBlock_serves _ _ _ _ s

theorem receivePiece_serves (bytes : List Byte) (last : Bool) (s : State) : Serves ok s (receivePiece bytes last s) := by
  unfold receivePiece
  split
  · exact (withRing_sustains s _).serves
  · split
    · exact judgeBlock_serves bytes s
    · exact (withRing_sustains s _).serves
  · split
    · exact (withRing_sustains s _).before (judgeBlock_serves _ _)
    · exact (withRing_sustains s _).serves

end Sys2Proof.Machine
end

section
/-! PROOFS. What every command sustains: the resets, the end of a handling, and the command queue (R84, R152 to R155, R165, R168 to R170). -/

namespace Sys2Proof.Machine

variable {ok : Prop} {s t u : State} {i : Fin 4}

/-! ### The resets -/

/-- With no sweep listed, the engine and the emitter IDLE and every context FREE the accounts are right. -/
theorem Accounts.cleared (sweeps : t.sweeps = SweepList.cleared) (engine : t.engine = Engine.idle) (emitter : t.emitter = Emitter.idle)
    (ctxs : ∀ i, ∃ gen, t.ctx i = Context.freed gen) (targets : ok → ∀ f, 1 ≤ (t.fleet f).target) : Accounts ok t := by
  have listed : t.listed = [] := congrArg SweepList.recs sweeps
  have state (i : Fin 4) : (t.ctx i).state = .free := by
    obtain ⟨gen, e⟩ := ctxs i
    rw [e]
    rfl
  refine ⟨.of_cleared sweeps, ?_, ⟨?_, fun i => ?_⟩, ?_, targets, fun _ => ⟨fun i => ?_, fun v i j collects => ?_⟩⟩
  · unfold EngineMatches
    rw [engine, listed]
    exact ⟨nofun, nofun⟩
  · rw [listed]
    exact nofun
  · obtain ⟨gen, e⟩ := ctxs i
    rw [e, listed]
    rfl
  · unfold ClosingMatches
    rw [emitter]
    exact ⟨fun i => ⟨nofun, fun h => nomatch (state i).symm.trans h⟩, List.nodup_nil, nofun⟩
  · obtain ⟨gen, e⟩ := ctxs i
    rw [e]
    exact Nat.zero_le _
  · exact collects.1.elim (fun h => nomatch (state i).symm.trans h) fun h => nomatch (state i).symm.trans h

theorem warmRestart_fleet (cause : ResetCause) (tag : Byte) (s : State) (f : Fin 4) :
    (warmRestart cause tag s).fleet f = { s.fleet f with arm := none } :=
  (congrArg (fun v => v.fleets[f.val]) (warmRestart_tables cause tag s)).trans (mapFour_getElem _ _ _ _)

theorem warmRestart_waits (cause : ResetCause) (tag : Byte) (s : State) : NothingWaits (warmRestart cause tag s) :=
  placeNotice_waits _ fun _ => rfl

theorem warmRestart_accounts (cause : ResetCause) (tag : Byte) (h : Accounts ok s) : Accounts ok (warmRestart cause tag s) := by
  have only := placeNotice_only (.report tag (.restarted cause)) (restartBase cause s.link.tx s.carried)
  refine .cleared only.sweeps only.engine only.emitter (fun i => ⟨_, warmRestart_ctx cause tag s i⟩) fun k f => ?_
  rw [warmRestart_fleet]
  exact h.targets k f

theorem warmRestart_served (cause : ResetCause) (tag : Byte) (s : State) : ArbiterServed (warmRestart cause tag s) :=
  .of_empty (placeNotice_only (.report tag (.restarted cause)) (restartBase cause s.link.tx s.carried)).listed

theorem warmRestart_serves (cause : ResetCause) (tag : Byte) (s : State) : Serves ok s (warmRestart cause tag s) :=
  ⟨fun _ => warmRestart_waits cause tag s, warmRestart_accounts cause tag, fun _ => .inr (warmRestart_served cause tag s)⟩

/-! ### Whole steps -/

/-- What a whole step from `s` to `t` keeps: the line served, the accounts and the engine's arbiter served. -/
structure Lasts (ok : Prop) (s t : State) : Prop where
  line : LineServed s → LineServed t
  accounts : Accounts ok s → Accounts ok t
  engine : ArbiterServed s → ArbiterServed t

theorem Lasts.refl (s : State) : Lasts ok s s := ⟨id, id, id⟩

theorem Lasts.trans (h : Lasts ok s t) (k : Lasts ok t u) : Lasts ok s u :=
  ⟨k.line ∘ h.line, k.accounts ∘ h.accounts, k.engine ∘ h.engine⟩

/-- A calm change in which no check error is found. -/
theorem Sustains.lasts (h : Sustains True ok s t) (hit : t.checkHit = s.checkHit) : Lasts ok s t := by
  refine ⟨fun served => ?_, h.accounts, h.engine trivial⟩
  obtain ⟨clear, waits⟩ := (lineServed_iff s).mp served
  exact (lineServed_iff t).mpr ⟨hit.trans clear, h.line waits⟩

/-- The end of a handling: a check error found in it brings the warm restart, which serves everything (R169). -/
theorem Serves.settles (h : Serves ok s t) : Lasts ok s (settle t) := by
  unfold settle
  split
  · refine ⟨fun _ => (lineServed_iff _).mpr ⟨?_, warmRestart_waits _ _ t⟩, fun a => warmRestart_accounts _ _ (h.accounts a),
      fun _ => warmRestart_served _ _ t⟩
    exact (placeNotice_only (.report 0 (.restarted .tableCheck)) (restartBase .tableCheck t.link.tx t.carried)).checkHit
  · next clear =>
    refine ⟨fun served => ?_, h.accounts, fun a => (h.engine a).resolve_left clear⟩
    exact (lineServed_iff t).mpr ⟨Bool.not_eq_true _ ▸ clear, h.line ((lineServed_iff s).mp served).2⟩

theorem handle_lasts {g : State → State} (hu : Lasts ok s u) (hg : Serves ok u (g u)) (h : handle g u = .next t) : Lasts ok s t := by
  unfold handle at h
  split at h
  · cases h
    exact hu
  · cases h
    exact hu.trans hg.settles

theorem takeRequest_lasts {f : RxFrame} {g : State → State} (hg : ∀ u, Serves ok u (g u)) (h : takeRequest f g s = .next t) :
    Lasts ok s t := by
  refine handle_lasts (.refl s) ?_ h
  split
  · exact (Sustains.refl s).serves
  split
  · next rest _ _ =>
    have counted : Sustains True ok s (s.withLink (takenLink rest s)) := .of_same rfl rfl
    simp only
    split
    · exact (counted.trans (placeReply_sustains _ _ _ _)).serves
    · exact (counted.trans (placeReply_sustains _ _ _ _)).serves
    · exact counted.before (hg _)
  · exact (Sustains.refl s).serves

/-- A request whose changes are all calm. -/
theorem takeQuiet_lasts {f : RxFrame} {g : State → State} (hg : ∀ u, Sustains True ok u (g u)) (h : takeRequest f g s = .next t) :
    Lasts ok s t := takeRequest_lasts (fun u => (hg u).serves) h

theorem replyOnly_lasts (f : RxFrame) (st : Status) (c : State → List Byte)
    (h : takeRequest f (fun u => placeReply f st (c u) u) s = .next t) : Lasts ok s t :=
  takeQuiet_lasts (fun u => placeReply_sustains f st (c u) u) h

theorem next_lasts (hu : Lasts ok s u) (h : (Host.Outcome.next u : Host.Outcome State Fault Refusal) = .next t) : Lasts ok s t := by
  cases h
  exact hu

theorem statusReply_sustains (f : RxFrame) (s : State) :
    Sustains True ok s (placeReply f .ok (statusContents s) (markHit (s.listBad || s.ctxsBad) s)) :=
  (markHit_sustains _ s).trans (placeReply_sustains f _ _ _)

theorem setPin_lasts (line : Fin 4) (level : Bool) (s : State) : Lasts ok s (setPin line level s) :=
  (setPin_sustains line level s).lasts (setPin_kept line level s).1

theorem tickWhen_lasts {p : State → Prop} [DecidablePred p] (h : handle (fun t => if p t then tick t else t) s = .next t) : Lasts ok s t := by
  refine handle_lasts (.refl s) ?_ h
  split
  · exact tick_serves s
  · exact (Sustains.refl s).serves

/-! ### Holding and completing a cold reset -/

theorem coldReset_lasts (cause : ResetCause) (s : State) : Lasts ok s (coldReset cause s) := by
  refine ⟨fun _ => (lineServed_iff _).mpr ⟨rfl, .of_busy fun free => nomatch free.1⟩, fun _ => ?_, fun _ => .of_empty rfl⟩
  refine .cleared rfl rfl rfl (fun i => ⟨0, coldReset_ctx cause s i⟩) fun _ f => ?_
  rw [coldReset_fleet]
  exact show 1 ≤ (FleetRecord.cold 0).target by decide

theorem completeReset_lasts (code : Fin 4) (position : Fin 8) (s : State) : Lasts ok s (completeReset code position s) := by
  have ledger : (completeReset code position s).ledger = s.ledger := (placeNotice_only _ _).ledger
  refine ⟨fun served => (lineServed_iff _).mpr ⟨?_, placeNotice_waits _ fun _ => rfl⟩, fun h => h.of_ledger ledger, fun h => h.of_ledger ledger⟩
  exact (placeNotice_only _ _).checkHit.trans served.1

/-! ### Every command -/

theorem execTransmissionEnd_lasts (h : execTransmissionEnd s = .next t) : Lasts ok s t := by
  refine handle_lasts (.refl s) ?_ h
  split
  · exact (Sustains.refl s).serves
  · exact endMessage_serves _ s

theorem execBlockFrame_lasts {piece : FramePiece} (h : execBlockFrame piece s = .next t) : Lasts ok s t := by
  unfold execBlockFrame at h
  split at h
  · have dropped : Sustains True ok s (dropPiece piece.last s) := withRing_sustains s _
    exact next_lasts (dropped.lasts rfl) h
  · exact handle_lasts (.refl s) (receivePiece_serves _ _ s) h

theorem execPpsEdge_lasts {line : Fin 4} {level : Bool} (h : execPpsEdge line level s = .next t) : Lasts ok s t := by
  refine handle_lasts (setPin_lasts line level s) ?_ h
  split
  · exact alignPps_serves _
  · exact (Sustains.refl _).serves

theorem execTimeBreak_lasts {line : Fin 4} {level : Bool} (h : execTimeBreak line level s = .next t) : Lasts ok s t := by
  refine handle_lasts (setPin_lasts line level s) ?_ h
  split
  · exact takeBreak_serves _ _
  · exact (Sustains.refl _).serves

theorem exec_lasts {c : Instr} (h : exec c s = .next t) : Lasts ok s t := by
  cases c with
  | ident => exact replyOnly_lasts _ _ identContents h
  | status => exact takeQuiet_lasts (statusReply_sustains _) h
  | paramSet => exact takeQuiet_lasts (paramSet_sustains _) h
  | paramGet => exact replyOnly_lasts _ _ (paramContents _) h
  | start => exact takeQuiet_lasts (startRequest_sustains _) h
  | stopFinish tag body =>
    simp only [exec, execStopFinish] at h
    split at h
    · exact next_lasts (.refl s) h
    · exact takeQuiet_lasts (stopFinish_sustains _) h
  | stopDiscard tag body =>
    simp only [exec, execStopDiscard] at h
    split at h
    · exact takeRequest_lasts (stopDiscard_serves _) h
    · exact next_lasts (.refl s) h
  | restart tag => exact takeRequest_lasts (warmRestart_serves .restart tag) h
  | sync => exact takeQuiet_lasts (syncRequest_sustains _) h
  | timeSet => exact takeQuiet_lasts (timeSet_sustains _) h
  | routeSet => exact takeQuiet_lasts (routeSet_sustains _) h
  | routeGet => exact replyOnly_lasts _ _ (fun u => routeBytes u.router) h
  | pilotOpen => exact takeQuiet_lasts (pilotOpen_sustains _) h
  | pilotWords => exact takeQuiet_lasts (pilotWords_sustains _) h
  | pilotClose => exact takeQuiet_lasts (pilotClose_sustains _) h
  | fleetSet => exact takeQuiet_lasts (fleetSet_sustains _) h
  | fleetGet => exact takeQuiet_lasts (fleetGet_sustains _) h
  | arm => exact takeQuiet_lasts (armRequest_sustains _) h
  | post => exact takeRequest_lasts (postRequest_serves _) h
  | schedule => exact takeQuiet_lasts (scheduleRequest_sustains _) h
  | cancel => exact takeRequest_lasts (cancelRequest_serves _) h
  | closeVpWait tag body =>
    simp only [exec, execCloseVpWait] at h
    split at h
    · exact next_lasts (.refl s) h
    · exact takeQuiet_lasts (closeWait_sustains _) h
  | closeVpNow tag body =>
    simp only [exec, execCloseVpNow] at h
    split at h
    · exact takeRequest_lasts (closeNow_serves _) h
    · exact next_lasts (.refl s) h
  | faultRead => exact takeQuiet_lasts (g := faultRead _) (fun u => (withRing_sustains u _).trans (placeReply_sustains _ _ _ _)) h
  | unknownKind kind tag body =>
    simp only [exec, execUnknownKind] at h
    split at h
    · exact takeQuiet_lasts .refl h
    · exact next_lasts (.refl s) h
  | hostFrame => exact handle_lasts (.refl s) (receive_sustains _ _ s).serves h
  | transmissionStart => exact handle_lasts (.refl s) (decideLine_sustains s).serves h
  | transmissionEnd => exact execTransmissionEnd_lasts h
  | transmitHold line level => exact next_lasts (setPin_lasts line level s) h
  | blockFrame => exact execBlockFrame_lasts h
  | sampleTick => exact handle_lasts (.refl s) (tick_serves s) h
  | holdoverDeadline => exact tickWhen_lasts (p := (deadlineNext · = true)) h
  | scheduleCompare => exact tickWhen_lasts (p := (compareNext · = true)) h
  | pulseEnd line => exact tickWhen_lasts (p := (·.router.outputs[line.val].count = 1)) h
  | ppsEdge => exact execPpsEdge_lasts h
  | timeBreak => exact execTimeBreak_lasts h
  | correlationPassEnd => exact handle_lasts (.refl s) (endPass_sustains s).serves h
  | jobCompletion => exact handle_lasts (.refl s) (completeJob_serves s) h
  | powerUp => exact next_lasts (coldReset_lasts .power s) h
  | resetPin =>
    simp only [exec, execResetPin] at h
    split at h
    · exact next_lasts (.refl s) h
    · exact next_lasts (coldReset_lasts .pin s) h
  | coldResetComplete code position =>
    simp only [exec, execColdResetComplete] at h
    split at h
    · exact next_lasts (completeReset_lasts code position s) h
    · exact next_lasts (.refl s) h

theorem step_lasts (h : step s = .next t) : Lasts ok s t := by
  unfold step at h
  split at h
  · exact next_lasts (.refl s) h
  · next c rest _ =>
    have taken : Sustains True ok s { s with pending := rest } := .of_same rfl rfl
    exact (taken.lasts rfl).trans (exec_lasts h)

end Sys2Proof.Machine
end

section
/-! PROOFS. The arbiters stay served and the accounts right through every step (R83, R84, R121, R122, R132, R152, R153). -/

namespace Sys2Proof.Machine

/-- Settles O58: a step that can leave the engine IDLE or a sweep READY ends in the engine's look, and what can free the line or put
something to send before it ends in the transmit arbiter's. -/
theorem stepKeepsArbiterServed : Obligations.StepKeepsArbiterServed :=
  ⟨fun _ _ served h => (step_lasts (ok := True) h).engine served, fun _ _ served h => (step_lasts (ok := True) h).line served⟩

/-- Settles O59: the accounts with the list, and with fleets in range the budgets too, are sustained by every operation on the list, the
contexts, the engine and the closing order. -/
theorem stepKeepsAccounts : Obligations.StepKeepsAccounts := by
  intro s t ordered engine attached closing h
  have accounts : Accounts (FleetsInRange s ∧ Budgeted s) s :=
    ⟨ordered, engine, attached, closing, fun k f => (k.1 f).2.2.2.2.1, fun k => k.2⟩
  have kept := (step_lasts h).accounts accounts
  exact ⟨⟨kept.engine, kept.attached, kept.closing⟩, fun fleets budgeted => kept.budget ⟨fleets, budgeted⟩⟩

end Sys2Proof.Machine
end

section
/-! PROOFS. The editing pass on one channel: peaks, the reference peak as a rank among them, and the rejected windows (R102 to R106). -/

namespace Sys2Proof.Machine

/-! ### Peaks (R102) -/

@[simp] theorem windowPeaks_length (wn : Nat) (trace : List Int) : (windowPeaks wn trace).length = wn := by simp [windowPeaks]

theorem windowPeaks_getD {wn w : Nat} (trace : List Int) (h : w < wn) :
    (windowPeaks wn trace).getD w 0 = peakOf (windowOf trace w) := by
  rw [List.getD_eq_getElem _ _ (by simpa using h)]
  simp [windowPeaks]

theorem natAbs_le_peakOf {xs : List Int} {x : Int} (h : x ∈ xs) : x.natAbs ≤ peakOf xs :=
  (peak_spec xs 0).2.1 x h

/-- The peak of a window that holds a sample is the magnitude of one of its samples. -/
theorem exists_natAbs_eq_peakOf {xs : List Int} (h : xs ≠ []) : ∃ x ∈ xs, x.natAbs = peakOf xs := by
  obtain ⟨-, bound, zero | found⟩ := peak_spec xs 0
  · obtain ⟨x, hx⟩ := List.exists_mem_of_ne_nil xs h
    exact ⟨x, hx, Nat.le_antisymm (bound x hx) (zero.trans_le (Nat.zero_le _))⟩
  · exact found

/-- The samples of a window are those of its 64 lags (R102). -/
theorem mem_windowOf {trace : List Int} {w wn : Nat} (length : trace.length = 64 * wn) (h : w < wn) (x : Int) :
    x ∈ windowOf trace w ↔ ∃ lag, lag / 64 = w ∧ trace.getD lag 0 = x := by
  simp only [windowOf, Config.windowLags, List.mem_iff_getElem?, List.getElem?_take, List.getElem?_drop]
  constructor
  · rintro ⟨i, found⟩
    split at found
    · next hi => exact ⟨64 * w + i, by omega, by rw [List.getD_eq_getElem?_getD, found, Option.getD_some]⟩
    · cases found
  · rintro ⟨lag, rfl, rfl⟩
    refine ⟨lag % 64, ?_⟩
    rw [if_pos (Nat.mod_lt _ (by decide)), Nat.div_add_mod, List.getD_eq_getElem _ _ (by omega)]
    exact List.getElem?_eq_getElem _

/-! ### The reference peak (R103) -/

/-- In a rising list no more elements lie below the one at a place than stand before it, and at least those up to it lie not above. -/
theorem countP_of_sortedLE {l : List Nat} (sorted : l.SortedLE) {i : Nat} (h : i < l.length) :
    l.countP (fun x => decide (x < l[i])) ≤ i ∧ i < l.countP (fun x => decide (x ≤ l[i])) := by
  have rises {a b : Nat} (ha : a < l.length) (hb : b < l.length) (le : a ≤ b) : l[a] ≤ l[b] :=
    sorted.getElem_le_getElem_of_le le
  constructor
  · have behind : (l.drop i).countP (fun x => decide (x < l[i])) = 0 := by
      refine List.countP_eq_zero.mpr fun x hx => ?_
      obtain ⟨k, hk, rfl⟩ := List.mem_iff_getElem.mp hx
      rw [List.getElem_drop, decide_eq_true_eq, Nat.not_lt]
      exact rises h _ (Nat.le_add_right i k)
    calc l.countP _ = (l.take i).countP _ + (l.drop i).countP _ := by rw [← List.countP_append, List.take_append_drop]
      _ ≤ i := by rw [behind]; exact List.countP_le_length.trans (List.length_take_le i l)
  · have upto : (l.take (i + 1)).countP (fun x => decide (x ≤ l[i])) = (l.take (i + 1)).length := by
      refine List.countP_eq_length.mpr fun x hx => decide_eq_true ?_
      obtain ⟨k, hk, rfl⟩ := List.mem_iff_getElem.mp hx
      rw [List.length_take] at hk
      rw [List.getElem_take]
      exact rises _ h (by omega)
    rw [List.length_take_of_le h] at upto
    exact upto.symm.trans_le (List.take_sublist (i + 1) l).countP_le

/-- The reference peak is a peak whose rank is the lower median's (R103). -/
theorem referencePeak_rank {peaks : List Nat} (h : peaks ≠ []) :
    referencePeak peaks ∈ peaks ∧
    peaks.countP (fun x => decide (x < referencePeak peaks)) ≤ (peaks.length - 1) / 2 ∧
    (peaks.length - 1) / 2 < peaks.countP (fun x => decide (x ≤ referencePeak peaks)) := by
  have perm := List.perm_insertionSort (· ≤ ·) peaks
  have place : (peaks.length - 1) / 2 < (peaks.insertionSort (· ≤ ·)).length := by
    have := List.length_pos_iff.mpr h
    rw [perm.length_eq]
    omega
  have found : referencePeak peaks = (peaks.insertionSort (· ≤ ·))[(peaks.length - 1) / 2] := List.getD_eq_getElem _ _ place
  have rank := countP_of_sortedLE List.sortedLE_insertionSort place
  rw [perm.countP_eq, perm.countP_eq] at rank
  rw [found]
  exact ⟨perm.mem_iff.mp (List.getElem_mem place), rank⟩

/-! ### The rejected windows (R104) -/

theorem mem_rejectedWindows {edit pref w : Nat} {peaks : List Nat} : w ∈ rejectedWindows edit pref peaks ↔
    w < peaks.length ∧ edit ≠ 0 ∧ pref ≠ 0 ∧ edit * pref < 16 * peaks.getD w 0 := by
  unfold rejectedWindows
  split
  · next off => simp only [List.not_mem_nil, false_iff]; tauto
  · next on =>
    rw [not_or] at on
    simp [on]

theorem rejectedWindows_rising (edit pref : Nat) (peaks : List Nat) : (rejectedWindows edit pref peaks).Pairwise (· < ·) := by
  unfold rejectedWindows
  split
  · exact .nil
  · exact List.pairwise_lt_range.filter _

/-- Settles O50: each part of the findings by its own lemma, the window of a lag being its quotient by 64. -/
theorem editingFinds : Obligations.EditingFinds := by
  intro edit reject wn policy q some_window length f
  have peaks : f.peaks.length = wn := windowPeaks_length wn q.trace
  have median := referencePeak_rank (List.ne_nil_of_length_pos (by omega : 0 < f.peaks.length))
  rw [peaks] at median
  obtain ⟨mem, below, upto⟩ := median
  refine ⟨peaks, fun w hw => ?_, mem, below, upto, fun w => peaks ▸ mem_rejectedWindows, rejectedWindows_rising _ _ _, rfl⟩
  have peak : f.peaks.getD w 0 = peakOf (windowOf q.trace w) := windowPeaks_getD q.trace hw
  have samples := mem_windowOf length hw
  rw [peak]
  refine ⟨fun lag inside => natAbs_le_peakOf ((samples _).mpr ⟨lag, inside, rfl⟩), ?_⟩
  have first : q.trace.getD (64 * w) 0 ∈ windowOf q.trace w := (samples _).mpr ⟨64 * w, by omega, rfl⟩
  obtain ⟨x, hx, largest⟩ := exists_natAbs_eq_peakOf (List.ne_nil_of_mem first)
  obtain ⟨lag, inside, rfl⟩ := (samples x).mp hx
  exact ⟨lag, inside, largest⟩

end Sys2Proof.Machine
end

section
/-! PROOFS. What the fold and the emitter take of a stored value: the value, or behind a check error the nearest within the bounds of R110
(R112, R134). -/

namespace Sys2Proof.Machine

/-- A window count as it is taken: behind a check error no more than the folded count (R112, R134). -/
def takenCount (err : Bool) (folded count : Nat) : Nat := if err then min folded count else count

/-- An accumulator as it is taken for a window count: behind a check error no further than the nearer end of its bounds (R112, R134). -/
def takenAcc (err : Bool) (count : Nat) (a : Int) : Int :=
  if err then max (-((count : Int) * 2 ^ 31)) (min ((count : Int) * (2 ^ 31 - 1)) a) else a

theorem clampInt_eq {lo hi : Int} (h : lo ≤ hi) (v : Int) : clampInt lo hi v = max lo (min hi v) := by
  unfold clampInt
  split
  · omega
  · split <;> omega

theorem saturate32_eq (v : Int) : saturate32 v = max (-2147483648) (min 2147483647 v) := clampInt_eq (by decide) v

theorem outside32_iff (v : Int) : outside32 v = true ↔ v < -2147483648 ∨ 2147483647 < v := by
  rw [outside32, Bool.or_eq_true, decide_eq_true_iff, decide_eq_true_iff]
  rfl

theorem boundCount_eq (folded count : Nat) : boundCount folded count = takenCount true folded count := by
  unfold boundCount takenCount
  split <;> simp <;> omega

theorem boundAcc_eq (count : Nat) (a : Int) : boundAcc count a = takenAcc true count a := by
  have ordered : -((count : Int) * 2 ^ 31) ≤ (count : Int) * (2 ^ 31 - 1) := by omega
  rw [boundAcc, clampInt_eq ordered, takenAcc, if_pos rfl]

end Sys2Proof.Machine
end

section
/-! PROOFS. The fold of one channel: what becomes of its window counts, accumulators, flags and check marks (R109, R111, R112). -/

namespace Sys2Proof.Machine

/-- The fold takes the count of an accepted window as R112 has it. -/
theorem foldCounts_getD {folded wn w : Nat} {err : Bool} {rejected counts : List Nat} (h : w < counts.length) :
    (foldCounts err folded (acceptedWindows wn rejected) counts).getD w 0 =
      if w < wn ∧ w ∉ rejected then takenCount err folded (counts.getD w 0) else counts.getD w 0 := by
  simp only [foldCounts, getD_mapIdx, if_pos h, accepted_mem, boundCount_eq]
  cases err <;> simp [takenCount]

/-- The fold takes an accumulator of an accepted window as R112 has it for the count taken. -/
theorem foldAccs_getD {wn lag : Nat} {err : Bool} {rejected taken : List Nat} {acc : List Int} (h : lag < acc.length) :
    (foldAccs err (acceptedWindows wn rejected) taken acc).getD lag 0 =
      if lag / 64 < wn ∧ lag / 64 ∉ rejected then takenAcc err (taken.getD (lag / 64) 0) (acc.getD lag 0) else acc.getD lag 0 := by
  simp only [foldAccs, getD_mapIdx, if_pos h, lagIn_iff, boundAcc_eq]
  cases err <;> simp [takenAcc, Config.windowLags]

theorem foldReadError_iff {wn : Nat} {rejected : List Nat} {r : StackRecord} :
    foldReadError (acceptedWindows wn rejected) r = true ↔
      (∃ lag ∈ r.accErr, lag / 64 < wn ∧ lag / 64 ∉ rejected) ∨ ∃ w ∈ r.cntErr, w < wn ∧ w ∉ rejected := by
  simp only [foldReadError, Bool.or_eq_true, List.any_eq_true, lagIn_iff, accepted_mem]

section fold
variable {folded wn : Nat} {q : ChannelRecord} {rejected : List Nat} {r : StackRecord} {err : Bool}

/-- What a fold leaves of a window's count (R109, R112). -/
theorem foldRecord_counts (found : foldReadError (acceptedWindows wn rejected) r = err) (length : r.counts.length = wn) {w : Nat}
    (h : w < wn) : (foldRecord folded wn q rejected r).counts.getD w 0 =
      if w ∈ rejected then r.counts.getD w 0 else takenCount err folded (r.counts.getD w 0) + 1 := by
  have taken := foldCounts_getD (folded := folded) (wn := wn) (err := err) (rejected := rejected) (length ▸ h)
  have inside : w < (foldCounts err folded (acceptedWindows wn rejected) r.counts).length := by
    rwa [foldCounts, List.length_mapIdx, length]
  simp only [foldRecord, found, getD_mapIdx, if_pos inside, accepted_mem, taken]
  by_cases rej : w ∈ rejected <;> simp [rej, h]

/-- What a fold leaves of an accumulator (R109, R112). -/
theorem foldRecord_acc (found : foldReadError (acceptedWindows wn rejected) r = err) (lags : r.acc.length = 64 * wn)
    (windows : r.counts.length = wn) {lag : Nat} (h : lag < 64 * wn) : (foldRecord folded wn q rejected r).acc.getD lag 0 =
      if lag / 64 ∈ rejected then r.acc.getD lag 0
      else takenAcc err (takenCount err folded (r.counts.getD (lag / 64) 0)) (r.acc.getD lag 0) + q.trace.getD lag 0 := by
  have window : lag / 64 < wn := by omega
  have count := foldCounts_getD (folded := folded) (wn := wn) (err := err) (rejected := rejected) (windows ▸ window)
  have taken := foldAccs_getD (wn := wn) (err := err) (rejected := rejected)
    (taken := foldCounts err folded (acceptedWindows wn rejected) r.counts) (lags ▸ h)
  have inside : lag < (foldAccs err (acceptedWindows wn rejected)
      (foldCounts err folded (acceptedWindows wn rejected) r.counts) r.acc).length := by
    rwa [foldAccs, List.length_mapIdx, lags]
  simp only [foldRecord, found, getD_mapIdx, if_pos inside, lagIn_iff, taken, count]
  by_cases rej : lag / 64 ∈ rejected <;> simp [rej, window]

end fold

/-- Settles O51: counts and accumulators by the values the fold takes; the flags and the marks are read off the record. -/
theorem foldAdds : Obligations.FoldAdds := by
  intro folded wn q rejected r err lags windows errs t count value
  have found : foldReadError (acceptedWindows wn rejected) r = err := Bool.eq_iff_iff.mpr (foldReadError_iff.trans errs.symm)
  refine ⟨?_, ?_, fun w h => foldRecord_counts found windows h, fun lag h => foldRecord_acc found lags windows h, ?_, ?_, ?_,
    fun lag => ?_, fun w => ?_⟩
  · simp [t, foldRecord, foldAccs, lags]
  · simp [t, foldRecord, foldCounts, windows]
  · simp [t, foldRecord]
  · simp [t, foldRecord]
  · simp [t, foldRecord, found]
  · simp only [t, foldRecord, List.mem_filter, Bool.not_eq_true', ← Bool.not_eq_true, lagIn_iff]
  · simp only [t, foldRecord, List.mem_filter, Bool.not_eq_true', ← Bool.not_eq_true, accepted_mem]

end Sys2Proof.Machine
end

section
/-! PROOFS. The values of a TRACE: what the emitter makes of a stack record (R130, R131, R133, R134). -/

namespace Sys2Proof.Machine

theorem emitReadError_iff (r : StackRecord) : emitReadError r = true ↔ r.accErr ≠ [] ∨ r.cntErr ≠ [] := by
  simp [emitReadError]

theorem outputClamped_iff {mode : OutputMode} {count : Nat} {a : Int} : outputClamped mode count a = true ↔
    mode = .sum ∧ count ≠ 0 ∧ (a < -2147483648 ∨ 2147483647 < a) := by
  simp only [outputClamped, Bool.and_eq_true, decide_eq_true_eq, outside32_iff, and_assoc]

/-- The sample sent for an accumulator: 0 in a dead window, else by the output mode (R130, R131). -/
theorem outputSample_eq (mode : OutputMode) (count : Nat) (a : Int) : outputSample mode count a =
    if count = 0 then 0
    else match mode with
      | .mean => a.sign * ((2 * a.natAbs + count) / (2 * count) : Nat)
      | .sum => max (-2147483648) (min 2147483647 a) := by
  cases mode with
  | mean => rfl
  | sum => exact congrArg (if count = 0 then 0 else ·) (saturate32_eq a)

@[simp] theorem emitCounts_length (folded : Nat) (r : StackRecord) : (emitCounts folded r).length = r.counts.length := by
  unfold emitCounts
  split <;> simp

theorem emitSamples_length (mode : OutputMode) (folded : Nat) (r : StackRecord) :
    (emitSamples mode folded r).length = r.acc.length := by
  rw [emitSamples, List.length_mapIdx, emitAccs]
  split <;> simp

theorem emitDead_rising (folded : Nat) (r : StackRecord) : (emitDead folded r).Pairwise (· < ·) :=
  List.pairwise_lt_range.filter _

section record
variable {folded : Nat} {r : StackRecord} {err : Bool}

/-- The emitter takes a window's count as R134 has it. -/
theorem emitCounts_getD (found : emitReadError r = err) (w : Nat) :
    (emitCounts folded r).getD w 0 = takenCount err folded (r.counts.getD w 0) := by
  unfold emitCounts
  rw [found]
  cases err
  · rfl
  · have zero : boundCount folded 0 = 0 := if_neg (Nat.not_lt_zero folded)
    have mapped := List.getD_map (l := r.counts) (n := w) 0 (boundCount folded)
    rw [zero, boundCount_eq] at mapped
    exact mapped

/-- The emitter takes an accumulator as R134 has it, for the count taken of its window. -/
theorem emitAccs_getElem? (found : emitReadError r = err) (lag : Nat) : (emitAccs folded r)[lag]? =
    r.acc[lag]?.map (takenAcc err (takenCount err folded (r.counts.getD (lag / 64) 0))) := by
  have count := emitCounts_getD (folded := folded) found
  unfold emitAccs
  simp only [found, count, boundAcc_eq]
  cases err
  · exact Option.map_id_apply.symm
  · simp [Config.windowLags]

theorem emitSamples_getElem? (found : emitReadError r = err) (mode : OutputMode) (lag : Nat) :
    (emitSamples mode folded r)[lag]? =
      r.acc[lag]?.map fun a => outputSample mode (takenCount err folded (r.counts.getD (lag / 64) 0))
        (takenAcc err (takenCount err folded (r.counts.getD (lag / 64) 0)) a) := by
  rw [emitSamples, List.getElem?_mapIdx, emitAccs_getElem? found, Option.map_map, emitCounts_getD found]
  rfl

/-- A sample is clamped where a live window's accumulator, as taken, lies outside 32 bits in SUM mode (R131). -/
theorem emitClamped_iff (found : emitReadError r = err) (mode : OutputMode) : emitClamped mode folded r = true ↔
    mode = .sum ∧ ∃ lag a, r.acc[lag]? = some a ∧ takenCount err folded (r.counts.getD (lag / 64) 0) ≠ 0 ∧
      (takenAcc err (takenCount err folded (r.counts.getD (lag / 64) 0)) a < -2147483648 ∨
        2147483647 < takenAcc err (takenCount err folded (r.counts.getD (lag / 64) 0)) a) := by
  simp only [emitClamped, List.any_eq_true, id, exists_eq_right, List.mem_iff_getElem?, List.getElem?_mapIdx,
    emitAccs_getElem? found, emitCounts_getD found, Option.map_map, Option.map_eq_some_iff, Function.comp_apply,
    outputClamped_iff, Config.windowLags]
  constructor
  · rintro ⟨lag, a, at_lag, sum, live, outside⟩
    exact ⟨sum, lag, a, at_lag, live, outside⟩
  · rintro ⟨sum, lag, a, at_lag, live, outside⟩
    exact ⟨lag, a, at_lag, sum, live, outside⟩

theorem mem_emitDead (found : emitReadError r = err) (w : Nat) : w ∈ emitDead folded r ↔
    w < r.counts.length ∧ takenCount err folded (r.counts.getD w 0) = 0 := by
  rw [emitDead, List.mem_filter, List.mem_range, decide_eq_true_eq, emitCounts_length, emitCounts_getD found]

end record

end Sys2Proof.Machine
end

section
/-! PROOFS. The bytes of every message the part sends (R171, R173, R175, R176). -/

namespace Sys2Proof.Machine

/-- A report goes out in a frame of its kind, with class byte 1 before its fields (R171, R175). -/
theorem txBytes_report {tag : Byte} {r : Report} {kind : Byte} {fields : List Byte}
    (kinds : BitVec.ofNat 8 (0x40 + reportIndex r) = kind) (same : reportFields r = fields) :
    txBytes (.notice (.report tag r)) = frameBytes kind tag (1 :: fields) := by
  subst kinds same
  rfl

/-- The bytes of a TRACE (R176). -/
theorem txBytes_trace (t : Trace) : txBytes (.trace t) = frameBytes 0x60 0
    (2 :: (leBytes 4 t.vp.toNat ++ leBytes 1 t.gen.toNat ++ leBytes 2 t.channel ++ leBytes 1 t.folded ++ leBytes 1 t.interval.val ++
      leBytes 1 (if t.mode = .mean then 0 else 1) ++
      leBytes 1 ((if t.gap then 1 else 0) + (if t.sat then 2 else 0) + (if t.bad then 4 else 0)) ++
      leBytes 2 t.samples.length ++ leBytes 1 t.dead.length ++ t.dead.map (BitVec.ofNat 8) ++
      t.samples.flatMap fun x => leBytes 4 (BitVec.ofInt 32 x).toNat)) := by
  have mode : outputModeCode t.mode = if t.mode = .mean then 0 else 1 := by cases t.mode <;> rfl
  have dead : t.dead.flatMap (leBytes 1) = t.dead.map (BitVec.ofNat 8) := List.flatMap_pure_eq_map ..
  rw [← mode, ← dead]
  rfl

/-- Settles O14: the values by the counts and accumulators as taken, the bytes message by message, a report by its kind and fields. -/
theorem traceFormed : Obligations.TraceFormed := by
  refine ⟨?_, ⟨fun _ _ _ _ => rfl, txBytes_trace, fun tag => ?_⟩, rfl, rfl, rfl, rfl, rfl, rfl, rfl, rfl, rfl, rfl, rfl, rfl, rfl⟩
  · intro s c ch err r errs t count value
    have found : emitReadError r = err := Bool.eq_iff_iff.mpr ((emitReadError_iff r).trans errs.symm)
    refine ⟨rfl, rfl, rfl, rfl, rfl, rfl, rfl, ?_, emitSamples_length _ _ _, fun lag a stored => ?_, ?_,
      mem_emitDead found, emitDead_rising _ _⟩
    · rw [show t.bad = (r.bad || emitReadError r) from rfl, found, Bool.or_eq_true]
    · rw [show t.samples = emitSamples s.mode.params.outputMode c.folded r from rfl, emitSamples_getElem? found, stored,
        Option.map_some, outputSample_eq]
      rfl
    · rw [show t.sat = (r.satSeen || emitClamped s.mode.params.outputMode c.folded r) from rfl, Bool.or_eq_true]
      exact or_congr_right (emitClamped_iff found _)
  · exact ⟨fun _ => txBytes_report rfl rfl, fun _ _ => txBytes_report rfl rfl, fun _ => txBytes_report rfl rfl,
      fun _ _ _ _ _ _ _ => txBytes_report rfl rfl, fun _ _ _ _ _ _ _ _ _ => txBytes_report rfl rfl,
      fun _ _ _ _ _ _ ctx => txBytes_report rfl (by cases ctx <;> rfl), fun _ _ _ _ _ _ _ _ => txBytes_report rfl rfl,
      fun _ _ _ _ => txBytes_report rfl rfl, fun _ _ _ _ => txBytes_report rfl rfl,
      fun _ _ _ _ _ closing => txBytes_report rfl (by cases closing <;> rfl),
      fun _ loc => txBytes_report rfl (by rcases loc with _ | ⟨g, b⟩ <;> rfl), fun _ _ => txBytes_report rfl rfl⟩

end Sys2Proof.Machine
end

section
/-! PROOFS. The end of a transmission: of a notice, of a TRACE that belongs to no emission any more, of a TRACE with others behind it, and
of the last one, which ends its context's emission (R132, R135 to R137, R152, R153, R155, R160). -/

namespace Sys2Proof.Machine

section messageEnd
variable {m : TxMessage} {tr : Trace} {cu : Cursor} {s : State}

/-- The line with its message ended (R153). -/
def State.lineEnded (s : State) : State := s.withLink { s.link with tx := none }

/-! ### The end of a message (R135, R153, R155) -/

/-- The handling of TRANSMISSION_END: the message ends and the arbiter decides (R152, R153). -/
theorem exec_transmissionEnd {u : State} (free : s.mode.held = false) (tx : s.link.tx = some m) (ended : endMessage m s = u)
    (clear : u.checkHit = false) : ∃ t, exec .transmissionEnd s = .next t ∧ Decided u t := by
  have decided := decideLine_decided u
  refine ⟨decideLine u, ?_, decided⟩
  change execTransmissionEnd s = _
  refine handle_eq free ?_ (decided.kept.1.trans clear)
  rw [tx, ← ended]

/-- With nothing in transmission TRANSMISSION_END changes nothing (log entry 2). -/
theorem exec_transmissionEnd_idle (tx : s.link.tx = none) (clear : s.checkHit = false) : exec .transmissionEnd s = .next s := by
  change execTransmissionEnd s = _
  refine handle_idle ?_ clear
  rw [tx]

theorem endMessage_notice (n : Notice) (s : State) : endMessage (.notice n) s = s.lineEnded := rfl

/-- A TRACE of which the emitter sends none ends without an account: a warm restart has ended its emission (R155). -/
theorem endMessage_orphan (orphan : ∀ cu, s.emitter.cursor = some cu → cu.sending = false) :
    endMessage (.trace tr) s = s.lineEnded := by
  unfold endMessage
  cases cursor : s.emitter.cursor with
  | none => simp only [State.withLink_emitter, cursor]; rfl
  | some cu => simp only [State.withLink_emitter, cursor, orphan cu cursor]; rfl

/-- A TRACE of the emission with another one left is counted (R135, R136). -/
theorem endMessage_counted (cursor : s.emitter.cursor = some cu) (sending : cu.sending = true)
    (more : cu.next ≠ s.channels ∨ cu.waiting ≠ none) : endMessage (.trace tr) s =
      s.lineEnded.withEmitter { s.emitter with cursor := some { cu with sending := false, sent := cu.sent + 1 } } := by
  unfold endMessage traceSent
  simp only [State.withLink_emitter, cursor, sending, if_true]
  exact if_neg fun last => more.elim (· last.1) (· last.2)

end messageEnd

/-- Settles O12, by what the end of each message leaves for the arbiter. -/
theorem messageEnds : Obligations.MessageEnds :=
  fun s held clear => ⟨fun tx => exec_transmissionEnd_idle tx clear,
    fun n tx => exec_transmissionEnd held tx (endMessage_notice n s) clear,
    fun _ tx orphan => exec_transmissionEnd held tx (endMessage_orphan orphan) clear,
    fun _ _ tx cursor sending more => exec_transmissionEnd held tx (endMessage_counted cursor sending more) clear⟩

/-! ### The end of an emission (R132, R136, R137, R160) -/

/-- The emitter goes on with the rest of the closing order: it begins the head, or becomes IDLE (R132, R136). -/
def EmitterGoesOn (order : List (Fin 4)) (s t : State) : Prop :=
  match order with
  | [] => t = s.withEmitter { closing := [], cursor := none }
  | j :: _ => EmissionBegins j (s.withEmitter { closing := order, cursor := none }) t

theorem emitterBegin_goesOn (order : List (Fin 4)) {s : State} (clean : Clean s) :
    EmitterGoesOn order s (emitterBegin (s.withEmitter { closing := order, cursor := none })) := by
  cases order with
  | nil => exact emitterBegin_idle rfl
  | cons j order => exact emitterBegin_begins rfl (clean.ctx j)

/-- The end of an emission, step by step, where no check error stands (R136). -/
theorem endEmission_steps {cu : Cursor} {order : List (Fin 4)} {s : State} (clean : Clean s)
    (closing : s.emitter.closing = cu.ctx :: order) : ∃ a b c, VpDone cu.ctx cu.sent s a ∧ Frees cu.ctx a b ∧
      EmitterGoesOn order b c ∧ DrainTested c (endEmission cu s) ∧ Clean (endEmission cu s) := by
  set a := vpDone cu.ctx cu.sent s
  set b := freeCtx cu.ctx a
  set c := emitterBegin (b.withEmitter { closing := order, cursor := none }) with hc
  have rest : b.emitter.closing.tail = order := by
    rw [show b.emitter = s.emitter from (vpDone_only cu.ctx cu.sent s).emitter, closing, List.tail_cons]
  have ended : endEmission cu s = drainTest c := by
    rw [hc, ← rest]
    unfold endEmission
    rw [clean.ctx cu.ctx]
    rfl
  have cleanB : Clean b := (quiet_free cu.ctx a []).clean ((vpDone_quiet _ _ s).clean clean)
  have cleanC : Clean c := (emitterBegin_quiet (s := b.withEmitter { closing := order, cursor := none }) cleanB).clean cleanB
  rw [ended]
  exact ⟨a, b, c, vpDone_done _ _ s, freeCtx_frees _ a, emitterBegin_goesOn order cleanB, drainTest_tested cleanC,
    (drainTest_quiet cleanC).1⟩

/-- Settles O13, by the steps of the end of an emission and the decision behind them. -/
theorem emissionEnds : Obligations.EmissionEnds := by
  intro tr cu order s held clean tx cursor sending last waiting closing
  obtain ⟨a, b, c, done, frees, goesOn, drained, cleanD⟩ :=
    endEmission_steps (cu := { cu with sending := false, sent := cu.sent + 1 }) (s := lastTraceSent cu s) clean closing
  set d := endEmission { cu with sending := false, sent := cu.sent + 1 } (lastTraceSent cu s) with hd
  have decided := decideLine_decided d
  refine ⟨decideLine d, a, b, c, d, ?_, done, frees, goesOn, drained, decided⟩
  rw [exec_transmissionEnd_emission held tx cursor sending last waiting, ← hd, settle_clean (decided.kept.1.trans cleanD.1)]

end Sys2Proof.Machine
end

section
/-! PROOFS. CLOSE VP with mode WAIT: the tests of the mode and of the VP, and the close condition on the context made CLOSE PENDING (R125 to
R127, R132, R160). -/

namespace Sys2Proof.Machine

/-! ### The context after the request -/

/-- A CLOSE PENDING context to which the close condition has been applied: it still waits, or has closed to FREE or to CLOSING (R125,
R126). -/
def Context.waited (c : Context) : Context :=
  if c.attached ≠ 0 then c else if c.folded = 0 then Context.freed c.gen else { c with state := .closing }

theorem applyClose_waited {i : Fin 4} {s : State} (clean : Clean s) (state : (s.ctx i).state = .closePending) :
    (applyClose i s).ctx i = (s.ctx i).waited := by
  rcases applyClose_spec i clean with ⟨⟨none, -⟩, closed⟩ | ⟨waits, same⟩
  · rw [Context.waited, if_neg (not_not_intro none)]
    by_cases folded : (s.ctx i).folded = 0
    · rw [if_pos folded, (closed.free folded).1]
    · rw [if_neg folded, (closed.emit folded).1]
  · rw [Context.waited, if_pos fun none => waits ⟨none, .inr state⟩, same]

theorem Context.waited_stateCode {c : Context} (state : c.state = .closePending) :
    ctxStateCode c.waited.state = if c.attached ≠ 0 then 2 else if c.folded = 0 then 0 else 3 := by
  unfold Context.waited
  split
  · rw [state]; rfl
  · split <;> rfl

/-- The counts a reply gives of the context are those it held before the close (R127). -/
theorem closedContents_waited {i : Fin 4} {c : Context} {t : State} (state : c.state = .closePending) (after : t.ctx i = c.waited) :
    closedContents i c.attached c.folded c.dropped t = BitVec.ofNat 8 i.val ::
      (leBytes 1 c.gen.toNat ++ [ctxStateCode c.waited.state] ++ leBytes 1 c.attached ++ leBytes 1 c.folded ++ leBytes 1 c.dropped) := by
  unfold closedContents
  rw [after]
  unfold Context.waited
  split
  · rw [if_neg (by rw [state]; decide)]; rfl
  · split <;> rfl

/-! ### The request -/

section closeWait
variable {tag mode : Byte} {vp : VpId} {i : Fin 4} {s : State}

theorem exec_closeVpWait (other : mode ≠ 1) : exec (.closeVpWait tag (closeVpBody vp mode)) s =
    takeRequest ⟨0x15, tag, closeVpBody vp mode⟩ (closeWait ⟨0x15, tag, closeVpBody vp mode⟩) s := by
  change execCloseVpWait tag (closeVpBody vp mode) s = _
  refine if_neg fun now => other ?_
  rw [closesNow, closeVpBody_mode, Bool.and_eq_true, decide_eq_true_iff, decide_eq_true_iff] at now
  exact now.2

theorem closeWait_range (outside : mode ≠ 0) : closeWait ⟨0x15, tag, closeVpBody vp mode⟩ s =
    placeReply ⟨0x15, tag, closeVpBody vp mode⟩ .range [0xFF, 0, 0, 0, 0, 0] s := by
  unfold closeWait
  rw [closeVpBody_mode, if_pos outside]
  rfl

theorem closeWait_unknown (clean : Clean s) (none : ∀ i, ¬ HoldsOpen vp s i) : closeWait ⟨0x15, tag, closeVpBody vp 0⟩ s =
    placeReply ⟨0x15, tag, closeVpBody vp 0⟩ .unknown [0xFF, 0, 0, 0, 0, 0] s := by
  simp only [closeWait, closeVpBody_mode, ne_eq, not_true_eq_false, if_false, closeVpBody_vp, clean.2.2, markHit_false,
    BitVec.ofNat_toNat, BitVec.setWidth_eq, openHolding_none none]
  rfl

/-- The close condition on the context made CLOSE PENDING, and the drain test behind it. -/
def waitedAndTested (i : Fin 4) (s : State) : State := drainTest (applyClose i (s.pended i))

theorem closeWait_held (clean : Clean s) (own : HoldsOpen vp s i) (first : ∀ j : Fin 4, j.val < i.val → ¬ HoldsOpen vp s j) :
    closeWait ⟨0x15, tag, closeVpBody vp 0⟩ s = placeReply ⟨0x15, tag, closeVpBody vp 0⟩ .ok
      (closedContents i (s.ctx i).attached (s.ctx i).folded (s.ctx i).dropped (waitedAndTested i s)) (waitedAndTested i s) := by
  simp only [closeWait, closeVpBody_mode, ne_eq, not_true_eq_false, if_false, closeVpBody_vp, clean.2.2, markHit_false,
    BitVec.ofNat_toNat, BitVec.setWidth_eq, openHolding_some own first]
  rfl

end closeWait

/-- Settles O42: the two refusals, and the close condition with the context it leaves, which the reply reads. -/
theorem closeVpWaits : Obligations.CloseVpWaits := by
  intro tag mode vp rest s request clean other f isOpen
  have length := closeVpBody_fits vp mode
  refine ⟨fun outside => ?_, ?_, ?_⟩
  · rw [exec_closeVpWait other]
    exact reply_only .range _ request length clean.1 (closeWait_range outside)
  · rintro rfl none
    rw [exec_closeVpWait other]
    exact reply_only .unknown _ request length clean.1 (closeWait_unknown (s := taken rest s) clean none)
  · rintro i rfl own first c st
    set a := (taken rest s).pended i
    have here : a.ctx i = { c with state := .closePending } := ctx_with_same _ i _
    have state : (a.ctx i).state = .closePending := by rw [here]
    have good : Clean a := (quiet_ctx (taken rest s) i { c with state := .closePending } rfl []).clean clean
    have after : Clean (applyClose i a) := (applyClose_quiet i good).clean good
    obtain ⟨drained, -, -, stack, -⟩ := drainTest_quiet after
    have left : (drainTest (applyClose i a)).ctx i = (a.ctx i).waited := by
      rw [State.ctx, stack, ← State.ctx, applyClose_waited good state]
    obtain ⟨t, run, replied⟩ := request_replied request length (closeWait_held (s := taken rest s) clean own first) drained.1
    have code : ctxStateCode (a.ctx i).waited.state = st := by
      rw [Context.waited_stateCode state, here]
    have contents := closedContents_waited state left
    rw [code, here] at contents
    refine ⟨t, _, _, (exec_closeVpWait other).trans run, applyClose_tested i good, drainTest_tested after, ?_, ?_⟩
    · rw [← contents]
      exact replied
    · rw [replied.only.ctx, ← code, ← left]
      rfl

end Sys2Proof.Machine
end

section
/-! PROOFS. The bounds of the notice queue and of the receive buffer through the shared operations: reports never bring the queue above 56
entries, the arbiter only takes from it, and nothing but the receiver adds to the buffer (R143, R148, R149, R152). -/

namespace Sys2Proof.Machine

variable {n : Nat} {s : State}

/-! ### The bound -/

/-- The notice queue holds at most `n` entries, no fewer than the 56 that reports may fill, and the receive buffer at most 8 frames (R143,
R148, R149). -/
structure Room (n : Nat) (l : HostLink) : Prop where
  limit : 56 ≤ n
  queue : l.notices.length ≤ n
  buffer : l.rxBuf.length ≤ 8

theorem queuesBounded_iff (s : State) : QueuesBounded s ↔ Room 64 s.link :=
  ⟨fun h => ⟨by decide, h.1, h.2⟩, fun h => ⟨h.queue, h.buffer⟩⟩

theorem Room.mono {l : HostLink} {m : Nat} (h : Room n l) (le : n ≤ m) : Room m l :=
  ⟨h.limit.trans le, h.queue.trans le, h.buffer⟩

/-- Where no reply is placed, the place kept for it stays free. -/
theorem Room.more {l : HostLink} (h : Room n l) : Room (n + 1) l := h.mono (Nat.le_succ n)

/-- A fold keeps a bound that each of its turns keeps. -/
theorem foldl_room {α : Type} {g : State → α → State} (turn : ∀ {s} a, Room n s.link → Room n (g s a).link) (l : List α)
    (h : Room n s.link) : Room n (l.foldl g s).link := by
  induction l generalizing s with
  | nil => exact h
  | cons a l ih => exact ih (turn a h)

/-! ### Placements, reports and the line -/

/-- An entry placed takes at most one place of the queue. -/
theorem placeNotice_room (m : Notice) (h : Room n s.link) : Room (n + 1) (placeNotice m s).link := by
  rw [placeNotice_link]
  have buffer : (joined s m s.link).rxBuf = s.link.rxBuf := by rw [joined_frame]
  exact ⟨h.more.limit, (joined_length s m s.link).2.trans (Nat.succ_le_succ h.queue), buffer ▸ h.buffer⟩

theorem placeReply_room (f : RxFrame) (st : Status) (c : List Byte) (h : Room n s.link) : Room (n + 1) (placeReply f st c s).link :=
  placeNotice_room _ h

theorem offerReport_room (r : Report) (h : Room n s.link) : Room n (offerReport r s).link := by
  have buffer : (offerReport r s).link.rxBuf = s.link.rxBuf := by rw [offerReport_link_frame]
  exact ⟨h.limit, (offerReport_length r s).2.trans (max_le h.queue h.limit), buffer ▸ h.buffer⟩

theorem decideLine_room (h : Room n s.link) : Room n (decideLine s).link := by
  have frame := (decideLine_decided s).frame.1
  have buffer : (decideLine s).link.rxBuf = s.link.rxBuf := by rw [frame]
  have queue : (decideLine s).link.notices.length ≤ s.link.notices.length := by
    rcases decideLine_decided s with ⟨-, e⟩ | ⟨-, m, rest, head, departed⟩ | ⟨-, -, -, e⟩ | ⟨-, -, cu, tr, -, -, e⟩
    · rw [e]
    · have left : (decideLine s).link.notices = rest := by
        dsimp only at departed
        split at departed
        · rw [departed.only.2.1]; rfl
        · rw [departed]; rfl
      rw [left, head]
      exact Nat.le_succ _
    · rw [e]
    · rw [e]; exact Nat.le_refl _
  exact ⟨h.limit, queue.trans h.queue, buffer ▸ h.buffer⟩

theorem holdChanged_room {t : State} (h : Room n t.link) : Room n (holdChanged s t).link := by
  unfold holdChanged
  split
  · exact decideLine_room h
  · exact h

theorem setPin_room (line : Fin 4) (level : Bool) (h : Room n s.link) : Room n (setPin line level s).link := holdChanged_room h

theorem markHit_room (bad : Bool) (h : Room n s.link) : Room n (markHit bad s).link := by
  cases bad with
  | false => exact h
  | true => exact h

theorem setLock_room (l : LockState) (h : Room n s.link) : Room n (setLock l s).link := (setLock_link l s).symm ▸ h

theorem setOp_room (o : OpState) (d : Option DrainMode) (h : Room n s.link) : Room n (setOp o d s).link := (setOp_link o d s).symm ▸ h

theorem enterHoldover_room (h : Room n s.link) : Room n (enterHoldover s).link := offerReport_room _ (setLock_room .holdover h)

theorem drainTest_room (h : Room n s.link) : Room n (drainTest s).link := by
  unfold drainTest
  split
  · dsimp only
    split
    · exact offerReport_room _ (setOp_room _ _ (markHit_room _ h))
    · exact markHit_room _ h
  · exact h

theorem arbitrate_room (h : Room n s.link) : Room n (arbitrate s).link := by
  unfold arbitrate
  split
  · exact h
  split
  · exact h
  split
  · exact h
  · exact h

/-! ### Contexts and the emitter -/

theorem prepareTrace_room (cu : Cursor) (h : Room n s.link) : Room n (prepareTrace cu s).link := by
  unfold prepareTrace
  split
  · exact h
  · exact h

theorem emitterBegin_room (h : Room n s.link) : Room n (emitterBegin s).link := by
  unfold emitterBegin
  split
  · exact h
  split
  · exact h
  · exact decideLine_room (prepareTrace_room _ h)

theorem vpDone_room (i : Fin 4) (traces : Nat) (h : Room n s.link) : Room n (vpDone i traces s).link := offerReport_room _ h

theorem closeCtx_room (i : Fin 4) (h : Room n s.link) : Room n (closeCtx i s).link := by
  unfold closeCtx
  split
  · dsimp only
    split
    · exact emitterBegin_room h
    · exact h
  · exact vpDone_room i 0 h

theorem applyClose_room (i : Fin 4) (h : Room n s.link) : Room n (applyClose i s).link := by
  unfold applyClose
  split
  · exact closeCtx_room i h
  · exact h

theorem attachCtx_link (i : Fin 4) (k : Nat) (s : State) : (attachCtx i k s).1.link = s.link := by
  unfold attachCtx
  dsimp only
  split
  · rfl
  split
  · rfl
  split
  · rfl
  · rfl

theorem openFree_link (vp : VpId) (k target : Nat) (s : State) : (openFree vp k target s).1.link = s.link := by
  unfold openFree
  split
  · rfl
  · rfl

theorem resolveCtx_room (vp : VpId) (k target : Nat) (h : Room n s.link) : Room n (resolveCtx vp k target s).1.link := by
  unfold resolveCtx
  split
  · exact h
  split
  · exact (attachCtx_link _ k s).symm ▸ h
  split
  · exact (openFree_link vp k target s).symm ▸ h
  split
  · exact (openFree_link vp k target _).symm ▸ closeCtx_room _ h
  · exact h

/-! ### Drops, entries and compares -/

theorem dropPre_room (cause : DropCause) (r : SweepRecord) (h : Room n s.link) : Room n (dropPre cause s r).link := by
  have marked : Room n (if r.state = .correlating then abandonJob (markHit (r.checkBad || (s.ctx r.ctx).checkBad) s)
      else markHit (r.checkBad || (s.ctx r.ctx).checkBad) s).link := by
    split
    · exact markHit_room _ h
    · exact markHit_room _ h
  unfold dropPre
  dsimp only
  split
  · exact offerReport_room _ marked
  · exact offerReport_room _ marked

theorem dropSweep_room (cause : DropCause) (close : Bool) (r : SweepRecord) (h : Room n s.link) :
    Room n (dropSweep cause close s r).link := by
  rw [dropSweep_eq]
  split
  · exact applyClose_room _ (dropPre_room cause r h)
  · exact dropPre_room cause r h

theorem dropWhere_room (p : SweepRecord → Bool) (cause : DropCause) (close : Bool) (h : Room n s.link) :
    Room n (dropWhere p cause close s).link := foldl_room (dropSweep_room cause close) _ h

theorem evictionNotice_room (oldest : Nat) (h : Room n s.link) : Room n (evictionNotice oldest s).link :=
  dropWhere_room _ _ _ (markHit_room _ h)

theorem enterSweep_room (origin : Origin) (f : Fin 4) (vp : VpId) (t0 : SampleIndex) (compare : Option Nat) (h : Room n s.link) :
    Room n (enterSweep origin f vp t0 compare s).1.link := by
  have resolved := resolveCtx_room vp (s.fleet f).k (s.fleet f).target h
  unfold enterSweep
  dsimp only
  split
  · exact h
  split
  · exact h
  split
  · exact h
  split
  · exact h
  generalize resolveCtx vp (s.fleet f).k (s.fleet f).target s = answer at resolved
  obtain ⟨u, i | why | ended⟩ := answer
  case attached =>
    cases compare with
    | some c => exact resolved
    | none => exact offerReport_room _ resolved
  case refused => exact resolved
  case ended => exact resolved

/-- What an entry answers stands in a state with the same room. -/
theorem entered_room {origin : Origin} {f : Fin 4} {vp : VpId} {t0 : SampleIndex} {compare : Option Nat} {u : State} {e : Entry}
    (run : enterSweep origin f vp t0 compare s = (u, e)) (h : Room n s.link) : Room n u.link := by
  have kept := enterSweep_room origin f vp t0 compare h
  rwa [run] at kept

theorem fireSweep_room (r : SweepRecord) (h : Room n s.link) : Room n (fireSweep s r).link := by
  have marked := markHit_room (r.checkBad || (s.ctx r.ctx).checkBad) h
  exact offerReport_room _ marked

theorem tickCompares_room (h : Room n s.link) : Room n (tickCompares s).link := foldl_room fireSweep_room _ (markHit_room _ h)

theorem stepCompares_room (old new : Nat) (h : Room n s.link) : Room n (stepCompares old new s).link := by
  refine foldl_room (fun r turn => ?_) _ (markHit_room _ h)
  split
  · exact fireSweep_room r turn
  · exact dropSweep_room .missed true r turn

/-! ### Resets -/

/-- A warm restart empties both queues and places RESTARTED alone (R155). -/
theorem warmRestart_room (cause : ResetCause) (tag : Byte) (s : State) (limit : 56 ≤ n) : Room (n + 1) (warmRestart cause tag s).link :=
  placeNotice_room _ ⟨limit, Nat.zero_le _, Nat.zero_le _⟩

end Sys2Proof.Machine
end

section
/-! PROOFS. The bounds of the notice queue and of the receive buffer through every handling and every command: a request taken at 63 entries
or fewer is answered by one reply, and the receiver offers a frame only to a buffer with room (R143, R146, R148, R149). -/

namespace Sys2Proof.Machine

variable {n : Nat} {s t : State}

/-! ### The mode controller's requests -/

theorem storeInterval_room (v : Nat) (h : Room n s.link) : Room n (storeInterval v s).link := by
  unfold storeInterval
  split
  · exact h
  split
  · exact h
  dsimp only
  split
  · exact h
  · exact setLock_room _ h

theorem storeHoldover_room (v : Nat) (h : Room n s.link) : Room n (storeHoldover v s).link := by
  rw [storeHoldover_eq]
  split
  · exact h
  split
  · exact enterHoldover_room h
  · exact h

theorem storeParam_room (key v : Nat) (h : Room n s.link) : Room n (storeParam key v s).link := by
  unfold storeParam
  split
  · exact storeInterval_room v h
  · exact h
  · split
    · exact h
    · exact h
    · exact h
  · split
    · exact h
    · exact h
    · exact h
  · exact storeHoldover_room v h
  · exact h
  · exact h

theorem paramSet_room (f : RxFrame) (h : Room n s.link) : Room (n + 1) (paramSet f s).link := by
  unfold paramSet
  dsimp only
  split
  · exact placeReply_room _ _ _ h
  · exact placeReply_room _ _ _ (storeParam_room _ _ h)

theorem startRequest_room (f : RxFrame) (h : Room n s.link) : Room (n + 1) (startRequest f s).link := by
  unfold startRequest
  split
  · exact placeReply_room _ _ _ (setOp_room _ _ h)
  · exact placeReply_room _ _ _ h

theorem pendCtx_room (i : Fin 4) (h : Room n s.link) : Room n (pendCtx s i).link := by
  unfold pendCtx
  split
  · exact h
  · exact h

theorem discardCtx_room (i : Fin 4) (h : Room n s.link) : Room n (discardCtx s i).link := by
  unfold discardCtx
  split
  · exact h
  · exact h

theorem finishAcquire_room (h : Room n s.link) : Room n (finishAcquire s).link := by
  have dropped := dropWhere_room (fun r => decide (r.state = .scheduled)) .stopped true
    (setOp_room .draining (some .finish) (markHit_room (s.listBad || s.ctxsBad) h))
  exact drainTest_room (foldl_room applyClose_room ctxOrder (foldl_room pendCtx_room ctxOrder dropped))

theorem stopFinish_room (f : RxFrame) (h : Room n s.link) : Room (n + 1) (stopFinish f s).link := by
  unfold stopFinish
  split
  · exact placeReply_room _ _ _ h
  split
  · exact placeReply_room _ _ _ h
  · exact placeReply_room _ _ _ h
  · exact placeReply_room _ _ _ (finishAcquire_room h)

theorem discardAll_room (h : Room n s.link) : Room n (discardAll s).link := by
  have dropped := dropWhere_room (fun _ => true) .stopped false
    (setOp_room .draining (some .discard) (markHit_room (s.listBad || s.ctxsBad) h))
  exact drainTest_room (foldl_room discardCtx_room ctxOrder dropped)

theorem stopDiscard_room (f : RxFrame) (h : Room n s.link) : Room (n + 1) (stopDiscard f s).link := by
  unfold stopDiscard
  split
  · exact placeReply_room _ _ _ h
  · exact placeReply_room _ _ _ (discardAll_room h)

/-! ### The timebase, the fleets and the pilots -/

theorem timeSet_room (f : RxFrame) (h : Room n s.link) : Room (n + 1) (timeSet f s).link := by
  unfold timeSet
  split
  · exact placeReply_room _ _ _ (setLock_room _ h)
  · exact placeReply_room _ _ _ h

theorem routeSet_room (f : RxFrame) (h : Room n s.link) : Room (n + 1) (routeSet f s).link := by
  unfold routeSet
  dsimp only
  split
  · exact placeReply_room _ _ _ (holdChanged_room h)
  · exact placeReply_room _ _ _ h
  · exact placeReply_room _ _ _ h

theorem fleetSet_room (f : RxFrame) (h : Room n s.link) : Room (n + 1) (fleetSet f s).link := by
  unfold fleetSet
  dsimp only
  split
  · exact placeReply_room _ _ _ h
  split
  · exact h.more
  split
  · exact placeReply_room _ _ _ h
  split
  · exact placeReply_room _ _ _ h
  · exact placeReply_room _ _ _ h

theorem fleetGet_room (f : RxFrame) (h : Room n s.link) : Room (n + 1) (fleetGet f s).link := by
  unfold fleetGet
  dsimp only
  split
  · exact placeReply_room _ _ _ h
  · exact placeReply_room _ _ _ h

theorem armRequest_room (f : RxFrame) (h : Room n s.link) : Room (n + 1) (armRequest f s).link := by
  unfold armRequest
  dsimp only
  split
  · exact placeReply_room _ _ _ h
  · exact placeReply_room _ _ _ h

theorem pilotOpen_room (f : RxFrame) (h : Room n s.link) : Room (n + 1) (pilotOpen f s).link := by
  unfold pilotOpen
  dsimp only
  split
  · exact placeReply_room _ _ _ h
  split
  · exact h.more
  split
  · exact placeReply_room _ _ _ h
  split
  · exact placeReply_room _ _ _ h
  · exact placeReply_room _ _ _ h

theorem pilotWords_room (f : RxFrame) (h : Room n s.link) : Room (n + 1) (pilotWords f s).link := by
  unfold pilotWords
  dsimp only
  split
  · exact placeReply_room _ _ _ h
  split
  · exact placeReply_room _ _ _ h
  split
  · exact placeReply_room _ _ _ (offerReport_room _ h)
  · exact placeReply_room _ _ _ h

theorem pilotClose_room (f : RxFrame) (h : Room n s.link) : Room (n + 1) (pilotClose f s).link := by
  unfold pilotClose
  dsimp only
  split
  · exact placeReply_room _ _ _ h
  split
  · exact placeReply_room _ _ _ h
  split
  · exact placeReply_room _ _ _ (offerReport_room _ h)
  split
  · exact placeReply_room _ _ _ (offerReport_room _ h)
  · exact placeReply_room _ _ _ h

/-! ### Sweeps and contexts -/

theorem postRequest_room (f : RxFrame) (h : Room n s.link) : Room (n + 1) (postRequest f s).link := by
  unfold postRequest
  split
  · exact placeReply_room _ _ _ h
  split
  · exact placeReply_room _ _ _ h
  split
  · next run => exact arbitrate_room (placeReply_room _ _ _ (entered_room run h))
  · next run => exact placeReply_room _ _ _ (entered_room run h)
  · next run => exact (entered_room run h).more

theorem scheduleRequest_room (f : RxFrame) (h : Room n s.link) : Room (n + 1) (scheduleRequest f s).link := by
  unfold scheduleRequest
  split
  · exact placeReply_room _ _ _ h
  dsimp only
  split
  · exact placeReply_room _ _ _ h
  split
  · exact placeReply_room _ _ _ h
  split
  · exact placeReply_room _ _ _ h
  split
  · next run => exact placeReply_room _ _ _ (entered_room run h)
  · next run => exact placeReply_room _ _ _ (entered_room run h)
  · next run => exact (entered_room run h).more

theorem cancelRequest_room (f : RxFrame) (h : Room n s.link) : Room (n + 1) (cancelRequest f s).link := by
  have marked := markHit_room s.listBad h
  unfold cancelRequest
  dsimp only
  split
  · exact placeReply_room _ _ _ marked
  · exact arbitrate_room (placeReply_room _ _ _ (drainTest_room (dropSweep_room _ _ _ marked)))

theorem closeWait_room (f : RxFrame) (h : Room n s.link) : Room (n + 1) (closeWait f s).link := by
  have marked := markHit_room s.ctxsBad h
  unfold closeWait
  split
  · exact placeReply_room _ _ _ h
  dsimp only
  split
  · exact placeReply_room _ _ _ marked
  · exact placeReply_room _ _ _ (drainTest_room (applyClose_room _ marked))

theorem closeAttached_room (i : Fin 4) (h : Room n s.link) : Room n (closeAttached i s).link := by
  unfold closeAttached
  split
  · exact applyClose_room i h
  · exact dropWhere_room _ _ _ h

theorem closeNow_room (f : RxFrame) (h : Room n s.link) : Room (n + 1) (closeNow f s).link := by
  have marked := markHit_room (s.listBad || s.ctxsBad) h
  unfold closeNow
  dsimp only
  split
  · exact placeReply_room _ _ _ marked
  · exact arbitrate_room (placeReply_room _ _ _ (drainTest_room (closeAttached_room _ marked)))

/-! ### The host link -/

theorem syncRequest_room (f : RxFrame) (h : Room n s.link) : Room (n + 1) (syncRequest f s).link := by
  have replied := placeReply_room f .ok
    (leBytes 2 (fieldAt f.body 0 2) ++ leBytes 2 s.link.accepted.toNat ++ leBytes 2 s.link.huntDiscards) h
  exact ⟨replied.limit, replied.queue, replied.buffer⟩

/-- A LINK ERROR of a receiver that moves to HUNT. -/
theorem hunt_room (cause : LinkCause) (h : Room n s.link) :
    Room n (linkError cause (s.withLink { s.link with receiver := .hunt })).link :=
  offerReport_room _ (s := s.withLink { s.link with receiver := .hunt }) ⟨h.limit, h.queue, h.buffer⟩

theorem offerFrame_room (f : RxFrame) (h : Room n s.link) : Room n (offerFrame f s).link := by
  unfold offerFrame
  split
  · next room =>
    refine ⟨h.limit, h.queue, ?_⟩
    show (s.link.rxBuf ++ [f]).length ≤ 8
    rw [List.length_append]
    exact room
  · exact hunt_room _ h

theorem checkedFrame_room (f : RxFrame) (h : Room n s.link) : Room n (checkedFrame f s).link := by
  unfold checkedFrame
  split
  · exact offerFrame_room f h
  split
  · exact offerFrame_room f h
  · exact ⟨h.limit, h.queue, h.buffer⟩

theorem badFrame_room (cause : LinkCause) (h : Room n s.link) : Room n (badFrame cause s).link := by
  unfold badFrame
  split
  · exact hunt_room _ h
  · exact h

theorem keepPartial_room (bs : List Byte) (h : Room n s.link) : Room n (keepPartial bs s).link := ⟨h.limit, h.queue, h.buffer⟩

theorem receive_room (fuel : Nat) (bs : List Byte) (h : Room n s.link) : Room n (receive fuel bs s).link := by
  induction fuel generalizing bs s with
  | zero => exact keepPartial_room bs h
  | succ fuel ih =>
    cases bs with
    | nil => exact keepPartial_room [] h
    | cons a bs =>
      unfold receive
      split
      · exact ih bs h
      split
      · exact keepPartial_room _ h
      split
      · exact ih _ h
      split
      · exact keepPartial_room _ h
      · exact ih _ (badFrame_room _ h)
      · exact ih _ (badFrame_room _ h)
      · exact ih _ (checkedFrame_room _ h)

/-! ### The sender and the job's own events -/

theorem endEmission_room (cu : Cursor) (h : Room n s.link) : Room n (endEmission cu s).link := by
  unfold endEmission
  exact drainTest_room (emitterBegin_room (vpDone_room cu.ctx cu.sent (markHit_room (s.ctx cu.ctx).checkBad h)))

theorem traceSent_room (cu : Cursor) (h : Room n s.link) : Room n (traceSent cu s).link := by
  unfold traceSent
  dsimp only
  split
  · exact endEmission_room _ h
  · exact h

theorem endMessage_room (m : TxMessage) (h : Room n s.link) : Room n (endMessage m s).link := by
  have ended : Room n (s.withLink { s.link with tx := none }).link := ⟨h.limit, h.queue, h.buffer⟩
  unfold endMessage
  dsimp only
  split
  · exact ended
  split
  · exact ended
  split
  · exact traceSent_room _ ended
  · exact ended

theorem endPass_room (h : Room n s.link) : Room n (endPass s).link := by
  unfold endPass
  split
  · exact h
  split
  · exact h
  · exact h

theorem completeSweep_room (r : SweepRecord) (h : Room n s.link) : Room n (completeSweep r s).link := by
  unfold completeSweep
  exact arbitrate_room (drainTest_room (applyClose_room r.ctx (offerReport_room _ h)))

theorem completeJob_room (h : Room n s.link) : Room n (completeJob s).link := by
  unfold completeJob
  split
  · exact h
  split
  · exact h
  split
  · exact h
  split
  · exact h
  · exact completeSweep_room _ h

/-! ### The spread port -/

theorem spreadFault_room (kind : FaultKind) (loc : Option (Nat × Nat)) (h : Room n s.link) : Room n (spreadFault kind loc s).link := by
  unfold spreadFault
  split
  · exact offerReport_room _ h
  · exact h

theorem frameWritten_room (h : Room n s.link) : Room n (frameWritten s).link :=
  arbitrate_room (drainTest_room (markHit_room s.listBad h))

theorem firstFrame_room (g b : Nat) (xs : List RingSample) (h : Room n s.link) : Room n (firstFrame g b xs s).link := by
  unfold firstFrame
  refine frameWritten_room ?_
  split
  · exact evictionNotice_room _ h
  · exact h

theorem writeBlock_link (g b : Nat) (xs : List RingSample) (s : State) : (writeBlock g b xs s).link = s.link := rfl

theorem advanceFrame_room (old g b : Nat) (xs : List RingSample) (h : Room n s.link) : Room n (advanceFrame old g b xs s).link := by
  unfold advanceFrame
  refine frameWritten_room ?_
  rw [writeBlock_link]
  split
  · exact evictionNotice_room _ h
  · exact h

theorem placeBlock_room (g group b : Nat) (xs : List RingSample) (h : Room n s.link) : Room n (placeBlock g group b xs s).link := by
  unfold placeBlock
  split
  · exact spreadFault_room _ _ h
  split
  · exact firstFrame_room g b xs h
  split
  · exact spreadFault_room _ _ h
  split
  · exact advanceFrame_room _ g b xs h
  split
  · exact h
  split
  · exact h
  · exact frameWritten_room h

theorem judgeBlock_room (bytes : List Byte) (h : Room n s.link) : Room n (judgeBlock bytes s).link := by
  unfold judgeBlock
  split
  · exact spreadFault_room _ _ h
  split
  · exact spreadFault_room _ _ h
  split
  · exact h
  · exact placeBlock_room _ _ _ _ h

theorem receivePiece_room (bytes : List Byte) (last : Bool) (h : Room n s.link) : Room n (receivePiece bytes last s).link := by
  unfold receivePiece
  split
  · exact h
  · split
    · exact judgeBlock_room bytes h
    · exact h
  · split
    · exact judgeBlock_room _ h
    · exact h

theorem faultRead_room (f : RxFrame) (h : Room n s.link) : Room (n + 1) (faultRead f s).link :=
  placeReply_room f .ok _ (s := s.withRing { s.ring with fault := none }) h

/-! ### The tick, the edge and the break -/

theorem tickJob_link (s : State) : (tickJob s).link = s.link := by rw [tickJob_eq]; rfl

theorem preTick_room (h : Room n s.link) : Room n (preTick s).link := by
  unfold preTick
  rw [tickJob_link]
  unfold tickHoldover
  split
  · exact enterHoldover_room h
  · exact h

theorem tick_room (h : Room n s.link) : Room n (tick s).link := by
  rw [tick_eq]
  exact arbitrate_room (tickCompares_room (preTick_room h))

theorem ppsReport_room (was : LockState) (step : Int) (h : Room n s.link) : Room n (ppsReport was step s).link := by
  unfold ppsReport
  split
  · exact offerReport_room _ h
  · exact offerReport_room _ h
  · split
    · exact h
    · exact offerReport_room _ h

theorem alignPps_room (h : Room n s.link) : Room n (alignPps s).link := by
  unfold alignPps
  refine arbitrate_room (drainTest_room ?_)
  split
  · exact ppsReport_room _ _ (setLock_room _ h)
  · exact stepCompares_room _ _ (ppsReport_room _ _ (setLock_room _ h))

theorem takeBreak_room (f : Fin 4) (h : Room n s.link) : Room n (takeBreak f s).link := by
  unfold takeBreak
  split
  · exact offerReport_room _ h
  split
  · exact offerReport_room _ h
  dsimp only
  split
  · next run => exact arbitrate_room (entered_room run h)
  · next run => exact offerReport_room _ (entered_room run h)
  · next run => exact entered_room run h

/-! ### Every command -/

/-- The end of a handling: what a warm restart places fits. -/
theorem settle_room (h : Room 64 s.link) : Room 64 (settle s).link := by
  unfold settle
  split
  · exact warmRestart_room .tableCheck 0 s (by decide)
  · exact h

theorem handle_room {g : State → State} (hg : Room 64 s.link → Room 64 (g s).link) (h : Room 64 s.link)
    (run : handle g s = .next t) : Room 64 t.link := by
  unfold handle at run
  split at run
  · cases run
    exact h
  · cases run
    exact settle_room (hg h)

/-- A request is taken where one place of the queue is free, which is kept for its reply (R146). -/
theorem takeRequest_room {f : RxFrame} {g : State → State} (hg : ∀ {u : State}, Room 63 u.link → Room 64 (g u).link)
    (h : Room 64 s.link) (run : takeRequest f g s = .next t) : Room 64 t.link := by
  refine handle_room (fun h => ?_) h run
  split
  · exact h
  next x rest buffer =>
  split
  · next takes =>
    have counted : Room 63 (s.withLink (takenLink rest s)).link := by
      refine ⟨by decide, Nat.le_of_lt_succ takes.2, ?_⟩
      have := h.buffer
      rw [buffer] at this
      exact (Nat.le_succ _).trans this
    dsimp only
    split
    · exact placeReply_room _ _ _ counted
    · exact placeReply_room _ _ _ counted
    · exact hg counted
  · exact h

/-- A request whose block only places a reply. -/
theorem replyOnly_room (f : RxFrame) (st : Status) (c : State → List Byte) (h : Room 64 s.link)
    (run : takeRequest f (fun u => placeReply f st (c u) u) s = .next t) : Room 64 t.link :=
  takeRequest_room (placeReply_room f st _) h run

theorem next_room {u : State} (h : Room 64 u.link) (run : (Host.Outcome.next u : Host.Outcome State Fault Refusal) = .next t) :
    Room 64 t.link := by
  cases run
  exact h

theorem statusReply_room (f : RxFrame) (h : Room n s.link) :
    Room (n + 1) (placeReply f .ok (statusContents s) (markHit (s.listBad || s.ctxsBad) s)).link :=
  placeReply_room f .ok _ (markHit_room _ h)

/-- A tick taken only in the states for which `p` holds. -/
theorem tickWhen_room {p : State → Prop} [DecidablePred p] (h : Room 64 s.link)
    (run : handle (fun t => if p t then tick t else t) s = .next t) : Room 64 t.link := by
  refine handle_room (fun h => ?_) h run
  split
  · exact tick_room h
  · exact h

theorem execTransmissionEnd_room (h : Room 64 s.link) (run : execTransmissionEnd s = .next t) : Room 64 t.link := by
  refine handle_room (fun h => ?_) h run
  split
  · exact h
  · exact decideLine_room (endMessage_room _ h)

theorem execBlockFrame_room {piece : FramePiece} (h : Room 64 s.link) (run : execBlockFrame piece s = .next t) : Room 64 t.link := by
  unfold execBlockFrame at run
  split at run
  · exact next_room (u := dropPiece _ s) h run
  · exact handle_room (receivePiece_room _ _) h run

theorem execPpsEdge_room {line : Fin 4} {level : Bool} (h : Room 64 s.link) (run : execPpsEdge line level s = .next t) :
    Room 64 t.link := by
  refine handle_room (fun h => ?_) (setPin_room line level h) run
  split
  · exact alignPps_room h
  · exact h

theorem execTimeBreak_room {line : Fin 4} {level : Bool} (h : Room 64 s.link) (run : execTimeBreak line level s = .next t) :
    Room 64 t.link := by
  refine handle_room (fun h => ?_) (setPin_room line level h) run
  split
  · exact takeBreak_room _ h
  · exact h

/-- A cold reset empties both queues (R154). -/
theorem coldReset_room (cause : ResetCause) (s : State) : Room 64 (coldReset cause s).link :=
  ⟨by decide, Nat.zero_le _, Nat.zero_le _⟩

theorem completeReset_room (code : Fin 4) (position : Fin 8) (h : Room 64 s.link) : Room 64 (completeReset code position s).link :=
  placeNotice_room (n := 63) _ ⟨by decide, Nat.zero_le _, h.buffer⟩

/-- Every command keeps both queues within their bounds. -/
theorem exec_room {c : Instr} (h : Room 64 s.link) (run : exec c s = .next t) : Room 64 t.link := by
  cases c with
  | ident => exact replyOnly_room _ _ identContents h run
  | status => exact takeRequest_room (statusReply_room _) h run
  | paramSet => exact takeRequest_room (paramSet_room _) h run
  | paramGet => exact replyOnly_room _ _ (paramContents _) h run
  | start => exact takeRequest_room (startRequest_room _) h run
  | stopFinish tag body =>
    simp only [exec, execStopFinish] at run
    split at run
    · exact next_room h run
    · exact takeRequest_room (stopFinish_room _) h run
  | stopDiscard tag body =>
    simp only [exec, execStopDiscard] at run
    split at run
    · exact takeRequest_room (stopDiscard_room _) h run
    · exact next_room h run
  | restart tag => exact takeRequest_room (fun _ => warmRestart_room .restart tag _ (by decide)) h run
  | sync => exact takeRequest_room (syncRequest_room _) h run
  | timeSet => exact takeRequest_room (timeSet_room _) h run
  | routeSet => exact takeRequest_room (routeSet_room _) h run
  | routeGet => exact replyOnly_room _ _ (fun u => routeBytes u.router) h run
  | pilotOpen => exact takeRequest_room (pilotOpen_room _) h run
  | pilotWords => exact takeRequest_room (pilotWords_room _) h run
  | pilotClose => exact takeRequest_room (pilotClose_room _) h run
  | fleetSet => exact takeRequest_room (fleetSet_room _) h run
  | fleetGet => exact takeRequest_room (fleetGet_room _) h run
  | arm => exact takeRequest_room (armRequest_room _) h run
  | post => exact takeRequest_room (postRequest_room _) h run
  | schedule => exact takeRequest_room (scheduleRequest_room _) h run
  | cancel => exact takeRequest_room (cancelRequest_room _) h run
  | closeVpWait tag body =>
    simp only [exec, execCloseVpWait] at run
    split at run
    · exact next_room h run
    · exact takeRequest_room (closeWait_room _) h run
  | closeVpNow tag body =>
    simp only [exec, execCloseVpNow] at run
    split at run
    · exact takeRequest_room (closeNow_room _) h run
    · exact next_room h run
  | faultRead => exact takeRequest_room (faultRead_room _) h run
  | unknownKind kind tag body =>
    simp only [exec, execUnknownKind] at run
    split at run
    · exact takeRequest_room Room.more h run
    · exact next_room h run
  | hostFrame => exact handle_room (receive_room _ _) h run
  | transmissionStart => exact handle_room decideLine_room h run
  | transmissionEnd => exact execTransmissionEnd_room h run
  | transmitHold line level => exact next_room (setPin_room line level h) run
  | blockFrame => exact execBlockFrame_room h run
  | sampleTick => exact handle_room tick_room h run
  | holdoverDeadline => exact tickWhen_room (p := (deadlineNext · = true)) h run
  | scheduleCompare => exact tickWhen_room (p := (compareNext · = true)) h run
  | pulseEnd line => exact tickWhen_room (p := (·.router.outputs[line.val].count = 1)) h run
  | ppsEdge => exact execPpsEdge_room h run
  | timeBreak => exact execTimeBreak_room h run
  | correlationPassEnd => exact handle_room endPass_room h run
  | jobCompletion => exact handle_room completeJob_room h run
  | powerUp => exact next_room (coldReset_room .power s) run
  | resetPin =>
    simp only [exec, execResetPin] at run
    split at run
    · exact next_room h run
    · exact next_room (coldReset_room .pin s) run
  | coldResetComplete code position =>
    simp only [exec, execColdResetComplete] at run
    split at run
    · exact next_room (completeReset_room code position h) run
    · exact next_room h run

/-- Settles O54: reports fill the queue to 56 entries at most, a reply takes the one place free when its request is taken, and the receiver
adds a frame only to a buffer with room. -/
theorem stepKeepsQueuesBounded : Obligations.StepKeepsQueuesBounded := by
  intro s t h run
  rw [queuesBounded_iff] at h ⊢
  unfold step at run
  split at run
  · exact next_room h run
  · next c rest _ => exact exec_room (s := { s with pending := rest }) h run

end Sys2Proof.Machine
end

section
/-! PROOFS. The queue of commands at a step, and the decoder: a request is the taking of its frame or nothing, an unknown kind and a wrong
body length are answered, and SYNC (R145 to R147, R172; log entries 1, 6, 16, 18). -/

namespace Sys2Proof.Machine

/-! ### One step -/

/-- Settles O1, by the queue: the command at its front, or none. -/
theorem stepRunsFront : Obligations.StepRunsFront := by
  refine ⟨fun c rest s front => ?_, fun s empty => ?_⟩
  · rw [step, front]
  · rw [step, empty]

/-! ### Kinds and body lengths (R172) -/

/-- A kind has body lengths exactly when it names a request. -/
theorem lengthAllowed_isSome (kind : Byte) (len : Nat) : (lengthAllowed kind len).isSome = knownKind kind := by
  unfold lengthAllowed knownKind
  generalize kind.toNat = k
  by_cases known : 1 ≤ k ∧ k ≤ 0x16
  · obtain ⟨low, high⟩ := known
    interval_cases k <;> rfl
  · have outside : (decide (1 ≤ k) && decide (k ≤ 0x16)) = false := by simpa using known
    rw [outside]
    split
    case h_23 => rfl
    all_goals exact absurd ⟨by decide, by decide⟩ known

/-- The lengths of the kinds with one body length, and the odd lengths of PILOT WORDS. -/
theorem lengthAllowed_true_iff (kind : Byte) (len : Nat) : lengthAllowed kind len = some true ↔
    (kind.toNat, len) ∈ [(1, 0), (2, 0), (3, 5), (4, 1), (5, 0), (6, 1), (7, 0), (8, 2), (9, 6), (10, 7), (11, 0),
      (12, 4), (14, 3), (15, 12), (16, 1), (17, 6), (18, 11), (19, 11), (20, 2), (21, 5), (22, 0)] ∨
    (kind = 0x0D ∧ 3 ≤ len ∧ len ≤ 513 ∧ len % 2 = 1) := by
  rw [← BitVec.toNat_inj]
  unfold lengthAllowed
  generalize kind.toNat = k
  split
  case h_23 => simp_all
  all_goals simp [and_assoc]

/-- A kind that names a request judges every body length (R147, R172). -/
theorem lengthAllowed_false {kind : Byte} {len : Nat} (known : knownKind kind = true) (wrong : lengthAllowed kind len ≠ some true) :
    lengthAllowed kind len = some false := by
  have some := lengthAllowed_isSome kind len
  rw [known] at some
  obtain ⟨right, e⟩ := Option.isSome_iff_exists.mp some
  cases right with
  | false => exact e
  | true => exact absurd e wrong

/-! ### The decoder -/

/-- The command of a request is the taking of its frame; where it is not, since its body or its kind belongs to another row, the command
changes nothing and no host can send it (log entry 16). -/
theorem exec_request {i : Instr} {f : RxFrame} (h : requestFrame i = some f) :
    (∃ g, ∀ s, exec i s = takeRequest f g s) ∨ (∀ s, exec i s = .next s) ∧ i.wellFormed = false := by
  cases i with
  | ident =>
    cases h
    exact .inl ⟨fun t => placeReply _ .ok (identContents t) t, fun _ => rfl⟩
  | status =>
    cases h
    exact .inl ⟨fun t => placeReply _ .ok (statusContents t) (markHit (t.listBad || t.ctxsBad) t), fun _ => rfl⟩
  | paramGet tag body =>
    cases h
    exact .inl ⟨fun t => placeReply _ .ok (paramContents (byteAt body 0) t) t, fun _ => rfl⟩
  | routeGet =>
    cases h
    exact .inl ⟨fun t => placeReply _ .ok (routeBytes t.router) t, fun _ => rfl⟩
  | paramSet | start | restart | sync | timeSet | routeSet | pilotOpen | pilotWords | pilotClose | fleetSet | fleetGet | arm | post
  | schedule | cancel | faultRead =>
    cases h
    exact .inl ⟨_, fun _ => rfl⟩
  | stopFinish tag body =>
    cases h
    by_cases discards : stopsWithDiscard body = true
    · have other : stopModeDiscard body = true := discards
      exact .inr ⟨fun _ => if_pos discards, by simp [Instr.wellFormed, other]⟩
    · exact .inl ⟨_, fun _ => if_neg discards⟩
  | stopDiscard tag body =>
    cases h
    by_cases discards : stopsWithDiscard body = true
    · exact .inl ⟨_, fun _ => if_pos discards⟩
    · exact .inr ⟨fun _ => if_neg discards, Bool.eq_false_of_not_eq_true discards⟩
  | closeVpWait tag body =>
    cases h
    by_cases now : closesNow body = true
    · have other : closeModeNow body = true := now
      exact .inr ⟨fun _ => if_pos now, by simp [Instr.wellFormed, other]⟩
    · exact .inl ⟨_, fun _ => if_neg now⟩
  | closeVpNow tag body =>
    cases h
    by_cases now : closesNow body = true
    · exact .inl ⟨_, fun _ => if_pos now⟩
    · exact .inr ⟨fun _ => if_neg now, Bool.eq_false_of_not_eq_true now⟩
  | unknownKind kind tag body =>
    cases h
    have some := lengthAllowed_isSome kind body.length
    cases length : lengthAllowed kind body.length with
    | none => exact .inl ⟨fun t => t, fun s => by simp only [exec, execUnknownKind, length]⟩
    | some right =>
      rw [length] at some
      have known : knownKind kind = true := some.symm
      exact .inr ⟨fun s => by simp only [exec, execUnknownKind, length], by simp [Instr.wellFormed, known]⟩
  | hostFrame | transmissionStart | transmissionEnd | transmitHold | blockFrame | sampleTick | holdoverDeadline | scheduleCompare
  | pulseEnd | ppsEdge | timeBreak | correlationPassEnd | jobCompletion | powerUp | resetPin | coldResetComplete => cases h

/-- A reply without contents that the decoder itself places (R147). -/
theorem decoder_answers {f : RxFrame} {rest : List RxFrame} {s : State} {g : State → State} {st : Status} (clear : s.checkHit = false)
    (run : takeRequest f g s = .next (settle (placeReply f st [] (s.withLink (takenLink rest s))))) :
    ∃ t, takeRequest f g s = .next t ∧ AnsweredOnly f rest st [] s t := by
  rw [settle_clean ((placeReply_only f st [] (s.withLink (takenLink rest s))).checkHit.trans clear)] at run
  exact ⟨_, run, answeredOnly_reply f rest st [] s⟩

/-- Settles O6: the decoder judges the kind and then the length, whatever the request's own handling. -/
theorem kindAndLengthJudged : Obligations.KindAndLengthJudged := by
  refine ⟨fun kind tag body rest s outside h clear => ?_, fun i f rest s request formed h clear known length words => ?_⟩
  · have unknown : lengthAllowed kind body.length = none := by
      rw [← Option.not_isSome_iff_eq_none, lengthAllowed_isSome, knownKind, Bool.and_eq_true, decide_eq_true_eq, decide_eq_true_eq]
      omega
    have run : exec (.unknownKind kind tag body) s = takeRequest ⟨kind, tag, body⟩ (fun t => t) s := by
      simp only [exec, execUnknownKind, unknown]
    rw [run]
    exact decoder_answers clear (takeRequest_kind h _ unknown)
  · rcases exec_request request with ⟨g, run⟩ | ⟨-, other⟩
    · have wrong : lengthAllowed f.kind f.body.length = some false := lengthAllowed_false known fun right =>
        ((lengthAllowed_true_iff _ _).mp right).elim length words
      rw [run]
      exact decoder_answers clear (takeRequest_length h g wrong)
    · exact nomatch formed.symm.trans other

/-- Settles O7: with no free place in the queue, another frame at the head of the buffer, or the part held, the frame is not taken. -/
theorem decoderWaits : Obligations.DecoderWaits := by
  intro i f s request clear waits
  rcases exec_request request with ⟨g, run⟩ | ⟨idle, -⟩
  · rw [run]
    refine takeRequest_not_taken g clear ?_
    rintro ⟨rest, held, buffer, room⟩
    rcases waits with full | other | holding
    · omega
    · exact other (by rw [buffer]; rfl)
    · exact nomatch held.symm.trans holding
  · exact idle s

/-- Settles O10: the counts are those of the link as the SYNC is taken, and its HUNT discard count is cleared behind the reply. -/
theorem syncAnswers : Obligations.SyncAnswers := by
  intro tag count rest s h clear
  set f : RxFrame := ⟨0x08, tag, syncBody count⟩
  set contents := leBytes 2 count.toNat ++ leBytes 2 (s.link.accepted + 1).toNat ++ leBytes 2 s.link.huntDiscards
  set u := placeReply f .ok contents (taken rest s)
  have only : OnlyLinkLines s u := (withLink_only _ s).trans (placeReply_only f .ok contents (taken rest s))
  have follow : LinesFollow [.noticeHigh] s u := (placeReply_follow f .ok contents (taken rest s)).link_left
  have handled : syncRequest f (taken rest s) = u.withLink { u.link with huntDiscards := 0 } := by
    unfold syncRequest
    rw [show fieldAt f.body 0 2 = count.toNat from syncBody_count count]
    rfl
  have length : lengthAllowed f.kind f.body.length = some true := by
    show lengthAllowed 0x08 (syncBody count).length = some true
    rw [syncBody_length]
    rfl
  refine ⟨_, reply_next h length handled (only.checkHit.trans clear), only.trans (withLink_only _ u), follow.trans (.of_outputs rfl), ?_⟩
  have joins : u.link = joined u (.reply 0x08 tag .ok contents) (takenLink rest s) := by
    rw [placeReply_link, (placeReply_only f .ok contents (taken rest s)).joined]
    rfl
  exact congrArg (fun l : HostLink => { l with huntDiscards := 0 }) joins

end Sys2Proof.Machine
end

section
/-! PROOFS. PARAM_SET of the keys that only store, of setup class outside SETUP, and of a key that names no parameter (R151, R161, R162). -/

namespace Sys2Proof.Machine

variable {tag key : Byte} {v : BitVec 32} {rest : List RxFrame} {s : State}

/-- The parameter set behind a PARAM SET of a key that only stores: the settle margin, the gap policy, the output mode or the mask (R151,
R161, R162). -/
def storedParams (key : Byte) (v : BitVec 32) (p : Params) : Params :=
  if key = 2 then { p with margin := min v.toNat 255 }
  else if key = 3 then { p with gapPolicy := if v = 0 then .fold else if v = 1 then .discard else p.gapPolicy }
  else if key = 4 then { p with outputMode := if v = 0 then .mean else if v = 1 then .sum else p.outputMode }
  else { p with mask := v.truncate 12 ||| 0b111 }

/-- A value from a set of two codes is told by its number. -/
theorem toNat_cases (v : BitVec 32) : v = 0 ∨ v = 1 ∨ v ≠ 0 ∧ v ≠ 1 ∧ v.toNat ≠ 0 ∧ v.toNat ≠ 1 := by
  have zero : v = 0 ↔ v.toNat = 0 := by rw [← BitVec.toNat_inj]; rfl
  have one : v = 1 ↔ v.toNat = 1 := by rw [← BitVec.toNat_inj]; rfl
  simp only [ne_eq, zero, one]
  omega

theorem storeParam_stored (s : State) (stores : key = 2 ∨ key = 3 ∨ key = 4 ∨ key = 6) :
    storeParam key.toNat v.toNat s = s.withParams (storedParams key v s.mode.params) := by
  rcases stores with rfl | rfl | rfl | rfl
  · rfl
  · rcases toNat_cases v with rfl | rfl | ⟨zero, one, zeroNat, oneNat⟩
    · rfl
    · rfl
    · have kept : storeParam 3 v.toNat s = s := by simp only [storeParam]
      rw [storedParams, if_neg (by decide), if_pos rfl, if_neg zero, if_neg one]
      exact kept
  · rcases toNat_cases v with rfl | rfl | ⟨zero, one, zeroNat, oneNat⟩
    · rfl
    · rfl
    · have kept : storeParam 4 v.toNat s = s := by simp only [storeParam]
      rw [storedParams, if_neg (by decide), if_neg (by decide), if_pos rfl, if_neg zero, if_neg one]
      exact kept
  · have mask : BitVec.ofNat 12 v.toNat = v.truncate 12 := BitVec.ofNat_toNat ..
    rw [storedParams, if_neg (by decide), if_neg (by decide), if_neg (by decide), ← mask]
    rfl

/-- A key that names no parameter (R162). -/
theorem storeParam_unnamed {k : Nat} (outside : ¬ (1 ≤ k ∧ k ≤ 6)) (n : Nat) (s : State) : storeParam k n s = s := by
  unfold storeParam
  split
  case h_7 => rfl
  all_goals exact absurd ⟨by decide, by decide⟩ outside

theorem paramValue_unnamed {k : Nat} (outside : ¬ (1 ≤ k ∧ k ≤ 6)) (p : Params) : paramValue p k = none := by
  unfold paramValue
  split
  case h_7 => rfl
  all_goals exact absurd ⟨by decide, by decide⟩ outside

theorem paramSetBody_fits (key : Byte) (v : BitVec 32) : lengthAllowed 0x03 (paramSetBody key v).length = some true := by
  rw [paramSetBody_length]
  rfl

/-- The write and its reply, which reads the value that stands behind it (R162). -/
theorem paramSet_stored (f : RxFrame) (s : State) (body : f.body = paramSetBody key v)
    (free : ¬ (setupClass key.toNat = true ∧ s.mode.op ≠ .setup)) : paramSet f s =
      placeReply f .ok (paramContents key (storeParam key.toNat v.toNat s)) (storeParam key.toNat v.toNat s) := by
  unfold paramSet
  simp only [body, paramSetBody_key, paramSetBody_value]
  exact if_neg free

/-- A write outside SETUP of a key of setup class (R161, R162). -/
theorem paramSet_refused (f : RxFrame) (s : State) (body : f.body = paramSetBody key v)
    (outside : setupClass key.toNat = true ∧ s.mode.op ≠ .setup) : paramSet f s = placeReply f .state (paramContents key s) s := by
  unfold paramSet
  simp only [body, paramSetBody_key]
  exact if_pos outside

/-- Settles O26: the write of a key that only stores, then the keys that name no parameter, then those refused outside SETUP. -/
theorem paramSetStores : Obligations.ParamSetStores := by
  refine ⟨fun tag key v rest s h clear setup stores => ?_, fun tag key v rest s h clear => ⟨fun unnamed => ?_, fun low high op => ?_⟩⟩
  · intro p q u
    have free : ¬ (setupClass key.toNat = true ∧ s.mode.op ≠ .setup) := by
      rcases stores with e | e | e | rfl
      · exact fun k => k.2 (setup (.inl e))
      · exact fun k => k.2 (setup (.inr (.inl e)))
      · exact fun k => k.2 (setup (.inr (.inr e)))
      · exact fun k => nomatch k.1
    have value : (paramValue q key.toNat).getD 0 = u := by
      rw [paramValue_eq]
      rcases stores with rfl | rfl | rfl | rfl
      · rfl
      · rfl
      · rfl
      · rfl
    have stored := storeParam_stored (v := v) (taken rest s) stores
    refine reply_change (v := s.withParams q) .ok _ h (paramSetBody_fits key v) clear rfl rfl ?_
    rw [← value]
    exact (paramSet_stored _ (taken rest s) rfl free).trans (by rw [stored]; rfl)
  · have outside : ¬ (1 ≤ key.toNat ∧ key.toNat ≤ 6) := by
      rcases unnamed with rfl | high
      · decide
      · omega
    have free : ¬ (setupClass key.toNat = true ∧ s.mode.op ≠ .setup) := by
      rw [setupClass, Bool.and_eq_true, decide_eq_true_eq, decide_eq_true_eq]
      omega
    have contents : paramContents key (taken rest s) = key :: [0, 0, 0, 0] := by
      rw [paramContents, paramValue_unnamed outside]
      rfl
    refine reply_only .ok _ h (paramSetBody_fits key v) clear ?_
    rw [← contents]
    exact (paramSet_stored _ (taken rest s) rfl free).trans (by rw [storeParam_unnamed outside]; rfl)
  · have named : key = 1 ∨ key = 2 ∨ key = 3 ∨ key = 4 := by bv_omega
    have outside : setupClass key.toNat = true ∧ s.mode.op ≠ .setup := ⟨by simp [setupClass, low, high], op⟩
    have value : (paramValue s.mode.params key.toNat).getD 0 = if key = 1 then s.mode.params.interval.val
        else if key = 2 then s.mode.params.margin else if key = 3 then (if s.mode.params.gapPolicy = .fold then 0 else 1)
        else (if s.mode.params.outputMode = .mean then 0 else 1) := by
      rw [paramValue_eq]
      rcases named with rfl | rfl | rfl | rfl
      · rfl
      · rfl
      · rfl
      · rfl
    refine reply_only .state _ h (paramSetBody_fits key v) clear ?_
    rw [← value]
    exact paramSet_refused _ (taken rest s) rfl outside

end Sys2Proof.Machine
end

section
/-! PROOFS. HOST_FRAME: a run of frames received as those frames, a run of bytes split over two commands, a full buffer, HUNT, and bad frames
(R141 to R144, R171; log entry 3). -/

namespace Sys2Proof.Machine

variable {s t : State} {f : RxFrame} {bytes tail : List Byte}

/-! ### The bytes of one command -/

/-- HOST_FRAME with nothing in reception, by what the receiver makes of its bytes. -/
theorem exec_hostFrame (held : s.mode.held = false) (nothing : s.link.partialBytes = [])
    (received : receive (bytes.length + 1) bytes s = t) (clear : t.checkHit = false) : exec (.hostFrame bytes) s = .next t := by
  have e : receiveBytes bytes s = t := by
    unfold receiveBytes
    rw [nothing]
    exact received
  exact handle_eq held e clear

/-- Bytes without a start byte change nothing. -/
theorem exec_hostFrame_idle (held : s.mode.held = false) (clear : s.checkHit = false) (nothing : s.link.partialBytes = [])
    (idle : ∀ b ∈ bytes, b ≠ 0xC3) : exec (.hostFrame bytes) s = .next s :=
  exec_hostFrame held nothing ((receive_idle idle (Nat.lt_succ_self _) s).trans (keepPartial_self nothing)) clear

/-- One whole frame, by what becomes of it once it is checked. -/
theorem exec_hostFrame_frame (held : s.mode.held = false) (nothing : s.link.partialBytes = []) (fits : f.body.length ≤ 1040)
    (checked : checkedFrame f s = t) (clear : t.checkHit = false) (kept : t.link.partialBytes = []) :
    exec (.hostFrame (frameBytes f.kind f.tag f.body)) s = .next t := by
  refine exec_hostFrame held nothing ?_ clear
  have received := receive_frame (junk := []) (rest := []) f (by decide) fits
    (n := (frameBytes f.kind f.tag f.body).length + 1) (m := 1) (by simp) (by simp) s
  rw [List.nil_append, List.append_nil] at received
  rw [received, checked]
  exact keepPartial_self kept

/-! ### Runs of frames -/

/-- A checked frame in RECEIVING, with room in the buffer, joins its tail (R143). -/
theorem checkedFrame_joins (receiving : s.link.receiver = .receiving) (room : s.link.rxBuf.length < 8) :
    checkedFrame f s = s.withLink { s.link with rxBuf := s.link.rxBuf ++ [f] } := by
  have fits : s.link.rxBuf.length < Config.rxCapacity := room
  unfold checkedFrame offerFrame
  rw [receiving]
  dsimp only
  rw [if_pos fits, ← receiving]

/-- The bytes of a run: each frame behind bytes without a start word. -/
def runBytes (run : List (List Byte × RxFrame)) : List Byte := run.flatMap fun p => p.1 ++ frameBytes p.2.kind p.2.tag p.2.body

/-- The frames of a run join the buffer in their order, and the bytes behind the last one leave nothing in reception. -/
theorem receive_run {run : List (List Byte × RxFrame)} {n : Nat} (frames : ∀ p ∈ run, ¬ [0xC3, 0x5A] <:+: p.1 ∧ p.2.body.length ≤ 1040)
    (idle : ∀ b ∈ tail, b ≠ 0xC3) (receiving : s.link.receiver = .receiving) (room : s.link.rxBuf.length + run.length ≤ 8)
    (turns : (runBytes run ++ tail).length < n) : receive n (runBytes run ++ tail) s =
      keepPartial [] (s.withLink { s.link with rxBuf := s.link.rxBuf ++ run.map (·.2) }) := by
  induction run generalizing s n with
  | nil =>
    have same : s.withLink { s.link with rxBuf := s.link.rxBuf ++ [] } = s := by rw [List.append_nil]; rfl
    rw [List.map_nil, same]
    exact receive_idle idle turns s
  | cons p run ih =>
    obtain ⟨clean, fits⟩ := frames p (by simp)
    have split : runBytes (p :: run) ++ tail = p.1 ++ frameBytes p.2.kind p.2.tag p.2.body ++ (runBytes run ++ tail) := by
      simp [runBytes]
    rw [List.length_cons] at room
    rw [split] at turns ⊢
    rw [receive_frame p.2 clean fits turns (Nat.lt_succ_self _), checkedFrame_joins receiving (by omega)]
    refine (ih (s := s.withLink { s.link with rxBuf := s.link.rxBuf ++ [p.2] }) (fun q hq => frames q (by simp [hq])) receiving ?_
      (Nat.lt_succ_self _)).trans ?_
    · simp only [State.withLink_link, List.length_append, List.length_cons, List.length_nil]
      omega
    · simp [State.withLink]

/-- A run of bytes received in two parts: what is kept of the first goes before the second. -/
theorem receiveBytes_append (first more : List Byte) (s : State) :
    receiveBytes (first ++ more) s = receiveBytes more (receiveBytes first s) := by
  unfold receiveBytes
  dsimp only
  rw [← List.append_assoc]
  exact receive_split (Nat.lt_succ_self _) (Nat.lt_succ_self _) s (Nat.lt_succ_self _)

/-- Settles O8: the frames of a run one after the other, and a run of bytes split in two. -/
theorem frameDelivered : Obligations.FrameDelivered := by
  refine ⟨fun run tail s held clear nothing frames idle receiving room => ?_, fun first more s clear => ?_⟩
  · refine exec_hostFrame held nothing ?_ clear
    refine (receive_run frames idle receiving room (Nat.lt_succ_self _)).trans ?_
    exact keepPartial_self nothing
  · by_cases held : s.mode.held = true
    · have stays (bytes : List Byte) : exec (.hostFrame bytes) s = .next s := handle_held _ held
      exact ⟨s, stays first, (stays _).trans (stays more).symm⟩
    · have free : s.mode.held = false := Bool.eq_false_of_not_eq_true held
      have only : OnlyLinkLines s (receiveBytes first s) := receive_only _ _ s
      refine ⟨receiveBytes first s, handle_next _ free (only.checkHit.trans clear), ?_⟩
      show handle (receiveBytes (first ++ more)) s = handle (receiveBytes more) (receiveBytes first s)
      have going : (receiveBytes first s).mode.held = false := by rw [only.mode]; exact free
      rw [handle_free _ free, handle_free _ going, receiveBytes_append]

/-! ### The move to HUNT -/

/-- The receiver stands in HUNT, with LINK ERROR offered (R142, R143). -/
def State.hunting (s : State) (cause : LinkCause) : State := linkError cause (s.withLink { s.link with receiver := .hunt })

theorem hunting_only (s : State) (cause : LinkCause) : OnlyLinkLines s (s.hunting cause) :=
  (withLink_only _ s).trans (offerReport_only _ _)

theorem hunting_follow (s : State) (cause : LinkCause) : LinesFollow [.noticeHigh] s (s.hunting cause) :=
  (offerReport_follow (.linkError cause s.link.accepted) (s.withLink { s.link with receiver := .hunt })).link_left

theorem hunting_link (s : State) (cause : LinkCause) : (s.hunting cause).link =
    offeredLink [.linkError cause s.link.accepted] (s.withLink { s.link with receiver := .hunt }) := rfl

theorem hunting_partial (s : State) (cause : LinkCause) : (s.hunting cause).link.partialBytes = s.link.partialBytes := by
  unfold State.hunting linkError
  rw [offerReport_link_frame]
  rfl

/-- A frame that is offered: any in RECEIVING, a SYNC in HUNT (R141, R144). -/
theorem checkedFrame_offered (offers : s.link.receiver = .receiving ∨ f.kind = syncKind) : checkedFrame f s = offerFrame f s := by
  unfold checkedFrame
  split
  · rfl
  · next hunt =>
    refine if_pos (offers.resolve_left ?_)
    rw [hunt]
    decide

/-- A frame other than SYNC in HUNT (R144). -/
theorem checkedFrame_discarded (hunt : s.link.receiver = .hunt) (other : f.kind ≠ syncKind) :
    checkedFrame f s = s.withLink { s.link with huntDiscards := min 65535 (s.link.huntDiscards + 1) } := by
  unfold checkedFrame
  rw [hunt]
  exact if_neg other

/-! ### Bad frames -/

/-- The bytes behind a start word make a bad frame: a length word above 1,040, or a wrong check word (R142). -/
def BadFrame (cause : LinkCause) (tail : List Byte) : Prop :=
  (cause = .length ∧ ∃ (n : Word) (more : List Byte), 1040 < n.toNat ∧ tail = leBytes 2 n.toNat ++ more) ∨
  (cause = .check ∧ ∃ (kind tag : Byte) (body : List Byte) (w : Word) (more : List Byte), body.length ≤ 1040 ∧
    w ≠ checkOf (frameCovered kind tag body) ∧ tail = frameCovered kind tag body ++ leBytes 2 w.toNat ++ more)

/-- A bad frame is judged, and the receiver goes on from the byte behind its start word. -/
theorem BadFrame.receive {cause : LinkCause} (bad : BadFrame cause tail) (n : Nat) (s : State) :
    Machine.receive (n + 1) (0xC3 :: 0x5A :: tail) s = Machine.receive n tail (badFrame cause s) := by
  rw [receive_start]
  rcases bad with ⟨rfl, length, more, above, rfl⟩ | ⟨rfl, kind, tag, body, w, more, fits, wrong, rfl⟩
  · rw [parse_length length more above]
  · rw [parse_frame kind tag body w more fits, if_neg wrong]

theorem BadFrame.exec {cause : LinkCause} (bad : BadFrame cause tail) (held : s.mode.held = false) (nothing : s.link.partialBytes = [])
    (kept : (badFrame cause s).link.partialBytes = []) :
    Machine.exec (.hostFrame (0xC3 :: 0x5A :: tail)) s = Machine.exec (.hostFrame tail) (badFrame cause s) := by
  have received : receiveBytes (0xC3 :: 0x5A :: tail) s = receiveBytes tail (badFrame cause s) := by
    unfold receiveBytes
    rw [nothing, kept]
    exact (bad.receive _ s).trans (receive_turns (by simp) (by simp) _)
  show handle (receiveBytes _) s = handle (receiveBytes tail) (badFrame cause s)
  have going : (badFrame cause s).mode.held = false := by rw [(badFrame_only cause s).mode]; exact held
  rw [handle_free _ held, handle_free _ going, received]

/-- Settles O9: a checked frame at a full buffer and in HUNT, and a bad frame in both states. -/
theorem badFramesHunt : Obligations.BadFramesHunt := by
  refine ⟨fun kind tag body s held clear nothing fits full offers => ?_, fun kind tag body s held clear nothing fits hunt => ⟨?_, ?_⟩,
    fun cause tail s held clear nothing bad => ⟨fun receiving => ?_, fun hunt => ?_⟩⟩
  · have only := hunting_only s .overrun
    have overruns : checkedFrame ⟨kind, tag, body⟩ s = s.hunting .overrun := by
      rw [checkedFrame_offered offers]
      exact if_neg (Nat.not_lt.mpr full)
    exact ⟨_, exec_hostFrame_frame (f := ⟨kind, tag, body⟩) held nothing fits overruns (only.checkHit.trans clear)
      ((hunting_partial s .overrun).trans nothing), only, hunting_follow s .overrun, hunting_link s .overrun⟩
  · exact fun other => exec_hostFrame_frame (f := ⟨kind, tag, body⟩) held nothing fits (checkedFrame_discarded hunt other) clear nothing
  · intro sync room
    have joins : checkedFrame ⟨kind, tag, body⟩ s =
        s.withLink { s.link with receiver := .receiving, rxBuf := s.link.rxBuf ++ [⟨kind, tag, body⟩] } := by
      rw [checkedFrame_offered (.inr sync)]
      exact if_pos room
    exact exec_hostFrame_frame (f := ⟨kind, tag, body⟩) held nothing fits joins clear nothing
  · have only := hunting_only s cause
    have moves : badFrame cause s = s.hunting cause := by
      unfold badFrame
      rw [receiving]
      rfl
    have kept := (hunting_partial s cause).trans nothing
    have run := BadFrame.exec bad held nothing (by rw [moves]; exact kept)
    rw [moves] at run
    exact ⟨_, run, only, hunting_follow s cause, hunting_link s cause,
      exec_hostFrame_idle (by rw [only.mode]; exact held) (only.checkHit.trans clear) kept⟩
  · have stays : badFrame cause s = s := by
      unfold badFrame
      rw [hunt]
    have run := BadFrame.exec bad held nothing (by rw [stays]; exact nothing)
    rw [stays] at run
    exact ⟨run, exec_hostFrame_idle held clear nothing⟩

end Sys2Proof.Machine
end

section
/-! PROOFS. The invariants at reset: the tables stand as a cold reset sets them, and RESTARTED is in transmission (R154, R168, R170). -/

namespace Sys2Proof.Machine

theorem reset_ctx (i : Fin 4) : State.reset.ctx i = Context.freed 0 := coldCtx_get i

theorem reset_fleet (f : Fin 4) : State.reset.fleet f = FleetRecord.cold f := coldFleets_get f

/-- The list's bounds, the engine, the attached counts, the closing order and the budgets at reset. -/
theorem reset_accounts : Accounts True State.reset :=
  .cleared rfl rfl rfl (fun i => ⟨0, reset_ctx i⟩) fun _ f => by rw [reset_fleet]; exact Nat.le_refl 1

theorem reset_params : ParamsInRange State.reset := by
  unfold ParamsInRange
  decide

/-- No line has a role (R58). -/
theorem reset_roles : RolesUnique State.reset := fun i _ _ held =>
  absurd (congrArg InputEntry.role (cold_inputs (Vector.replicate 4 false) i)) held

theorem reset_clean : Clean State.reset := .of rfl (fun _ hr => nomatch hr) fun i => by rw [reset_ctx]; rfl

/-- The line is busy with RESTARTED (R152, R154). -/
theorem reset_lineServed : LineServed State.reset := ⟨rfl, fun _ idle => nomatch idle⟩

theorem reset_jobsStored : JobsStored State.reset := ⟨fun _ => rfl, fun _ hr => (nomatch hr), fun _ hj => (nomatch hj)⟩

/-- Settles O53: what reads only the tables holds as after any cold reset. -/
theorem invariantsAtReset : Obligations.InvariantsAtReset := by
  have accounts := reset_accounts
  exact ⟨⟨Nat.zero_le _, Nat.zero_le _⟩, coldReset_storesCanonical .power State.reset, accounts.ordered, reset_params, reset_roles,
    reset_clean, .of_empty rfl, accounts.engine, accounts.attached, accounts.closing, reset_lineServed,
    coldReset_fleetsInRange .power State.reset, accounts.budget trivial, coldReset_pilotsHeld .power State.reset,
    (fun _ head => nomatch head),
    coldReset_setupEmpty .power State.reset, coldReset_foldBounds .power State.reset, reset_jobsStored⟩

end Sys2Proof.Machine
end

section
/-! PROOFS. The mode controller's START and STATUS: the ACQUIRE level with the operating state, and the part read field by field (R157, R167,
R174). -/

namespace Sys2Proof.Machine

/-! ### START -/

/-- START in SETUP raises the ACQUIRE level over the new operating state, and the reply reads that state (R157). -/
theorem startRequest_setup {f : RxFrame} {s : State} (op : s.mode.op = .setup) :
    startRequest f s = placeReply f .ok [1] (raiseLevel .acquire (s.withMode { s.mode with op := .acquire, drain := none })) := by
  have raised : setOp .acquire none s = raiseLevel .acquire (s.withMode { s.mode with op := .acquire, drain := none }) := by
    simp [setOp, op]
  rw [startRequest, if_pos op]
  simp only [raised]
  rfl

/-- Settles O28, by the operating state that START finds. -/
theorem startAcquires : Obligations.StartAcquires := by
  intro tag rest s h clear
  refine ⟨fun op => ?_, fun op => reply_only .state _ h rfl clear (if_neg op)⟩
  have rose := raiseLevel_rose .acquire ((taken rest s).withMode { s.mode with op := .acquire, drain := none })
  obtain ⟨t, run, replied⟩ := request_replied h rfl (startRequest_setup (s := taken rest s) op) ((raiseLevel_only _ _).checkHit.trans clear)
  exact ⟨t, _, run, rose, replied⟩

/-! ### Fields laid end to end -/

/-- A table of fields, each an offset, a width and the bytes there, that follow one another from `start` without a gap. -/
def Laid : Nat → List (Nat × Nat × List Byte) → Prop
  | _, [] => True
  | start, (off, width, p) :: fields => off = start ∧ p.length = width ∧ Laid (start + width) fields

/-- The bytes of a table's fields in order. -/
def laidBytes (fields : List (Nat × Nat × List Byte)) : List Byte := fields.flatMap fun q => q.2.2

/-- Each field of a table stands at its offset. -/
theorem Laid.slices {fields : List (Nat × Nat × List Byte)} {before : List Byte} (laid : Laid before.length fields) (after : List Byte) :
    ∀ q ∈ fields, ((before ++ laidBytes fields ++ after).drop q.1).take q.2.1 = q.2.2 := by
  induction fields generalizing before with
  | nil => exact fun _ h => nomatch h
  | cons field fields ih =>
    obtain ⟨off, width, p⟩ := field
    obtain ⟨rfl, rfl, laid⟩ := laid
    have regroup : before ++ laidBytes ((before.length, p.length, p) :: fields) ++ after = before ++ p ++ laidBytes fields ++ after := by
      simp [laidBytes]
    rw [regroup]
    refine List.forall_mem_cons.mpr ⟨?_, ih (by rwa [List.length_append])⟩
    simp

theorem Laid.length {fields : List (Nat × Nat × List Byte)} {start : Nat} (laid : Laid start fields) :
    (laidBytes fields).length = (fields.map fun q => q.2.1).sum := by
  induction fields generalizing start with
  | nil => rfl
  | cons field fields ih =>
    obtain ⟨-, width, laid⟩ := laid
    have rest := ih laid
    simp only [laidBytes] at rest
    simp [laidBytes, width, rest]

section slice
variable {c p : List Byte} {off n : Nat}

theorem fieldAt_slice {v : Nat} (slice : (c.drop off).take n = leBytes n v) : fieldAt c off n = v % 256 ^ n := by
  rw [fieldAt, slice, leNat_leBytes]

theorem fieldAt_slice_of_lt {v : Nat} (slice : (c.drop off).take n = leBytes n v) (h : v < 256 ^ n) : fieldAt c off n = v :=
  (fieldAt_slice slice).trans (Nat.mod_eq_of_lt h)

theorem byteAt_slice (slice : (c.drop off).take n = p) {k : Nat} (h : k < n) : byteAt c (off + k) = byteAt p k := by
  subst slice
  simp [byteAt, List.getD_eq_getElem?_getD, h]

theorem byteAt_slice_one {b : Byte} (slice : (c.drop off).take 1 = [b]) : byteAt c off = b := byteAt_slice slice Nat.one_pos

end slice

/-! ### The contents of STATUS -/

/-- The four places of an order of contexts, unused ones 0xFF (R174). -/
def orderPlaces (l : List (Fin 4)) : List Byte := (List.range 4).map fun j => ctxByte l[j]?

/-- The fields of STATUS before its sweeps: offset, width and bytes (R174). -/
def statusFields (s : State) : List (Nat × Nat × List Byte) :=
  [(0, 3, [opCode s.mode.op, (s.mode.drain.map drainCode).getD 0xFF, boolByte s.ring.head.isSome]),
    (3, 6, leBytes 6 (s.ring.head.getD 0)),
    (9, 4, leBytes 4 s.ring.accepted.toNat),
    (13, 4, leBytes 4 s.ring.duplicates.toNat),
    (17, 4, leBytes 4 s.ring.tooOld.toNat),
    (21, 1, [boolByte s.ring.fault.isSome]),
    (22, 6, leBytes 6 s.time.n.toNat),
    (28, 1, [lockCode s.time.lock]),
    (29, 6, leBytes 6 s.time.a.toNat),
    (35, 6, statusEngine s.engine),
    (41, 12, statusContext (s.ctx 0)),
    (53, 12, statusContext (s.ctx 1)),
    (65, 12, statusContext (s.ctx 2)),
    (77, 12, statusContext (s.ctx 3)),
    (89, 1, leBytes 1 s.stack.openOrder.length),
    (90, 4, orderPlaces s.stack.openOrder),
    (94, 1, leBytes 1 s.emitter.closing.length),
    (95, 4, orderPlaces s.emitter.closing),
    (99, 4, statusEmitter s.emitter),
    (103, 1, [rxStateCode s.link.receiver]),
    (104, 2, leBytes 2 s.link.accepted.toNat),
    (106, 2, leBytes 2 s.link.huntDiscards),
    (108, 1, leBytes 1 s.link.notices.length),
    (109, 2, leBytes 2 s.link.lost),
    (111, 1, leBytes 1 s.listed.length)]

theorem statusContents_eq (s : State) : statusContents s = laidBytes (statusFields s) ++ s.listed.flatMap statusSweep := by
  unfold statusContents
  simp only [laidBytes, statusFields, statusOrder, orderPlaces, ctxOrder, List.flatMap_cons, List.flatMap_nil, List.append_assoc,
    List.append_nil]

theorem statusEngine_idle {e : Engine} (h : e.job = none) : statusEngine e = [0, 0, 0, 0, 0, 0] := by
  rw [statusEngine, h]
  rfl

theorem statusEngine_running {e : Engine} {j : Job} (h : e.job = some j) :
    statusEngine e = 1 :: (leBytes 2 j.sweep.id ++ [if j.pass = .correlation then 1 else 2] ++ leBytes 2 j.done) := by
  have pass : passCode j.pass = if j.pass = .correlation then 1 else 2 := by cases j.pass <;> rfl
  rw [statusEngine, h, ← pass]

@[simp] theorem statusEngine_length (e : Engine) : (statusEngine e).length = 6 := by
  cases h : e.job with
  | none => rw [statusEngine_idle h]; rfl
  | some j => rw [statusEngine_running h]; rfl

theorem statusEmitter_idle {e : Emitter} (h : e.cursor = none) : statusEmitter e = [0, 0, 0, 0] := by
  rw [statusEmitter, h]
  rfl

theorem statusEmitter_sending {e : Emitter} {cu : Cursor} (h : e.cursor = some cu) :
    statusEmitter e = 1 :: (leBytes 1 cu.ctx.val ++ leBytes 2 cu.sent) := by
  rw [statusEmitter, h]

@[simp] theorem statusEmitter_length (e : Emitter) : (statusEmitter e).length = 4 := by
  cases h : e.cursor with
  | none => rw [statusEmitter_idle h]; rfl
  | some cu => rw [statusEmitter_sending h]; rfl

theorem statusFields_laid (s : State) : Laid 0 (statusFields s) := by
  simp [statusFields, Laid, statusContext, orderPlaces]

theorem statusFields_length (s : State) : (laidBytes (statusFields s)).length = 112 :=
  (statusFields_laid s).length.trans (by simp [statusFields])

/-- Each field of STATUS stands at its offset. -/
theorem statusContents_slices (s : State) : ∀ q ∈ statusFields s, ((statusContents s).drop q.1).take q.2.1 = q.2.2 := by
  rw [statusContents_eq]
  exact Laid.slices (before := []) (statusFields_laid s) _

/-- The sweeps of STATUS stand behind the fields, nine bytes each. -/
theorem statusContents_sweeps (s : State) : (statusContents s).drop 112 = s.listed.flatMap statusSweep := by
  rw [statusContents_eq, List.drop_left' (statusFields_length s)]

theorem statusContents_length (s : State) : (statusContents s).length = 112 + 9 * s.listed.length := by
  have sweeps : (s.listed.flatMap statusSweep).length = 9 * s.listed.length := by
    simp [List.length_flatMap, statusSweep, Nat.mul_comm]
  rw [statusContents_eq, List.length_append, statusFields_length, sweeps]

theorem byteAt_orderPlaces (l : List (Fin 4)) {k : Nat} (h : k < 4) : byteAt (orderPlaces l) k = ctxByte l[k]? := by
  simp [byteAt, orderPlaces, List.getD_eq_getElem?_getD, h]

/-- A place of an order of contexts in a reply's contents. -/
theorem byteAt_order {c : List Byte} {off : Nat} {l : List (Fin 4)} (slice : (c.drop off).take 4 = orderPlaces l) {k : Nat} (h : k < 4) :
    byteAt c (off + k) = ctxByte l[k]? := (byteAt_slice slice h).trans (byteAt_orderPlaces l h)

/-- STATUS with no check error in what it reads places its contents and changes nothing (R167). -/
theorem exec_status_answered {tag : Byte} {rest : List RxFrame} {s : State} (h : Taken ⟨0x02, tag, []⟩ rest s) (clean : Clean s) :
    ∃ t, exec (.status tag []) s = .next t ∧ AnsweredOnly ⟨0x02, tag, []⟩ rest .ok (statusContents (taken rest s)) s t := by
  obtain ⟨clear, list, ctxs⟩ := clean
  have unmarked : ((taken rest s).listBad || (taken rest s).ctxsBad) = false := Bool.or_eq_false_iff.mpr ⟨list, ctxs⟩
  refine reply_only (g := fun u => placeReply ⟨0x02, tag, []⟩ .ok (statusContents u) (markHit (u.listBad || u.ctxsBad) u)) .ok _ h rfl
    clear ?_
  show placeReply _ _ _ (markHit ((taken rest s).listBad || (taken rest s).ctxsBad) (taken rest s)) = _
  rw [unmarked, markHit_false]
  rfl

/-- Settles O25, from the table of the fields: each at its offset, and the sweeps behind them. -/
theorem statusReads : Obligations.StatusReads := by
  intro tag rest s h clean
  obtain ⟨t, run, answered⟩ := exec_status_answered h clean
  have slices := statusContents_slices (taken rest s)
  simp only [statusFields, List.forall_mem_cons] at slices
  obtain ⟨mode, head, accepted, duplicates, tooOld, fault, n, lock, a, engine, ctx0, ctx1, ctx2, ctx3, opens, openOrder, closes,
    closingOrder, emitter, receiver, requests, discards, notices, lost, listed, -⟩ := slices
  refine ⟨t, _, run, answered, statusContents_length (taken rest s), mode, fieldAt_slice head,
    fieldAt_slice_of_lt accepted s.ring.accepted.isLt, fieldAt_slice_of_lt duplicates s.ring.duplicates.isLt,
    fieldAt_slice_of_lt tooOld s.ring.tooOld.isLt, byteAt_slice_one fault, fieldAt_slice_of_lt n s.time.n.isLt, byteAt_slice_one lock,
    fieldAt_slice_of_lt a s.time.a.isLt, fun idle => engine.trans (statusEngine_idle idle),
    fun j running => engine.trans (statusEngine_running running), fun i => ?_, byteAt_slice_one opens, byteAt_slice_one closes,
    fun k place => ⟨(byteAt_order openOrder place).trans ?_, (byteAt_order closingOrder place).trans ?_⟩,
    fun idle => emitter.trans (statusEmitter_idle idle), fun cu sending => emitter.trans (statusEmitter_sending sending),
    byteAt_slice_one receiver, fieldAt_slice_of_lt requests (s.link.accepted + 1).isLt, fieldAt_slice discards, fieldAt_slice notices,
    fieldAt_slice lost, byteAt_slice_one listed, statusContents_sweeps (taken rest s)⟩
  · match i with
    | 0 => exact ctx0
    | 1 => exact ctx1
    | 2 => exact ctx2
    | 3 => exact ctx3
  · show ctxByte s.stack.openOrder[k]? = _
    cases s.stack.openOrder[k]? <;> rfl
  · show ctxByte s.emitter.closing[k]? = _
    cases s.emitter.closing[k]? <;> rfl

end Sys2Proof.Machine
end
